-- ==== Sys2Proof/Word.lean ====
section
/-! DEFINITION. The plain values of the papillon CORE block: bytes, words, binary64 values and
complex pairs (00_scope.md R9 to R12, 30_encoding.md R100 to R103). -/

namespace Sys2Proof

/-- One byte of a byte buffer (R9). -/
abbrev Byte := BitVec 8

/-- A 32-bit word: an operation word (R107) or a color word (R103). -/
abbrev Word := BitVec 32

/-- A binary64 value (R11, R102) as a value, not as a bit pattern: no operation of the block sees
the bits of a floating register (R102 "No floating value crosses an external interface"), and the
spec speaks of one NaN, so NaN is one value here.  A finite value is its sign, its biased exponent
`0 .. 2046` and its 52-bit fraction, the three fields of R102; every datum of this type is a
binary64 value and two data are equal exactly when they are the same value with the same sign of
zero. -/
inductive F64 where
  | nan
  | inf (neg : Bool)
  | fin (neg : Bool) (exp : Fin 2047) (frac : BitVec 52)
  deriving DecidableEq, Repr

/-- A complex value: a pair of binary64 values (R12). -/
structure Cplx where
  re : F64
  im : F64
  deriving DecidableEq, Repr

/-- `+0.0`. -/
def F64.zero : F64 := .fin false 0 0

/-- `-0.0`. -/
def F64.negZero : F64 := .fin true 0 0

end Sys2Proof
end

