-- ==== Sys2Proof/Config.lean ====
section
/-! DEFINITION. What is fixed for the block: its parameters (00_scope.md R7, 10_state.md R54), the
three configuration functions a model takes as arguments (R155, R193, R224), and the free value. -/

namespace Sys2Proof

/-- R7: `N`, the transform length and the number of samples per block. -/
def Config.n : Nat := 2048

/-- R7: `NB`, also `OUTLEN` (R54): the number of bins. -/
def Config.bins : Nat := 1025

/-- R7: `NTW`, the number of twiddle ROM entries. -/
def Config.twiddles : Nat := 1024

/-- R7: `LOG2N`, the number of butterfly stages. -/
def Config.stages : Nat := 11

/-- R7: `BLOCK_BYTES`. -/
def Config.blockBytes : Nat := 4096

/-- R7: the frame size in bytes. -/
def Config.frameBytes : Nat := 16

/-- R155: `FFT_IMPL`.  The default is the network of R148 to R154; a replacement is a function of
the 2048 inputs `X` alone, which gives bin `k` for every `k` in 0..1024. -/
inductive FftImpl where
  | network
  | replaced (f : List F64 → Nat → Cplx)

/-- The three configuration fields of the model (R155, R193, R224).  They are not state (R390).  What a
choice of them must satisfy is `Config.Admissible` (Machine/Logarithm.lean). -/
structure Config where
  /-- R155: `FFT_IMPL`. -/
  fft : FftImpl
  /-- R193: `LOG10_IMPL`. -/
  log10 : F64 → F64
  /-- R224: `LN_IMPL`. -/
  ln : F64 → F64

/-- FREE VALUE (log entry 9; R78, 93_implementation_defined.md row 4): how many bytes of a failed
frame write the device received, for the `n`-th such write.  Any prefix length 0..16 is admitted,
so nothing is known of it but its type. -/
opaque Config.freePrefix : Nat → Fin 17

end Sys2Proof
end

