-- ==== Sys2Proof/Machine/Float.lean ====
section
/-! DEFINITION. Binary64 arithmetic (00_scope.md R11): every operation computes its exact result as a
ratio of integers and rounds it once, to nearest, ties to even. -/

namespace Sys2Proof

/-- R102: the bias-free place of the last bit: every finite binary64 value is an integer number of
units of `2^-1074`. -/
def F64.unitExp : Nat := 1074

/-- The number of units `2^-1074` in the magnitude of a finite value with this biased exponent and
fraction (R102: bias 1023, 52 fraction bits, subnormal when the exponent is 0). -/
def F64.units (exp : Fin 2047) (frac : BitVec 52) : Nat :=
  if exp.val = 0 then frac.toNat else (2 ^ 52 + frac.toNat) * 2 ^ (exp.val - 1)

/-- The signed number of units of a finite value. -/
def F64.signed (neg : Bool) (exp : Fin 2047) (frac : BitVec 52) : Int :=
  if neg then -(F64.units exp frac : Int) else (F64.units exp frac : Int)

/-- The value whose exponent and fraction fields, read as one integer, are `n`; infinity from the
exponent code 2047 on (overflow, R11: roundTiesToEven). -/
def F64.pack (neg : Bool) (n : Nat) : F64 :=
  if h : n / 2 ^ 52 < 2047 then .fin neg ⟨n / 2 ^ 52, h⟩ (BitVec.ofNat 52 n) else .inf neg

/-- How many low bits of `k` units do not fit in 53 significant bits. -/
def F64.excess (k : Nat) : Nat := Nat.log2 k - 52

/-- The integer nearest to `u / d`, a tie to the even one. -/
def F64.nearest (u d : Nat) : Nat :=
  if d < 2 * (u % d) ∨ (2 * (u % d) = d ∧ u / d % 2 = 1) then u / d + 1 else u / d

/-- R11: `fl(q)` for the rational `q = n / d` (negated if `neg`): the binary64 value nearest to it,
ties to even.  The caller gives `d > 0`; `n = 0` gives the zero of that sign.
(Irreducible, like the root below, so that no proof evaluates it by accident.) -/
@[irreducible] def F64.ofRatio (neg : Bool) (n d : Nat) : F64 :=
  let u := n * 2 ^ F64.unitExp
  let e := F64.excess (u / d)
  F64.pack neg (e * 2 ^ 52 + F64.nearest u (d * 2 ^ e))

/-- The value of an integer, rounded (exact up to `2^53`, R11). -/
def F64.ofInt (z : Int) : F64 := F64.ofRatio (decide (z < 0)) z.natAbs 1

/-- The value of a natural number, rounded (exact up to `2^53`, R11). -/
def F64.ofNat (n : Nat) : F64 := F64.ofRatio false n 1

/-- The value of a signed number of units `2^-1074`, rounded; `neg` is the sign of a zero. -/
def F64.ofUnits (neg : Bool) (z : Int) : F64 :=
  F64.ofRatio (if z = 0 then neg else decide (z < 0)) z.natAbs (2 ^ F64.unitExp)

/-- Change of sign. -/
def F64.neg : F64 → F64
  | .nan => .nan
  | .inf s => .inf (!s)
  | .fin s e f => .fin (!s) e f

/-- R11: `a + b`.  An exact zero sum is `-0.0` only when both operands are negative. -/
def F64.add : F64 → F64 → F64
  | .nan, _ => .nan
  | _, .nan => .nan
  | .inf s, .inf t => if s = t then .inf s else .nan
  | .inf s, .fin _ _ _ => .inf s
  | .fin _ _ _, .inf t => .inf t
  | .fin s e f, .fin t g h => F64.ofUnits (s && t) (F64.signed s e f + F64.signed t g h)

/-- R11: `a - b`. -/
def F64.sub (a b : F64) : F64 := a.add b.neg

/-- The zero of a sign. -/
def F64.signedZero (neg : Bool) : F64 := .fin neg 0 0

/-- R11: `a * b`; infinity times zero is NaN. -/
def F64.mul : F64 → F64 → F64
  | .nan, _ => .nan
  | _, .nan => .nan
  | .inf s, .inf t => .inf (s ^^ t)
  | .inf s, .fin t g h => if F64.units g h = 0 then .nan else .inf (s ^^ t)
  | .fin s e f, .inf t => if F64.units e f = 0 then .nan else .inf (s ^^ t)
  | .fin s e f, .fin t g h =>
    F64.ofRatio (s ^^ t) (F64.units e f * F64.units g h) (2 ^ (2 * F64.unitExp))

/-- R11: `a / b`; `0 / 0` and infinity by infinity are NaN, any other division by zero an infinity. -/
def F64.div : F64 → F64 → F64
  | .nan, _ => .nan
  | _, .nan => .nan
  | .inf _, .inf _ => .nan
  | .inf s, .fin t _ _ => .inf (s ^^ t)
  | .fin s _ _, .inf t => F64.signedZero (s ^^ t)
  | .fin s e f, .fin t g h =>
    if F64.units g h = 0 then (if F64.units e f = 0 then .nan else .inf (s ^^ t))
    else F64.ofRatio (s ^^ t) (F64.units e f) (F64.units g h)

/-- The integer square root of `m`, found bit by bit below `2^b` on top of the part `r` found so
far. -/
def F64.rootBits (m : Nat) : Nat → Nat → Nat
  | 0, r => r
  | b + 1, r => if (r + 2 ^ b) * (r + 2 ^ b) ≤ m then F64.rootBits m b (r + 2 ^ b) else F64.rootBits m b r

/-- The integer nearest to `sqrt(m) / 2^e`, a tie to the even one; `sqrt(m) / 2^e < 2^53`. -/
def F64.nearestRoot (m e : Nat) : Nat :=
  let q := F64.rootBits (m / 4 ^ e) 53 0
  let mid := (2 * q + 1) * (2 * q + 1) * 4 ^ e
  if mid < 4 * m ∨ (mid = 4 * m ∧ q % 2 = 1) then q + 1 else q

/-- The rounded square root of `k` units: `sqrt(k * 2^-1074)` is `sqrt(k * 2^1074)` units. -/
@[irreducible] def F64.rootOfUnits (k : Nat) : F64 :=
  let m := k * 2 ^ F64.unitExp
  let e := Nat.log2 m / 2 - 52
  F64.pack false (e * 2 ^ 52 + F64.nearestRoot m e)

/-- R11: the IEEE 754 square root: NaN below zero, a zero of the same sign at a zero. -/
def F64.sqrt : F64 → F64
  | .nan => .nan
  | .inf s => if s then .nan else .inf false
  | .fin s e f =>
    if F64.units e f = 0 then F64.signedZero s
    else if s then .nan else F64.rootOfUnits (F64.units e f)

/-- R11: the ordered comparison `a < b`, false when an operand is NaN; the zeros compare equal. -/
def F64.lt : F64 → F64 → Bool
  | .nan, _ => false
  | _, .nan => false
  | .inf s, .inf t => s && !t
  | .inf s, .fin _ _ _ => s
  | .fin _ _ _, .inf t => !t
  | .fin s e f, .fin t g h => decide (F64.signed s e f < F64.signed t g h)

/-- R11: the ordered comparison `a > b`. -/
def F64.gt (a b : F64) : Bool := b.lt a

/-- R226: IEEE equality, true for the two zeros, false for NaN. -/
def F64.ieeeEq : F64 → F64 → Bool
  | .nan, _ => false
  | _, .nan => false
  | .inf s, .inf t => s == t
  | .inf _, .fin _ _ _ => false
  | .fin _ _ _, .inf _ => false
  | .fin s e f, .fin t g h => decide (F64.signed s e f = F64.signed t g h)

/-- The greatest integer not above a finite value; none for an infinity or NaN (R227, R233). -/
def F64.floorInt : F64 → Option Int
  | .nan => none
  | .inf _ => none
  | .fin s e f => some (F64.signed s e f / 2 ^ F64.unitExp)

/-- R233: `floor` as a binary64 value, with the sign of its operand. -/
def F64.floor : F64 → F64
  | .nan => .nan
  | .inf s => .inf s
  | .fin s e f => F64.ofRatio s (F64.signed s e f / 2 ^ F64.unitExp).natAbs 1

/-- R102: the 64-bit encoding, sign at bit 63, exponent [62:52], fraction [51:0].  NaN is written as
the quiet pattern with an empty payload (log entry 12). -/
def F64.toBits : F64 → BitVec 64
  | .nan => 0x7FF8000000000000
  | .inf s => BitVec.ofBool s ++ (0x7FF : BitVec 11) ++ (0 : BitVec 52)
  | .fin s e f => BitVec.ofBool s ++ BitVec.ofNat 11 e.val ++ f

/-- R102: the value that a 64-bit encoding stands for; every NaN pattern is the one NaN. -/
def F64.ofBits (b : BitVec 64) : F64 :=
  let e := (b.extractLsb' 52 11).toNat
  let f := b.extractLsb' 0 52
  if h : e < 2047 then .fin (b.getLsbD 63) ⟨e, h⟩ f
  else if f = 0 then .inf (b.getLsbD 63) else .nan

end Sys2Proof
end

