-- ==== Sys2Proof/Machine/Logarithm.lean ====
section
/-! DEFINITION. The default `LOG10_IMPL` and `LN_IMPL` (41_magnitude_db.md R193, 42_color_mapper.md
R224): the correctly rounded logarithms, computed from integer bounds on the exact value that are
narrowed until both ends round to the same binary64 value. -/

namespace Sys2Proof

/-- A lower bound, scaled by `2^p`, of the `t` terms from index `j` on of the series
`w + w^3/3 + w^5/5 + ...`, where `w` is the scaled power of index `j` and `z2` the scaled square. -/
def Logarithm.sumBelow (p z2 : Nat) : Nat → Nat → Nat → Nat
  | 0, _, _ => 0
  | t + 1, j, w => w / (2 * j + 1) + Logarithm.sumBelow p z2 t (j + 1) (w * z2 / 2 ^ p)

/-- An upper bound of the same series, all its terms after the last counted one included: for a
square at most 1/9 they sum to less than twice the next power. -/
def Logarithm.sumAbove (p z2 : Nat) : Nat → Nat → Nat → Nat
  | 0, _, w => 2 * w
  | t + 1, j, w => w / (2 * j + 1) + 1 + Logarithm.sumAbove p z2 t (j + 1) (w * z2 / 2 ^ p + 1)

/-- A lower bound of `artanh(n / d)`, scaled by `2^p`, for `3 * n <= d`. -/
def Logarithm.artanhBelow (p n d : Nat) : Nat :=
  Logarithm.sumBelow p (n * n * 2 ^ p / (d * d)) (p / 3 + 1) 0 (n * 2 ^ p / d)

/-- An upper bound of `artanh(n / d)`, scaled by `2^p`, for `3 * n <= d`. -/
def Logarithm.artanhAbove (p n d : Nat) : Nat :=
  Logarithm.sumAbove p (n * n * 2 ^ p / (d * d) + 1) (p / 3 + 1) 0 (n * 2 ^ p / d + 1)

/-- Integers `lo <= 2^p * ln(k / 2^1074) <= hi` for `k > 0`: with `k = m * 2^l` and `1 <= m < 2` the
logarithm is `(l - 1074) * ln 2 + 2 * artanh((m - 1) / (m + 1))`, and `ln 2 = 2 * artanh(1/3)`. -/
def Logarithm.lnBounds (p k : Nat) : Int × Int :=
  let l := Nat.log2 k
  let e : Int := (l : Int) - F64.unitExp
  let below := Logarithm.artanhBelow p (k - 2 ^ l) (k + 2 ^ l)
  let above := Logarithm.artanhAbove p (k - 2 ^ l) (k + 2 ^ l)
  let twoBelow := Logarithm.artanhBelow p 1 3
  let twoAbove := Logarithm.artanhAbove p 1 3
  (2 * below + 2 * (if e < 0 then e * twoAbove else e * twoBelow),
   2 * above + 2 * (if e < 0 then e * twoBelow else e * twoAbove))

/-- The binary64 value nearest to `n / d`. -/
def Logarithm.round (n : Int) (d : Nat) : F64 := F64.ofRatio (decide (n < 0)) n.natAbs d

/-- The natural logarithm of `k` units at `p` bits, if that settles its rounding. -/
def Logarithm.lnAt (p k : Nat) : Option F64 :=
  let b := Logarithm.lnBounds p k
  if Logarithm.round b.1 (2 ^ p) = Logarithm.round b.2 (2 ^ p)
  then some (Logarithm.round b.1 (2 ^ p)) else none

/-- The number of units of 10.0. -/
def Logarithm.tenUnits : Nat := 10 * 2 ^ F64.unitExp

/-- The base-10 logarithm of `k` units at `p` bits, as the quotient of the bounds of `ln k` and of
`ln 10`, if that settles its rounding. -/
def Logarithm.log10At (p k : Nat) : Option F64 :=
  let b := Logarithm.lnBounds p k
  let t := Logarithm.lnBounds p Logarithm.tenUnits
  let lo := Logarithm.round b.1 (if b.1 < 0 then t.1.natAbs else t.2.natAbs)
  let hi := Logarithm.round b.2 (if b.2 < 0 then t.2.natAbs else t.1.natAbs)
  if lo = hi then some lo else none

/-- The precisions tried in turn, in bits (log entry 11). -/
def Logarithm.precisions : List Nat := [192, 384, 768]

/-- The first settled value of a list of attempts. -/
def Logarithm.settle (f : Nat → Option F64) (otherwise : F64) : List Nat → F64
  | [] => otherwise
  | p :: ps => match f p with
    | some v => v
    | none => Logarithm.settle f otherwise ps

/-- The special values that R193 (L1, L2, L5) and R224 (N1, N2, N5) fix, and otherwise `f` of the
number of units of a positive operand.  PRESUMED (log entry 16, unsafe): the value at `-0.0`, which no
property of R193 or R224 names, is that at `+0.0`, minus infinity, as in IEEE 754 and C. -/
def Logarithm.withSpecials (f : Nat → F64) : F64 → F64
  | .nan => .nan
  | .inf s => if s then .nan else .inf false
  | .fin s e m =>
    if F64.units e m = 0 then .inf true
    else if s then .nan
    else if F64.units e m = 2 ^ F64.unitExp then F64.zero
    else f (F64.units e m)

/-- R224: the default `LN_IMPL`. -/
def Logarithm.ln : F64 → F64 :=
  Logarithm.withSpecials fun k =>
    Logarithm.settle (fun p => Logarithm.lnAt p k)
      (Logarithm.round (Logarithm.lnBounds 768 k).1 (2 ^ 768)) Logarithm.precisions

/-- R193: the default `LOG10_IMPL`. -/
def Logarithm.log10 : F64 → F64 :=
  Logarithm.withSpecials fun k =>
    Logarithm.settle (fun p => Logarithm.log10At p k)
      (Logarithm.round (Logarithm.lnBounds 768 k).1 (Logarithm.lnBounds 768 Logarithm.tenUnits).1.natAbs)
      Logarithm.precisions

/-- The configuration fields at their defaults (R155, R193, R224): what the machine runs with. -/
def Config.default : Config := ⟨.network, Logarithm.log10, Logarithm.ln⟩

/-! ### What any choice of the configuration fields must satisfy -/

namespace Machine

/-- A value that is at least `+0.0` in the order of R11 and is not `-0.0`. -/
def F64NonNegative : F64 → Prop
  | .nan => False
  | .inf neg => neg = false
  | .fin neg _ _ => neg = false

/-- The order of R11 on values that are not NaN. -/
def F64Le (x y : F64) : Prop := x ≠ .nan ∧ y ≠ .nan ∧ y.lt x = false

/-- Properties L3 and N3 (R193, R224): non-decreasing from `+0.0` to infinity. -/
def NonDecreasing (f : F64 → F64) : Prop :=
  ∀ x y, F64NonNegative x → F64NonNegative y → F64Le x y → F64Le (f x) (f y)

/-- The properties L1 to L5 (R193), which are also N1 to N5 (R224), in this order: what any choice of a
logarithm must satisfy and all that a claim may rest on. -/
def LogarithmLaws (f : F64 → F64) : Prop :=
  f F64.zero = .inf true ∧ f (F64.ofNat 1) = F64.zero ∧ NonDecreasing f ∧
  (∀ m : F64, (f m).gt F64.zero = true ↔ m.gt (F64.ofNat 1) = true) ∧
  (f .nan = .nan ∧ (∀ x : F64, x.lt F64.zero = true → f x = .nan) ∧ f (.inf false) = .inf false)

end Machine

/-- R155, R193, R224: the choices of the configuration fields that the spec admits.  Of `FFT_IMPL` it asks
a total function of `X` alone, which the type of `FftImpl` gives. -/
def Config.Admissible (c : Config) : Prop := Machine.LogarithmLaws c.log10 ∧ Machine.LogarithmLaws c.ln

end Sys2Proof
end

