-- ==== Sys2Proof/Syntax.lean ====
section
/-! DEFINITION. The 25 operations of the opcode map (30_encoding.md R109) and their operands. -/

namespace Sys2Proof

/-- The channel operand of `CHFIN` (R108: 0 red, 1 green, 2 blue). -/
inductive Channel where
  | red
  | green
  | blue
  deriving DecidableEq, Repr

/-- The color field operand of `UNPK` (R108: 0 blue, 1 green, 2 red, 3 alpha). -/
inductive Field where
  | blue
  | green
  | red
  | alpha
  deriving DecidableEq, Repr

/-- The frame role operand of `FBLD` and `FWR` (R108, R291: 0 setup, 1 content, 2 color-payload,
3 teardown). -/
inductive Role where
  | setup
  | content
  | payload
  | teardown
  deriving DecidableEq, Repr

/-- One constructor per row of the opcode map (R109).  Index operands are as wide as the operand
bits of the row's pattern (R110); the ranges that R109 narrows further are the business of
`Instr.wellFormed`. -/
inductive Instr where
  /-- R320: take one Block from the producer. -/
  | rdblk
  /-- R327: one whole analysis cycle. -/
  | cycle
  /-- R326: the step of the HALTED phase. -/
  | halt
  /-- R140: decode sample `i`. -/
  | decs (i : Fin 2048)
  /-- R142: decode and normalise sample `i`. -/
  | norm (i : Fin 2048)
  /-- R144: load the whole transform input. -/
  | ldx
  /-- R147: read twiddle `k`. -/
  | twrd (k : Fin 1024)
  /-- R148: load the working array in bit-reversed order. -/
  | brev
  /-- R151: one butterfly of stage `g` at position `p`. -/
  | bfly (g : Fin 16) (p : Fin 2048)
  /-- R152: all butterflies of stage `g`. -/
  | stage (g : Fin 16)
  /-- R154: the real-input transform. -/
  | rfft
  /-- R190: magnitude of bin `k`. -/
  | mag (k : Fin 2048)
  /-- R192: dB value of the last magnitude. -/
  | db
  /-- R194: the running maxima over all bins. -/
  | peak
  /-- R220: the "dominant frequency". -/
  | freq
  /-- R222: hue in degrees. -/
  | hue
  /-- R224: brightness. -/
  | bri
  /-- R228: the HSV unit with saturation 1.0. -/
  | hsv
  /-- R232: finalise one channel. -/
  | chfin (c : Channel)
  /-- R236: assemble the color word. -/
  | pack
  /-- R238: read one field of the color word. -/
  | unpk (f : Field)
  /-- R270: compare and latch. -/
  | gate
  /-- R294: build a frame. -/
  | fbld (r : Role)
  /-- R296: write the frame buffer to the sink. -/
  | fwr (r : Role)
  /-- R298: transmit the color. -/
  | tx
  deriving DecidableEq, Repr

end Sys2Proof
end

