-- ==== Sys2Proof/WellFormed.lean ====
section
/-! DEFINITION. The legal operand ranges of 30_encoding.md R109 that an operand's own type does not
already give: the column "legal when" for `BFLY`, `STAGE` and `MAG`. -/

namespace Sys2Proof

/-- R109: a stage number is in 1..11. -/
def stageLegal (g : Fin 16) : Bool := 1 ≤ g.val && g.val ≤ 11

/-- R109: `p` is in the first half of its group of stage `g`: `(p mod 2^s) < 2^(s-1)`. -/
def pairLegal (g : Fin 16) (p : Fin 2048) : Bool := p.val % 2 ^ g.val < 2 ^ (g.val - 1)

/-- The column "legal when" of R109. -/
def Instr.wellFormed : Instr → Bool
  | .rdblk => true
  | .cycle => true
  | .halt => true
  | .decs _ => true
  | .norm _ => true
  | .ldx => true
  | .twrd _ => true
  | .brev => true
  | .bfly g p => stageLegal g && pairLegal g p
  | .stage g => stageLegal g
  | .rfft => true
  | .mag k => k.val ≤ 1024
  | .db => true
  | .peak => true
  | .freq => true
  | .hue => true
  | .bri => true
  | .hsv => true
  | .chfin _ => true
  | .pack => true
  | .unpk _ => true
  | .gate => true
  | .fbld _ => true
  | .fwr _ => true
  | .tx => true

end Sys2Proof
end

