-- ==== Sys2Proof/Decode.lean ====
section
/-! DEFINITION. The operation word: its fields, its decoder, its encoder and the opcode table
(30_encoding.md R107 to R113). -/

namespace Sys2Proof

/-- Why a word is illegal: the three clauses of R112. -/
inductive Illegal where
  /-- R112 (a): the operation code is reserved. -/
  | reservedOpcode (opc : BitVec 8)
  /-- R112 (b): a bit that the row shows as 0 is 1. -/
  | fixedZeroSet
  /-- R112 (c): an operand is outside its legal range. -/
  | operandRange
  deriving DecidableEq, Repr

/-- R107: bits [31:24]. -/
def wordOpc (w : Word) : BitVec 8 := w.extractLsb' 24 8

/-- R107, R108: bits [23:20] as an unsigned integer. -/
def wordStg (w : Word) : Nat := (w.extractLsb' 20 4).toNat

/-- R107: bits [19:12], reserved, must be 0. -/
def wordRsv (w : Word) : Nat := (w.extractLsb' 12 8).toNat

/-- R107, R108: bits [11:0] as an unsigned integer. -/
def wordImm (w : Word) : Nat := (w.extractLsb' 0 12).toNat

/-- A row without operands: STG, the reserved bits and IMM are all 0 (R107). -/
def decodePlain (w : Word) (i : Instr) : Except Illegal Instr :=
  if wordStg w = 0 ∧ wordRsv w = 0 ∧ wordImm w = 0 then .ok i else .error .fixedZeroSet

/-- A row whose IMM holds an operand of `bits` bits (R110): STG, the reserved bits and the bits of
IMM above the operand must be 0, and then the operand decides. -/
def decodeImm (w : Word) (bits : Nat) (mk : Nat → Except Illegal Instr) : Except Illegal Instr :=
  if wordStg w = 0 ∧ wordRsv w = 0 ∧ wordImm w < 2 ^ bits then mk (wordImm w)
  else .error .fixedZeroSet

/-- An index operand, kept when it is below `n` (R109). -/
def indexOperand (n : Nat) (mk : Fin n → Instr) (v : Nat) : Except Illegal Instr :=
  if h : v < n then .ok (mk ⟨v, h⟩) else .error .operandRange

/-- R108: channel `c` (0 red, 1 green, 2 blue; 3 is out of range, R112 (c)). -/
def channelOperand (v : Nat) : Except Illegal Instr :=
  match v with
  | 0 => .ok (.chfin .red)
  | 1 => .ok (.chfin .green)
  | 2 => .ok (.chfin .blue)
  | _ => .error .operandRange

/-- R108: color field `f` (0 blue, 1 green, 2 red, 3 alpha). -/
def fieldOperand (v : Nat) : Except Illegal Instr :=
  match v with
  | 0 => .ok (.unpk .blue)
  | 1 => .ok (.unpk .green)
  | 2 => .ok (.unpk .red)
  | 3 => .ok (.unpk .alpha)
  | _ => .error .operandRange

/-- R108: frame role `r` (0 setup, 1 content, 2 color-payload, 3 teardown). -/
def roleOperand (mk : Role → Instr) (v : Nat) : Except Illegal Instr :=
  match v with
  | 0 => .ok (mk .setup)
  | 1 => .ok (mk .content)
  | 2 => .ok (mk .payload)
  | 3 => .ok (mk .teardown)
  | _ => .error .operandRange

/-- The last test of the decoder: the operand ranges of R109 (R112 (c)). -/
def legalOnly (i : Instr) : Except Illegal Instr :=
  if i.wellFormed then .ok i else .error .operandRange

/-- `BFLY` (R110): stage in STG, position in the low 11 bits of IMM. -/
def decodeBfly (w : Word) : Except Illegal Instr :=
  if h : wordStg w < 16 ∧ wordImm w < 2048 then
    if wordRsv w = 0 then legalOnly (.bfly ⟨wordStg w, h.1⟩ ⟨wordImm w, h.2⟩)
    else .error .fixedZeroSet
  else .error .fixedZeroSet

/-- `STAGE` (R110): stage in STG, IMM 0. -/
def decodeStage (w : Word) : Except Illegal Instr :=
  if h : wordStg w < 16 then
    if wordRsv w = 0 ∧ wordImm w = 0 then legalOnly (.stage ⟨wordStg w, h⟩)
    else .error .fixedZeroSet
  else .error .fixedZeroSet

/-- `MAG` (R110): 11 operand bits, of which R109 admits 0..1024. -/
def magOperand (v : Nat) : Except Illegal Instr :=
  if h : v < 2048 then legalOnly (.mag ⟨v, h⟩) else .error .operandRange

/-- The decoder (R109 to R112): total on all 32-bit words, refusing every illegal word with the
clause of R112 that it breaks. -/
def decode (w : Word) : Except Illegal Instr :=
  match (wordOpc w).toNat with
  | 0x01 => decodePlain w .rdblk
  | 0x02 => decodePlain w .cycle
  | 0x03 => decodePlain w .halt
  | 0x10 => decodeImm w 11 (indexOperand 2048 .decs)
  | 0x11 => decodeImm w 11 (indexOperand 2048 .norm)
  | 0x12 => decodePlain w .ldx
  | 0x13 => decodeImm w 10 (indexOperand 1024 .twrd)
  | 0x14 => decodePlain w .brev
  | 0x15 => decodeBfly w
  | 0x16 => decodeStage w
  | 0x17 => decodePlain w .rfft
  | 0x20 => decodeImm w 11 magOperand
  | 0x21 => decodePlain w .db
  | 0x22 => decodePlain w .peak
  | 0x30 => decodePlain w .freq
  | 0x31 => decodePlain w .hue
  | 0x32 => decodePlain w .bri
  | 0x33 => decodePlain w .hsv
  | 0x34 => decodeImm w 2 channelOperand
  | 0x35 => decodePlain w .pack
  | 0x36 => decodeImm w 2 fieldOperand
  | 0x40 => decodePlain w .gate
  | 0x50 => decodeImm w 2 (roleOperand .fbld)
  | 0x51 => decodeImm w 2 (roleOperand .fwr)
  | 0x52 => decodePlain w .tx
  | _ => .error (.reservedOpcode (wordOpc w))

/-- R107: the word with the given code, stage and operand; the reserved bits are 0. -/
def opWord (opc stg imm : Nat) : Word := BitVec.ofNat 32 (opc * 2 ^ 24 + stg * 2 ^ 20 + imm)

/-- R108: the number of a channel. -/
def Channel.code : Channel → Nat
  | .red => 0
  | .green => 1
  | .blue => 2

/-- R108: the number of a color field. -/
def Field.code : Field → Nat
  | .blue => 0
  | .green => 1
  | .red => 2
  | .alpha => 3

/-- R291: the number of a frame role, its place in the write order. -/
def Role.code : Role → Nat
  | .setup => 0
  | .content => 1
  | .payload => 2
  | .teardown => 3

/-- The encoder, written from the same table (R109, R110). -/
def encode : Instr → Word
  | .rdblk => opWord 0x01 0 0
  | .cycle => opWord 0x02 0 0
  | .halt => opWord 0x03 0 0
  | .decs i => opWord 0x10 0 i.val
  | .norm i => opWord 0x11 0 i.val
  | .ldx => opWord 0x12 0 0
  | .twrd k => opWord 0x13 0 k.val
  | .brev => opWord 0x14 0 0
  | .bfly g p => opWord 0x15 g.val p.val
  | .stage g => opWord 0x16 g.val 0
  | .rfft => opWord 0x17 0 0
  | .mag k => opWord 0x20 0 k.val
  | .db => opWord 0x21 0 0
  | .peak => opWord 0x22 0 0
  | .freq => opWord 0x30 0 0
  | .hue => opWord 0x31 0 0
  | .bri => opWord 0x32 0 0
  | .hsv => opWord 0x33 0 0
  | .chfin c => opWord 0x34 0 c.code
  | .pack => opWord 0x35 0 0
  | .unpk f => opWord 0x36 0 f.code
  | .gate => opWord 0x40 0 0
  | .fbld r => opWord 0x50 0 r.code
  | .fwr r => opWord 0x51 0 r.code
  | .tx => opWord 0x52 0 0

/-- The mask and match values of the opcode table's rows, in the table's order (R110: "its `mask`
has a 1 for every `0`/`1` position of the pattern and its `match` holds those bits' values"). -/
def opcodeRows : List (Word × Word) :=
  [(0xFFFFFFFF, 0x01000000), (0xFFFFFFFF, 0x02000000), (0xFFFFFFFF, 0x03000000),
   (0xFFFFF800, 0x10000000), (0xFFFFF800, 0x11000000), (0xFFFFFFFF, 0x12000000),
   (0xFFFFFC00, 0x13000000), (0xFFFFFFFF, 0x14000000), (0xFF0FF800, 0x15000000),
   (0xFF0FFFFF, 0x16000000), (0xFFFFFFFF, 0x17000000), (0xFFFFF800, 0x20000000),
   (0xFFFFFFFF, 0x21000000), (0xFFFFFFFF, 0x22000000)] ++
  [(0xFFFFFFFF, 0x30000000), (0xFFFFFFFF, 0x31000000), (0xFFFFFFFF, 0x32000000),
   (0xFFFFFFFF, 0x33000000), (0xFFFFFFFC, 0x34000000), (0xFFFFFFFF, 0x35000000),
   (0xFFFFFFFC, 0x36000000), (0xFFFFFFFF, 0x40000000), (0xFFFFFFFC, 0x50000000),
   (0xFFFFFFFC, 0x51000000), (0xFFFFFFFF, 0x52000000)]

/-- A word matches a row when it agrees with it on every fixed bit (R110). -/
def rowMatches (w : Word) (row : Word × Word) : Bool := w &&& row.1 == row.2

/-- The host's view of the decoder: the operation that an operation word with the bits `w` names.
Every operation word is one 32-bit word (R107), so bits above the row's `nbits` are 0. -/
def decodeTableWord (nbits w : Nat) : Option Instr :=
  if nbits ≤ 32 ∧ w < 2 ^ nbits then
    match decode (BitVec.ofNat 32 w) with
    | .ok i => some i
    | .error _ => none
  else none

end Sys2Proof
end

