-- ==== Sys2Proof/Machine/State.lean ====
section
/-! DEFINITION. The state of the block (10_state.md R30 to R57), of its two interfaces
(60_exceptions.md R372, R374) and of the device model (44_transmitter.md R301), all plain data; and
the reasons a step can stop (60_exceptions.md R362). -/

namespace Sys2Proof.Machine

/-- R31: the values of the sequencer phase register `PHASE`. -/
inductive Phase where
  | idle
  | load
  | fft
  | peak
  | map
  | gate
  | tx
  | halted
  deriving DecidableEq, Repr

/-- R31: the 3-bit code of a phase. -/
def Phase.code : Phase → BitVec 3
  | .idle => 0
  | .load => 1
  | .fft => 2
  | .peak => 3
  | .map => 4
  | .gate => 5
  | .tx => 6
  | .halted => 7

/-- A register whose reset value the spec leaves "unspecified: no value" (R55, R390): the value it
holds, and whether an operation has written it since reset.  A read of one that is not written
records the model fault `UNWRITTEN_READ` (R362) and goes on with the value it holds (log entries 1
and 23). -/
structure Reg (α : Type) where
  value : α
  written : Bool
  deriving DecidableEq, Repr

/-- A register no operation has written since reset. -/
def Reg.unwritten {α : Type} (v : α) : Reg α := ⟨v, false⟩

/-- A register just written. -/
def Reg.put {α : Type} (v : α) : Reg α := ⟨v, true⟩

/-- An index space of R70 (a byte buffer or an element buffer): the written elements, by rising
index.  An index that is not listed has no value (R55, R390). -/
abbrev Memory (α : Type) := List (Nat × α)

/-- The indices of a list rise strictly from above `lo`, and stay below `size`. -/
def Memory.rising {α : Type} (size : Nat) : Nat → Memory α → Bool
  | _, [] => true
  | lo, (i, _) :: rest => lo ≤ i && i < size && Memory.rising size (i + 1) rest

/-- The canonical form of an index space of `size` elements: strictly rising indices, all in range.
(An unlisted element has no value, so no entry can equal one.) -/
def Memory.wf {α : Type} (size : Nat) (m : Memory α) : Bool := Memory.rising size 0 m

/-- The state elements that `UNWRITTEN_READ` can name (R55, R362). -/
inductive Elem where
  | blk
  | x
  | a
  | s
  | fbuf
  | smp
  | twv
  | magv
  | dbv
  | magMax
  | dbMax
  | domFreq
  | hue
  | bri
  | rf
  | gf
  | bf
  | r8
  | g8
  | b8
  | color
  deriving DecidableEq, Repr

/-- The producer's answer to a block request (R372).  A read that ends with fewer than 4096 bytes is
an end of input whose bytes are discarded (R321), so the leftover bytes are part of that answer. -/
inductive Delivery where
  | block (bytes : Vector Byte 4096)
  | endOfInput (leftover : List Byte)
  deriving DecidableEq, Repr

/-- The sink's answer to a frame write (R295, R374): a count in 0..16, or `ERR`. -/
inductive SinkAnswer where
  | count (n : Fin 17)
  | err
  deriving DecidableEq, Repr

/-- What the block is waiting for (R361, R368, R372, R374): the producer's answer to a block
request, the sink's answer to a lone `FWR` of a role, or its answer to the frame of a role within
`TX`. -/
inductive Wait where
  | block
  | frame (r : Role)
  | transmission (r : Role)
  deriving DecidableEq, Repr

/-- The events at the two interfaces, as an observer sees them (R329, R367). -/
inductive Event where
  /-- The producer answered a block request (R372). -/
  | read (d : Delivery)
  /-- The sink answered a frame write; `delivered` bytes of the frame reached the device (R78). -/
  | write (frame : List Byte) (answer : SinkAnswer) (delivered : Fin 17)
  /-- Reset came while the sink had not answered this frame (R391). -/
  | abandoned (frame : List Byte) (delivered : Fin 17)
  deriving DecidableEq, Repr

/-- The model faults of R362, raised by the operations its rules name.  As the outcome of a step one is
safe: the machine stops where the spec says that a model records a fault, and there is no next state.
`UNWRITTEN_READ` on a register is no outcome but a record in `State.faultLog` (log entry 23). -/
inductive Fault where
  /-- `UNWRITTEN_READ` (R55, R362, R390: "a model holds the element as unwritten and faults
  `UNWRITTEN_READ` on a read before a write"): raised by every operation that reads state, as its rule says.
  It names the operation word and the element's name and index (0 for a register).  The machine stops
  with it only on an element of `BLK`, `X`, `A`, `S` or `FBUF`, which has no value (safe); on a
  register it is recorded and the operation goes on. -/
  | unwrittenRead (op : Word) (elem : Elem) (index : Nat)
  /-- `HUE_DOMAIN`: raised by `HSV` for a hue that is NaN, infinite or out of range (R227).  It
  records the operation word and the hue. -/
  | hueDomain (op : Word) (hue : F64)
  /-- `BYTE_DOMAIN`: raised by `CHFIN` for a clamp result that is no channel value (R234); the
  default clamp never gives one.  It records the operation word and the value. -/
  | byteDomain (op : Word) (value : F64)
  deriving DecidableEq, Repr

/-- Why the machine refuses an operation.  Both are safe: the machine stops. -/
inductive Refusal where
  /-- Raised by an arm of `exec` whose instruction has no meaning yet; no arm raises it now. -/
  | notModelled (mnemonic : String)
  /-- `ILLEGAL_OP`: raised by the decoder for an illegal operation word (R112, R362), which is
  recorded, before any state changes. -/
  | illegalOp (word : Word)
  deriving DecidableEq, Repr

/-- The whole state. -/
structure State where
  /-- `PHASE` (R31). -/
  phase : Phase
  /-- The place within the operations of phase `MAP` (R32, R323; log entry 2). -/
  pos : Fin 8
  /-- `BLK[0..4095]`, the capture buffer (R33). -/
  blk : Memory Byte
  /-- `X[0..2047]`, the transform input (R34). -/
  xBuf : Memory F64
  /-- `A[0..2047]`, the working array of the butterfly network (R35). -/
  aBuf : Memory Cplx
  /-- `S[0..1024]`, the spectrum (R36). -/
  sBuf : Memory Cplx
  /-- `FBUF[0..15]`, the frame buffer (R39). -/
  fbuf : Memory Byte
  /-- `SMP`, the signed sample register (R40). -/
  smp : Reg (BitVec 16)
  /-- `TWV`, the last twiddle read (R41). -/
  twv : Reg Cplx
  /-- `MAGV` (R42). -/
  magv : Reg F64
  /-- `DBV` (R42). -/
  dbv : Reg F64
  /-- `MAG_MAX` (R43). -/
  magMax : Reg F64
  /-- `DB_MAX` (R43). -/
  dbMax : Reg F64
  /-- `DOM_FREQ` (R44). -/
  domFreq : Reg F64
  /-- `HUE` (R44). -/
  hue : Reg F64
  /-- `BRI` (R44). -/
  bri : Reg F64
  /-- `RF` (R45). -/
  rf : Reg F64
  /-- `GF` (R45). -/
  gf : Reg F64
  /-- `BF` (R45). -/
  bf : Reg F64
  /-- `R8` (R46). -/
  r8 : Reg Byte
  /-- `G8` (R46). -/
  g8 : Reg Byte
  /-- `B8` (R46). -/
  b8 : Reg Byte
  /-- `COLOR` (R47). -/
  color : Reg Word
  /-- `FLD` (R48). -/
  fld : Reg Byte
  /-- `PREV_COLOR` (R49). -/
  prevColor : Word
  /-- `GATE_SEND` (R50). -/
  gateSend : Bool
  /-- `WR_OK` (R51). -/
  wrOk : Bool
  /-- `TX_STATUS` (R52). -/
  txStatus : BitVec 2
  /-- `TX_FAIL_IDX` (R52). -/
  txFailIdx : BitVec 2
  /-- The request or offer the block has made and that is not answered yet (R368, R372, R374). -/
  waiting : Option Wait
  /-- The producer's answers that the block has not taken yet, next first (R57, R372; log entry 3). -/
  producer : List Delivery
  /-- The sink's answers that the block has not taken yet, next first (R374; log entry 3). -/
  sink : List SinkAnswer
  /-- A single operation named by a test, to be applied next (R107, R360; log entry 4). -/
  opReq : Option Word
  /-- The host applies reset at the next step boundary (R375, R391). -/
  resetReq : Bool
  /-- The operation words issued, oldest first (R107, R328, R367). -/
  trace : List Word
  /-- The events at the two interfaces, oldest first (R329, R367). -/
  events : List Event
  /-- The model faults recorded by operations that went on, oldest first, never cleared (R362, D25; log
  entry 23). -/
  faultLog : List Fault
  /-- `DEV_COLOR` of the device model (R56, R301). -/
  devColor : Word
  /-- `DEV_INDET` of the device model (R56, R301). -/
  devIndet : Bool
  /-- MODEL'S OWN (log entry 9): how many free values have been drawn. -/
  draws : Nat
  deriving DecidableEq, Repr

/-- The state right after power-on reset (R390, R391): every buffer and every "no value" register is
unwritten, the gate is at black.  What the spec does not fix is named in the log: the value an
unwritten register holds (entry 1), and the interface, record and device fields (entries 3, 4, 6, 20
and 23). -/
def State.reset : State where
  phase := .idle
  pos := 0
  blk := []
  xBuf := []
  aBuf := []
  sBuf := []
  fbuf := []
  smp := Reg.unwritten 0
  twv := Reg.unwritten ⟨F64.zero, F64.zero⟩
  magv := Reg.unwritten F64.zero
  dbv := Reg.unwritten F64.zero
  magMax := Reg.unwritten F64.zero
  dbMax := Reg.unwritten F64.zero
  domFreq := Reg.unwritten F64.zero
  hue := Reg.unwritten F64.zero
  bri := Reg.unwritten F64.zero
  rf := Reg.unwritten F64.zero
  gf := Reg.unwritten F64.zero
  bf := Reg.unwritten F64.zero
  r8 := Reg.unwritten 0
  g8 := Reg.unwritten 0
  b8 := Reg.unwritten 0
  color := Reg.unwritten 0
  fld := Reg.unwritten 0
  prevColor := 0x00000000
  gateSend := false
  wrOk := false
  txStatus := 0
  txFailIdx := 0
  waiting := none
  producer := []
  sink := []
  opReq := none
  resetReq := false
  trace := []
  events := []
  faultLog := []
  devColor := 0
  devIndet := true
  draws := 0

end Sys2Proof.Machine
end

