-- ==== Sys2Proof/Machine/Ops.lean ====
section
/-! DEFINITION. The named operations over memory, registers and the two interfaces, which the
meanings share: reads of unwritten state and their faults (60_exceptions.md R362), writes, loops, the
block's one way of taking a condition (R355), and reset (70_reset_and_hazards.md R391). -/

namespace Sys2Proof.Machine

/-- The result of an operation inside the machine: a state, or a model fault. -/
abbrev Res := Except Fault State

/-- The outcome of a meaning. -/
def Res.outcome : Res → Host.Outcome State Fault Refusal
  | .ok s => .next s
  | .error f => .fault f

/-! ### Index spaces (R70) -/

/-- The value of element `i`, if it has one. -/
def Memory.read {α : Type} : Memory α → Nat → Option α
  | [], _ => none
  | (j, v) :: rest, i => if j = i then some v else Memory.read rest i

/-- Write element `i`, keeping the indices in rising order. -/
def Memory.write {α : Type} : Memory α → Nat → α → Memory α
  | [], i, v => [(i, v)]
  | (j, w) :: rest, i, v =>
    if i < j then (i, v) :: (j, w) :: rest
    else if i = j then (i, v) :: rest
    else (j, w) :: Memory.write rest i v

/-- The elements of a list at the indices `from`, `from + 1`, ... -/
def Memory.fillFrom {α : Type} : Nat → List α → Memory α
  | _, [] => []
  | i, v :: rest => (i, v) :: Memory.fillFrom (i + 1) rest

/-- A whole index space written from a list, element 0 first. -/
def Memory.fill {α : Type} (l : List α) : Memory α := Memory.fillFrom 0 l

/-- A read of element `i` of the space named `e`, for the operation word `op`.  An element that is not
written has no value, and the read faults (R55, R362, R390; rows 8 and 9 of
93_implementation_defined.md). -/
def Memory.fetch {α : Type} (m : Memory α) (op : Word) (e : Elem) (i : Nat) : Except Fault α :=
  match m.read i with
  | some v => .ok v
  | none => .error (.unwrittenRead op e i)

/-- Reads of several elements in the order of the index list, the first unwritten one faulting. -/
def Memory.fetchAll {α : Type} (m : Memory α) (op : Word) (e : Elem) : List Nat → Except Fault (List α)
  | [] => .ok []
  | i :: rest =>
    match m.fetch op e i with
    | .error f => .error f
    | .ok v =>
      match Memory.fetchAll m op e rest with
      | .error f => .error f
      | .ok vs => .ok (v :: vs)

/-- Every element of a space of `size` elements has a value. -/
def Memory.full {α : Type} (size : Nat) (m : Memory α) : Bool :=
  (List.range size).all fun i => (m.read i).isSome

/-! ### Registers -/

/-- R362: what the operation word `op` records when it reads the given registers, each with the mark
whether it is written: one `UNWRITTEN_READ` for each that is not, in the order of the reads. -/
def unwrittenReads (op : Word) : List (Elem × Bool) → List Fault
  | [] => []
  | (e, written) :: rest =>
    if written then unwrittenReads op rest else .unwrittenRead op e 0 :: unwrittenReads op rest

/-- R362, D25: reads of registers by the operation word `op`.  An unwritten one is recorded, and the
operation goes on with the values the registers hold (DESIGN CHOICE, log entries 1 and 23, unsafe). -/
def State.noteReads (s : State) (op : Word) (sources : List (Elem × Bool)) : State :=
  { s with faultLog := s.faultLog ++ unwrittenReads op sources }

/-! ### Writes to the element buffers (each written only by the operations of R55) -/

/-- R34: `X[i] <- v`. -/
def State.writeX (s : State) (i : Nat) (v : F64) : State := { s with xBuf := s.xBuf.write i v }

/-- R35: `A[i] <- z`. -/
def State.writeA (s : State) (i : Nat) (z : Cplx) : State := { s with aBuf := s.aBuf.write i z }

/-- R36: `S[k] <- z`. -/
def State.writeS (s : State) (k : Nat) (z : Cplx) : State := { s with sBuf := s.sBuf.write k z }

/-- R39: `FBUF <- f`, all 16 bytes at once. -/
def State.writeFrame (s : State) (f : List Byte) : State := { s with fbuf := Memory.fill f }

/-! ### Loops -/

/-- The loop of the spec's pseudocode: the body for each index in the order of the list, the first
fault ending it. -/
def forEach (body : Nat → State → Res) : List Nat → State → Res
  | [], s => .ok s
  | i :: rest, s =>
    match body i s with
    | .error f => .error f
    | .ok t => forEach body rest t

/-- One operation after another, the first fault ending it. -/
def Res.andThen (r : Res) (next : State → Res) : Res :=
  match r with
  | .error f => .error f
  | .ok s => next s

/-! ### The two interfaces (R372, R374) -/

/-- R372: the producer's answer to `AwaitBlock()`, as the block sees it. -/
def State.deliveryTaken (s : State) (d : Delivery) (rest : List Delivery) : State :=
  { s with producer := rest, waiting := none, events := s.events ++ [.read d] }

/-- R78, R297: how many bytes of an answered frame the device received: all 16 of a successful
write, an unknown number (a free value) of a failed one. -/
def deliveredBytes (answer : SinkAnswer) (draw : Nat) : Fin 17 :=
  if answer = .count 16 then 16 else Config.freePrefix draw

/-- R295, R374: `DevWrite(f)` answered with `answer`. -/
def State.frameAnswered (s : State) (f : List Byte) (answer : SinkAnswer) (rest : List SinkAnswer) :
    State :=
  { s with
    sink := rest
    waiting := none
    events := s.events ++ [.write f answer (deliveredBytes answer s.draws)]
    draws := if answer = .count 16 then s.draws else s.draws + 1 }

/-- R361: the block has made the request or offer `w`, and it is not answered. -/
def State.await (s : State) (w : Wait) : State := { s with waiting := some w }

/-- Host action (R375): the producer has one more answer. -/
def State.deliver (s : State) (d : Delivery) : State := { s with producer := s.producer ++ [d] }

/-- Host action (R375): the sink has one more answer. -/
def State.answer (s : State) (a : SinkAnswer) : State := { s with sink := s.sink ++ [a] }

/-- Host action (R375, R391): reset at the next step boundary. -/
def State.requestReset (s : State) : State := { s with resetReq := true }

/-! ### The block's conditions (R351): no trap, no saved pc, no handler (R350, R355) -/

/-- R52, R354: the `TX_STATUS` code of "no transmission in this cycle". -/
def txNone : BitVec 2 := 0

/-- R52, R354: the `TX_STATUS` code of "all four frames written". -/
def txOk : BitVec 2 := 1

/-- R52, R354: the `TX_STATUS` code of "a write failed". -/
def txFail : BitVec 2 := 2

/-- R355: taking the condition "capture exhaustion": the state is unchanged except `PHASE = HALTED`. -/
def State.takeEndOfInput (s : State) : State := { s with phase := .halted }

/-- R298, R355: taking the condition "transmission failure" at frame `r`: `TX_STATUS = FAIL` and
`TX_FAIL_IDX = r`; the device model's state is no longer known (R301). -/
def State.takeTransmissionFailure (s : State) (r : Role) : State :=
  { s with txStatus := txFail, txFailIdx := BitVec.ofNat 2 r.code, devIndet := true }

/-- R298: the end of a transmission whose four writes succeeded; the device shows `COLOR` (R301). -/
def State.completeTransmission (s : State) : State :=
  { s with txStatus := txOk, txFailIdx := 0, devColor := s.color.value, devIndet := false }

/-- R320, R356: a Block is taken: the status registers are cleared and the per-cycle buffers lose
their values. -/
def State.beginCycle (s : State) (bytes : List Byte) : State :=
  { s with
    blk := Memory.fill bytes
    xBuf := []
    aBuf := []
    sBuf := []
    fbuf := []
    txStatus := txNone
    txFailIdx := 0
    phase := .load }

/-! ### Reset (R390, R391) -/

/-- R391: what a reset leaves at the sink: a frame that was offered and not answered is abandoned. -/
def State.abandonedFrame (s : State) : List Event :=
  match s.waiting with
  | none => []
  | some .block => []
  | some (.frame _) => [.abandoned (s.fbuf.map (·.2)) (Config.freePrefix s.draws)]
  | some (.transmission _) => [.abandoned (s.fbuf.map (·.2)) (Config.freePrefix s.draws)]

/-- R391: whether a reset interrupts a frame write. -/
def State.offering (s : State) : Bool :=
  match s.waiting with
  | none => false
  | some .block => false
  | some (.frame _) => true
  | some (.transmission _) => true

/-- R390 to R392: the reset event.  The block's own state takes its reset values; the streams, the
record of what was observed, the recorded model faults ("never cleared", D25) and the device model are
not the block's and stay, but a frame write that reset interrupts leaves the device indeterminate
(R391). -/
def State.applyReset (s : State) : State :=
  { State.reset with
    producer := s.producer
    sink := s.sink
    trace := s.trace
    events := s.events ++ s.abandonedFrame
    faultLog := s.faultLog
    devColor := s.devColor
    devIndet := s.devIndet || s.offering
    draws := if s.offering then s.draws + 1 else s.draws }

end Sys2Proof.Machine
end

