-- ==== Sys2Proof/Machine/Rom.lean ====
section
/-! DEFINITION. The two ROMs: the twiddle ROM (40_fft.md R146) and the frame ROM (44_transmitter.md
R290).  They are constants; no operation writes them (R37, R38, R401). -/

namespace Sys2Proof

/-- `fl(cos(2*pi*k/2048))` for `k` from 0 to 31, as encodings (R102). -/
def Rom.cosine0 : List Nat :=
  [0x3FF0000000000000, 0x3FEFFFF621621D02, 0x3FEFFFD8858E8A92, 0x3FEFFFA72C978C4F,
   0x3FEFFF62169B92DB, 0x3FEFFF0943C53BD1, 0x3FEFFE9CB44B51A1, 0x3FEFFE1C6870CB77,
   0x3FEFFD886084CD0D, 0x3FEFFCE09CE2A679, 0x3FEFFC251DF1D3F8, 0x3FEFFB55E425FDAE,
   0x3FEFFA72EFFEF75D, 0x3FEFF97C4208C014, 0x3FEFF871DADB81DF, 0x3FEFF753BB1B9164,
   0x3FEFF621E3796D7E, 0x3FEFF4DC54B1BED3, 0x3FEFF3830F8D575C, 0x3FEFF21614E131ED,
   0x3FEFF095658E71AD, 0x3FEFEF0102826191, 0x3FEFED58ECB673C4, 0x3FEFEB9D2530410F,
   0x3FEFE9CDAD01883A, 0x3FEFE7EA85482D60, 0x3FEFE5F3AF2E3940, 0x3FEFE3E92BE9D886,
   0x3FEFE1CAFCBD5B09, 0x3FEFDF9922F73307, 0x3FEFDD539FF1F456, 0x3FEFDAFA7514538C]

/-- `fl(cos(2*pi*k/2048))` for `k` from 32 to 63, as encodings (R102). -/
def Rom.cosine1 : List Nat :=
  [0x3FEFD88DA3D12526, 0x3FEFD60D2DA75C9E, 0x3FEFD37914220B84, 0x3FEFD0D158D86087,
   0x3FEFCE15FD6DA67B, 0x3FEFCB4703914354, 0x3FEFC8646CFEB721, 0x3FEFC56E3B7D9AF6,
   0x3FEFC26470E19FD3, 0x3FEFBF470F0A8D88, 0x3FEFBC1617E44186, 0x3FEFB8D18D66ADB7,
   0x3FEFB5797195D741, 0x3FEFB20DC681D54D, 0x3FEFAE8E8E46CFBB, 0x3FEFAAFBCB0CFDDC,
   0x3FEFA7557F08A517, 0x3FEFA39BAC7A1791, 0x3FEF9FCE55ADB2C8, 0x3FEF9BED7CFBDE29,
   0x3FEF97F924C9099B, 0x3FEF93F14F85AC08, 0x3FEF8FD5FFAE41DB, 0x3FEF8BA737CB4B78,
   0x3FEF8764FA714BA9, 0x3FEF830F4A40C60C, 0x3FEF7EA629E63D6E, 0x3FEF7A299C1A322A,
   0x3FEF7599A3A12077, 0x3FEF70F6434B7EB7, 0x3FEF6C3F7DF5BBB7, 0x3FEF677556883CEE]

/-- `fl(cos(2*pi*k/2048))` for `k` from 64 to 95, as encodings (R102). -/
def Rom.cosine2 : List Nat :=
  [0x3FEF6297CFF75CB0, 0x3FEF5DA6ED43685D, 0x3FEF58A2B1789E84, 0x3FEF538B1FAF2D07,
   0x3FEF4E603B0B2F2D, 0x3FEF492206BCABB4, 0x3FEF43D085FF92DD, 0x3FEF3E6BBC1BBC65,
   0x3FEF38F3AC64E589, 0x3FEF33685A3AAEF0, 0x3FEF2DC9C9089A9D, 0x3FEF2817FC4609CE,
   0x3FEF2252F7763ADA, 0x3FEF1C7ABE284708, 0x3FEF168F53F7205D, 0x3FEF1090BC898F5F,
   0x3FEF0A7EFB9230D7, 0x3FEF045A14CF738C, 0x3FEEFE220C0B95EC, 0x3FEEF7D6E51CA3C0,
   0x3FEEF178A3E473C2, 0x3FEEEB074C50A544, 0x3FEEE482E25A9DBC, 0x3FEEDDEB6A078651,
   0x3FEED740E7684963, 0x3FEED0835E999009, 0x3FEEC9B2D3C3BF84, 0x3FEEC2CF4B1AF6B2,
   0x3FEEBBD8C8DF0B74, 0x3FEEB4CF515B8811, 0x3FEEADB2E8E7A88E, 0x3FEEA68393E65800]

/-- `fl(cos(2*pi*k/2048))` for `k` from 96 to 127, as encodings (R102). -/
def Rom.cosine3 : List Nat :=
  [0x3FEE9F4156C62DDA, 0x3FEE97EC36016B30, 0x3FEE9084361DF7F2, 0x3FEE89095BAD6025,
   0x3FEE817BAB4CD10D, 0x3FEE79DB29A5165A, 0x3FEE7227DB6A9744, 0x3FEE6A61C55D53A7,
   0x3FEE6288EC48E112, 0x3FEE5A9D550467D3, 0x3FEE529F04729FFC, 0x3FEE4A8DFF81CE5E,
   0x3FEE426A4B2BC17E, 0x3FEE3A33EC75CE85, 0x3FEE31EAE870CE25, 0x3FEE298F4439197A,
   0x3FEE212104F686E5, 0x3FEE18A02FDC66D9, 0x3FEE100CCA2980AC, 0x3FEE0766D9280F54,
   0x3FEDFEAE622DBE2B, 0x3FEDF5E36A9BA59C, 0x3FEDED05F7DE47DA, 0x3FEDE4160F6D8D81,
   0x3FEDDB13B6CCC23C, 0x3FEDD1FEF38A915A, 0x3FEDC8D7CB410260, 0x3FEDBF9E4395759A,
   0x3FEDB6526238A09B, 0x3FEDACF42CE68AB9, 0x3FEDA383A9668988, 0x3FED9A00DD8B3D46]

/-- `fl(cos(2*pi*k/2048))` for `k` from 128 to 159, as encodings (R102). -/
def Rom.cosine4 : List Nat :=
  [0x3FED906BCF328D46, 0x3FED86C48445A44F, 0x3FED7D0B02B8ECF9, 0x3FED733F508C0DFF,
   0x3FED696173C9E68B, 0x3FED5F7172888A7F, 0x3FED556F52E93EB1, 0x3FED4B5B1B187524,
   0x3FED4134D14DC93A, 0x3FED36FC7BCBFBDC, 0x3FED2CB220E0EF9F, 0x3FED2255C6E5A4E1,
   0x3FED17E7743E35DC, 0x3FED0D672F59D2B9, 0x3FED02D4FEB2BD92, 0x3FECF830E8CE467B,
   0x3FECED7AF43CC773, 0x3FECE2B32799A060, 0x3FECD7D9898B32F6, 0x3FECCCEE20C2DEA0,
   0x3FECC1F0F3FCFC5C, 0x3FECB6E20A00DA99, 0x3FECABC169A0B900, 0x3FECA08F19B9C449,
   0x3FEC954B213411F5, 0x3FEC89F587029C13, 0x3FEC7E8E52233CF3, 0x3FEC7315899EAAD7,
   0x3FEC678B3488739B, 0x3FEC5BEF59FEF85A, 0x3FEC5042012B6907, 0x3FEC44833141C004]

/-- `fl(cos(2*pi*k/2048))` for `k` from 160 to 191, as encodings (R102). -/
def Rom.cosine5 : List Nat :=
  [0x3FEC38B2F180BDB1, 0x3FEC2CD14931E3F1, 0x3FEC20DE3FA971B0, 0x3FEC14D9DC465E57,
   0x3FEC08C426725549, 0x3FEBFC9D25A1B147, 0x3FEBF064E15377DD, 0x3FEBE41B611154C1,
   0x3FEBD7C0AC6F952A, 0x3FEBCB54CB0D2327, 0x3FEBBED7C49380EA, 0x3FEBB249A0B6C40D,
   0x3FEBA5AA673590D2, 0x3FEB98FA1FD9155E, 0x3FEB8C38D27504E9, 0x3FEB7F6686E792E9,
   0x3FEB728345196E3E, 0x3FEB658F14FDBC47, 0x3FEB5889FE921405, 0x3FEB4B7409DE7925,
   0x3FEB3E4D3EF55712, 0x3FEB3115A5F37BF3, 0x3FEB23CD470013B4, 0x3FEB16742A4CA2F5,
   0x3FEB090A58150200, 0x3FEAFB8FD89F57B6, 0x3FEAEE04B43C1474, 0x3FEAE068F345ECEF,
   0x3FEAD2BC9E21D511, 0x3FEAC4FFBD3EFAC8, 0x3FEAB7325916C0D4, 0x3FEAA9547A2CB98E]

/-- `fl(cos(2*pi*k/2048))` for `k` from 192 to 223, as encodings (R102). -/
def Rom.cosine6 : List Nat :=
  [0x3FEA9B66290EA1A3, 0x3FEA8D676E545AD2, 0x3FEA7F58529FE69D, 0x3FEA7138DE9D60F5,
   0x3FEA63091B02FAE2, 0x3FEA54C91090F523, 0x3FEA4678C8119AC8, 0x3FEA38184A593BC6,
   0x3FEA29A7A0462782, 0x3FEA1B26D2C0A75E, 0x3FEA0C95EABAF937, 0x3FE9FDF4F13149DE,
   0x3FE9EF43EF29AF94, 0x3FE9E082EDB42472, 0x3FE9D1B1F5EA80D5, 0x3FE9C2D110F075C2,
   0x3FE9B3E047F38741, 0x3FE9A4DFA42B06B2, 0x3FE995CF2ED80D22, 0x3FE986AEF1457594,
   0x3FE9777EF4C7D742, 0x3FE9683F42BD7FE1, 0x3FE958EFE48E6DD7, 0x3FE94990E3AC4A6C,
   0x3FE93A22499263FB, 0x3FE92AA41FC5A815, 0x3FE91B166FD49DA2, 0x3FE90B7943575EFE,
   0x3FE8FBCCA3EF940D, 0x3FE8EC109B486C49, 0x3FE8DC45331698CC, 0x3FE8CC6A75184655]

/-- `fl(cos(2*pi*k/2048))` for `k` from 224 to 255, as encodings (R102). -/
def Rom.cosine7 : List Nat :=
  [0x3FE8BC806B151741, 0x3FE8AC871EDE1D88, 0x3FE89C7E9A4DD4AA, 0x3FE88C66E7481BA1,
   0x3FE87C400FBA2EBF, 0x3FE86C0A1D9AA195, 0x3FE85BC51AE958CC, 0x3FE84B7111AF83FA,
   0x3FE83B0E0BFF976E, 0x3FE82A9C13F545FF, 0x3FE81A1B33B57ACC, 0x3FE8098B756E52FA,
   0x3FE7F8ECE3571771, 0x3FE7E83F87B03686, 0x3FE7D7836CC33DB2, 0x3FE7C6B89CE2D333,
   0x3FE7B5DF226AAFAF, 0x3FE7A4F707BF97D2, 0x3FE79400574F55E5, 0x3FE782FB1B90B35B,
   0x3FE771E75F037261, 0x3FE760C52C304764, 0x3FE74F948DA8D28D, 0x3FE73E558E079942,
   0x3FE72D0837EFFF96, 0x3FE71BAC960E41BF, 0x3FE70A42B3176D7A, 0x3FE6F8CA99C95B75,
   0x3FE6E74454EAA8AF, 0x3FE6D5AFEF4AAFCD, 0x3FE6C40D73C18275, 0x3FE6B25CED2FE29C]

/-- `fl(cos(2*pi*k/2048))` for `k` from 256 to 287, as encodings (R102). -/
def Rom.cosine8 : List Nat :=
  [0x3FE6A09E667F3BCD, 0x3FE68ED1EAA19C71, 0x3FE67CF78491AF10, 0x3FE66B0F3F52B386,
   0x3FE6591925F0783D, 0x3FE64715437F535B, 0x3FE63503A31C1BE9, 0x3FE622E44FEC22FF,
   0x3FE610B7551D2CDF, 0x3FE5FE7CBDE56A10, 0x3FE5EC3495837074, 0x3FE5D9DEE73E345C,
   0x3FE5C77BBE65018C, 0x3FE5B50B264F7448, 0x3FE5A28D2A5D7250, 0x3FE59001D5F723DF,
   0x3FE57D69348CECA0, 0x3FE56AC35197649F, 0x3FE5581038975137, 0x3FE5454FF5159DFC,
   0x3FE5328292A35596, 0x3FE51FA81CD99AA6, 0x3FE50CC09F59A09B, 0x3FE4F9CC25CCA486,
   0x3FE4E6CABBE3E5E9, 0x3FE4D3BC6D589F7F, 0x3FE4C0A145EC0004, 0x3FE4AD79516722F1,
   0x3FE49A449B9B0939, 0x3FE48703306091FF, 0x3FE473B51B987347, 0x3FE4605A692B32A2]

/-- `fl(cos(2*pi*k/2048))` for `k` from 288 to 319, as encodings (R102). -/
def Rom.cosine9 : List Nat :=
  [0x3FE44CF325091DD6, 0x3FE4397F5B2A4380, 0x3FE425FF178E6BB1, 0x3FE41272663D108C,
   0x3FE3FED9534556D4, 0x3FE3EB33EABE0680, 0x3FE3D78238C58344, 0x3FE3C3C44981C518,
   0x3FE3AFFA292050B9, 0x3FE39C23E3D63029, 0x3FE3884185DFEB22, 0x3FE374531B817F8D,
   0x3FE36058B10659F3, 0x3FE34C5252C14DE1, 0x3FE338400D0C8E57, 0x3FE32421EC49A61F,
   0x3FE30FF7FCE17035, 0x3FE2FBC24B441015, 0x3FE2E780E3E8EA17, 0x3FE2D333D34E9BB8,
   0x3FE2BEDB25FAF3EA, 0x3FE2AA76E87AEB58, 0x3FE2960727629CA8, 0x3FE2818BEF4D3CBA,
   0x3FE26D054CDD12DF, 0x3FE258734CBB7110, 0x3FE243D5FB98AC1F, 0x3FE22F2D662C13E2,
   0x3FE21A799933EB59, 0x3FE205BAA17560D6, 0x3FE1F0F08BBC861B, 0x3FE1DC1B64DC4872]

/-- `fl(cos(2*pi*k/2048))` for `k` from 320 to 351, as encodings (R102). -/
def Rom.cosine10 : List Nat :=
  [0x3FE1C73B39AE68C8, 0x3FE1B250171373BF, 0x3FE19D5A09F2B9B8, 0x3FE188591F3A46E5,
   0x3FE1734D63DEDB49, 0x3FE15E36E4DBE2BC, 0x3FE14915AF336CEB, 0x3FE133E9CFEE254F,
   0x3FE11EB3541B4B23, 0x3FE1097248D0A957, 0x3FE0F426BB2A8E7E, 0x3FE0DED0B84BC4B6,
   0x3FE0C9704D5D898F, 0x3FE0B405878F85EC, 0x3FE09E907417C5E1, 0x3FE089112032B08C,
   0x3FE073879922FFEE, 0x3FE05DF3EC31B8B7, 0x3FE0485626AE221A, 0x3FE032AE55EDBD96,
   0x3FE01CFC874C3EB7, 0x3FE00740C82B82E1, 0x3FDFE2F64BE71210, 0x3FDFB7575C24D2DE,
   0x3FDF8BA4DBF89ABA, 0x3FDF5FDEE656CDA3, 0x3FDF3405963FD067, 0x3FDF081906BFF7FE,
   0x3FDEDC1952EF78D6, 0x3FDEB00695F25620, 0x3FDE83E0EAF85114, 0x3FDE57A86D3CD825]

/-- `fl(cos(2*pi*k/2048))` for `k` from 352 to 383, as encodings (R102). -/
def Rom.cosine11 : List Nat :=
  [0x3FDE2B5D3806F63B, 0x3FDDFEFF66A941DE, 0x3FDDD28F1481CC58, 0x3FDDA60C5CFA10D9,
   0x3FDD79775B86E389, 0x3FDD4CD02BA8609D, 0x3FDD2016E8E9DB5B, 0x3FDCF34BAEE1CD21,
   0x3FDCC66E9931C45E, 0x3FDC997FC3865389, 0x3FDC6C7F4997000B, 0x3FDC3F6D47263129,
   0x3FDC1249D8011EE7, 0x3FDBE51517FFC0D9, 0x3FDBB7CF2304BD01, 0x3FDB8A7814FD5693,
   0x3FDB5D1009E15CC0, 0x3FDB2F971DB31972, 0x3FDB020D6C7F4009, 0x3FDAD473125CDC09,
   0x3FDAA6C82B6D3FCA, 0x3FDA790CD3DBF31B, 0x3FDA4B4127DEA1E5, 0x3FDA1D6543B50AC0,
   0x3FD9EF7943A8ED8A, 0x3FD9C17D440DF9F2, 0x3FD993716141BDFF, 0x3FD96555B7AB948F,
   0x3FD9372A63BC93D7, 0x3FD908EF81EF7BD1, 0x3FD8DAA52EC8A4B0, 0x3FD8AC4B86D5ED44]

/-- `fl(cos(2*pi*k/2048))` for `k` from 384 to 415, as encodings (R102). -/
def Rom.cosine12 : List Nat :=
  [0x3FD87DE2A6AEA963, 0x3FD84F6AAAF3903F, 0x3FD820E3B04EAAC4, 0x3FD7F24DD37341E4,
   0x3FD7C3A9311DCCE7, 0x3FD794F5E613DFAE, 0x3FD766340F2418F6, 0x3FD73763C9261092,
   0x3FD7088530FA459F, 0x3FD6D998638A0CB6, 0x3FD6AA9D7DC77E17, 0x3FD67B949CAD63CB,
   0x3FD64C7DDD3F27C6, 0x3FD61D595C88C202, 0x3FD5EE27379EA693, 0x3FD5BEE78B9DB3B6,
   0x3FD58F9A75AB1FDD, 0x3FD5604012F467B4, 0x3FD530D880AF3C24, 0x3FD50163DC197048,
   0x3FD4D1E24278E76A, 0x3FD4A253D11B82F3, 0x3FD472B8A5571054, 0x3FD44310DC8936F0,
   0x3FD4135C94176601, 0x3FD3E39BE96EC271, 0x3FD3B3CEFA0414B7, 0x3FD383F5E353B6AB,
   0x3FD35410C2E18152, 0x3FD3241FB638BAAF, 0x3FD2F422DAEC0387, 0x3FD2C41A4E954520]

/-- `fl(cos(2*pi*k/2048))` for `k` from 416 to 447, as encodings (R102). -/
def Rom.cosine13 : List Nat :=
  [0x3FD294062ED59F06, 0x3FD263E6995554BA, 0x3FD233BBABC3BB71, 0x3FD2038583D727BE,
   0x3FD1D3443F4CDB3E, 0x3FD1A2F7FBE8F243, 0x3FD172A0D7765177, 0x3FD1423EEFC69378,
   0x3FD111D262B1F677, 0x3FD0E15B4E1749CE, 0x3FD0B0D9CFDBDB90, 0x3FD0804E05EB661E,
   0x3FD04FB80E37FDAE, 0x3FD01F1806B9FDD2, 0x3FCFDCDC1ADFEDF9, 0x3FCF7B7480BD3802,
   0x3FCF19F97B215F1B, 0x3FCEB86B462DE348, 0x3FCE56CA1E101A1B, 0x3FCDF5163F01099A,
   0x3FCD934FE5454311, 0x3FCD31774D2CBDEE, 0x3FCCCF8CB312B286, 0x3FCC6D90535D74DD,
   0x3FCC0B826A7E4F63, 0x3FCBA96334F15DAD, 0x3FCB4732EF3D6722, 0x3FCAE4F1D5F3B9AB,
   0x3FCA82A025B00451, 0x3FCA203E1B1831DA, 0x3FC9BDCBF2DC4366, 0x3FC95B49E9B62AFA]

/-- `fl(cos(2*pi*k/2048))` for `k` from 448 to 479, as encodings (R102). -/
def Rom.cosine14 : List Nat :=
  [0x3FC8F8B83C69A60B, 0x3FC8961727C41804, 0x3FC83366E89C64C6, 0x3FC7D0A7BBD2CB1C,
   0x3FC76DD9DE50BF31, 0x3FC70AFD8D08C4FF, 0x3FC6A81304F64AB2, 0x3FC6451A831D830D,
   0x3FC5E214448B3FC6, 0x3FC57F008654CBDE, 0x3FC51BDF8597C5F2, 0x3FC4B8B17F79FA88,
   0x3FC45576B1293E5A, 0x3FC3F22F57DB4893, 0x3FC38EDBB0CD8D14, 0x3FC32B7BF94516A7,
   0x3FC2C8106E8E613A, 0x3FC264994DFD3409, 0x3FC20116D4EC7BCF, 0x3FC19D8940BE24E7,
   0x3FC139F0CEDAF577, 0x3FC0D64DBCB26786, 0x3FC072A047BA831D, 0x3FC00EE8AD6FB85B,
   0x3FBF564E56A9730E, 0x3FBE8EB7FDE4AA3F, 0x3FBDC70ECBAE9FC9, 0x3FBCFF533B307DC1,
   0x3FBC3785C79EC2D5, 0x3FBB6FA6EC38F64C, 0x3FBAA7B724495C03, 0x3FB9DFB6EB24A85C]

/-- `fl(cos(2*pi*k/2048))` for `k` from 480 to 511, as encodings (R102). -/
def Rom.cosine15 : List Nat :=
  [0x3FB917A6BC29B42C, 0x3FB84F8712C130A1, 0x3FB787586A5D5B21, 0x3FB6BF1B3E79B129,
   0x3FB5F6D00A9AA419, 0x3FB52E774A4D4D0A, 0x3FB4661179272096, 0x3FB39D9F12C5A299,
   0x3FB2D52092CE19F6, 0x3FB20C9674ED444D, 0x3FB1440134D709B3, 0x3FB07B614E463064,
   0x3FAF656E79F820E0, 0x3FADD406F9808EC9, 0x3FAC428D12C0D7E3, 0x3FAAB101BD5F8317,
   0x3FA91F65F10DD814, 0x3FA78DBAA5874686, 0x3FA5FC00D290CD43, 0x3FA46A396FF86179,
   0x3FA2D865759455CD, 0x3FA14685DB42C17F, 0x3F9F693731D1CF01, 0x3F9C454F4CE53B1D,
   0x3F992155F7A3667E, 0x3F95FD4D21FAB226, 0x3F92D936BBE30EFD, 0x3F8F6A296AB997CB,
   0x3F8921D1FCDEC784, 0x3F82D96B0E509703, 0x3F7921F0FE670071, 0x3F6921F8BECCA4BA]

/-- `fl(cos(2*pi*k/2048))` for `k` from 512 to 512, as encodings (R102). -/
def Rom.cosine16 : List Nat :=
  [0x0000000000000000]

/-- The first quarter of the cosine wave, `fl(cos(2*pi*k/2048))` for `k` in 0..512: the values that
R146 names, each the binary64 value nearest to the exact cosine (log entry 10). -/
def Rom.cosines : List Nat :=
  Rom.cosine0 ++ Rom.cosine1 ++ Rom.cosine2 ++ Rom.cosine3 ++ Rom.cosine4 ++
  Rom.cosine5 ++ Rom.cosine6 ++ Rom.cosine7 ++ Rom.cosine8 ++ Rom.cosine9 ++
  Rom.cosine10 ++ Rom.cosine11 ++ Rom.cosine12 ++ Rom.cosine13 ++ Rom.cosine14 ++
  Rom.cosine15 ++ Rom.cosine16

/-- The `k`-th quarter-wave cosine. -/
def Rom.cosine (k : Nat) : F64 := F64.ofBits (BitVec.ofNat 64 (Rom.cosines.getD k 0))

/-- R146: `fl(cos(2*pi*k/2048))` for `k` in 0..1023, in the second quarter by the ROM's symmetry
`TW[1024-k].re = -TW[k].re`. -/
def Rom.twiddleRe (k : Nat) : F64 :=
  if k ≤ 512 then Rom.cosine k else (Rom.cosine (1024 - k)).neg

/-- R146: `fl(-sin(2*pi*k/2048))` for `k` in 0..1023, by the ROM's symmetries
`TW[512-k].im = -TW[k].re` and `TW[1024-k].im = TW[k].im`; "an exactly zero part is `+0.0`". -/
def Rom.twiddleIm (k : Nat) : F64 :=
  if k = 0 then F64.zero
  else if k ≤ 512 then (Rom.cosine (512 - k)).neg else (Rom.cosine (k - 512)).neg

/-- R37, R146: the twiddle ROM entry `TW[k]`, `k` in 0..1023. -/
def Rom.twiddle (k : Nat) : Cplx := ⟨Rom.twiddleRe k, Rom.twiddleIm k⟩

/-- R290: a frame from its leading bytes, "zero-padded to 16 bytes". -/
def Rom.padFrame (bytes : List Byte) : List Byte := bytes ++ List.replicate (16 - bytes.length) 0x00

/-- R290: `FROM[0]`, the setup frame. -/
def Rom.setupFrame : List Byte := Rom.padFrame [0x01, 0x00, 0x95, 0x02, 0x80, 0xBF]

/-- R290: `FROM[1]`, the content frame. -/
def Rom.contentFrame : List Byte := Rom.padFrame [0x01, 0x00, 0x80, 0x02, 0x52, 0x20]

/-- R290: `FROM[2]`, the teardown frame. -/
def Rom.teardownFrame : List Byte := Rom.padFrame [0x01, 0x00, 0x93, 0x02, 0x03, 0x80]

end Sys2Proof
end

