-- ==== Sys2Proof/Machine/Operands.lean ====
section
/-! DEFINITION. Operand forms: the sample, the bit-reversed index, the butterfly's pair and twiddle
index, the constants of the formulas, the channel registers, the color word's fields and the frames. -/

namespace Sys2Proof.Machine

/-! ### Samples (R100, R140, R142) -/

/-- R140: `sext_16(zext_8(lo) | (zext_8(hi) << 8))`, as the 16 bits of the signed value. -/
def sample16 (lo hi : Byte) : BitVec 16 := hi ++ lo

/-- R142: `fl(2 * SMP) / 65536.0`. -/
def normalise (smp : BitVec 16) : F64 := (F64.ofInt (2 * smp.toInt)).div (F64.ofNat 65536)

/-! ### The butterfly network (R149 to R151) -/

/-- The value of the `b` low bits of `j` read in reverse. -/
def bitrevBits : Nat → Nat → Nat
  | 0, _ => 0
  | b + 1, j => j % 2 * 2 ^ b + bitrevBits b (j / 2)

/-- R149: the integer whose 11-bit representation is that of `j` read in reverse. -/
def bitrev11 (j : Nat) : Nat := bitrevBits 11 j

/-- R151: `h = 2^(s-1)`, half the size of the groups of stage `g`. -/
def halfGroup (g : Nat) : Nat := 2 ^ (g - 1)

/-- R151: the twiddle index `(p mod 2^s) * 2^(11 - s)`. -/
def twiddleIndex (g p : Nat) : Nat := p % 2 ^ g * 2 ^ (11 - g)

/-- R150: `cmul(w, b)`, each product and sum rounded, in the order `t1, t2, t3, t4`. -/
def cmul (w b : Cplx) : Cplx :=
  ⟨(w.re.mul b.re).sub (w.im.mul b.im), (w.re.mul b.im).add (w.im.mul b.re)⟩

/-- R151: the sum of two complex values, part by part. -/
def cadd (a t : Cplx) : Cplx := ⟨a.re.add t.re, a.im.add t.im⟩

/-- R151: the difference of two complex values, part by part. -/
def csub (a t : Cplx) : Cplx := ⟨a.re.sub t.re, a.im.sub t.im⟩

/-- R152: the positions of stage `g` in the order of its loop: the groups `base = 0, m, 2m, ...`,
and in each the first half. -/
def stagePairs (g : Nat) : List Nat :=
  (List.range (2048 / 2 ^ g)).flatMap fun b => (List.range (halfGroup g)).map fun k => b * 2 ^ g + k

/-! ### Magnitude and color formulas (R190, R192, R220, R222, R224) -/

/-- R190: `sqrt(re*re + im*im)`, not `hypot`. -/
def magnitude (z : Cplx) : F64 := ((z.re.mul z.re).add (z.im.mul z.im)).sqrt

/-- R192: `20.0 * LOG10_IMPL(m)`. -/
def decibel (c : Config) (m : F64) : F64 := (F64.ofNat 20).mul (c.log10 m)

/-- R194: a running maximum, replaced only by a value that compares greater. -/
def runningMax (held v : F64) : F64 := if v.gt held then v else held

/-- R220: `(MAG_MAX * 44100.0) / 1025.0`. -/
def dominantFrequency (m : F64) : F64 := (m.mul (F64.ofNat 44100)).div (F64.ofNat 1025)

/-- R11, R222: `fl(1.2)`, the binary64 value nearest to 12/10. -/
def hueFactor : F64 := F64.ofRatio false 12 10

/-- R222: `((DOM_FREQ * 360.0) / 22050.0) * 1.2`. -/
def hueOf (f : F64) : F64 := ((f.mul (F64.ofNat 360)).div (F64.ofNat 22050)).mul hueFactor

/-- R54, R224: `LN90 = LN_IMPL(90.0)`. -/
def ln90 (c : Config) : F64 := c.ln (F64.ofNat 90)

/-- R224: `LN_IMPL(DB_MAX) / LN90`. -/
def brightnessOf (c : Config) (d : F64) : F64 := (c.ln d).div (ln90 c)

/-! ### The HSV unit (R226, R227) -/

/-- The outputs of the HSV unit before scaling. -/
structure Rgb where
  r : F64
  g : F64
  b : F64
  deriving DecidableEq, Repr

/-- R227: the sector `floor(hp)`, when it is in the range of a C `int`. -/
def sectorOf (hp : F64) : Option Int :=
  match hp.floorInt with
  | none => none
  | some i => if i.natAbs < 2 ^ 31 then some i else none

/-- R226: the case selection by `i tmod 6`, the truncating remainder of R10. -/
def sectorCase (i : Int) (v p q t : F64) : Rgb :=
  if i.tmod 6 = 0 then ⟨v, t, p⟩
  else if i.tmod 6 = 1 then ⟨q, v, p⟩
  else if i.tmod 6 = 2 then ⟨p, v, t⟩
  else if i.tmod 6 = 3 then ⟨p, q, v⟩
  else if i.tmod 6 = 4 then ⟨t, p, v⟩
  else ⟨v, p, q⟩

/-- R226: the function `hsv(h, s, v)`; none outside its domain, where R227 and R362 give the fault
`HUE_DOMAIN`: the domain is stated by the hue alone, "`s` and `v` any binary64 values". -/
def hsvOf (h s v : F64) : Option Rgb :=
  let hp := h.div (F64.ofNat 60)
  match sectorOf hp with
  | none => none
  | some i =>
    if s.ieeeEq F64.zero then some ⟨v, v, v⟩
    else
      let one := F64.ofNat 1
      let f := hp.sub (F64.ofInt i)
      let p := v.mul (one.sub s)
      let q := v.mul (one.sub (s.mul f))
      let t := v.mul (one.sub (s.mul (one.sub f)))
      some (sectorCase i v p q t)

/-! ### Clamp and channel finalisation (R230 to R234) -/

/-- R230: the asymmetric clamp. -/
def clamp (x lo hi : F64) : F64 :=
  if x.lt lo then F64.zero else if x.gt hi then F64.ofNat 255 else x

/-- R234: `to_byte`; none where R234 gives the fault `BYTE_DOMAIN`. -/
def toByte : F64 → Option Byte
  | .nan => some 0
  | .inf _ => none
  | .fin s e f =>
    let u := F64.signed s e f
    if u % 2 ^ F64.unitExp = 0 ∧ 0 ≤ u ∧ u / 2 ^ F64.unitExp ≤ 255
    then some (BitVec.ofInt 8 (u / 2 ^ F64.unitExp)) else none

/-- R232: the clamp result `z` of a channel value. -/
def channelLevel (x : F64) : F64 :=
  clamp (x.mul (F64.ofNat 255)).floor (F64.ofNat 0) (F64.ofNat 255)

/-- R232: the source register of a channel. -/
def State.channelReg (s : State) : Channel → Reg F64
  | .red => s.rf
  | .green => s.gf
  | .blue => s.bf

/-- R362: the name of the source register of a channel. -/
def channelElem : Channel → Elem
  | .red => .rf
  | .green => .gf
  | .blue => .bf

/-- R232: the destination register of a channel takes a byte. -/
def State.putChannel (s : State) (c : Channel) (b : Byte) : State :=
  match c with
  | .red => { s with r8 := Reg.put b }
  | .green => { s with g8 := Reg.put b }
  | .blue => { s with b8 := Reg.put b }

/-! ### The color word (R103, R236, R238) -/

/-- R103: `pack(r, g, b, a) = (a << 24) | (r << 16) | (g << 8) | b`. -/
def packColor (r g b a : Byte) : Word := a ++ r ++ g ++ b

/-- R238: `COLOR[8*f + 7 : 8*f]`. -/
def colorField (f : Field) (c : Word) : Byte := c.extractLsb' (8 * f.code) 8

/-! ### Frames (R104, R290 to R292) -/

/-- R292: the color-payload frame of a color word, its channels read as by `UNPK`. -/
def payloadFrame (c : Word) : List Byte :=
  Rom.padFrame [0x01, 0x00, 0x83, 0x03, colorField .red c, colorField .green c, colorField .blue c]

/-- R104: the frame of a role, for a color. -/
def frameOf (r : Role) (c : Word) : List Byte :=
  match r with
  | .setup => Rom.setupFrame
  | .content => Rom.contentFrame
  | .payload => payloadFrame c
  | .teardown => Rom.teardownFrame

/-- R291: the roles in write order, from a role on. -/
def rolesFrom : Role → List Role
  | .setup => [.setup, .content, .payload, .teardown]
  | .content => [.content, .payload, .teardown]
  | .payload => [.payload, .teardown]
  | .teardown => [.teardown]

end Sys2Proof.Machine
end

