-- ==== Sys2Proof/Machine/Color.lean ====
section
/-! DEFINITION. The color mapper (42_color_mapper.md R220 to R238): `FREQ`, `HUE`, `BRI`, `HSV`, `CHFIN`,
`PACK`, `UNPK`. -/

namespace Sys2Proof.Machine

/-- R220: `DOM_FREQ`, from the magnitude value and not from a bin index (R221). -/
def freqOp (s : State) : Res :=
  .ok { s.noteReads (opWord 0x30 0 0) [(.magMax, s.magMax.written)] with
    domFreq := Reg.put (dominantFrequency s.magMax.value) }

/-- R222: `HUE`, unclamped. -/
def hueOp (s : State) : Res :=
  .ok { s.noteReads (opWord 0x31 0 0) [(.domFreq, s.domFreq.written)] with
    hue := Reg.put (hueOf s.domFreq.value) }

/-- R224: `BRI`; no case of `DB_MAX` is tested for or replaced. -/
def briOp (c : Config) (s : State) : Res :=
  .ok { s.noteReads (opWord 0x32 0 0) [(.dbMax, s.dbMax.written)] with
    bri := Reg.put (brightnessOf c s.dbMax.value) }

/-- R228: the three outputs of the HSV unit are written. -/
def State.putRgb (s : State) (o : Rgb) : State :=
  { s with rf := Reg.put o.r, gf := Reg.put o.g, bf := Reg.put o.b }

/-- R228: `(RF, GF, BF) <- hsv(HUE, 1.0, BRI)`; `HUE_DOMAIN` by R227.  DESIGN CHOICE (log entry 24): where
`HUE` or `BRI` is unwritten and the hue is out of the domain, for which R228 names both faults and no
order, the outcome is `HUE_DOMAIN` alone. -/
def hsvOp (s : State) : Res :=
  match hsvOf s.hue.value (F64.ofNat 1) s.bri.value with
  | none => .error (.hueDomain (opWord 0x33 0 0) s.hue.value)
  | some o =>
    .ok ((s.noteReads (opWord 0x33 0 0) [(.hue, s.hue.written), (.bri, s.bri.written)]).putRgb o)

/-- R232: scale by 255, floor, clamp and convert one channel; `BYTE_DOMAIN` by R234. -/
def chfinOp (c : Channel) (s : State) : Res :=
  match toByte (channelLevel (s.channelReg c).value) with
  | none => .error (.byteDomain (opWord 0x34 0 c.code) (channelLevel (s.channelReg c).value))
  | some b =>
    .ok ((s.noteReads (opWord 0x34 0 c.code) [(channelElem c, (s.channelReg c).written)]).putChannel c b)

/-- R236: `COLOR`, with alpha 0. -/
def packOp (s : State) : Res :=
  .ok { s.noteReads (opWord 0x35 0 0) [(.r8, s.r8.written), (.g8, s.g8.written), (.b8, s.b8.written)] with
    color := Reg.put (packColor s.r8.value s.g8.value s.b8.value 0) }

/-- R238: `FLD <- COLOR[8*f + 7 : 8*f]`. -/
def unpkOp (f : Field) (s : State) : Res :=
  .ok { s.noteReads (opWord 0x36 0 f.code) [(.color, s.color.written)] with
    fld := Reg.put (colorField f s.color.value) }

/-- `FREQ` (R220). -/
def execFreq (s : State) : Host.Outcome State Fault Refusal := (freqOp s).outcome

/-- `HUE` (R222). -/
def execHue (s : State) : Host.Outcome State Fault Refusal := (hueOp s).outcome

/-- `BRI` (R224), with `LN_IMPL` at its default. -/
def execBri (s : State) : Host.Outcome State Fault Refusal := (briOp Config.default s).outcome

/-- `HSV` (R228). -/
def execHsv (s : State) : Host.Outcome State Fault Refusal := (hsvOp s).outcome

/-- `CHFIN c` (R232). -/
def execChfin (c : Channel) (s : State) : Host.Outcome State Fault Refusal := (chfinOp c s).outcome

/-- `PACK` (R236). -/
def execPack (s : State) : Host.Outcome State Fault Refusal := (packOp s).outcome

/-- `UNPK f` (R238). -/
def execUnpk (f : Field) (s : State) : Host.Outcome State Fault Refusal := (unpkOp f s).outcome

end Sys2Proof.Machine
end

