-- ==== Sys2Proof/Machine/Flags.lean ====
section
/-! DEFINITION. The block's flags and status registers and how they are computed (10_state.md R50 to
R53): it has no others.  The `TX_STATUS` codes stand in Ops.lean, beside the operations that set them. -/

namespace Sys2Proof.Machine

/-- R50, R270: `GATE_SEND` after a comparison: all 32 bits are compared. -/
def gateSendFlag (color prev : Word) : Bool := color != prev

/-- R51, R297: `WR_OK` after an answer: 1 exactly when 16 bytes were written. -/
def wrOkFlag (answer : SinkAnswer) : Bool := decide (answer = .count 16)

end Sys2Proof.Machine
end

