-- ==== Sys2Proof/Machine/Gate.lean ====
section
/-! DEFINITION. The color change gate (43_gate.md R270 to R274): `GATE`. -/

namespace Sys2Proof.Machine

/-- R270: compare, and latch in the same operation if the colors differ. -/
def latchColor (s : State) (c : Word) : State :=
  { s with
    gateSend := gateSendFlag c s.prevColor
    prevColor := if gateSendFlag c s.prevColor then c else s.prevColor }

/-- R270. -/
def gateOp (s : State) : Res :=
  .ok (latchColor (s.noteReads (opWord 0x40 0 0) [(.color, s.color.written)]) s.color.value)

/-- `GATE` (R270). -/
def execGate (s : State) : Host.Outcome State Fault Refusal := (gateOp s).outcome

end Sys2Proof.Machine
end

