-- ==== Sys2Proof/Machine/Magnitude.lean ====
section
/-! DEFINITION. The magnitude and dB scaler (41_magnitude_db.md R190 to R197): `MAG`, `DB`, `PEAK`. -/

namespace Sys2Proof.Machine

/-- R190: `MAGV <- sqrt(re*re + im*im)` of bin `k`. -/
def magOp (k : Nat) (s : State) : Res := do
  let z ← s.sBuf.fetch (opWord 0x20 0 k) .s k
  .ok { s with magv := Reg.put (magnitude z) }

/-- R192: `DBV <- 20.0 * LOG10_IMPL(MAGV)`. -/
def dbOp (c : Config) (s : State) : Res :=
  .ok { s.noteReads (opWord 0x21 0 0) [(.magv, s.magv.written)] with
    dbv := Reg.put (decibel c s.magv.value) }

/-- R194, R399: both maxima are `+0.0` at the start of every `PEAK`. -/
def clearMaxima (s : State) : State :=
  { s with magMax := Reg.put F64.zero, dbMax := Reg.put F64.zero }

/-- R194: the two comparisons after one bin, each tracked by itself. -/
def updateMaxima (s : State) : State :=
  { s with
    magMax := Reg.put (runningMax s.magMax.value s.magv.value)
    dbMax := Reg.put (runningMax s.dbMax.value s.dbv.value) }

/-- R194: one bin: `MAG k`, `DB`, and the two running maxima. -/
def peakStep (c : Config) (k : Nat) (s : State) : Res :=
  (magOp k s).andThen fun t => (dbOp c t).andThen fun u => .ok (updateMaxima u)

/-- R194: the reduction over the bins 0..1024, ascending. -/
def peakOp (c : Config) (s : State) : Res := forEach (peakStep c) (List.range 1025) (clearMaxima s)

/-- `MAG k` (R190); a bin above 1024 is an illegal encoding (R112). -/
def execMag (k : Fin 2048) (s : State) : Host.Outcome State Fault Refusal :=
  if (Instr.mag k).wellFormed then (magOp k.val s).outcome
  else .refused (.illegalOp (encode (.mag k)))

/-- `DB` (R192), with `LOG10_IMPL` at its default. -/
def execDb (s : State) : Host.Outcome State Fault Refusal := (dbOp Config.default s).outcome

/-- `PEAK` (R194), with `LOG10_IMPL` at its default. -/
def execPeak (s : State) : Host.Outcome State Fault Refusal := (peakOp Config.default s).outcome

end Sys2Proof.Machine
end

