-- ==== Sys2Proof/Machine/Transform.lean ====
section
/-! DEFINITION. The sample decoder, the twiddle ROM and the butterfly network (40_fft.md R140 to R157):
`DECS`, `NORM`, `LDX`, `TWRD`, `BREV`, `BFLY`, `STAGE`, `RFFT`.  A composite operation issues its parts,
and a fault names the part that raised it (log entry 5). -/

namespace Sys2Proof.Machine

/-- R140: `SMP` takes sample `i` of the Block. -/
def decsOp (i : Nat) (s : State) : Res := do
  let lo ← s.blk.fetch (opWord 0x10 0 i) .blk (2 * i)
  let hi ← s.blk.fetch (opWord 0x10 0 i) .blk (2 * i + 1)
  .ok { s with smp := Reg.put (sample16 lo hi) }

/-- R142: `DECS i`, then `X[i] <- fl(2 * SMP) / 65536.0`. -/
def normOp (i : Nat) (s : State) : Res := do
  let t ← decsOp i s
  .ok (t.writeX i (normalise t.smp.value))

/-- R144: `NORM i` for `i` in 0..2047, ascending. -/
def ldxOp (s : State) : Res := forEach normOp (List.range 2048) s

/-- R147: `TWV <- TW[k]`. -/
def twrdOp (k : Nat) (s : State) : State := { s with twv := Reg.put (Rom.twiddle k) }

/-- R148: `A[j] <- (X[bitrev11(j)], +0.0)`. -/
def brevStep (j : Nat) (s : State) : Res := do
  let v ← s.xBuf.fetch (opWord 0x14 0 0) .x (bitrev11 j)
  .ok (s.writeA j ⟨v, F64.zero⟩)

/-- R148: the working array in bit-reversed order. -/
def brevOp (s : State) : Res := forEach brevStep (List.range 2048) s

/-- R151: one butterfly; both inputs are read before either output is written (R398). -/
def bflyOp (g p : Nat) (s : State) : Res := do
  let t := twrdOp (twiddleIndex g p) s
  let a ← t.aBuf.fetch (opWord 0x15 g p) .a p
  let b ← t.aBuf.fetch (opWord 0x15 g p) .a (p + halfGroup g)
  let v := cmul t.twv.value b
  .ok ((t.writeA p (cadd a v)).writeA (p + halfGroup g) (csub a v))

/-- R152: all 1024 butterflies of a stage. -/
def stageOp (g : Nat) (s : State) : Res := forEach (bflyOp g) (stagePairs g) s

/-- R154: the bins 0..1024 are copied out of the working array. -/
def binStep (k : Nat) (s : State) : Res := do
  let z ← s.aBuf.fetch (opWord 0x17 0 0) .a k
  .ok (s.writeS k z)

/-- R154: `BREV`, the stages 1 to 11 in order (R153), and the copy of the 1025 bins. -/
def networkOp (s : State) : Res :=
  (brevOp s).andThen fun t =>
    (forEach stageOp [1, 2, 3, 4, 5, 6, 7, 8, 9, 10, 11] t).andThen fun u =>
      forEach binStep (List.range 1025) u

/-- R155: the transform of a replaced `FFT_IMPL`, a function of `X` alone (log entry 13). -/
def replacedOp (f : List F64 → Nat → Cplx) (s : State) : Res := do
  let xs ← s.xBuf.fetchAll (opWord 0x17 0 0) .x (List.range 2048)
  forEach (fun k t => .ok (t.writeS k (f xs k))) (List.range 1025) s

/-- R154, R155: `RFFT`, the result of `FFT_IMPL`. -/
def rfftOp (c : Config) (s : State) : Res :=
  match c.fft with
  | .network => networkOp s
  | .replaced f => replacedOp f s

/-- `DECS i` (R140). -/
def execDecs (i : Fin 2048) (s : State) : Host.Outcome State Fault Refusal := (decsOp i.val s).outcome

/-- `NORM i` (R142). -/
def execNorm (i : Fin 2048) (s : State) : Host.Outcome State Fault Refusal := (normOp i.val s).outcome

/-- `LDX` (R144). -/
def execLdx (s : State) : Host.Outcome State Fault Refusal := (ldxOp s).outcome

/-- `TWRD k` (R147). -/
def execTwrd (k : Fin 1024) (s : State) : Host.Outcome State Fault Refusal := .next (twrdOp k.val s)

/-- `BREV` (R148). -/
def execBrev (s : State) : Host.Outcome State Fault Refusal := (brevOp s).outcome

/-- `BFLY g, p` (R151); operands outside the legal range are an illegal encoding (R112). -/
def execBfly (g : Fin 16) (p : Fin 2048) (s : State) : Host.Outcome State Fault Refusal :=
  if (Instr.bfly g p).wellFormed then (bflyOp g.val p.val s).outcome
  else .refused (.illegalOp (encode (.bfly g p)))

/-- `STAGE g` (R152); a stage outside 1..11 is an illegal encoding (R112). -/
def execStage (g : Fin 16) (s : State) : Host.Outcome State Fault Refusal :=
  if (Instr.stage g).wellFormed then (stageOp g.val s).outcome
  else .refused (.illegalOp (encode (.stage g)))

/-- `RFFT` (R154), with `FFT_IMPL` at its default. -/
def execRfft (s : State) : Host.Outcome State Fault Refusal := (rfftOp Config.default s).outcome

end Sys2Proof.Machine
end

