-- ==== Sys2Proof/Machine/Transmitter.lean ====
section
/-! DEFINITION. The device protocol encoder (44_transmitter.md R290 to R301): `FBLD`, `FWR`, `TX`. -/

namespace Sys2Proof.Machine

/-- R294: the frame of role `r` in the frame buffer, with the value `COLOR` holds in the payload. -/
def buildFrame (r : Role) (s : State) : State := s.writeFrame (frameOf r s.color.value)

/-- R294: the registers that building the frame of role `r` reads: only the payload reads `COLOR`. -/
def frameSources (r : Role) (s : State) : List (Elem × Bool) :=
  match r with
  | .setup => []
  | .content => []
  | .payload => [(.color, s.color.written)]
  | .teardown => []

/-- R294: build the frame of role `r`. -/
def fbldOp (r : Role) (s : State) : Res :=
  .ok (buildFrame r (s.noteReads (opWord 0x50 0 r.code) (frameSources r s)))

/-- R296: offer the frame buffer, byte 0 first (R74), and take the answer into `WR_OK`.  With no
answer the operation waits (R361).  DESIGN CHOICE (log entry 22, unsafe): an answered `FWR` leaves the
device model as it was, also one that a test issues outside `TX`. -/
def fwrOp (r : Role) (s : State) : Res := do
  let f ← s.fbuf.fetchAll (opWord 0x51 0 r.code) .fbuf (List.range 16)
  match s.sink with
  | [] => .ok (s.await (.frame r))
  | a :: rest => .ok { s.frameAnswered f a rest with wrOk := wrOkFlag a }

/-- R298: the frames of the given roles, each built and written, one after another, ending at the first
failed write (R299).  A frame that the sink does not answer leaves the transmission waiting at its role. -/
def txLoop : List Role → State → Res
  | [], s => .ok s.completeTransmission
  | r :: rest, s =>
    (fwrOp r (buildFrame r s)).andThen fun t =>
      if t.waiting.isSome then .ok (t.await (.transmission r))
      else if t.wrOk then txLoop rest t
      else .ok (t.takeTransmissionFailure r)

/-- R298: a transmission from its start.  An unwritten `COLOR` is recorded once, for `TX` itself (log
entry 8). -/
def freshTxOp (s : State) : Res :=
  txLoop (rolesFrom .setup)
    ({ s with waiting := none }.noteReads (opWord 0x52 0 0) [(.color, s.color.written)])

/-- R298: transmit `COLOR`; a transmission that waits goes on from its unanswered frame (R374; log
entry 7). -/
def txOp (s : State) : Res :=
  match s.waiting with
  | some (.transmission r) => txLoop (rolesFrom r) { s with waiting := none }
  | some (.frame _) => freshTxOp s
  | some .block => freshTxOp s
  | none => freshTxOp s

/-- `FBLD r` (R294). -/
def execFbld (r : Role) (s : State) : Host.Outcome State Fault Refusal := (fbldOp r s).outcome

/-- `FWR r` (R296). -/
def execFwr (r : Role) (s : State) : Host.Outcome State Fault Refusal := (fwrOp r s).outcome

/-- `TX` (R298). -/
def execTx (s : State) : Host.Outcome State Fault Refusal := (txOp s).outcome

end Sys2Proof.Machine
end

