-- ==== Sys2Proof/Machine/Sequencer.lean ====
section
/-! DEFINITION. Block intake, the whole cycle and the end of input (45_sequencer.md R320 to R330):
`RDBLK`, `CYCLE`, `HALT`; and the sequencer's fixed program (R322 to R328). -/

namespace Sys2Proof.Machine

/-- R320: take one Block, or see the end of the input; with no answer the operation waits (R372). -/
def rdblkOp (s : State) : State :=
  match s.producer with
  | [] => s.await .block
  | .block b :: rest => (s.deliveryTaken (.block b) rest).beginCycle b.toList
  | .endOfInput l :: rest => (s.deliveryTaken (.endOfInput l) rest).takeEndOfInput

/-- R115, R323: `SPECTRUM`, the operations of `LOAD`, `FFT` and `PEAK`. -/
def spectrumOp (c : Config) (s : State) : Res :=
  (ldxOp s).andThen fun t => (rfftOp c t).andThen fun u => peakOp c u

/-- R115, R323: `MAPC`, the operations of `MAP`. -/
def mapcOp (c : Config) (s : State) : Res :=
  (freqOp s).andThen fun s1 => (hueOp s1).andThen fun s2 => (briOp c s2).andThen fun s3 =>
  (hsvOp s3).andThen fun s4 => (chfinOp .red s4).andThen fun s5 => (chfinOp .green s5).andThen fun s6 =>
  (chfinOp .blue s6).andThen fun s7 => packOp s7

/-- R327: the last part of a cycle, `TX` and the return to `IDLE`; a transmission that waits for the
sink leaves the cycle in phase `TX`. -/
def endCycleOp (s : State) : Res :=
  (txOp s).andThen fun t =>
    if t.waiting.isSome then .ok { t with phase := .tx } else .ok { t with phase := .idle }

/-- R327: the part of a cycle after its Block is taken. -/
def analyseOp (c : Config) (s : State) : Res :=
  (spectrumOp c s).andThen fun t => (mapcOp c t).andThen fun u => (gateOp u).andThen fun v =>
    if v.gateSend then endCycleOp v else .ok { v with phase := .idle }

/-- R327: one whole analysis cycle from its start. -/
def freshCycleOp (c : Config) (s : State) : Res :=
  if (rdblkOp s).waiting.isSome then .ok (rdblkOp s)
  else if (rdblkOp s).phase = .halted then .ok (rdblkOp s)
  else analyseOp c (rdblkOp s)

/-- R327: `CYCLE`; one that waits within its `TX` goes on there (log entry 7). -/
def cycleOp (c : Config) (s : State) : Res :=
  match s.waiting with
  | some (.transmission _) => endCycleOp s
  | some (.frame _) => freshCycleOp c s
  | some .block => freshCycleOp c s
  | none => freshCycleOp c s

/-- `RDBLK` (R320). -/
def execRdblk (s : State) : Host.Outcome State Fault Refusal := .next (rdblkOp s)

/-- `CYCLE` (R327), with the configuration fields at their defaults. -/
def execCycle (s : State) : Host.Outcome State Fault Refusal := (cycleOp Config.default s).outcome

/-- `HALT` (R326): `phase <- HALTED`, no other state changes. -/
def execHalt (s : State) : Host.Outcome State Fault Refusal := .next { s with phase := .halted }

/-! ### The sequencer's program (R322 to R328) -/

/-- R323: the operations of phase `MAP`, in order. -/
def mapProgram : Fin 8 → Instr
  | 0 => .freq
  | 1 => .hue
  | 2 => .bri
  | 3 => .hsv
  | 4 => .chfin .red
  | 5 => .chfin .green
  | 6 => .chfin .blue
  | 7 => .pack

/-- R322 to R326: the operation the sequencer issues next. -/
def sequencerOp (s : State) : Instr :=
  match s.phase with
  | .idle => .rdblk
  | .load => .ldx
  | .fft => .rfft
  | .peak => .peak
  | .map => mapProgram s.pos
  | .gate => .gate
  | .tx => .tx
  | .halted => .halt

/-- R322 to R326: the phase after an operation that phase `p` issued is complete, the operation's
result being `t`.  `RDBLK` sets the phase itself (R320). -/
def advance (p : Phase) (t : State) : State :=
  match p with
  | .idle => t
  | .load => { t with phase := .fft }
  | .fft => { t with phase := .peak }
  | .peak => { t with phase := .map, pos := 0 }
  | .map => if t.pos = 7 then { t with phase := .gate, pos := 0 } else { t with pos := t.pos + 1 }
  | .gate => if t.gateSend then { t with phase := .tx } else { t with phase := .idle }
  | .tx => { t with phase := .idle }
  | .halted => t

/-- The operation word of the next step: the one a test has named (R107, R360), else the
sequencer's (R328). -/
def nextWord (s : State) : Word :=
  match s.opReq with
  | some w => w
  | none => encode (sequencerOp s)

/-- R107, R367: the operation word is recorded when the operation is issued, not again when it goes on
after a wait. -/
def issue (w : Word) (s : State) : State :=
  if s.waiting.isSome then s else { s with trace := s.trace ++ [w] }

/-- What follows an operation issued in state `s` that gave `t`: nothing while it waits (R361); a test's
operation is done with; the sequencer's operation moves the phase on. -/
def settleStep (s t : State) : State :=
  if t.waiting.isSome then t
  else if s.opReq.isSome then { t with opReq := none }
  else advance s.phase t

/-- The outcome of a step, from the outcome of its operation. -/
def settleOutcome (s : State) : Host.Outcome State Fault Refusal → Host.Outcome State Fault Refusal
  | .next t => .next (settleStep s t)
  | .fault f => .fault f
  | .refused r => .refused r

end Sys2Proof.Machine
end

