-- ==== Sys2Proof/Machine/Dispatch.lean ====
section
/-! DEFINITION. The meaning of every operation, one arm per row of the opcode map (30_encoding.md
R109). -/

namespace Sys2Proof.Machine

/-- The meaning of an operation. -/
def exec (i : Instr) (s : State) : Host.Outcome State Fault Refusal :=
  match i with
  | .rdblk => Sys2Proof.Machine.execRdblk s
  | .cycle => Sys2Proof.Machine.execCycle s
  | .halt => Sys2Proof.Machine.execHalt s
  | .decs k => Sys2Proof.Machine.execDecs k s
  | .norm k => Sys2Proof.Machine.execNorm k s
  | .ldx => Sys2Proof.Machine.execLdx s
  | .twrd k => Sys2Proof.Machine.execTwrd k s
  | .brev => Sys2Proof.Machine.execBrev s
  | .bfly g p => Sys2Proof.Machine.execBfly g p s
  | .stage g => Sys2Proof.Machine.execStage g s
  | .rfft => Sys2Proof.Machine.execRfft s
  | .mag k => Sys2Proof.Machine.execMag k s
  | .db => Sys2Proof.Machine.execDb s
  | .peak => Sys2Proof.Machine.execPeak s
  | .freq => Sys2Proof.Machine.execFreq s
  | .hue => Sys2Proof.Machine.execHue s
  | .bri => Sys2Proof.Machine.execBri s
  | .hsv => Sys2Proof.Machine.execHsv s
  | .chfin c => Sys2Proof.Machine.execChfin c s
  | .pack => Sys2Proof.Machine.execPack s
  | .unpk f => Sys2Proof.Machine.execUnpk f s
  | .gate => Sys2Proof.Machine.execGate s
  | .fbld r => Sys2Proof.Machine.execFbld r s
  | .fwr r => Sys2Proof.Machine.execFwr r s
  | .tx => Sys2Proof.Machine.execTx s

end Sys2Proof.Machine
end

