-- ==== Sys2Proof/Machine/Step.lean ====
section
/-! DEFINITION. One step of the block (45_sequencer.md R320 to R330). -/

namespace Sys2Proof.Machine

/-- A step: a requested reset (R391); else the next operation word is decoded, an illegal one refused
before any state changes (R112, R362), and its operation run. -/
def step (s : State) : Host.Outcome State Fault Refusal :=
  if s.resetReq then .next s.applyReset
  else
    match decode (nextWord s) with
    | .error _ => .refused (.illegalOp (nextWord s))
    | .ok i => settleOutcome s (exec i (issue (nextWord s) s))

/-- The state in which a test has named the operation with the bits `w` (R107, R360): the very next
step runs it.  An operation that the block is waiting in is put aside and no reset is pending, which
is all that this takes (log entry 4). -/
def State.withFetchWord (s : State) (nbits w : Nat) : State :=
  { s with opReq := some (BitVec.ofNat 32 (w % 2 ^ nbits)), waiting := none, resetReq := false }

end Sys2Proof.Machine
end

