-- ==== Sys2Proof/Safety.lean ====
section
/-! DEFINITION. What counts as a well-formed state and as a safe run, in the terms the claims use. -/

namespace Sys2Proof.Machine

/-! ### Well-formed memory -/

/-- Every index space is in canonical form and within its size (20_memory.md R70). -/
def State.memoryWf (s : State) : Bool :=
  s.blk.wf 4096 && s.xBuf.wf 2048 && s.aBuf.wf 2048 && s.sBuf.wf 1025 && s.fbuf.wf 16

/-! ### Rules of the spec's prose about the whole machine -/

/-- R52, R354: `TX_STATUS` is never the reserved code 3, and `TX_FAIL_IDX` is 0 unless `TX_STATUS` is
`FAIL`. -/
def State.statusLegal (s : State) : Prop :=
  s.txStatus ≠ 3 ∧ (s.txStatus ≠ txFail → s.txFailIdx = 0)

/-- R43: `MAG_MAX >= +0.0` and `DB_MAX >= +0.0` once a `PEAK` has written them. -/
def State.maximaLegal (s : State) : Prop :=
  (s.magMax.written = true → F64NonNegative s.magMax.value) ∧
  (s.dbMax.written = true → F64NonNegative s.dbMax.value)

/-- R103: the alpha field of a color word. -/
def alphaOf (c : Word) : Byte := colorField .alpha c

/-- R47, R103: alpha is 0 in every color the block holds, the value under an unwritten `COLOR` among them
(log entry 1). -/
def State.alphaZero (s : State) : Prop := alphaOf s.color.value = 0 ∧ alphaOf s.prevColor = 0

/-- R104, R105: one of the four frames of the protocol, for some color. -/
def ProtocolFrame (f : List Byte) : Prop := ∃ r c, f = frameOf r c

/-- The frame of an event is a frame of the protocol. -/
def EventLegal : Event → Prop
  | .read _ => True
  | .write f _ _ => ProtocolFrame f
  | .abandoned f _ => ProtocolFrame f

/-- R105, R300: the frame buffer is empty or holds one whole frame of the protocol, and no other frame was
ever offered to the sink; an offer that is not answered has its frame in the buffer. -/
def State.framesLegal (s : State) : Prop :=
  (s.fbuf = [] ∨ ∃ r c, s.fbuf = Memory.fill (frameOf r c)) ∧
  (s.offering = true → s.fbuf ≠ []) ∧
  ∀ e ∈ s.events, EventLegal e

/-! ### The writers table of R55 -/

/-- The rows of the table of R55, the block's handshake with its interfaces, and the record of model
faults (R362). -/
inductive Part where
  | phase
  | pos
  | blk
  | x
  | a
  | s
  | fbuf
  | smp
  | twv
  | magv
  | dbv
  | maxima
  | domFreq
  | hue
  | bri
  | rgb
  | channels
  | color
  | fld
  | gate
  | wrOk
  | txStatus
  | interfaces
  | faultLog
  | device
  deriving DecidableEq, Repr

/-- The two states agree in a part. -/
def State.agree (s t : State) : Part → Prop
  | .phase => t.phase = s.phase
  | .pos => t.pos = s.pos
  | .blk => t.blk = s.blk
  | .x => t.xBuf = s.xBuf
  | .a => t.aBuf = s.aBuf
  | .s => t.sBuf = s.sBuf
  | .fbuf => t.fbuf = s.fbuf
  | .smp => t.smp = s.smp
  | .twv => t.twv = s.twv
  | .magv => t.magv = s.magv
  | .dbv => t.dbv = s.dbv
  | .maxima => t.magMax = s.magMax ∧ t.dbMax = s.dbMax
  | .domFreq => t.domFreq = s.domFreq
  | .hue => t.hue = s.hue
  | .bri => t.bri = s.bri
  | .rgb => t.rf = s.rf ∧ t.gf = s.gf ∧ t.bf = s.bf
  | .channels => t.r8 = s.r8 ∧ t.g8 = s.g8 ∧ t.b8 = s.b8
  | .color => t.color = s.color
  | .fld => t.fld = s.fld
  | .gate => t.prevColor = s.prevColor ∧ t.gateSend = s.gateSend
  | .wrOk => t.wrOk = s.wrOk
  | .txStatus => t.txStatus = s.txStatus ∧ t.txFailIdx = s.txFailIdx
  | .interfaces => t.producer = s.producer ∧ t.sink = s.sink ∧ t.waiting = s.waiting ∧
      t.events = s.events ∧ t.draws = s.draws
  | .faultLog => t.faultLog = s.faultLog
  | .device => t.devColor = s.devColor ∧ t.devIndet = s.devIndet

/-- R55, column "written by", with the composite operations in the rows of their parts: the parts an
operation may write.  Nothing else of the state may change.  An operation that reads a register may
record a model fault (R362). -/
def writes : Instr → List Part
  | .rdblk => [.phase, .blk, .x, .a, .s, .fbuf, .txStatus, .interfaces]
  | .cycle => [.phase, .blk, .x, .a, .s, .fbuf, .smp, .twv, .magv, .dbv, .maxima, .domFreq, .hue, .bri,
      .rgb, .channels, .color, .gate, .wrOk, .txStatus, .interfaces, .faultLog, .device]
  | .halt => [.phase]
  | .decs _ => [.smp]
  | .norm _ => [.smp, .x]
  | .ldx => [.smp, .x]
  | .twrd _ => [.twv]
  | .brev => [.a]
  | .bfly _ _ => [.twv, .a]
  | .stage _ => [.twv, .a]
  | .rfft => [.twv, .a, .s]
  | .mag _ => [.magv]
  | .db => [.dbv, .faultLog]
  | .peak => [.magv, .dbv, .maxima]
  | .freq => [.domFreq, .faultLog]
  | .hue => [.hue, .faultLog]
  | .bri => [.bri, .faultLog]
  | .hsv => [.rgb, .faultLog]
  | .chfin _ => [.channels, .faultLog]
  | .pack => [.color, .faultLog]
  | .unpk _ => [.fld, .faultLog]
  | .gate => [.gate, .faultLog]
  | .fbld r => if r = .payload then [.fbuf, .faultLog] else [.fbuf]
  | .fwr _ => [.wrOk, .interfaces]
  | .tx => [.fbuf, .wrOk, .txStatus, .interfaces, .faultLog, .device]

/-! ### A run of the sequencer that never stops -/

/-- A finite value of magnitude at most `2^k`. -/
def F64AtMost (k : Nat) : F64 → Prop
  | .nan => False
  | .inf _ => False
  | .fin _ e f => F64.units e f ≤ 2 ^ (k + F64.unitExp)

/-- Both parts are at most `2^k` in magnitude. -/
def CplxAtMost (k : Nat) (z : Cplx) : Prop := F64AtMost k z.re ∧ F64AtMost k z.im

/-- R396: what the operations of phase `MAP` need from the operations before them. -/
def State.mapReady (s : State) : Prop :=
  s.magMax.written = true ∧ s.dbMax.written = true ∧ F64AtMost 23 s.magMax.value ∧
  (1 ≤ s.pos.val → s.domFreq.written = true ∧ F64AtMost 29 s.domFreq.value) ∧
  (2 ≤ s.pos.val → s.hue.written = true ∧ F64AtMost 25 s.hue.value) ∧
  (3 ≤ s.pos.val → s.bri.written = true) ∧
  (4 ≤ s.pos.val → s.rf.written = true ∧ s.gf.written = true ∧ s.bf.written = true) ∧
  (5 ≤ s.pos.val → s.r8.written = true) ∧
  (6 ≤ s.pos.val → s.g8.written = true) ∧
  (7 ≤ s.pos.val → s.b8.written = true)

/-- R396: the data dependences of the cycle, phase by phase, with bounds that keep every hue in the
domain of R227; the block waits only where R368 and R374 say it can. -/
def State.onTrack (s : State) : Prop :=
  s.opReq = none ∧
  match s.phase with
  | .idle => s.waiting = none ∨ s.waiting = some .block
  | .load => s.waiting = none ∧ ∀ i < 4096, ∃ v, s.blk.read i = some v
  | .fft => s.waiting = none ∧ ∀ n < 2048, ∃ v, s.xBuf.read n = some v ∧ F64AtMost 0 v
  | .peak => s.waiting = none ∧ ∀ k < 1025, ∃ z, s.sBuf.read k = some z ∧ CplxAtMost 22 z
  | .map => s.waiting = none ∧ s.mapReady
  | .gate => s.waiting = none ∧ s.color.written = true
  | .tx => s.color.written = true ∧ (s.waiting = none ∨ ∃ r, s.waiting = some (.transmission r))
  | .halted => s.waiting = none

/-- A step that neither faults nor refuses. -/
def SafeStep (s : State) : Prop := ∃ t, step s = .next t

/-! ### Terms of the claims -/

/-- Every index below `size` is written, with the values `v`. -/
def Memory.Holds {α : Type} (m : Memory α) (size : Nat) (v : Nat → α) : Prop :=
  ∀ i < size, m.read i = some (v i)

/-- The second state is the first but for the parts listed: the frame of an operation. -/
def State.frame (s : State) (changed : List Part) (t : State) : Prop :=
  (∀ p, p ∉ changed → s.agree t p) ∧
  t.opReq = s.opReq ∧ t.resetReq = s.resetReq ∧ t.trace = s.trace

/-- R10, R140: the integer that two bytes of a Block stand for. -/
def sampleValue (lo hi : Byte) : Int :=
  if lo.toNat + 256 * hi.toNat < 32768 then lo.toNat + 256 * hi.toNat
  else lo.toNat + 256 * hi.toNat - 65536

/-- R142: the transform input of a sample. -/
def sampleInput (lo hi : Byte) : F64 := normalise (sample16 lo hi)

/-- The value is exactly the rational `n / d`. -/
def F64IsExactly (x : F64) (n : Int) (d : Nat) : Prop :=
  ∃ neg e f, x = .fin neg e f ∧ F64.signed neg e f * d = n * 2 ^ F64.unitExp

/-- The value is exactly `m` times another. -/
def F64IsMultiple (x : F64) (m : Nat) (y : F64) : Prop :=
  ∃ neg e f neg' e' f', x = .fin neg e f ∧ y = .fin neg' e' f' ∧
    F64.signed neg e f = m * F64.signed neg' e' f'

/-- A zero of either sign (R156). -/
def F64IsZero (x : F64) : Prop := x = F64.zero ∨ x = F64.negZero

/-- Both parts are zeros of either sign (R156). -/
def CplxIsZero (z : Cplx) : Prop := F64IsZero z.re ∧ F64IsZero z.im

/-- R112: the three clauses that make an operation word illegal. -/
def IllegalWord (w : Word) : Prop :=
  (∀ row ∈ opcodeRows, wordOpc w ≠ wordOpc row.2) ∨
  (∃ row ∈ opcodeRows, wordOpc w = wordOpc row.2 ∧ rowMatches w row = false) ∨
  (wordOpc w = 0x20 ∧ 1024 < wordImm w) ∨
  (wordOpc w = 0x34 ∧ wordImm w = 3) ∨
  ((wordOpc w = 0x15 ∨ wordOpc w = 0x16) ∧ (wordStg w = 0 ∨ 12 ≤ wordStg w)) ∨
  (wordOpc w = 0x15 ∧ 2 ^ (wordStg w - 1) ≤ wordImm w % 2 ^ wordStg w)

/-- The given number of steps, one after another. -/
def steps : Nat → State → Host.Outcome State Fault Refusal
  | 0, s => .next s
  | n + 1, s =>
    match step s with
    | .next t => steps n t
    | .fault f => .fault f
    | .refused r => .refused r

/-- R328: the operation words of one cycle up to and with `GATE`. -/
def cycleWords : List Word :=
  [0x01000000, 0x12000000, 0x17000000, 0x22000000, 0x30000000, 0x31000000, 0x32000000, 0x33000000,
   0x34000000, 0x34000001, 0x34000002, 0x35000000, 0x40000000]

/-- The sequencer runs by itself: no operation is named by a test and no reset is requested. -/
def State.selfRunning (s : State) : Prop := s.opReq = none ∧ s.resetReq = false

/-- The writes among the events at the interfaces, answered or abandoned. -/
def Event.isWrite : Event → Bool
  | .read _ => false
  | .write _ _ _ => true
  | .abandoned _ _ => true

/-- R300: the event of a frame written with 16 bytes. -/
def wholeWrite (r : Role) (c : Word) : Event := .write (frameOf r c) (.count 16) 16

/-- R270, R273, R324: a cycle from the first state to the second sends exactly when its color differs from
the color held, holds its color afterwards, and writes frames (it runs `TX`) exactly when it sends. -/
def SendsByColor (s t : State) : Prop :=
  t.gateSend = decide (t.color.value ≠ s.prevColor) ∧ t.prevColor = t.color.value ∧
  (t.gateSend = true → (t.txStatus = txOk ∨ t.txStatus = txFail) ∧
    ∃ ws : List Event, 1 ≤ ws.length ∧ ws.length ≤ 4 ∧
      t.events.filter Event.isWrite = s.events.filter Event.isWrite ++ ws) ∧
  (t.gateSend = false → t.txStatus = txNone ∧
    t.events.filter Event.isWrite = s.events.filter Event.isWrite)

/-- The value is finite, and no finite value is nearer to the real number. -/
def F64IsNearestTo (v : F64) (r : ℝ) : Prop :=
  ∃ neg e f, v = .fin neg e f ∧ ∀ neg' e' f',
    |(F64.signed neg e f : ℝ) - 2 ^ F64.unitExp * r| ≤ |(F64.signed neg' e' f' : ℝ) - 2 ^ F64.unitExp * r|

/-- The operation is not in the middle of a transmission that waits for the sink. -/
def State.outsideTransmission (s : State) : Prop := ∀ r, s.waiting ≠ some (.transmission r)

/-- R291: the roles before a role, in write order. -/
def rolesBefore : Role → List Role
  | .setup => []
  | .content => [.setup]
  | .payload => [.setup, .content]
  | .teardown => [.setup, .content, .payload]

end Sys2Proof.Machine
end

