-- ==== Sys2Proof/Certificates/Slice0/Obligations.lean ====
section
/-! DEFINITION. The statements about the machine, from the numbered rules of the spec. -/

open Sys2Proof Sys2Proof.Machine

/-! ### Encoding -/

/-- R109, R110: decoding the word of a well-formed operation gives the operation back, with every operand at
every value. -/
def Obligations.DecodeEncodeAgree : Prop :=
  ∀ i : Instr, i.wellFormed = true → decode (encode i) = .ok i

/-- R111: every word is exactly one operation with legal operands, or illegal; no two rows match one word. -/
def Obligations.EveryWordIsOneOperationOrIllegal : Prop :=
  (∀ w : Word,
    (IllegalWord w ∧ ∀ i : Instr, i.wellFormed = true → encode i ≠ w) ∨
    (¬ IllegalWord w ∧ ∃ i : Instr, i.wellFormed = true ∧ encode i = w ∧ decode w = .ok i ∧
      ∀ j : Instr, j.wellFormed = true → encode j = w → j = i)) ∧
  ∀ w : Word, ∀ a ∈ opcodeRows, ∀ b ∈ opcodeRows, rowMatches w a = true → rowMatches w b = true → a = b

/-- R112, R359: the decoder refuses exactly the illegal words, a step refuses one before any state changes,
the sequencer never issues one, and an operation whose operands are out of range is refused wherever it is
run. -/
def Obligations.IllegalWordsAreRefused : Prop :=
  (∀ w : Word, (∃ e, decode w = .error e) ↔ IllegalWord w) ∧
  (∀ (w : Word) (s : State), IllegalWord w → s.resetReq = false → nextWord s = w →
    step s = .refused (.illegalOp w)) ∧
  (∀ s : State, s.opReq = none → ¬ IllegalWord (nextWord s)) ∧
  ∀ (i : Instr) (s : State), i.wellFormed = false → exec i s = .refused (.illegalOp (encode i))

/-- Words written out from the patterns of R110 and the vectors of 95_test_vectors.md section 2.1. -/
def Obligations.SpecWordsDecode : Prop :=
  decode 0x01000000 = .ok .rdblk ∧ decode 0x02000000 = .ok .cycle ∧ decode 0x03000000 = .ok .halt ∧
  decode 0x10000005 = .ok (.decs 5) ∧ decode 0x110007FF = .ok (.norm 2047) ∧
  decode 0x130003FF = .ok (.twrd 1023) ∧ decode 0x15300002 = .ok (.bfly 3 2) ∧
  decode 0x15B003FF = .ok (.bfly 11 1023) ∧ decode 0x16B00000 = .ok (.stage 11) ∧
  decode 0x20000400 = .ok (.mag 1024) ∧ decode 0x34000002 = .ok (.chfin .blue) ∧
  decode 0x36000003 = .ok (.unpk .alpha) ∧ decode 0x40000000 = .ok .gate ∧
  decode 0x50000002 = .ok (.fbld .payload) ∧ decode 0x51000003 = .ok (.fwr .teardown) ∧
  decode 0x52000000 = .ok .tx ∧
  decode 0x10000800 = .error .fixedZeroSet ∧ decode 0x13000400 = .error .fixedZeroSet ∧
  decode 0x15300004 = .error .operandRange ∧ decode 0x15C00000 = .error .operandRange ∧
  decode 0x16000000 = .error .operandRange ∧ decode 0x20000401 = .error .operandRange ∧
  decode 0x34000003 = .error .operandRange ∧ decode 0xFF000000 = .error (.reservedOpcode 0xFF)

/-! ### Steps and the sequencer -/

/-- A step without a reset request runs the decoded operation: the operation word is recorded (not again
while the block waits), the operation acts on that state, and then a waiting block stays as it is, a test's
operation is done with, and the sequencer's operation moves the phase on. -/
def Obligations.StepRunsDecodedInstruction : Prop :=
  ∀ (s : State) (i : Instr), s.resetReq = false → decode (nextWord s) = .ok i →
    (∀ t, exec i (issue (nextWord s) s) = .next t → step s = .next
      (if t.waiting.isSome then t
       else if s.opReq.isSome then { t with opReq := none }
       else advance s.phase t)) ∧
    (∀ f, exec i (issue (nextWord s) s) = .fault f → step s = .fault f) ∧
    (∀ q, exec i (issue (nextWord s) s) = .refused q → step s = .refused q) ∧
    issue (nextWord s) s =
      { s with trace := if s.waiting.isSome then s.trace else s.trace ++ [nextWord s] }

/-- R322, R324, R325: the phases `IDLE`, `GATE` and `TX`; while the producer has not answered, the block stays
in `IDLE` and a further step changes nothing at all (R361, R368).  That an unanswered step is a next state
with a mark is the model's choice, log entry 15, and so is what `GATE` and `TX` do with an unwritten `COLOR`,
log entry 23. -/
def Obligations.ConditionalPhases : Prop :=
  State.reset.phase = .idle ∧
  (∀ s : State, s.selfRunning → s.phase = .idle →
    nextWord s = 0x01000000 ∧
    (∀ b rest, s.producer = .block b :: rest → ∃ t : State, step s = .next t ∧ t.phase = .load) ∧
    (∀ l rest, s.producer = .endOfInput l :: rest → ∃ t : State, step s = .next t ∧ t.phase = .halted) ∧
    (s.waiting = none → s.producer = [] →
      ∃ t : State, step s = .next t ∧
        t = { s with waiting := some .block, trace := s.trace ++ [0x01000000] } ∧ step t = .next t)) ∧
  (∀ s : State, s.selfRunning → s.waiting = none → s.phase = .gate →
    nextWord s = 0x40000000 ∧
    ∃ t : State, step s = .next t ∧ t.gateSend = decide (s.color.value ≠ s.prevColor) ∧
      t.phase = (if t.gateSend then .tx else .idle)) ∧
  ∀ s : State, s.selfRunning → s.phase = .tx → 4 ≤ s.sink.length →
    nextWord s = 0x52000000 ∧
    ∃ t : State, step s = .next t ∧ t.phase = .idle ∧ (t.txStatus = txOk ∨ t.txStatus = txFail)

/-- R323: the phases `LOAD` to `MAP` issue their operations in order and then move on; no condition of theirs
stops the cycle, from any state that has what the operations before them leave.  The place `pos` within
`MAP` is the model's own (log entry 2). -/
def Obligations.UnconditionalPhases : Prop :=
  ∀ s : State, s.onTrack → s.resetReq = false →
    (s.phase = .load → nextWord s = encode .ldx ∧ ∃ t : State, step s = .next t ∧ t.phase = .fft) ∧
    (s.phase = .fft → nextWord s = encode .rfft ∧ ∃ t : State, step s = .next t ∧ t.phase = .peak) ∧
    (s.phase = .peak → nextWord s = encode .peak ∧ ∃ t : State, step s = .next t ∧ t.phase = .map ∧ t.pos = 0) ∧
    (s.phase = .map →
      nextWord s = encode ([.freq, .hue, .bri, .hsv, .chfin .red, .chfin .green, .chfin .blue,
        .pack].getD s.pos.val .pack) ∧
      ∃ t : State, step s = .next t ∧
        if s.pos = 7 then t.phase = .gate else t.phase = .map ∧ t.pos.val = s.pos.val + 1)

/-- R328: the operation words of one complete cycle, and of a cycle ended by `EOI`; no other operation is
ever issued by the sequencer. -/
def Obligations.CycleIssuesItsWords : Prop :=
  (∀ (s : State) (b : Vector Byte 4096) (rest : List Delivery),
    s.selfRunning → s.phase = .idle → s.waiting = none → s.producer = .block b :: rest →
    4 ≤ s.sink.length →
    ∃ t : State, t.phase = .idle ∧
      if t.gateSend then steps 14 s = .next t ∧ t.trace = s.trace ++ cycleWords ++ [0x52000000]
      else steps 13 s = .next t ∧ t.trace = s.trace ++ cycleWords) ∧
  (∀ (s : State) (l : List Byte) (rest : List Delivery),
    s.selfRunning → s.phase = .idle → s.waiting = none → s.producer = .endOfInput l :: rest →
    ∃ t : State, steps 2 s = .next t ∧ t.trace = s.trace ++ [0x01000000, 0x03000000]) ∧
  ∀ s : State, s.opReq = none → nextWord s ∈ cycleWords ++ [0x52000000, 0x03000000]

/-- R326: `HALT` writes the phase and nothing else, and `HALTED` is final: the sequencer issues nothing but
`HALT` in it, and only reset leaves it. -/
def Obligations.HaltedIsFinal : Prop :=
  (∀ s : State, exec .halt s = .next { s with phase := .halted }) ∧
  (∀ s : State, s.selfRunning → s.phase = .halted →
    nextWord s = 0x03000000 ∧ ∃ t : State, step s = .next t ∧ t = { s with trace := t.trace }) ∧
  ∀ s : State, s.resetReq = true → ∃ t : State, step s = .next t ∧ t.phase = .idle

/-- R320, R321, R372: `RDBLK` by the producer's answer: a Block, the end of the input (a short read among
them, its bytes discarded), or none; that an unanswered request is a next state with a mark is the
model's choice, log entry 15. -/
def Obligations.RdblkByAnswer : Prop :=
  (∀ (s : State) (b : Vector Byte 4096) (rest : List Delivery), s.producer = .block b :: rest →
    ∃ t : State, exec .rdblk s = .next t ∧ (∀ i (h : i < 4096), t.blk.read i = some b[i]) ∧
      (∀ i, t.xBuf.read i = none ∧ t.aBuf.read i = none ∧ t.sBuf.read i = none ∧ t.fbuf.read i = none) ∧
      t.txStatus = 0 ∧ t.txFailIdx = 0 ∧ t.phase = .load ∧
      t.producer = rest ∧ t.sink = s.sink ∧ t.waiting = none ∧
      t.events = s.events ++ [.read (.block b)] ∧
      s.frame [.phase, .blk, .x, .a, .s, .fbuf, .txStatus, .interfaces] t) ∧
  (∀ (s : State) (l : List Byte) (rest : List Delivery), s.producer = .endOfInput l :: rest →
    exec .rdblk s = .next { s with
      phase := .halted, producer := rest, waiting := none, events := s.events ++ [.read (.endOfInput l)] }) ∧
  ∀ s : State, s.producer = [] → exec .rdblk s = .next { s with waiting := some .block }

/-- R327: `CYCLE` gives the same state and the same events as its parts issued one by one by the sequencer:
all but the two fields that record the issue itself, the trace and the place within `MAP`.  That a `CYCLE`
with no Block, or with too few answers of the sink (then in phase `TX`), is a next state with a mark is the
model's choice, log entries 15 and 7. -/
def Obligations.CycleIsItsParts : Prop :=
  ∀ s : State, s.selfRunning → s.phase = .idle → s.waiting = none →
    ∃ (t u : State) (n : Nat), exec .cycle s = .next t ∧ 1 ≤ n ∧ n ≤ 14 ∧ steps n s = .next u ∧
      u = { t with trace := u.trace, pos := u.pos } ∧
      (t.phase = .idle ∨ t.phase = .halted ∨ t.phase = .tx)

/-- R235, R327, R362: `CYCLE` completes on every Block, from every state but in the middle of a
transmission, in particular where it waits in its `RDBLK`: with enough answers of the sink it returns to
`IDLE`, without them it waits in `TX`; the end of the input halts it; with no Block it waits; and a `CYCLE`
that waits in its `TX` goes on there.  No model fault is recorded on the way.  The waits are the model's
choice, log entries 15 and 7, and so is the record, log entry 23. -/
def Obligations.CycleCompletes : Prop :=
  (∀ (s : State) (b : Vector Byte 4096) (rest : List Delivery), s.outsideTransmission →
    s.producer = .block b :: rest →
    ∃ t : State, exec .cycle s = .next t ∧ t.producer = rest ∧ t.faultLog = s.faultLog ∧
      ((t.waiting = none ∧ t.phase = .idle) ∨
       (s.sink.length < 4 ∧ t.phase = .tx ∧ ∃ r, t.waiting = some (.transmission r)))) ∧
  (∀ (s : State) (l : List Byte) (rest : List Delivery), s.outsideTransmission →
    s.producer = .endOfInput l :: rest →
    ∃ t : State, exec .cycle s = .next t ∧ t.phase = .halted ∧ t.waiting = none ∧
      t.faultLog = s.faultLog) ∧
  (∀ s : State, s.outsideTransmission → s.producer = [] →
    exec .cycle s = .next { s with waiting := some .block }) ∧
  ∀ (s : State) (r : Role), s.waiting = some (.transmission r) → 4 ≤ s.sink.length →
    ∃ t : State, exec .cycle s = .next t ∧ t.waiting = none ∧ t.phase = .idle ∧ t.faultLog = s.faultLog

/-- R235, R271: a cycle on a silent Block has both maxima exactly `+0.0` and computes black; at the gate's
reset value it sends nothing, after any other color it sends.  That a `CYCLE` which sends and has too few
answers of the sink is a next state, waiting in its `TX`, is the model's choice, log entries 7 and 15. -/
def Obligations.SilentCycleIsBlack : Prop :=
  ∀ (s : State) (b : Vector Byte 4096) (rest : List Delivery), s.outsideTransmission →
    s.producer = .block b :: rest → (∀ i (h : i < 4096), b[i] = 0) →
    ∃ t : State, exec .cycle s = .next t ∧ t.magMax = Reg.put F64.zero ∧ t.dbMax = Reg.put F64.zero ∧
      t.bri = Reg.put (.inf true) ∧ t.color = Reg.put 0 ∧ t.prevColor = 0 ∧
      (s.prevColor = 0 → t.gateSend = false ∧ t.phase = .idle ∧
        t.events = s.events ++ [.read (.block b)]) ∧
      (s.prevColor ≠ 0 → t.gateSend = true)

/-- R330: the maxima and the color of a cycle are a function of its Block alone.  That a `CYCLE` which sends and
has too few answers of the sink is a next state, waiting in its `TX`, is the model's choice, log entries 7 and
15. -/
def Obligations.ColorDependsOnBlockAlone : Prop :=
  ∀ (s s' : State) (b : Vector Byte 4096) (rest rest' : List Delivery), s.waiting = none →
    s'.waiting = none → s.producer = .block b :: rest → s'.producer = .block b :: rest' →
    ∃ t t' : State, exec .cycle s = .next t ∧ exec .cycle s' = .next t' ∧
      t.magMax = t'.magMax ∧ t.dbMax = t'.dbMax ∧ t.color = t'.color ∧ t.sBuf = t'.sBuf

/-- R273: a cycle sends (runs `TX`) exactly when its color differs from the color held, and holds its color
afterwards; so over the cycles of a run from reset, cycle `j` sends exactly when its color differs from the
color of the cycle before it (black before the first). -/
def Obligations.SendPatternOverCycles : Prop :=
  (∀ (s : State) (b : Vector Byte 4096) (rest : List Delivery), s.outsideTransmission →
    s.producer = .block b :: rest → 4 ≤ s.sink.length →
    ∃ t : State, exec .cycle s = .next t ∧ t.phase = .idle ∧ SendsByColor s t) ∧
  ∀ (blocks : List (Vector Byte 4096)) (answers : List SinkAnswer), 4 * blocks.length ≤ answers.length →
    ∃ u : Nat → State,
      u 0 = { State.reset with producer := blocks.map .block, sink := answers } ∧
      ∀ j < blocks.length, exec .cycle (u j) = .next (u (j + 1)) ∧ (u (j + 1)).phase = .idle ∧
        (u (j + 1)).gateSend =
          decide ((u (j + 1)).color.value ≠ if j = 0 then 0 else (u j).color.value) ∧
        SendsByColor (u j) (u (j + 1))

/-! ### Reset -/

/-- R390, R55: the reset values the spec gives, every other element being unwritten. -/
def Obligations.ResetValues : Prop :=
  State.reset.phase = .idle ∧ State.reset.prevColor = 0x00000000 ∧ State.reset.gateSend = false ∧
  State.reset.wrOk = false ∧ State.reset.txStatus = 0 ∧ State.reset.txFailIdx = 0 ∧
  (∀ i, State.reset.blk.read i = none ∧ State.reset.xBuf.read i = none ∧ State.reset.aBuf.read i = none ∧
    State.reset.sBuf.read i = none ∧ State.reset.fbuf.read i = none) ∧
  State.reset.smp.written = false ∧ State.reset.twv.written = false ∧ State.reset.magv.written = false ∧
  State.reset.dbv.written = false ∧ State.reset.magMax.written = false ∧
  State.reset.dbMax.written = false ∧ State.reset.domFreq.written = false ∧
  State.reset.hue.written = false ∧ State.reset.bri.written = false ∧ State.reset.rf.written = false ∧
  State.reset.gf.written = false ∧ State.reset.bf.written = false ∧ State.reset.r8.written = false ∧
  State.reset.g8.written = false ∧ State.reset.b8.written = false ∧ State.reset.color.written = false ∧
  State.reset.fld.written = false

/-- The invariants that the statements below say every step keeps hold right after reset.  That the value under
the unwritten `COLOR` has alpha 0 is the model's choice, log entry 1. -/
def Obligations.InvariantsHoldAtReset : Prop :=
  State.reset.onTrack ∧ State.reset.memoryWf = true ∧ State.reset.statusLegal ∧ State.reset.maximaLegal ∧
  State.reset.alphaZero ∧ State.reset.framesLegal

/-- R391, R392: reset takes effect at any step boundary, in any phase and while waiting; nothing of the
block's state survives it, and a frame write that it interrupts leaves the device indeterminate.  What is
kept outside the block (the recorded model faults among it), the record of the abandoned frame and the
indeterminate device are log entry 19. -/
def Obligations.ResetAtAnyStep : Prop :=
  ∀ s : State, s.resetReq = true → ∃ t : State, step s = .next t ∧
    t = { State.reset with
      producer := t.producer, sink := t.sink, trace := t.trace, events := t.events, faultLog := t.faultLog
      devColor := t.devColor, devIndet := t.devIndet, draws := t.draws } ∧
    t.producer = s.producer ∧ t.sink = s.sink ∧ t.trace = s.trace ∧ t.faultLog = s.faultLog ∧
    t.devColor = s.devColor ∧
    (s.offering = true → t.devIndet = true ∧ ∃ n,
      t.events = s.events ++ [.abandoned (s.fbuf.map Prod.snd) n]) ∧
    (s.offering = false → t.devIndet = s.devIndet ∧ t.events = s.events) ∧
    nextWord t = 0x01000000

/-! ### Invariants that every step keeps -/

/-- The data dependences of R396 hold at every step of the sequencer, and no step of it faults, refuses or
records a model fault: what one phase needs, the phases before it have left, for every Block.  In `IDLE` with no answer of the
producer and in `TX` with too few of the sink the spec's block waits (R361; rows 6 and 7 of
93_implementation_defined.md); that the step is then a next state with a mark is the model's choice, log
entries 15 and 7, and so is the record of model faults, log entry 23. -/
def Obligations.SequencerNeverStops : Prop :=
  ∀ s : State, s.onTrack → ∃ t : State, step s = .next t ∧ t.onTrack ∧ t.faultLog = s.faultLog

/-- R70: every step keeps every index space in canonical form and within its size. -/
def Obligations.StepKeepsMemoryWf : Prop :=
  ∀ s t : State, s.memoryWf = true → step s = .next t → t.memoryWf = true

/-- R43, R52, R103: every step keeps three register invariants: `TX_STATUS` is never the reserved code and
`TX_FAIL_IDX` is 0 unless it is `FAIL`; the maxima are at or above `+0.0`; every color held has alpha 0 (under
an unwritten `COLOR` by the model's choice, log entry 1). -/
def Obligations.StepKeepsRegisterInvariants : Prop :=
  ∀ s t : State, step s = .next t →
    (s.statusLegal → t.statusLegal) ∧ (s.maximaLegal → t.maximaLegal) ∧ (s.alphaZero → t.alphaZero)

/-- R105: no frame but the four of the protocol is ever in the frame buffer or offered to the sink. -/
def Obligations.StepKeepsFramesLegal : Prop :=
  ∀ s t : State, s.framesLegal → step s = .next t → t.framesLegal

/-- R55: an operation writes only the elements whose row names it (or a part of it) as a writer.  That an
answered `FWR` leaves the device model as it was is the model's choice, log entry 22, and that a read of an
unwritten register is recorded and the operation goes on is log entry 23. -/
def Obligations.OnlyWritersWrite : Prop :=
  ∀ (i : Instr) (s t : State), exec i s = .next t → s.frame (writes i) t

/-- R274: `PREV_COLOR` changes only at `GATE` (alone or within `CYCLE`), and is lost only at reset. -/
def Obligations.OnlyGateChangesPrevColor : Prop :=
  ∀ s t : State, step s = .next t → t.prevColor ≠ s.prevColor →
    s.resetReq = true ∨ nextWord s = encode .gate ∨ nextWord s = encode .cycle

/-- R300: outside phase `TX` no step of the sequencer writes a frame. -/
def Obligations.WritesHappenOnlyInTx : Prop :=
  ∀ s t : State, s.selfRunning → s.phase ≠ .tx → step s = .next t →
    t.events.filter Event.isWrite = s.events.filter Event.isWrite

/-! ### Arithmetic (R11) -/

/-- R11: one rounding gives infinity exactly from half a unit above the largest finite value on, and below
that a finite value of the sign, nearest to the exact ratio, the one with an even last bit if two are equally
near. -/
def Obligations.RoundingIsNearestTiesToEven : Prop :=
  ∀ (neg : Bool) (n d : Nat), 0 < d →
    ((2 ^ 54 - 1) * 2 ^ 970 * d ≤ n → F64.ofRatio neg n d = .inf neg) ∧
    (n < (2 ^ 54 - 1) * 2 ^ 970 * d → ∃ e f, F64.ofRatio neg n d = .fin neg e f ∧ ∀ e' f',
      |(F64.units e f * d : Int) - n * 2 ^ F64.unitExp| ≤
        |(F64.units e' f' * d : Int) - n * 2 ^ F64.unitExp| ∧
      (F64.units e' f' ≠ F64.units e f →
        |(F64.units e f * d : Int) - n * 2 ^ F64.unitExp| =
          |(F64.units e' f' * d : Int) - n * 2 ^ F64.unitExp| → f.toNat % 2 = 0))

/-- R11: the square root of a positive finite value is finite and within half a unit in its last place of
the exact root. -/
def Obligations.SquareRootWithinHalfUnit : Prop :=
  ∀ (e : Fin 2047) (f : BitVec 52), F64.units e f ≠ 0 →
    ∃ x y, F64.sqrt (.fin false e f) = .fin false x y ∧
      (2 * F64.units x y - 2 ^ (x.val - 1)) ^ 2 ≤ 4 * (F64.units e f * 2 ^ F64.unitExp) ∧
      4 * (F64.units e f * 2 ^ F64.unitExp) ≤ (2 * F64.units x y + 2 ^ (x.val - 1)) ^ 2

/-- R233: `floor` is exact, and keeps zeros, infinities and NaN. -/
def Obligations.FloorIsExact : Prop :=
  (∀ neg e f, F64IsExactly (F64.floor (.fin neg e f)) (F64.signed neg e f / 2 ^ F64.unitExp) 1) ∧
  F64.floor F64.zero = F64.zero ∧ F64.floor F64.negZero = F64.negZero ∧
  (∀ e f, F64.units e f < 2 ^ F64.unitExp → F64.floor (.fin false e f) = F64.zero) ∧
  (∀ e f, 0 < F64.units e f → F64.units e f ≤ 2 ^ F64.unitExp →
    F64.floor (.fin true e f) = (F64.ofNat 1).neg) ∧
  (∀ neg, F64.floor (.inf neg) = .inf neg) ∧ F64.floor .nan = .nan

/-- R193 (L1, L2, L4, L5), R224 (N1, N2, N4, N5): the special values and the sign of the default
logarithms. -/
def Obligations.LogarithmSpecialValuesAndSign : Prop :=
  ∀ log, log = Logarithm.log10 ∨ log = Logarithm.ln →
    log F64.zero = .inf true ∧ log (F64.ofNat 1) = F64.zero ∧ log .nan = .nan ∧
    log (.inf false) = .inf false ∧ (∀ x : F64, x.lt F64.zero = true → log x = .nan) ∧
    ∀ x : F64, (log x).gt F64.zero = true ↔ x.gt (F64.ofNat 1) = true

/-- The integer bounds from which the default logarithms are rounded enclose the real logarithm, at every
precision and for every positive finite value; and a value that they settle (log entry 11) is nearest to the
exact logarithm (R193, R224). -/
def Obligations.LogarithmBoundsEnclose : Prop :=
  (∀ p k : Nat, 0 < k →
    ((Logarithm.lnBounds p k).1 : ℝ) ≤ 2 ^ p * Real.log ((k : ℝ) / 2 ^ F64.unitExp) ∧
    2 ^ p * Real.log ((k : ℝ) / 2 ^ F64.unitExp) ≤ ((Logarithm.lnBounds p k).2 : ℝ)) ∧
  ∀ (e : Fin 2047) (f : BitVec 52) (v : F64), F64.units e f ≠ 0 →
    (∀ p, Logarithm.lnAt p (F64.units e f) = some v →
      F64IsNearestTo v (Real.log ((F64.units e f : ℝ) / 2 ^ F64.unitExp))) ∧
    ∀ p ∈ Logarithm.precisions, Logarithm.log10At p (F64.units e f) = some v →
      F64IsNearestTo v (Real.logb 10 ((F64.units e f : ℝ) / 2 ^ F64.unitExp))

/-- R193, R224: the default logarithms are non-decreasing from `+0.0` to infinity (L3, N3); with the special
values and the sign above, they satisfy all that `Config.Admissible` asks. -/
def Obligations.DefaultLogarithmsNonDecreasing : Prop :=
  NonDecreasing Logarithm.log10 ∧ NonDecreasing Logarithm.ln

/-! ### Sample decoder and transform -/

/-- R140, R141: `DECS i`; the sample value lies in the range of 16 bits, and each value of it comes from
exactly one byte pair. -/
def Obligations.DecsReadsLittleEndianSample : Prop :=
  (∀ (s : State) (i : Fin 2048) (lo hi : Byte),
    s.blk.read (2 * i.val) = some lo → s.blk.read (2 * i.val + 1) = some hi →
    ∃ v : BitVec 16, exec (.decs i) s = .next { s with smp := Reg.put v } ∧ v.toInt = sampleValue lo hi) ∧
  (∀ (s : State) (i : Fin 2048), s.blk.read (2 * i.val) = none →
    exec (.decs i) s = .fault (.unwrittenRead (encode (.decs i)) .blk (2 * i.val))) ∧
  (∀ lo hi : Byte, -32768 ≤ sampleValue lo hi ∧ sampleValue lo hi ≤ 32767) ∧
  ∀ z : Int, -32768 ≤ z → z ≤ 32767 →
    ∃ lo hi : Byte, sampleValue lo hi = z ∧
      ∀ lo' hi' : Byte, sampleValue lo' hi' = z → lo' = lo ∧ hi' = hi

/-- R142: `NORM i` decodes the sample and writes exactly `SMP / 32768` into `X[i]`. -/
def Obligations.NormWritesExactFraction : Prop :=
  (∀ (s : State) (i : Fin 2048) (lo hi : Byte),
    s.blk.read (2 * i.val) = some lo → s.blk.read (2 * i.val + 1) = some hi →
    ∃ (v : BitVec 16) (x : F64),
      exec (.norm i) s = .next { s with smp := Reg.put v, xBuf := s.xBuf.write i.val x } ∧
      v.toInt = sampleValue lo hi ∧ x = (F64.ofInt (2 * v.toInt)).div (F64.ofNat 65536) ∧
      F64IsExactly x v.toInt 32768 ∧ (v = 0 → x = F64.zero)) ∧
  ∀ (s : State) (i : Fin 2048), s.blk.read (2 * i.val) = none →
    ∃ w, exec (.norm i) s = .fault (.unwrittenRead w .blk (2 * i.val))

/-- R143, R144: `LDX` loads every sample of the Block, in order and without a window. -/
def Obligations.LdxLoadsEverySample : Prop :=
  (∀ (s : State) (b : Nat → Byte), s.blk.Holds 4096 b →
    ∃ t : State, exec .ldx s = .next t ∧ t.xBuf.Holds 2048 (fun n => sampleInput (b (2 * n)) (b (2 * n + 1))) ∧
      (∀ i, 2048 ≤ i → t.xBuf.read i = s.xBuf.read i) ∧
      t.smp = Reg.put (sample16 (b 4094) (b 4095)) ∧ s.frame [.smp, .x] t) ∧
  ∀ s : State, s.blk.read 0 = none → ∃ w, exec .ldx s = .fault (.unwrittenRead w .blk 0)

/-- R147: `TWRD k`, in every state; and the two symmetries of the ROM (R146), the first up to the sign of the
zero at `k = 512`, where R146 also says that a zero part is `+0.0` (log entry 10). -/
def Obligations.TwrdReadsTheSymmetricRom : Prop :=
  (∀ (s : State) (k : Fin 1024), exec (.twrd k) s = .next { s with twv := Reg.put (Rom.twiddle k.val) }) ∧
  Rom.twiddle 0 = ⟨F64.ofNat 1, F64.zero⟩ ∧ Rom.twiddle 512 = ⟨F64.zero, (F64.ofNat 1).neg⟩ ∧
  (∀ k, 1 ≤ k → k ≤ 1023 →
    (k ≠ 512 → (Rom.twiddle (1024 - k)).re = (Rom.twiddle k).re.neg) ∧
    (Rom.twiddle (1024 - k)).im = (Rom.twiddle k).im) ∧
  ∀ k, 1 ≤ k → k ≤ 511 →
    Rom.twiddle (512 - k) = ⟨(Rom.twiddle k).im.neg, (Rom.twiddle k).re.neg⟩

/-- R146: every part of every ROM entry is within half a unit in its last place of the cosine and of minus
the sine that it stands for. -/
def Obligations.TwiddleRomIsRounded : Prop :=
  ∀ k < 1024, ∃ s e f s' e' f', Rom.twiddle k = ⟨.fin s e f, .fin s' e' f'⟩ ∧
    2 * |(F64.signed s e f : ℝ) - 2 ^ F64.unitExp * Real.cos (2 * Real.pi * k / 2048)| ≤ 2 ^ (e.val - 1) ∧
    2 * |(F64.signed s' e' f' : ℝ) - 2 ^ F64.unitExp * -Real.sin (2 * Real.pi * k / 2048)| ≤
      2 ^ (e'.val - 1)

/-- R148, R149: `BREV`, and the bit reversal of its index; with any element of `X` unwritten it faults at the
first it comes to. -/
def Obligations.BrevLoadsReversedInput : Prop :=
  (∀ (s : State) (x : Nat → F64), s.xBuf.Holds 2048 x →
    ∃ t : State, exec .brev s = .next t ∧ t.aBuf.Holds 2048 (fun j => ⟨x (bitrev11 j), F64.zero⟩) ∧
      (∀ i, 2048 ≤ i → t.aBuf.read i = s.aBuf.read i) ∧ s.frame [.a] t) ∧
  (∀ (s : State) (n : Nat), n < 2048 → s.xBuf.read n = none →
    ∃ j < 2048, s.xBuf.read (bitrev11 j) = none ∧ (∀ i < j, (s.xBuf.read (bitrev11 i)).isSome = true) ∧
      exec .brev s = .fault (.unwrittenRead (encode .brev) .x (bitrev11 j))) ∧
  ∀ j < 2048, bitrev11 j < 2048 ∧ bitrev11 (bitrev11 j) = j ∧
    ∀ b ≤ 10, (bitrev11 j).testBit b = j.testBit (10 - b)

/-- R150, R151, R398: `BFLY g, p`: both outputs from the old values of both inputs. -/
def Obligations.ButterflyFromOldValues : Prop :=
  ∀ (s : State) (g : Fin 16) (p : Fin 2048), 1 ≤ g.val → g.val ≤ 11 →
    p.val % 2 ^ g.val < 2 ^ (g.val - 1) →
    let h := 2 ^ (g.val - 1)
    let k := p.val % 2 ^ g.val * 2 ^ (11 - g.val)
    let w := Rom.twiddle k
    k < 1024 ∧ p.val + h < 2048 ∧
    (∀ a b : Cplx, s.aBuf.read p.val = some a → s.aBuf.read (p.val + h) = some b →
      let t : Cplx := ⟨(w.re.mul b.re).sub (w.im.mul b.im), (w.re.mul b.im).add (w.im.mul b.re)⟩
      exec (.bfly g p) s = .next { s with
        twv := Reg.put w
        aBuf := (s.aBuf.write p.val ⟨a.re.add t.re, a.im.add t.im⟩).write (p.val + h)
          ⟨a.re.sub t.re, a.im.sub t.im⟩ }) ∧
    (s.aBuf.read p.val = none →
      exec (.bfly g p) s = .fault (.unwrittenRead (encode (.bfly g p)) .a p.val))

/-- R152: `STAGE g`: every pair gets the butterfly of its old values, so the order does not matter. -/
def Obligations.StageIsOneButterflyPerPair : Prop :=
  (∀ (s : State) (a : Nat → Cplx) (g : Fin 16), 1 ≤ g.val → g.val ≤ 11 → s.aBuf.Holds 2048 a →
    ∃ t : State, exec (.stage g) s = .next t ∧
      (∀ p < 2048, p % 2 ^ g.val < 2 ^ (g.val - 1) →
        let h := 2 ^ (g.val - 1)
        let v := cmul (Rom.twiddle (p % 2 ^ g.val * 2 ^ (11 - g.val))) (a (p + h))
        t.aBuf.read p = some (cadd (a p) v) ∧ t.aBuf.read (p + h) = some (csub (a p) v)) ∧
      (∀ i, 2048 ≤ i → t.aBuf.read i = s.aBuf.read i) ∧
      t.twv = Reg.put (Rom.twiddle ((2 ^ (g.val - 1) - 1) * 2 ^ (11 - g.val))) ∧ s.frame [.twv, .a] t) ∧
  ∀ (s : State) (g : Fin 16), 1 ≤ g.val → g.val ≤ 11 → s.aBuf.read 0 = none →
    ∃ w, exec (.stage g) s = .fault (.unwrittenRead w .a 0)

/-- R153, R154: `RFFT` is `BREV`, the stages 1 to 11 in order, and the copy of the bins 0 to 1024; with any
element of `X` unwritten it faults as `BREV` does. -/
def Obligations.RfftIsItsStages : Prop :=
  (∀ (s : State) (x : Nat → F64), s.xBuf.Holds 2048 x →
    ∃ u : Nat → State, exec .brev s = .next (u 0) ∧
      (∀ g : Fin 16, 1 ≤ g.val → g.val ≤ 11 → exec (.stage g) (u (g.val - 1)) = .next (u g.val)) ∧
      ∃ t : State, exec .rfft s = .next t ∧ t = { u 11 with sBuf := t.sBuf } ∧
        (∀ k ≤ 1024, t.sBuf.read k = (u 11).aBuf.read k ∧ (t.sBuf.read k).isSome = true) ∧
        (∀ k, 1024 < k → t.sBuf.read k = s.sBuf.read k) ∧ s.frame [.twv, .a, .s] t) ∧
  ∀ (s : State) (n : Nat), n < 2048 → s.xBuf.read n = none →
    ∃ j < 2048, s.xBuf.read (bitrev11 j) = none ∧ (∀ i < j, (s.xBuf.read (bitrev11 i)).isSome = true) ∧
      ∃ w, exec .rfft s = .fault (.unwrittenRead w .x (bitrev11 j))

/-- R155: the spectrum depends on `X` alone, with the default network and with any replacement. -/
def Obligations.SpectrumDependsOnInputAlone : Prop :=
  (∀ (s s' : State) (x : Nat → F64), s.xBuf.Holds 2048 x → s'.xBuf.Holds 2048 x →
    ∃ t t' : State, exec .rfft s = .next t ∧ exec .rfft s' = .next t' ∧
      ∀ k ≤ 1024, t.sBuf.read k = t'.sBuf.read k) ∧
  ∀ (c : Config) (f : List F64 → Nat → Cplx) (s : State) (x : Nat → F64), c.fft = .replaced f →
    s.xBuf.Holds 2048 x →
    ∃ t : State, rfftOp c s = .ok t ∧ t.sBuf.Holds 1025 (f ((List.range 2048).map x))

/-- R156: the spectra of a constant, an impulse at 0 and an alternating input, for every sample value. -/
def Obligations.SpectraOfSimpleInputs : Prop :=
  ∀ (s : State) (smp : BitVec 16),
    let x := normalise smp
    (s.xBuf.Holds 2048 (fun _ => x) →
      ∃ (t : State) (z : Nat → Cplx), exec .rfft s = .next t ∧ t.sBuf.Holds 1025 z ∧ F64IsMultiple (z 0).re 2048 x ∧
        F64IsZero (z 0).im ∧ ∀ k, 1 ≤ k → k ≤ 1024 → CplxIsZero (z k)) ∧
    (s.xBuf.Holds 2048 (fun n => if n = 0 then x else F64.zero) →
      ∃ (t : State) (z : Nat → Cplx), exec .rfft s = .next t ∧ t.sBuf.Holds 1025 z ∧
        ∀ k ≤ 1024, F64IsMultiple (z k).re 1 x ∧ F64IsZero (z k).im) ∧
    (s.xBuf.Holds 2048 (fun n => if n % 2 = 0 then x else x.neg) →
      ∃ (t : State) (z : Nat → Cplx), exec .rfft s = .next t ∧ t.sBuf.Holds 1025 z ∧ F64IsMultiple (z 1024).re 2048 x ∧
        F64IsZero (z 1024).im ∧ ∀ k ≤ 1023, CplxIsZero (z k))

/-! ### Magnitude and dB scaler -/

/-- R190: `MAG k`: the formula, and a result that is never negative and never `-0.0`. -/
def Obligations.MagIsRootOfSquares : Prop :=
  (∀ (s : State) (k : Fin 2048) (z : Cplx), k.val ≤ 1024 → s.sBuf.read k.val = some z →
    ∃ m, exec (.mag k) s = .next { s with magv := Reg.put m } ∧
      m = ((z.re.mul z.re).add (z.im.mul z.im)).sqrt ∧ (m = .nan ∨ F64NonNegative m) ∧
      (CplxIsZero z → m = F64.zero)) ∧
  ∀ (s : State) (k : Fin 2048), k.val ≤ 1024 → s.sBuf.read k.val = none →
    exec (.mag k) s = .fault (.unwrittenRead (encode (.mag k)) .s k.val)

/-- R192: `DB`, with the default logarithm, in every state.  That it goes on with an unwritten `MAGV`, with the
value held and the read recorded, is the model's choice, log entries 1, 5 and 23. -/
def Obligations.DbIsTwentyLog : Prop :=
  (∀ s : State, s.magv.written = true →
    exec .db s = .next { s with dbv := Reg.put ((F64.ofNat 20).mul (Logarithm.log10 s.magv.value)) }) ∧
  (∀ s : State, s.magv.written = false →
    exec .db s = .next { s with
      dbv := Reg.put ((F64.ofNat 20).mul (Logarithm.log10 s.magv.value))
      faultLog := s.faultLog ++ [.unwrittenRead (encode .db) .magv 0] }) ∧
  (F64.ofNat 20).mul (Logarithm.log10 F64.zero) = .inf true ∧
  (F64.ofNat 20).mul (Logarithm.log10 (F64.ofNat 1)) = F64.zero ∧
  (F64.ofNat 20).mul (Logarithm.log10 (F64.ofNat 10)) = F64.ofNat 20

/-- R194: `PEAK`: from `+0.0` at its start, each maximum by its own strict comparison, over the bins 0 to
1024 in ascending order. -/
def Obligations.PeakTracksBothMaxima : Prop :=
  (∀ (s : State) (z : Nat → Cplx), s.sBuf.Holds 1025 z →
    let mag := fun k => (((z k).re.mul (z k).re).add ((z k).im.mul (z k).im)).sqrt
    let db := fun k => (F64.ofNat 20).mul (Logarithm.log10 (mag k))
    ∃ t : State, exec .peak s = .next t ∧
      t.magMax = Reg.put
        ((List.range 1025).foldl (fun m k => if (mag k).gt m then mag k else m) F64.zero) ∧
      t.dbMax = Reg.put
        ((List.range 1025).foldl (fun m k => if (db k).gt m then db k else m) F64.zero) ∧
      t.magv = Reg.put (mag 1024) ∧ t.dbv = Reg.put (db 1024) ∧
      s.frame [.magv, .dbv, .maxima] t) ∧
  ∀ s : State, s.sBuf.read 0 = none → ∃ w, exec .peak s = .fault (.unwrittenRead w .s 0)

/-- R195: both are maxima of their values and `+0.0`, and with a non-decreasing logarithm (and L1 and L5 at NaN)
the larger dB value is the dB value of the larger magnitude; with any configuration that the spec admits
`DB_MAX` is `+0.0` exactly when no magnitude is above 1.0 (R194, R197). -/
def Obligations.PeakCoupling : Prop :=
  ∀ (c : Config) (s : State) (z : Nat → Cplx), s.sBuf.Holds 1025 z →
    ∃ t : State, peakOp c s = .ok t ∧
      (∀ k ≤ 1024, (magnitude (z k)).gt t.magMax.value = false ∧
        (decibel c (magnitude (z k))).gt t.dbMax.value = false) ∧
      (t.magMax.value = F64.zero ∨ ∃ k ≤ 1024, t.magMax.value = magnitude (z k)) ∧
      (t.dbMax.value = F64.zero ∨ ∃ k ≤ 1024, t.dbMax.value = decibel c (magnitude (z k))) ∧
      (NonDecreasing c.log10 → c.log10 F64.zero = .inf true → c.log10 .nan = .nan →
        t.dbMax.value = runningMax F64.zero ((F64.ofNat 20).mul (c.log10 t.magMax.value))) ∧
      (c.Admissible → (t.dbMax.value = F64.zero ↔
        ∀ k ≤ 1024, (magnitude (z k)).gt (F64.ofNat 1) = false))

/-! ### Color mapper -/

/-- R220, R222: `FREQ` and `HUE`, in every state.  That they go on with an unwritten source, with the value held
and the read recorded, is the model's choice, log entries 1, 5 and 23. -/
def Obligations.FreqAndHueFormulas : Prop :=
  (∀ s : State, s.magMax.written = true → exec .freq s = .next { s with
    domFreq := Reg.put ((s.magMax.value.mul (F64.ofNat 44100)).div (F64.ofNat 1025)) }) ∧
  (∀ s : State, s.magMax.written = false → exec .freq s = .next { s with
    domFreq := Reg.put ((s.magMax.value.mul (F64.ofNat 44100)).div (F64.ofNat 1025))
    faultLog := s.faultLog ++ [.unwrittenRead (encode .freq) .magMax 0] }) ∧
  (∀ s : State, s.domFreq.written = true → exec .hue s = .next { s with
    hue := Reg.put (((s.domFreq.value.mul (F64.ofNat 360)).div (F64.ofNat 22050)).mul
      (F64.ofBits 0x3FF3333333333333)) }) ∧
  ∀ s : State, s.domFreq.written = false → exec .hue s = .next { s with
    hue := Reg.put (((s.domFreq.value.mul (F64.ofNat 360)).div (F64.ofNat 22050)).mul
      (F64.ofBits 0x3FF3333333333333))
    faultLog := s.faultLog ++ [.unwrittenRead (encode .hue) .domFreq 0] }

/-- R221, R223: the "dominant frequency" and the hue are non-decreasing functions of `MAG_MAX`. -/
def Obligations.FreqAndHueGrowWithMagnitude : Prop :=
  ∀ m m' : F64, F64NonNegative m → F64NonNegative m' → F64Le m m' →
    F64Le (dominantFrequency m) (dominantFrequency m') ∧
    F64Le (hueOf (dominantFrequency m)) (hueOf (dominantFrequency m'))

/-- R224: `BRI`, with the default logarithm, in every state; no case of `DB_MAX` is replaced.  That it goes on with
an unwritten `DB_MAX`, with the value held and the read recorded, is the model's choice, log entries 1, 5 and
23. -/
def Obligations.BriIsLogBaseNinety : Prop :=
  (∀ s : State, s.dbMax.written = true → exec .bri s = .next { s with
    bri := Reg.put ((Logarithm.ln s.dbMax.value).div (Logarithm.ln (F64.ofNat 90))) }) ∧
  (∀ s : State, s.dbMax.written = false → exec .bri s = .next { s with
    bri := Reg.put ((Logarithm.ln s.dbMax.value).div (Logarithm.ln (F64.ofNat 90)))
    faultLog := s.faultLog ++ [.unwrittenRead (encode .bri) .dbMax 0] }) ∧
  Logarithm.ln (F64.ofNat 90) = F64.ofBits 0x4011FFCE1B312C10 ∧
  brightnessOf Config.default F64.zero = .inf true ∧
  brightnessOf Config.default (F64.ofNat 1) = F64.zero ∧
  brightnessOf Config.default (F64.ofNat 90) = F64.ofNat 1

/-- R226, R227: the function `hsv`, and its domain, which the hue alone decides. -/
def Obligations.HsvSectorAlgorithm : Prop :=
  (∀ (h s v : F64) (i : Int), s.ieeeEq F64.zero = true →
    (h.div (F64.ofNat 60)).floorInt = some i → i.natAbs < 2 ^ 31 → hsvOf h s v = some ⟨v, v, v⟩) ∧
  (∀ (h s v : F64) (i : Int), s.ieeeEq F64.zero = false →
    (h.div (F64.ofNat 60)).floorInt = some i → i.natAbs < 2 ^ 31 →
    let one := F64.ofNat 1
    let f := (h.div (F64.ofNat 60)).sub (F64.ofInt i)
    let p := v.mul (one.sub s)
    let q := v.mul (one.sub (s.mul f))
    let t := v.mul (one.sub (s.mul (one.sub f)))
    hsvOf h s v = some
      (if i.tmod 6 = 0 then ⟨v, t, p⟩ else if i.tmod 6 = 1 then ⟨q, v, p⟩
       else if i.tmod 6 = 2 then ⟨p, v, t⟩ else if i.tmod 6 = 3 then ⟨p, q, v⟩
       else if i.tmod 6 = 4 then ⟨t, p, v⟩ else ⟨v, p, q⟩)) ∧
  (∀ h s v : F64, hsvOf h s v = none ↔
    h = .nan ∨ (∃ neg, h = .inf neg) ∨
    ∃ i : Int, (h.div (F64.ofNat 60)).floorInt = some i ∧ 2 ^ 31 ≤ i.natAbs) ∧
  ∀ (i : Int) (v p q t : F64), i < 0 →
    sectorCase i v p q t = if i % 6 = 0 then ⟨v, t, p⟩ else ⟨v, p, q⟩

/-- R228: `HSV` runs `hsv` with saturation 1.0, in every state, and its channels lie between 0 and the brightness.
That it goes on with an unwritten source, with the value held and the read recorded, is the model's choice, log
entries 1, 5 and 23; that `HUE` is read before `BRI` is log entry 20; that a hue out of the domain is the only
fault, a source unwritten too, is log entry 24. -/
def Obligations.HsvChannelsWithinBrightness : Prop :=
  ∀ s : State,
    (∀ o, hsvOf s.hue.value (F64.ofNat 1) s.bri.value = some o →
      (s.hue.written = true → s.bri.written = true →
        exec .hsv s = .next { s with rf := Reg.put o.r, gf := Reg.put o.g, bf := Reg.put o.b }) ∧
      exec .hsv s = .next { s with
        rf := Reg.put o.r, gf := Reg.put o.g, bf := Reg.put o.b
        faultLog := s.faultLog ++
          (if s.hue.written then [] else [.unwrittenRead (encode .hsv) .hue 0]) ++
          (if s.bri.written then [] else [.unwrittenRead (encode .hsv) .bri 0]) } ∧
      ∀ neg e f, s.bri.value = .fin neg e f → ∀ x, x = o.r ∨ x = o.g ∨ x = o.b →
        ∃ neg' e' f', x = .fin neg' e' f' ∧
          if neg then F64.signed neg e f ≤ F64.signed neg' e' f' ∧ F64.signed neg' e' f' ≤ 0
          else neg' = false ∧ F64.signed neg' e' f' ≤ F64.signed neg e f) ∧
    (hsvOf s.hue.value (F64.ofNat 1) s.bri.value = none →
      exec .hsv s = .fault (.hueDomain (encode .hsv) s.hue.value))

/-- R230, R231, R234: the asymmetric clamp, and the domain and values of `to_byte`, which takes every
channel's clamp result. -/
def Obligations.ClampAndToByte : Prop :=
  (∀ x lo hi : F64, x.lt lo = true → clamp x lo hi = F64.zero) ∧
  (∀ x lo hi : F64, x.lt lo = false → x.gt hi = true → clamp x lo hi = F64.ofNat 255) ∧
  (∀ x lo hi : F64, x.lt lo = false → x.gt hi = false → clamp x lo hi = x) ∧
  clamp (F64.ofInt (-5)) (F64.ofNat 0) (F64.ofNat 255) = F64.ofNat 0 ∧
  clamp (F64.ofNat 260) (F64.ofNat 0) (F64.ofNat 255) = F64.ofNat 255 ∧
  clamp (F64.ofNat 100) (F64.ofNat 0) (F64.ofNat 255) = F64.ofNat 100 ∧
  clamp (.inf true) (F64.ofNat 0) (F64.ofNat 255) = F64.ofNat 0 ∧
  clamp (.inf false) (F64.ofNat 0) (F64.ofNat 255) = F64.ofNat 255 ∧
  clamp .nan (F64.ofNat 0) (F64.ofNat 255) = .nan ∧
  clamp F64.negZero (F64.ofNat 0) (F64.ofNat 255) = F64.negZero ∧
  clamp (F64.ofNat 255) (F64.ofNat 0) (F64.ofNat 255) = F64.ofNat 255 ∧
  clamp (F64.ofNat 0) (F64.ofNat 0) (F64.ofNat 255) = F64.ofNat 0 ∧
  clamp (F64.ofNat 5) (F64.ofNat 10) (F64.ofNat 20) = F64.ofNat 0 ∧
  clamp (F64.ofNat 30) (F64.ofNat 10) (F64.ofNat 20) = F64.ofNat 255 ∧
  (∀ (z : F64) (b : Byte), toByte z = some b ↔
    (z = .nan ∧ b = 0) ∨ (z = F64.negZero ∧ b = 0) ∨ z = F64.ofNat b.toNat) ∧
  ∀ x : F64, ∃ b, toByte (clamp x.floor (F64.ofNat 0) (F64.ofNat 255)) = some b

/-- R232: `CHFIN c` completes in every state and for every channel value: the floor of 255 times the value,
between 0 and 255.  That it goes on with an unwritten source, with the value held and the read recorded, is the
model's choice, log entries 1, 5 and 23. -/
def Obligations.ChannelByteForEveryValue : Prop :=
  ∀ (s : State) (c : Channel),
    ∃ b : Byte,
      ((s.channelReg c).written = true → exec (.chfin c) s = .next (s.putChannel c b)) ∧
      ((s.channelReg c).written = false → exec (.chfin c) s = .next { s.putChannel c b with
        faultLog := s.faultLog ++ [.unwrittenRead (encode (.chfin c)) (channelElem c) 0] }) ∧
      match (s.channelReg c).value.mul (F64.ofNat 255) with
      | .nan => b = 0
      | .inf neg => b = if neg then 0 else 255
      | .fin neg e f => (b.toNat : Int) = max 0 (min 255 (F64.signed neg e f / 2 ^ F64.unitExp))

/-- R229, R235: with `DB_MAX` at most 1.0 every channel byte is 0, whatever the hue. -/
def Obligations.QuietMaximumGivesBlack : Prop :=
  ∀ (h d : F64) (o : Rgb), F64NonNegative d → F64Le d (F64.ofNat 1) →
    hsvOf h (F64.ofNat 1) (brightnessOf Config.default d) = some o →
    toByte (channelLevel o.r) = some 0 ∧ toByte (channelLevel o.g) = some 0 ∧
      toByte (channelLevel o.b) = some 0

/-- R236, R238: `PACK` and `UNPK` in every state: what is packed is unpacked, with alpha 0.  That they go on with an
unwritten source, with the value held and the read recorded, is the model's choice, log entries 1, 5 and 23; the
order in which unwritten channels are recorded is log entry 20. -/
def Obligations.PackThenUnpack : Prop :=
  (∀ s : State,
    ∃ c : Word,
      (s.r8.written = true → s.g8.written = true → s.b8.written = true →
        exec .pack s = .next { s with color := Reg.put c }) ∧
      exec .pack s = .next { s with
        color := Reg.put c
        faultLog := s.faultLog ++
          (if s.r8.written then [] else [.unwrittenRead (encode .pack) .r8 0]) ++
          (if s.g8.written then [] else [.unwrittenRead (encode .pack) .g8 0]) ++
          (if s.b8.written then [] else [.unwrittenRead (encode .pack) .b8 0]) } ∧
      c.toNat = s.r8.value.toNat * 2 ^ 16 + s.g8.value.toNat * 2 ^ 8 + s.b8.value.toNat ∧
      ∀ t : State, t.color = Reg.put c →
        exec (.unpk .blue) t = .next { t with fld := Reg.put s.b8.value } ∧
        exec (.unpk .green) t = .next { t with fld := Reg.put s.g8.value } ∧
        exec (.unpk .red) t = .next { t with fld := Reg.put s.r8.value } ∧
        exec (.unpk .alpha) t = .next { t with fld := Reg.put 0 }) ∧
  ∀ (s : State) (f : Field),
    ∃ v : Byte,
      (s.color.written = true → exec (.unpk f) s = .next { s with fld := Reg.put v }) ∧
      (s.color.written = false → exec (.unpk f) s = .next { s with
        fld := Reg.put v
        faultLog := s.faultLog ++ [.unwrittenRead (encode (.unpk f)) .color 0] }) ∧
      v.toNat = s.color.value.toNat / 2 ^ (8 * f.code) % 256

/-! ### Gate -/

/-- R270: `GATE`, in every state.  That it goes on with an unwritten `COLOR`, with the value held and the read
recorded, is the model's choice, log entries 1, 5 and 23. -/
def Obligations.GateComparesAndLatches : Prop :=
  (∀ s : State, s.color.written = true → s.color.value ≠ s.prevColor →
    exec .gate s = .next { s with gateSend := true, prevColor := s.color.value }) ∧
  (∀ s : State, s.color.written = true → s.color.value = s.prevColor →
    exec .gate s = .next { s with gateSend := false }) ∧
  ∀ s : State, s.color.written = false →
    exec .gate s = .next { s with
      gateSend := decide (s.color.value ≠ s.prevColor)
      prevColor := s.color.value
      faultLog := s.faultLog ++ [.unwrittenRead (encode .gate) .color 0] }

/-! ### Transmitter -/

/-- R290, R292 to R294: `FBLD r` in every state: all 16 bytes of each frame; two colors with alpha 0 give the same
four frames exactly when they are equal.  That the payload is built with an unwritten `COLOR` too, from the value
held and with the read recorded, is the model's choice, log entries 1, 5 and 23. -/
def Obligations.FbldBuildsTheFrame : Prop :=
  (∀ s : State, exec (.fbld .setup) s = .next { s with fbuf := (Memory.fill
    [0x01, 0x00, 0x95, 0x02, 0x80, 0xBF, 0, 0, 0, 0, 0, 0, 0, 0, 0, 0]) }) ∧
  (∀ s : State, exec (.fbld .content) s = .next { s with fbuf := (Memory.fill
    [0x01, 0x00, 0x80, 0x02, 0x52, 0x20, 0, 0, 0, 0, 0, 0, 0, 0, 0, 0]) }) ∧
  (∀ s : State, s.color.written = true → exec (.fbld .payload) s = .next { s with fbuf := (Memory.fill
    [0x01, 0x00, 0x83, 0x03, s.color.value.extractLsb' 16 8, s.color.value.extractLsb' 8 8,
     s.color.value.extractLsb' 0 8, 0, 0, 0, 0, 0, 0, 0, 0, 0]) }) ∧
  (∀ s : State, exec (.fbld .teardown) s = .next { s with fbuf := (Memory.fill
    [0x01, 0x00, 0x93, 0x02, 0x03, 0x80, 0, 0, 0, 0, 0, 0, 0, 0, 0, 0]) }) ∧
  (∀ s : State, s.color.written = false → exec (.fbld .payload) s = .next { s with
    fbuf := Memory.fill [0x01, 0x00, 0x83, 0x03, s.color.value.extractLsb' 16 8,
      s.color.value.extractLsb' 8 8, s.color.value.extractLsb' 0 8, 0, 0, 0, 0, 0, 0, 0, 0, 0]
    faultLog := s.faultLog ++ [.unwrittenRead (encode (.fbld .payload)) .color 0] }) ∧
  (∀ (l : List Byte) (i : Nat), (Memory.fill l).read i = l[i]?) ∧
  ∀ c c' : Word, alphaOf c = 0 → alphaOf c' = 0 →
    ((∀ r : Role, frameOf r c = frameOf r c') ↔ c = c')

/-- R295 to R297: `FWR r` by the sink's answer; with none it waits (R361, R374), which as a next state with a
mark is the model's choice, log entry 15, as it is that an answered `FWR` leaves the device model as it was,
log entry 22.  With any byte of `FBUF` unwritten it faults at the first. -/
def Obligations.FwrByAnswer : Prop :=
  (∀ (s : State) (r : Role) (f : List Byte) (a : SinkAnswer) (rest : List SinkAnswer),
    f.length = 16 → (∀ i < 16, s.fbuf.read i = f[i]?) → s.sink = a :: rest →
    ∃ (t : State) (n : Fin 17), exec (.fwr r) s = .next t ∧ t.wrOk = decide (a = .count 16) ∧
      t.events = s.events ++ [.write f a n] ∧ (a = .count 16 → n = 16) ∧
      t.sink = rest ∧ t.producer = s.producer ∧ t.waiting = none ∧ s.frame [.wrOk, .interfaces] t) ∧
  (∀ (s : State) (r : Role) (f : List Byte),
    f.length = 16 → (∀ i < 16, s.fbuf.read i = f[i]?) → s.sink = [] →
    exec (.fwr r) s = .next { s with waiting := some (.frame r) }) ∧
  ∀ (s : State) (r : Role) (n : Nat), n < 16 → s.fbuf.read n = none →
    ∃ j < 16, s.fbuf.read j = none ∧ (∀ i < j, (s.fbuf.read i).isSome = true) ∧
      exec (.fwr r) s = .fault (.unwrittenRead (encode (.fwr r)) .fbuf j)

/-- R298, R299, R301 (and the write counts of R300): `TX` writes the four frames in order and ends at the
first failed write; the state after all four writes succeed, and after the write of frame `r` fails.  That it
goes on with an unwritten `COLOR`, with the value held and the read recorded once, is the model's choice, log
entries 1, 5, 8 and 23. -/
def Obligations.TxWritesInOrderUntilFailure : Prop :=
  (∀ (s : State) (rest : List SinkAnswer), s.waiting = none →
    s.sink = [.count 16, .count 16, .count 16, .count 16] ++ rest →
    ∃ t : State, exec .tx s = .next t ∧ t.txStatus = 1 ∧ t.txFailIdx = 0 ∧ t.wrOk = true ∧
      t.events = s.events ++ [wholeWrite .setup s.color.value, wholeWrite .content s.color.value,
        wholeWrite .payload s.color.value, wholeWrite .teardown s.color.value] ∧
      t.fbuf = Memory.fill (frameOf .teardown s.color.value) ∧
      t.devColor = s.color.value ∧ t.devIndet = false ∧
      t.sink = rest ∧ t.producer = s.producer ∧ t.waiting = none ∧
      t.faultLog = s.faultLog ++ (if s.color.written then [] else [.unwrittenRead (encode .tx) .color 0]) ∧
      s.frame [.fbuf, .wrOk, .txStatus, .interfaces, .faultLog, .device] t) ∧
  ∀ (s : State) (r : Role) (a : SinkAnswer) (rest : List SinkAnswer), s.waiting = none →
    a ≠ .count 16 →
    s.sink = (rolesBefore r).map (fun _ => SinkAnswer.count 16) ++ a :: rest →
    ∃ (t : State) (n : Fin 17), exec .tx s = .next t ∧
      t.txStatus = 2 ∧ t.txFailIdx = BitVec.ofNat 2 r.code ∧ t.wrOk = false ∧
      t.events = s.events ++ (rolesBefore r).map (fun q => wholeWrite q s.color.value) ++
        [.write (frameOf r s.color.value) a n] ∧
      t.fbuf = Memory.fill (frameOf r s.color.value) ∧
      t.devColor = s.devColor ∧ t.devIndet = true ∧
      t.sink = rest ∧ t.producer = s.producer ∧ t.waiting = none ∧
      t.faultLog = s.faultLog ++ (if s.color.written then [] else [.unwrittenRead (encode .tx) .color 0]) ∧
      s.frame [.fbuf, .wrOk, .txStatus, .interfaces, .faultLog, .device] t

/-- R361, R374: a sink that answers late changes nothing: a `TX` that waits and is then answered ends exactly
as one whose answers were all there.  How a wait is modelled is log entry 7; that a `TX` with an unwritten
`COLOR` goes on, and records this once and not again after a wait, is log entries 8 and 23. -/
def Obligations.TxWaitIsTransparent : Prop :=
  ∀ (s t : State) (early late : List SinkAnswer), s.waiting = none →
    exec .tx { s with sink := early } = .next t → t.waiting.isSome = true →
    (∃ r, t.waiting = some (.transmission r)) ∧ t.sink = [] ∧
    exec .tx { t with sink := late } = exec .tx { s with sink := early ++ late }
end

