-- ==== Sys2Proof/Laws/Float.lean ====
section
/-! SUPPORT. What one rounding does (00_scope.md R11): the result is a finite value at most half a unit in
the last place away, exact when the value is representable, and bounded when the value is. -/

namespace Sys2Proof

open F64 in
/-- The nearest integer is at most half of the divisor away. -/
theorem F64.nearest_close (u d : Nat) (hd : 0 < d) :
    2 * u ≤ 2 * (nearest u d * d) + d ∧ 2 * (nearest u d * d) ≤ 2 * u + d := by
  have h := Nat.div_add_mod u d
  have hm := Nat.mod_lt u hd
  unfold nearest
  split
  · rw [Nat.add_mul, Nat.one_mul, Nat.mul_comm (u / d) d]
    omega
  · rw [Nat.mul_comm (u / d) d]
    omega

/-- The nearest integer of a ratio at most `b` is at most `b`. -/
theorem F64.nearest_le {u d b : Nat} (hd : 0 < d) (h : u ≤ b * d) : F64.nearest u d ≤ b := by
  have hq : u / d ≤ b := (Nat.div_le_iff_le_mul_add_pred hd).mpr (by rw [Nat.mul_comm] at h; omega)
  unfold F64.nearest
  split
  · rename_i hr
    rcases Nat.lt_or_ge (u / d) b with hlt | hge
    · omega
    · have hb : u / d = b := le_antisymm hq hge
      have hdm := Nat.div_add_mod u d
      rw [hb, Nat.mul_comm] at hdm
      have : u % d = 0 := by omega
      omega
  · exact hq

/-- The nearest integer of a ratio at least `b` is at least `b`. -/
theorem F64.le_nearest {u d b : Nat} (hd : 0 < d) (h : b * d ≤ u) : b ≤ F64.nearest u d := by
  have hq : b ≤ u / d := (Nat.le_div_iff_mul_le hd).mpr h
  unfold F64.nearest
  split <;> omega

/-- The nearest integer of an integer ratio is that integer. -/
theorem F64.nearest_mul (b d : Nat) (hd : 0 < d) : F64.nearest (b * d) d = b :=
  le_antisymm (F64.nearest_le hd le_rfl) (F64.le_nearest hd le_rfl)

/-- Rounding is monotone in the numerator. -/
theorem F64.nearest_mono {u v d : Nat} (h : u ≤ v) : F64.nearest u d ≤ F64.nearest v d := by
  have hq : u / d ≤ v / d := Nat.div_le_div_right h
  rcases Nat.lt_or_ge (u / d) (v / d) with hlt | hge
  · have h1 : F64.nearest u d ≤ u / d + 1 := by unfold F64.nearest; split <;> omega
    have h2 : v / d ≤ F64.nearest v d := by unfold F64.nearest; split <;> omega
    omega
  · have he : u / d = v / d := le_antisymm hq hge
    have hu := Nat.div_add_mod u d
    have hv := Nat.div_add_mod v d
    rw [he] at hu
    have hm : u % d ≤ v % d := by omega
    unfold F64.nearest
    rw [he]
    split <;> split <;> omega

/-- The exponent and fraction fields that hold `q * 2^e` units. -/
theorem F64.units_pack (neg : Bool) {e q : Nat} (hq : q ≤ 2 ^ 53) (he : e = 0 ∨ 2 ^ 52 ≤ q)
    (hfit : (e * 2 ^ 52 + q) / 2 ^ 52 < 2047) :
    ∃ x f, F64.pack neg (e * 2 ^ 52 + q) = .fin neg x f ∧ F64.units x f = q * 2 ^ e := by
  refine ⟨⟨(e * 2 ^ 52 + q) / 2 ^ 52, hfit⟩, BitVec.ofNat 52 (e * 2 ^ 52 + q), by simp only [F64.pack, hfit, dite_true], ?_⟩
  have hmod : (e * 2 ^ 52 + q) % 2 ^ 52 = q % 2 ^ 52 := by rw [Nat.add_comm, Nat.add_mul_mod_self_right]
  have hdiv : (e * 2 ^ 52 + q) / 2 ^ 52 = e + q / 2 ^ 52 := by
    rw [Nat.add_comm, Nat.add_mul_div_right _ _ (by norm_num), Nat.add_comm]
  simp only [F64.units, BitVec.toNat_ofNat, hmod, hdiv]
  rcases Nat.lt_or_ge q (2 ^ 52) with hlt | hge
  · have he0 : e = 0 := by omega
    subst he0
    rw [Nat.div_eq_of_lt hlt, Nat.mod_eq_of_lt hlt, if_pos (by omega), pow_zero, Nat.mul_one]
  · rcases Nat.lt_or_ge q (2 ^ 53) with hlt53 | hge53
    · have hd : q / 2 ^ 52 = 1 := by omega
      have hr : q % 2 ^ 52 = q - 2 ^ 52 := by omega
      rw [hd, hr, if_neg (by omega), Nat.add_sub_cancel, Nat.add_sub_cancel' hge]
    · have h53 : q = 2 ^ 53 := le_antisymm hq hge53
      subst h53
      rw [show (2 : Nat) ^ 53 / 2 ^ 52 = 2 from by norm_num, show (2 : Nat) ^ 53 % 2 ^ 52 = 0 from by norm_num,
        if_neg (by omega), Nat.add_zero, show e + 2 - 1 = e + 1 from by omega, pow_succ 2 e]
      ring

/-- The bits above the 53rd are counted so that the rest is below `2^53`, and not below `2^52` when any
were dropped. -/
theorem F64.excess_bounds (k : Nat) :
    k < 2 ^ (53 + F64.excess k) ∧ (F64.excess k = 0 ∨ 2 ^ (52 + F64.excess k) ≤ k) := by
  have hlt : k < 2 ^ (Nat.log2 k + 1) := Nat.lt_log2_self
  unfold F64.excess
  constructor
  · exact lt_of_lt_of_le hlt (Nat.pow_le_pow_right (by norm_num) (by omega))
  · rcases Nat.lt_or_ge 52 (Nat.log2 k) with h | h
    · right
      have hk : k ≠ 0 := by
        rintro rfl
        simp at h
      rw [show 52 + (Nat.log2 k - 52) = Nat.log2 k from by omega]
      exact Nat.log2_self_le hk
    · left
      omega

/-- The scaled ratio that one rounding rounds to an integer lies below `2^53`, and not below `2^52` when
bits are dropped. -/
theorem F64.ratio_bounds (n d : Nat) (hd : 0 < d) :
    n * 2 ^ F64.unitExp ≤ 2 ^ 53 * (d * 2 ^ F64.excess (n * 2 ^ F64.unitExp / d)) ∧
    (F64.excess (n * 2 ^ F64.unitExp / d) = 0 ∨
      2 ^ 52 * (d * 2 ^ F64.excess (n * 2 ^ F64.unitExp / d)) ≤ n * 2 ^ F64.unitExp) := by
  generalize n * 2 ^ F64.unitExp = u
  generalize hk : u / d = k
  obtain ⟨h1, h2⟩ := F64.excess_bounds k
  have hlt : u < (k + 1) * d := by
    rw [← hk]
    exact Nat.lt_mul_of_div_lt (Nat.lt_succ_self _) hd
  constructor
  · calc u ≤ (k + 1) * d := le_of_lt hlt
      _ ≤ 2 ^ (53 + F64.excess k) * d := Nat.mul_le_mul_right d h1
      _ = 2 ^ 53 * (d * 2 ^ F64.excess k) := by rw [pow_add]; ring
  · rcases h2 with h2 | h2
    · exact .inl h2
    · right
      calc 2 ^ 52 * (d * 2 ^ F64.excess k) = 2 ^ (52 + F64.excess k) * d := by rw [pow_add]; ring
        _ ≤ k * d := Nat.mul_le_mul_right d h2
        _ ≤ u := by rw [← hk]; exact Nat.div_mul_le_self u d

/-- What `fl(n / d)` is: an infinity, or the finite value of the nearest multiple of `2^e` units, where `e`
is the number of bits of the ratio above the 53rd. -/
theorem F64.ofRatio_cases (neg : Bool) (n d : Nat) (hd : 0 < d) :
    let u := n * 2 ^ F64.unitExp
    let e := F64.excess (u / d)
    F64.ofRatio neg n d = .inf neg ∨
    ∃ x f, F64.ofRatio neg n d = .fin neg x f ∧ F64.units x f = F64.nearest u (d * 2 ^ e) * 2 ^ e := by
  intro u e
  have hpos : 0 < d * 2 ^ e := Nat.mul_pos hd (by positivity)
  obtain ⟨hhi, hlo⟩ := F64.ratio_bounds n d hd
  have hq : F64.nearest u (d * 2 ^ e) ≤ 2 ^ 53 := F64.nearest_le hpos hhi
  have he : e = 0 ∨ 2 ^ 52 ≤ F64.nearest u (d * 2 ^ e) :=
    hlo.imp id fun h => F64.le_nearest hpos h
  by_cases hfit : (e * 2 ^ 52 + F64.nearest u (d * 2 ^ e)) / 2 ^ 52 < 2047
  · right
    rw [F64.ofRatio]
    exact F64.units_pack neg hq he hfit
  · left
    rw [F64.ofRatio]
    show F64.pack neg (e * 2 ^ 52 + F64.nearest u (d * 2 ^ e)) = .inf neg
    rw [F64.pack, dif_neg hfit]

/-- A ratio at most `2^k` rounds to a finite value at most `2^k`. -/
theorem F64.ofRatio_le {k : Nat} (neg : Bool) {n d : Nat} (hd : 0 < d) (hk : k ≤ 1023)
    (h : n ≤ 2 ^ k * d) :
    ∃ x f, F64.ofRatio neg n d = .fin neg x f ∧ F64.units x f ≤ 2 ^ (k + F64.unitExp) := by
  generalize hu : n * 2 ^ F64.unitExp = u
  have hle : u ≤ 2 ^ (k + F64.unitExp) * d := by
    rw [← hu, pow_add]
    calc n * 2 ^ F64.unitExp ≤ 2 ^ k * d * 2 ^ F64.unitExp := Nat.mul_le_mul_right _ h
      _ = 2 ^ k * 2 ^ F64.unitExp * d := by ring
  generalize he : F64.excess (u / d) = e
  have hpos : 0 < d * 2 ^ e := Nat.mul_pos hd (by positivity)
  obtain ⟨hhi, hlo⟩ := F64.ratio_bounds n d hd
  rw [hu, he] at hhi hlo
  have hek : e ≤ k + 1022 := by
    rcases hlo with hlo | hlo
    · omega
    · have h1 : 2 ^ 52 * 2 ^ e ≤ 2 ^ (k + F64.unitExp) := by
        refine Nat.le_of_mul_le_mul_right ?_ hd
        calc 2 ^ 52 * 2 ^ e * d = 2 ^ 52 * (d * 2 ^ e) := by ring
          _ ≤ u := hlo
          _ ≤ _ := hle
      rw [← pow_add] at h1
      have := (Nat.pow_le_pow_iff_right (by norm_num)).mp h1
      simp only [F64.unitExp] at this
      omega
  have hq : F64.nearest u (d * 2 ^ e) ≤ 2 ^ 53 := F64.nearest_le hpos hhi
  have hqe : e = 0 ∨ 2 ^ 52 ≤ F64.nearest u (d * 2 ^ e) := hlo.imp id fun h => F64.le_nearest hpos h
  have hqb : F64.nearest u (d * 2 ^ e) ≤ 2 ^ (k + F64.unitExp - e) := by
    refine F64.nearest_le hpos ?_
    have hs : 2 ^ (k + F64.unitExp - e) * 2 ^ e = 2 ^ (k + F64.unitExp) := by
      rw [← pow_add, Nat.sub_add_cancel (by simp only [F64.unitExp]; omega)]
    calc u ≤ 2 ^ (k + F64.unitExp) * d := hle
      _ = 2 ^ (k + F64.unitExp - e) * (d * 2 ^ e) := by rw [← hs]; ring
  have hfit : (e * 2 ^ 52 + F64.nearest u (d * 2 ^ e)) / 2 ^ 52 < 2047 := by
    rcases Nat.lt_or_ge (F64.nearest u (d * 2 ^ e)) (2 ^ 53) with hlt | hge
    · omega
    · have h1 : (2 : Nat) ^ 53 ≤ 2 ^ (k + F64.unitExp - e) := le_trans hge hqb
      have := (Nat.pow_le_pow_iff_right (by norm_num)).mp h1
      simp only [F64.unitExp] at this
      omega
  obtain ⟨x, f, hx, hun⟩ := F64.units_pack neg hq hqe hfit
  refine ⟨x, f, ?_, ?_⟩
  · rw [F64.ofRatio]
    simp only [hu, he]
    exact hx
  · rw [hun]
    calc F64.nearest u (d * 2 ^ e) * 2 ^ e ≤ 2 ^ (k + F64.unitExp - e) * 2 ^ e := Nat.mul_le_mul_right _ hqb
      _ = 2 ^ (k + F64.unitExp) := by
        rw [← pow_add, Nat.sub_add_cancel (by simp only [F64.unitExp]; omega)]

/-- A ratio that is an integer number `m * 2^j` of units with `m <= 2^53` is exact, below the overflow
threshold. -/
theorem F64.ofRatio_exact (neg : Bool) {n d m j : Nat} (hd : 0 < d) (hm : m ≤ 2 ^ 53)
    (hv : m * 2 ^ j < 2 ^ (1024 + F64.unitExp)) (h : n * 2 ^ F64.unitExp = m * 2 ^ j * d) :
    ∃ x f, F64.ofRatio neg n d = .fin neg x f ∧ F64.units x f = m * 2 ^ j := by
  generalize hvv : m * 2 ^ j = v at hv h ⊢
  have hdiv : n * 2 ^ F64.unitExp / d = v := by rw [h]; exact Nat.mul_div_cancel v hd
  generalize he : F64.excess v = e
  have hpos : 0 < d * 2 ^ e := Nat.mul_pos hd (by positivity)
  -- the dropped bits of `m * 2^j` are zeros
  have hdvd : 2 ^ e ∣ v := by
    rcases (F64.excess_bounds v).2 with h0 | h0
    · rw [he] at h0
      rw [h0]
      simp
    · rw [he] at h0
      have hej : e ≤ j + 1 ∧ (e = j + 1 → m = 2 ^ 53) := by
        have h1 : 2 ^ (52 + e) ≤ 2 ^ (53 + j) := by
          calc 2 ^ (52 + e) ≤ v := h0
            _ ≤ 2 ^ 53 * 2 ^ j := by rw [← hvv]; exact Nat.mul_le_mul_right _ hm
            _ = 2 ^ (53 + j) := by rw [pow_add]
        have h2 := (Nat.pow_le_pow_iff_right (by norm_num)).mp h1
        refine ⟨by omega, fun heq => le_antisymm hm ?_⟩
        have h3 : 2 ^ 53 * 2 ^ j ≤ m * 2 ^ j := by
          rw [hvv, ← pow_add]
          rw [show 53 + j = 52 + e from by rw [heq]; ring]
          exact h0
        exact Nat.le_of_mul_le_mul_right h3 (by positivity)
      rcases Nat.lt_or_ge j e with hje | hje
      · have := hej.2 (by omega)
        rw [← hvv, this, ← pow_add]
        exact pow_dvd_pow 2 (by omega)
      · rw [← hvv]
        exact Dvd.dvd.mul_left (pow_dvd_pow 2 hje) m
  obtain ⟨q, hqv⟩ := hdvd
  have hnear : F64.nearest (n * 2 ^ F64.unitExp) (d * 2 ^ e) = q := by
    rw [h, show v * d = q * (d * 2 ^ e) from by rw [hqv]; ring]
    exact F64.nearest_mul q _ hpos
  rcases F64.ofRatio_cases neg n d hd with hinf | ⟨x, f, hx, hun⟩
  · exfalso
    rw [F64.ofRatio] at hinf
    simp only [hdiv, he, hnear] at hinf
    unfold F64.pack at hinf
    split at hinf
    · cases hinf
    · rename_i hbig
      have hqlt : q < 2 ^ 53 := by
        have h1 := (F64.excess_bounds v).1
        rw [he, pow_add, hqv, Nat.mul_comm] at h1
        exact lt_of_mul_lt_mul_right h1 (Nat.zero_le _)
      have he2046 : 2046 ≤ e := by omega
      have hq52 : 2 ^ 52 ≤ q := by
        rcases (F64.excess_bounds v).2 with h0 | h0
        · omega
        · rw [he, pow_add, hqv, Nat.mul_comm (2 ^ e)] at h0
          exact Nat.le_of_mul_le_mul_right h0 (by positivity)
      have hvbig : (2 : Nat) ^ (1024 + F64.unitExp) ≤ v := by
        rw [hqv]
        calc (2 : Nat) ^ (1024 + F64.unitExp) ≤ 2 ^ (e + 52) :=
            Nat.pow_le_pow_right (by norm_num) (by simp only [F64.unitExp]; omega)
          _ = 2 ^ e * 2 ^ 52 := by rw [pow_add]
          _ ≤ 2 ^ e * q := Nat.mul_le_mul_left _ hq52
      exact absurd hvbig (Nat.not_le.mpr hv)
  · refine ⟨x, f, hx, ?_⟩
    rw [hun, hdiv, he, hnear, hqv, Nat.mul_comm]

end Sys2Proof
end

