-- ==== Sys2Proof/Laws/Memory.lean ====
section
/-! SUPPORT. The laws of the index spaces: read after write, the canonical form, and a space filled from a
list. -/

namespace Sys2Proof.Machine

variable {α : Type}

theorem Memory.read_write_same (m : Memory α) (i : Nat) (v : α) : (m.write i v).read i = some v := by
  induction m with
  | nil => simp [Memory.write, Memory.read]
  | cons head rest ih =>
    obtain ⟨j, w⟩ := head
    unfold Memory.write
    split
    · simp [Memory.read]
    · split
      · simp [Memory.read]
      · rename_i hne
        simp [Memory.read, ih, Ne.symm hne]

theorem Memory.read_write_other (m : Memory α) {i j : Nat} (v : α) (h : j ≠ i) :
    (m.write i v).read j = m.read j := by
  induction m with
  | nil => simp [Memory.write, Memory.read, Ne.symm h]
  | cons head rest ih =>
    obtain ⟨k, w⟩ := head
    unfold Memory.write
    split
    · simp [Memory.read, Ne.symm h]
    · split
      · rename_i heq
        subst heq
        simp [Memory.read, Ne.symm h]
      · simp [Memory.read, ih]

/-- What a read finds after a write, at every index. -/
theorem Memory.read_write (m : Memory α) (i j : Nat) (v : α) :
    (m.write i v).read j = if j = i then some v else m.read j := by
  split
  · rename_i h
    rw [h, Memory.read_write_same]
  · rename_i h
    exact Memory.read_write_other m v h

theorem Memory.rising_mono {size lo lo' : Nat} {m : Memory α} (h : lo ≤ lo')
    (hm : Memory.rising size lo' m = true) : Memory.rising size lo m = true := by
  cases m with
  | nil => rfl
  | cons head rest =>
    obtain ⟨j, w⟩ := head
    simp only [Memory.rising, Bool.and_eq_true, decide_eq_true_eq] at hm ⊢
    exact ⟨⟨le_trans h hm.1.1, hm.1.2⟩, hm.2⟩

theorem Memory.rising_write {size lo i : Nat} {m : Memory α} (v : α) (hlo : lo ≤ i) (hi : i < size)
    (hm : Memory.rising size lo m = true) : Memory.rising size lo (m.write i v) = true := by
  induction m generalizing lo with
  | nil => simp [Memory.write, Memory.rising, hlo, hi]
  | cons head rest ih =>
    obtain ⟨j, w⟩ := head
    simp only [Memory.rising, Bool.and_eq_true, decide_eq_true_eq] at hm
    unfold Memory.write
    split
    · rename_i hij
      simp only [Memory.rising, Bool.and_eq_true, decide_eq_true_eq]
      exact ⟨⟨hlo, hi⟩, ⟨hij, hm.1.2⟩, hm.2⟩
    · split
      · rename_i hij
        subst hij
        simp only [Memory.rising, Bool.and_eq_true, decide_eq_true_eq]
        exact ⟨⟨hlo, hi⟩, hm.2⟩
      · rename_i h1 h2
        simp only [Memory.rising, Bool.and_eq_true, decide_eq_true_eq]
        exact ⟨hm.1, ih (by omega) hm.2⟩

/-- A write inside the space keeps the canonical form. -/
theorem Memory.wf_write {size i : Nat} {m : Memory α} (v : α) (hi : i < size)
    (hm : m.wf size = true) : (m.write i v).wf size = true :=
  Memory.rising_write v (Nat.zero_le i) hi hm

/-- The empty space is in canonical form. -/
theorem Memory.wf_nil (size : Nat) : Memory.wf size ([] : Memory α) = true := rfl

theorem Memory.rising_fillFrom {size i : Nat} {l : List α} (h : i + l.length ≤ size) :
    Memory.rising size i (Memory.fillFrom i l) = true := by
  induction l generalizing i with
  | nil => rfl
  | cons v rest ih =>
    simp only [List.length_cons] at h
    simp only [Memory.fillFrom, Memory.rising, Bool.and_eq_true, decide_eq_true_eq]
    exact ⟨⟨le_refl i, by omega⟩, ih (by omega)⟩

/-- A space filled from a list that fits is in canonical form. -/
theorem Memory.wf_fill {size : Nat} {l : List α} (h : l.length ≤ size) :
    (Memory.fill l).wf size = true :=
  Memory.rising_fillFrom (by omega)

theorem Memory.read_fillFrom (l : List α) (i j : Nat) :
    (Memory.fillFrom i l).read j = if j < i then none else l[j - i]? := by
  induction l generalizing i with
  | nil => simp [Memory.fillFrom, Memory.read]
  | cons v rest ih =>
    unfold Memory.fillFrom
    by_cases hij : i = j
    · subst hij
      simp [Memory.read]
    · simp only [Memory.read, hij, if_false, ih]
      by_cases hlt : j < i
      · simp [hlt, Nat.lt_succ_of_lt hlt]
      · have h1 : ¬ j < i + 1 := by omega
        have h2 : j - i = (j - (i + 1)) + 1 := by omega
        simp [hlt, h1, h2]

/-- A space filled from a list reads as the list. -/
@[simp] theorem Memory.read_fill (l : List α) (j : Nat) : (Memory.fill l).read j = l[j]? := by
  simp [Memory.fill, Memory.read_fillFrom]

/-- A canonical space has nothing at or above its size. -/
theorem Memory.read_rising_none {size lo j : Nat} {m : Memory α} (hm : Memory.rising size lo m = true)
    (hj : j < lo ∨ size ≤ j) : m.read j = none := by
  induction m generalizing lo with
  | nil => rfl
  | cons head rest ih =>
    obtain ⟨k, w⟩ := head
    simp only [Memory.rising, Bool.and_eq_true, decide_eq_true_eq] at hm
    have hkj : k ≠ j := by omega
    simp only [Memory.read, hkj, if_false]
    exact ih hm.2 (by omega)

/-- Two canonical spaces that read alike at every index are equal. -/
theorem Memory.rising_ext {size lo : Nat} {m n : Memory α} (hm : Memory.rising size lo m = true)
    (hn : Memory.rising size lo n = true) (h : ∀ i, m.read i = n.read i) : m = n := by
  induction m generalizing lo n with
  | nil =>
    cases n with
    | nil => rfl
    | cons head rest =>
      obtain ⟨j, w⟩ := head
      have := h j
      simp [Memory.read] at this
  | cons head rest ih =>
    obtain ⟨j, w⟩ := head
    cases n with
    | nil =>
      have := h j
      simp [Memory.read] at this
    | cons head' rest' =>
      obtain ⟨k, u⟩ := head'
      simp only [Memory.rising, Bool.and_eq_true, decide_eq_true_eq] at hm hn
      have hjk : j = k := by
        by_contra hne
        rcases Nat.lt_or_gt_of_ne hne with hlt | hlt
        · have h1 := h j
          rw [Memory.read, Memory.read] at h1
          simp only [if_true, Ne.symm hne, if_false] at h1
          rw [Memory.read_rising_none hn.2 (by omega)] at h1
          cases h1
        · have h1 := h k
          rw [Memory.read, Memory.read] at h1
          simp only [if_true, hne, if_false] at h1
          rw [Memory.read_rising_none hm.2 (by omega)] at h1
          cases h1
      subst hjk
      have hwu : w = u := by
        have h1 := h j
        simpa [Memory.read] using h1
      subst hwu
      congr 1
      refine ih hm.2 hn.2 fun i => ?_
      by_cases hij : j = i
      · subst hij
        rw [Memory.read_rising_none hm.2 (by omega), Memory.read_rising_none hn.2 (by omega)]
      · have h1 := h i
        simpa [Memory.read, hij] using h1

/-- A read that answers a value: what the shared fetch does. -/
theorem Memory.fetch_eq_ok {m : Memory α} {op : Word} {e : Elem} {i : Nat} {v : α} :
    m.fetch op e i = .ok v ↔ m.read i = some v := by
  unfold Memory.fetch
  cases m.read i <;> simp

/-- A read of an element that has no value. -/
theorem Memory.fetch_eq_error {m : Memory α} {op : Word} {e : Elem} {i : Nat} {f : Fault} :
    m.fetch op e i = .error f ↔ m.read i = none ∧ f = .unwrittenRead op e i := by
  unfold Memory.fetch
  cases m.read i <;> simp [eq_comm]

/-- Several reads answer exactly when each does, with the values in order. -/
theorem Memory.fetchAll_eq_ok {m : Memory α} {op : Word} {e : Elem} {l : List Nat} {vs : List α} :
    m.fetchAll op e l = .ok vs ↔ l.map m.read = vs.map some := by
  induction l generalizing vs with
  | nil => cases vs <;> simp [Memory.fetchAll]
  | cons i rest ih =>
    unfold Memory.fetchAll
    cases hr : m.read i with
    | none =>
      have : m.fetch op e i = .error (.unwrittenRead op e i) := by simp [Memory.fetch, hr]
      rw [this]
      cases vs <;> simp [hr]
    | some v =>
      have : m.fetch op e i = .ok v := by simp [Memory.fetch, hr]
      rw [this]
      cases hf : m.fetchAll op e rest with
      | error f =>
        have hne : ∀ ws : List α, rest.map m.read ≠ ws.map some := fun ws hw => by
          rw [ih.mpr hw] at hf
          cases hf
        cases vs with
        | nil => simp
        | cons u us => simp [hr, hne us]
      | ok ws =>
        have hw := ih.mp hf
        cases vs with
        | nil => simp
        | cons u us =>
          simp only [List.map_cons, hr, hw, List.cons.injEq, Option.some.injEq, Except.ok.injEq]
          constructor
          · rintro ⟨rfl, rfl⟩
            exact ⟨rfl, rfl⟩
          · rintro ⟨rfl, h2⟩
            exact ⟨rfl, (List.map_injective_iff.mpr (Option.some_injective α)) h2⟩

end Sys2Proof.Machine
end

