-- ==== Sys2Proof/Laws/Ops.lean ====
section
/-! SUPPORT. What the shared operations can do: records of reads, loops, sequencing, outcomes. -/

namespace Sys2Proof.Machine

@[simp] theorem unwrittenReads_nil (op : Word) : unwrittenReads op [] = [] := rfl

@[simp] theorem unwrittenReads_cons (op : Word) (e : Elem) (written : Bool) (rest : List (Elem × Bool)) :
    unwrittenReads op ((e, written) :: rest) =
      if written then unwrittenReads op rest else .unwrittenRead op e 0 :: unwrittenReads op rest := rfl

/-- Reads of written registers record nothing. -/
theorem unwrittenReads_eq_nil {op : Word} {l : List (Elem × Bool)} :
    unwrittenReads op l = [] ↔ ∀ e ∈ l, e.2 = true := by
  induction l with
  | nil => simp
  | cons e rest ih => obtain ⟨e, written⟩ := e; cases written <;> simp [ih]

/-- Reads of written registers change nothing. -/
theorem State.noteReads_of_written {s : State} {op : Word} {l : List (Elem × Bool)}
    (h : ∀ e ∈ l, e.2 = true) : s.noteReads op l = s := by
  simp [State.noteReads, unwrittenReads_eq_nil.mpr h]

@[simp] theorem State.noteReads_nil (s : State) (op : Word) : s.noteReads op [] = s :=
  noteReads_of_written nofun

/-- A read of a written register records nothing. -/
@[simp] theorem State.noteReads_written (s : State) (op : Word) (e : Elem) (rest : List (Elem × Bool)) :
    s.noteReads op ((e, true) :: rest) = s.noteReads op rest := rfl

@[simp] theorem Reg.put_value {α : Type} (v : α) : (Reg.put v).value = v := rfl

@[simp] theorem Reg.put_written {α : Type} (v : α) : (Reg.put v).written = true := rfl

@[simp] theorem Res.outcome_eq_next {r : Res} {t : State} : r.outcome = .next t ↔ r = .ok t := by
  cases r <;> simp [Res.outcome]

@[simp] theorem Res.outcome_eq_fault {r : Res} {f : Fault} : r.outcome = .fault f ↔ r = .error f := by
  cases r <;> simp [Res.outcome]

@[simp] theorem Res.outcome_ne_refused {r : Res} {q : Refusal} : r.outcome ≠ .refused q := by
  cases r <;> simp [Res.outcome]

/-- Two operations in sequence answer exactly when both do. -/
theorem Res.andThen_eq_ok {r : Res} {next : State → Res} {t : State} :
    r.andThen next = .ok t ↔ ∃ s, r = .ok s ∧ next s = .ok t := by
  cases r <;> simp [Res.andThen]

@[simp] theorem Res.andThen_ok (s : State) (next : State → Res) : Res.andThen (.ok s) next = next s := rfl

/-- A bind of the fault monad answers exactly when both parts do. -/
theorem bind_eq_ok {α β : Type} {r : Except Fault α} {next : α → Except Fault β} {b : β} :
    (r >>= next) = .ok b ↔ ∃ a, r = .ok a ∧ next a = .ok b := by
  cases r <;> simp [bind, Except.bind]

@[simp] theorem forEach_nil (body : Nat → State → Res) (s : State) : forEach body [] s = .ok s := rfl

/-- The first round of a loop. -/
theorem forEach_cons_eq_ok {body : Nat → State → Res} {i : Nat} {rest : List Nat} {s t : State} :
    forEach body (i :: rest) s = .ok t ↔ ∃ u, body i s = .ok u ∧ forEach body rest u = .ok t := by
  rw [forEach]
  cases body i s <;> simp

/-- A loop over two lists is the loop over the first and then over the second. -/
theorem forEach_append (body : Nat → State → Res) (l m : List Nat) (s : State) :
    forEach body (l ++ m) s = (forEach body l s).andThen (forEach body m) := by
  induction l generalizing s with
  | nil => rfl
  | cons i rest ih =>
    simp only [List.cons_append, forEach]
    cases body i s with
    | error f => rfl
    | ok u => exact ih u

/-- A loop keeps what every round keeps. -/
theorem forEach_keeps {body : Nat → State → Res} {P : State → Prop} {l : List Nat} {s t : State}
    (round : ∀ i ∈ l, ∀ u v, P u → body i u = .ok v → P v) (hs : P s)
    (h : forEach body l s = .ok t) : P t := by
  induction l generalizing s with
  | nil =>
    cases h
    exact hs
  | cons i rest ih =>
    obtain ⟨u, hu, ht⟩ := forEach_cons_eq_ok.mp h
    exact ih (fun j hj => round j (List.mem_cons_of_mem i hj))
      (round i (List.mem_cons_self ..) s u hs hu) ht

/-- A loop answers when every round does. -/
theorem forEach_answers {body : Nat → State → Res} {P : State → Prop} {l : List Nat} {s : State}
    (round : ∀ i ∈ l, ∀ u, P u → ∃ v, body i u = .ok v ∧ P v) (hs : P s) :
    ∃ t, forEach body l s = .ok t ∧ P t := by
  induction l generalizing s with
  | nil => exact ⟨s, rfl, hs⟩
  | cons i rest ih =>
    obtain ⟨u, hu, hP⟩ := round i (List.mem_cons_self ..) s hs
    obtain ⟨t, ht, hPt⟩ := ih (fun j hj => round j (List.mem_cons_of_mem i hj)) hP
    exact ⟨t, forEach_cons_eq_ok.mpr ⟨u, hu, ht⟩, hPt⟩

end Sys2Proof.Machine
end

