-- ==== Sys2Proof/Laws/State.lean ====
section
/-! SUPPORT. What each shared update of the state does to each field, one lemma a field, so that no proof
unfolds a record update. -/

namespace Sys2Proof.Machine

section
variable (s : State)

/-! #### `State.writeX` -/

@[simp] theorem State.writeX_phase (i : Nat) (v : F64) : (s.writeX i v).phase = s.phase := rfl
@[simp] theorem State.writeX_pos (i : Nat) (v : F64) : (s.writeX i v).pos = s.pos := rfl
@[simp] theorem State.writeX_blk (i : Nat) (v : F64) : (s.writeX i v).blk = s.blk := rfl
@[simp] theorem State.writeX_xBuf (i : Nat) (v : F64) : (s.writeX i v).xBuf = s.xBuf.write i v := rfl
@[simp] theorem State.writeX_aBuf (i : Nat) (v : F64) : (s.writeX i v).aBuf = s.aBuf := rfl
@[simp] theorem State.writeX_sBuf (i : Nat) (v : F64) : (s.writeX i v).sBuf = s.sBuf := rfl
@[simp] theorem State.writeX_fbuf (i : Nat) (v : F64) : (s.writeX i v).fbuf = s.fbuf := rfl
@[simp] theorem State.writeX_smp (i : Nat) (v : F64) : (s.writeX i v).smp = s.smp := rfl
@[simp] theorem State.writeX_twv (i : Nat) (v : F64) : (s.writeX i v).twv = s.twv := rfl
@[simp] theorem State.writeX_magv (i : Nat) (v : F64) : (s.writeX i v).magv = s.magv := rfl
@[simp] theorem State.writeX_dbv (i : Nat) (v : F64) : (s.writeX i v).dbv = s.dbv := rfl
@[simp] theorem State.writeX_magMax (i : Nat) (v : F64) : (s.writeX i v).magMax = s.magMax := rfl
@[simp] theorem State.writeX_dbMax (i : Nat) (v : F64) : (s.writeX i v).dbMax = s.dbMax := rfl
@[simp] theorem State.writeX_domFreq (i : Nat) (v : F64) : (s.writeX i v).domFreq = s.domFreq := rfl
@[simp] theorem State.writeX_hue (i : Nat) (v : F64) : (s.writeX i v).hue = s.hue := rfl
@[simp] theorem State.writeX_bri (i : Nat) (v : F64) : (s.writeX i v).bri = s.bri := rfl
@[simp] theorem State.writeX_rf (i : Nat) (v : F64) : (s.writeX i v).rf = s.rf := rfl
@[simp] theorem State.writeX_gf (i : Nat) (v : F64) : (s.writeX i v).gf = s.gf := rfl
@[simp] theorem State.writeX_bf (i : Nat) (v : F64) : (s.writeX i v).bf = s.bf := rfl
@[simp] theorem State.writeX_r8 (i : Nat) (v : F64) : (s.writeX i v).r8 = s.r8 := rfl
@[simp] theorem State.writeX_g8 (i : Nat) (v : F64) : (s.writeX i v).g8 = s.g8 := rfl
@[simp] theorem State.writeX_b8 (i : Nat) (v : F64) : (s.writeX i v).b8 = s.b8 := rfl
@[simp] theorem State.writeX_color (i : Nat) (v : F64) : (s.writeX i v).color = s.color := rfl
@[simp] theorem State.writeX_fld (i : Nat) (v : F64) : (s.writeX i v).fld = s.fld := rfl
@[simp] theorem State.writeX_prevColor (i : Nat) (v : F64) : (s.writeX i v).prevColor = s.prevColor := rfl
@[simp] theorem State.writeX_gateSend (i : Nat) (v : F64) : (s.writeX i v).gateSend = s.gateSend := rfl
@[simp] theorem State.writeX_wrOk (i : Nat) (v : F64) : (s.writeX i v).wrOk = s.wrOk := rfl
@[simp] theorem State.writeX_txStatus (i : Nat) (v : F64) : (s.writeX i v).txStatus = s.txStatus := rfl
@[simp] theorem State.writeX_txFailIdx (i : Nat) (v : F64) : (s.writeX i v).txFailIdx = s.txFailIdx := rfl
@[simp] theorem State.writeX_waiting (i : Nat) (v : F64) : (s.writeX i v).waiting = s.waiting := rfl
@[simp] theorem State.writeX_producer (i : Nat) (v : F64) : (s.writeX i v).producer = s.producer := rfl
@[simp] theorem State.writeX_sink (i : Nat) (v : F64) : (s.writeX i v).sink = s.sink := rfl
@[simp] theorem State.writeX_opReq (i : Nat) (v : F64) : (s.writeX i v).opReq = s.opReq := rfl
@[simp] theorem State.writeX_resetReq (i : Nat) (v : F64) : (s.writeX i v).resetReq = s.resetReq := rfl
@[simp] theorem State.writeX_trace (i : Nat) (v : F64) : (s.writeX i v).trace = s.trace := rfl
@[simp] theorem State.writeX_events (i : Nat) (v : F64) : (s.writeX i v).events = s.events := rfl
@[simp] theorem State.writeX_faultLog (i : Nat) (v : F64) : (s.writeX i v).faultLog = s.faultLog := rfl
@[simp] theorem State.writeX_devColor (i : Nat) (v : F64) : (s.writeX i v).devColor = s.devColor := rfl
@[simp] theorem State.writeX_devIndet (i : Nat) (v : F64) : (s.writeX i v).devIndet = s.devIndet := rfl
@[simp] theorem State.writeX_draws (i : Nat) (v : F64) : (s.writeX i v).draws = s.draws := rfl

/-! #### `State.writeA` -/

@[simp] theorem State.writeA_phase (i : Nat) (z : Cplx) : (s.writeA i z).phase = s.phase := rfl
@[simp] theorem State.writeA_pos (i : Nat) (z : Cplx) : (s.writeA i z).pos = s.pos := rfl
@[simp] theorem State.writeA_blk (i : Nat) (z : Cplx) : (s.writeA i z).blk = s.blk := rfl
@[simp] theorem State.writeA_xBuf (i : Nat) (z : Cplx) : (s.writeA i z).xBuf = s.xBuf := rfl
@[simp] theorem State.writeA_aBuf (i : Nat) (z : Cplx) : (s.writeA i z).aBuf = s.aBuf.write i z := rfl
@[simp] theorem State.writeA_sBuf (i : Nat) (z : Cplx) : (s.writeA i z).sBuf = s.sBuf := rfl
@[simp] theorem State.writeA_fbuf (i : Nat) (z : Cplx) : (s.writeA i z).fbuf = s.fbuf := rfl
@[simp] theorem State.writeA_smp (i : Nat) (z : Cplx) : (s.writeA i z).smp = s.smp := rfl
@[simp] theorem State.writeA_twv (i : Nat) (z : Cplx) : (s.writeA i z).twv = s.twv := rfl
@[simp] theorem State.writeA_magv (i : Nat) (z : Cplx) : (s.writeA i z).magv = s.magv := rfl
@[simp] theorem State.writeA_dbv (i : Nat) (z : Cplx) : (s.writeA i z).dbv = s.dbv := rfl
@[simp] theorem State.writeA_magMax (i : Nat) (z : Cplx) : (s.writeA i z).magMax = s.magMax := rfl
@[simp] theorem State.writeA_dbMax (i : Nat) (z : Cplx) : (s.writeA i z).dbMax = s.dbMax := rfl
@[simp] theorem State.writeA_domFreq (i : Nat) (z : Cplx) : (s.writeA i z).domFreq = s.domFreq := rfl
@[simp] theorem State.writeA_hue (i : Nat) (z : Cplx) : (s.writeA i z).hue = s.hue := rfl
@[simp] theorem State.writeA_bri (i : Nat) (z : Cplx) : (s.writeA i z).bri = s.bri := rfl
@[simp] theorem State.writeA_rf (i : Nat) (z : Cplx) : (s.writeA i z).rf = s.rf := rfl
@[simp] theorem State.writeA_gf (i : Nat) (z : Cplx) : (s.writeA i z).gf = s.gf := rfl
@[simp] theorem State.writeA_bf (i : Nat) (z : Cplx) : (s.writeA i z).bf = s.bf := rfl
@[simp] theorem State.writeA_r8 (i : Nat) (z : Cplx) : (s.writeA i z).r8 = s.r8 := rfl
@[simp] theorem State.writeA_g8 (i : Nat) (z : Cplx) : (s.writeA i z).g8 = s.g8 := rfl
@[simp] theorem State.writeA_b8 (i : Nat) (z : Cplx) : (s.writeA i z).b8 = s.b8 := rfl
@[simp] theorem State.writeA_color (i : Nat) (z : Cplx) : (s.writeA i z).color = s.color := rfl
@[simp] theorem State.writeA_fld (i : Nat) (z : Cplx) : (s.writeA i z).fld = s.fld := rfl
@[simp] theorem State.writeA_prevColor (i : Nat) (z : Cplx) : (s.writeA i z).prevColor = s.prevColor := rfl
@[simp] theorem State.writeA_gateSend (i : Nat) (z : Cplx) : (s.writeA i z).gateSend = s.gateSend := rfl
@[simp] theorem State.writeA_wrOk (i : Nat) (z : Cplx) : (s.writeA i z).wrOk = s.wrOk := rfl
@[simp] theorem State.writeA_txStatus (i : Nat) (z : Cplx) : (s.writeA i z).txStatus = s.txStatus := rfl
@[simp] theorem State.writeA_txFailIdx (i : Nat) (z : Cplx) : (s.writeA i z).txFailIdx = s.txFailIdx := rfl
@[simp] theorem State.writeA_waiting (i : Nat) (z : Cplx) : (s.writeA i z).waiting = s.waiting := rfl
@[simp] theorem State.writeA_producer (i : Nat) (z : Cplx) : (s.writeA i z).producer = s.producer := rfl
@[simp] theorem State.writeA_sink (i : Nat) (z : Cplx) : (s.writeA i z).sink = s.sink := rfl
@[simp] theorem State.writeA_opReq (i : Nat) (z : Cplx) : (s.writeA i z).opReq = s.opReq := rfl
@[simp] theorem State.writeA_resetReq (i : Nat) (z : Cplx) : (s.writeA i z).resetReq = s.resetReq := rfl
@[simp] theorem State.writeA_trace (i : Nat) (z : Cplx) : (s.writeA i z).trace = s.trace := rfl
@[simp] theorem State.writeA_events (i : Nat) (z : Cplx) : (s.writeA i z).events = s.events := rfl
@[simp] theorem State.writeA_faultLog (i : Nat) (z : Cplx) : (s.writeA i z).faultLog = s.faultLog := rfl
@[simp] theorem State.writeA_devColor (i : Nat) (z : Cplx) : (s.writeA i z).devColor = s.devColor := rfl
@[simp] theorem State.writeA_devIndet (i : Nat) (z : Cplx) : (s.writeA i z).devIndet = s.devIndet := rfl
@[simp] theorem State.writeA_draws (i : Nat) (z : Cplx) : (s.writeA i z).draws = s.draws := rfl

/-! #### `State.writeS` -/

@[simp] theorem State.writeS_phase (k : Nat) (z : Cplx) : (s.writeS k z).phase = s.phase := rfl
@[simp] theorem State.writeS_pos (k : Nat) (z : Cplx) : (s.writeS k z).pos = s.pos := rfl
@[simp] theorem State.writeS_blk (k : Nat) (z : Cplx) : (s.writeS k z).blk = s.blk := rfl
@[simp] theorem State.writeS_xBuf (k : Nat) (z : Cplx) : (s.writeS k z).xBuf = s.xBuf := rfl
@[simp] theorem State.writeS_aBuf (k : Nat) (z : Cplx) : (s.writeS k z).aBuf = s.aBuf := rfl
@[simp] theorem State.writeS_sBuf (k : Nat) (z : Cplx) : (s.writeS k z).sBuf = s.sBuf.write k z := rfl
@[simp] theorem State.writeS_fbuf (k : Nat) (z : Cplx) : (s.writeS k z).fbuf = s.fbuf := rfl
@[simp] theorem State.writeS_smp (k : Nat) (z : Cplx) : (s.writeS k z).smp = s.smp := rfl
@[simp] theorem State.writeS_twv (k : Nat) (z : Cplx) : (s.writeS k z).twv = s.twv := rfl
@[simp] theorem State.writeS_magv (k : Nat) (z : Cplx) : (s.writeS k z).magv = s.magv := rfl
@[simp] theorem State.writeS_dbv (k : Nat) (z : Cplx) : (s.writeS k z).dbv = s.dbv := rfl
@[simp] theorem State.writeS_magMax (k : Nat) (z : Cplx) : (s.writeS k z).magMax = s.magMax := rfl
@[simp] theorem State.writeS_dbMax (k : Nat) (z : Cplx) : (s.writeS k z).dbMax = s.dbMax := rfl
@[simp] theorem State.writeS_domFreq (k : Nat) (z : Cplx) : (s.writeS k z).domFreq = s.domFreq := rfl
@[simp] theorem State.writeS_hue (k : Nat) (z : Cplx) : (s.writeS k z).hue = s.hue := rfl
@[simp] theorem State.writeS_bri (k : Nat) (z : Cplx) : (s.writeS k z).bri = s.bri := rfl
@[simp] theorem State.writeS_rf (k : Nat) (z : Cplx) : (s.writeS k z).rf = s.rf := rfl
@[simp] theorem State.writeS_gf (k : Nat) (z : Cplx) : (s.writeS k z).gf = s.gf := rfl
@[simp] theorem State.writeS_bf (k : Nat) (z : Cplx) : (s.writeS k z).bf = s.bf := rfl
@[simp] theorem State.writeS_r8 (k : Nat) (z : Cplx) : (s.writeS k z).r8 = s.r8 := rfl
@[simp] theorem State.writeS_g8 (k : Nat) (z : Cplx) : (s.writeS k z).g8 = s.g8 := rfl
@[simp] theorem State.writeS_b8 (k : Nat) (z : Cplx) : (s.writeS k z).b8 = s.b8 := rfl
@[simp] theorem State.writeS_color (k : Nat) (z : Cplx) : (s.writeS k z).color = s.color := rfl
@[simp] theorem State.writeS_fld (k : Nat) (z : Cplx) : (s.writeS k z).fld = s.fld := rfl
@[simp] theorem State.writeS_prevColor (k : Nat) (z : Cplx) : (s.writeS k z).prevColor = s.prevColor := rfl
@[simp] theorem State.writeS_gateSend (k : Nat) (z : Cplx) : (s.writeS k z).gateSend = s.gateSend := rfl
@[simp] theorem State.writeS_wrOk (k : Nat) (z : Cplx) : (s.writeS k z).wrOk = s.wrOk := rfl
@[simp] theorem State.writeS_txStatus (k : Nat) (z : Cplx) : (s.writeS k z).txStatus = s.txStatus := rfl
@[simp] theorem State.writeS_txFailIdx (k : Nat) (z : Cplx) : (s.writeS k z).txFailIdx = s.txFailIdx := rfl
@[simp] theorem State.writeS_waiting (k : Nat) (z : Cplx) : (s.writeS k z).waiting = s.waiting := rfl
@[simp] theorem State.writeS_producer (k : Nat) (z : Cplx) : (s.writeS k z).producer = s.producer := rfl
@[simp] theorem State.writeS_sink (k : Nat) (z : Cplx) : (s.writeS k z).sink = s.sink := rfl
@[simp] theorem State.writeS_opReq (k : Nat) (z : Cplx) : (s.writeS k z).opReq = s.opReq := rfl
@[simp] theorem State.writeS_resetReq (k : Nat) (z : Cplx) : (s.writeS k z).resetReq = s.resetReq := rfl
@[simp] theorem State.writeS_trace (k : Nat) (z : Cplx) : (s.writeS k z).trace = s.trace := rfl
@[simp] theorem State.writeS_events (k : Nat) (z : Cplx) : (s.writeS k z).events = s.events := rfl
@[simp] theorem State.writeS_faultLog (k : Nat) (z : Cplx) : (s.writeS k z).faultLog = s.faultLog := rfl
@[simp] theorem State.writeS_devColor (k : Nat) (z : Cplx) : (s.writeS k z).devColor = s.devColor := rfl
@[simp] theorem State.writeS_devIndet (k : Nat) (z : Cplx) : (s.writeS k z).devIndet = s.devIndet := rfl
@[simp] theorem State.writeS_draws (k : Nat) (z : Cplx) : (s.writeS k z).draws = s.draws := rfl

/-! #### `State.writeFrame` -/

@[simp] theorem State.writeFrame_phase (f : List Byte) : (s.writeFrame f).phase = s.phase := rfl
@[simp] theorem State.writeFrame_pos (f : List Byte) : (s.writeFrame f).pos = s.pos := rfl
@[simp] theorem State.writeFrame_blk (f : List Byte) : (s.writeFrame f).blk = s.blk := rfl
@[simp] theorem State.writeFrame_xBuf (f : List Byte) : (s.writeFrame f).xBuf = s.xBuf := rfl
@[simp] theorem State.writeFrame_aBuf (f : List Byte) : (s.writeFrame f).aBuf = s.aBuf := rfl
@[simp] theorem State.writeFrame_sBuf (f : List Byte) : (s.writeFrame f).sBuf = s.sBuf := rfl
@[simp] theorem State.writeFrame_fbuf (f : List Byte) : (s.writeFrame f).fbuf = Memory.fill f := rfl
@[simp] theorem State.writeFrame_smp (f : List Byte) : (s.writeFrame f).smp = s.smp := rfl
@[simp] theorem State.writeFrame_twv (f : List Byte) : (s.writeFrame f).twv = s.twv := rfl
@[simp] theorem State.writeFrame_magv (f : List Byte) : (s.writeFrame f).magv = s.magv := rfl
@[simp] theorem State.writeFrame_dbv (f : List Byte) : (s.writeFrame f).dbv = s.dbv := rfl
@[simp] theorem State.writeFrame_magMax (f : List Byte) : (s.writeFrame f).magMax = s.magMax := rfl
@[simp] theorem State.writeFrame_dbMax (f : List Byte) : (s.writeFrame f).dbMax = s.dbMax := rfl
@[simp] theorem State.writeFrame_domFreq (f : List Byte) : (s.writeFrame f).domFreq = s.domFreq := rfl
@[simp] theorem State.writeFrame_hue (f : List Byte) : (s.writeFrame f).hue = s.hue := rfl
@[simp] theorem State.writeFrame_bri (f : List Byte) : (s.writeFrame f).bri = s.bri := rfl
@[simp] theorem State.writeFrame_rf (f : List Byte) : (s.writeFrame f).rf = s.rf := rfl
@[simp] theorem State.writeFrame_gf (f : List Byte) : (s.writeFrame f).gf = s.gf := rfl
@[simp] theorem State.writeFrame_bf (f : List Byte) : (s.writeFrame f).bf = s.bf := rfl
@[simp] theorem State.writeFrame_r8 (f : List Byte) : (s.writeFrame f).r8 = s.r8 := rfl
@[simp] theorem State.writeFrame_g8 (f : List Byte) : (s.writeFrame f).g8 = s.g8 := rfl
@[simp] theorem State.writeFrame_b8 (f : List Byte) : (s.writeFrame f).b8 = s.b8 := rfl
@[simp] theorem State.writeFrame_color (f : List Byte) : (s.writeFrame f).color = s.color := rfl
@[simp] theorem State.writeFrame_fld (f : List Byte) : (s.writeFrame f).fld = s.fld := rfl
@[simp] theorem State.writeFrame_prevColor (f : List Byte) : (s.writeFrame f).prevColor = s.prevColor := rfl
@[simp] theorem State.writeFrame_gateSend (f : List Byte) : (s.writeFrame f).gateSend = s.gateSend := rfl
@[simp] theorem State.writeFrame_wrOk (f : List Byte) : (s.writeFrame f).wrOk = s.wrOk := rfl
@[simp] theorem State.writeFrame_txStatus (f : List Byte) : (s.writeFrame f).txStatus = s.txStatus := rfl
@[simp] theorem State.writeFrame_txFailIdx (f : List Byte) : (s.writeFrame f).txFailIdx = s.txFailIdx := rfl
@[simp] theorem State.writeFrame_waiting (f : List Byte) : (s.writeFrame f).waiting = s.waiting := rfl
@[simp] theorem State.writeFrame_producer (f : List Byte) : (s.writeFrame f).producer = s.producer := rfl
@[simp] theorem State.writeFrame_sink (f : List Byte) : (s.writeFrame f).sink = s.sink := rfl
@[simp] theorem State.writeFrame_opReq (f : List Byte) : (s.writeFrame f).opReq = s.opReq := rfl
@[simp] theorem State.writeFrame_resetReq (f : List Byte) : (s.writeFrame f).resetReq = s.resetReq := rfl
@[simp] theorem State.writeFrame_trace (f : List Byte) : (s.writeFrame f).trace = s.trace := rfl
@[simp] theorem State.writeFrame_events (f : List Byte) : (s.writeFrame f).events = s.events := rfl
@[simp] theorem State.writeFrame_faultLog (f : List Byte) : (s.writeFrame f).faultLog = s.faultLog := rfl
@[simp] theorem State.writeFrame_devColor (f : List Byte) : (s.writeFrame f).devColor = s.devColor := rfl
@[simp] theorem State.writeFrame_devIndet (f : List Byte) : (s.writeFrame f).devIndet = s.devIndet := rfl
@[simp] theorem State.writeFrame_draws (f : List Byte) : (s.writeFrame f).draws = s.draws := rfl

/-! #### `State.noteReads` -/

@[simp] theorem State.noteReads_phase (op : Word) (l : List (Elem × Bool)) : (s.noteReads op l).phase = s.phase := rfl
@[simp] theorem State.noteReads_pos (op : Word) (l : List (Elem × Bool)) : (s.noteReads op l).pos = s.pos := rfl
@[simp] theorem State.noteReads_blk (op : Word) (l : List (Elem × Bool)) : (s.noteReads op l).blk = s.blk := rfl
@[simp] theorem State.noteReads_xBuf (op : Word) (l : List (Elem × Bool)) : (s.noteReads op l).xBuf = s.xBuf := rfl
@[simp] theorem State.noteReads_aBuf (op : Word) (l : List (Elem × Bool)) : (s.noteReads op l).aBuf = s.aBuf := rfl
@[simp] theorem State.noteReads_sBuf (op : Word) (l : List (Elem × Bool)) : (s.noteReads op l).sBuf = s.sBuf := rfl
@[simp] theorem State.noteReads_fbuf (op : Word) (l : List (Elem × Bool)) : (s.noteReads op l).fbuf = s.fbuf := rfl
@[simp] theorem State.noteReads_smp (op : Word) (l : List (Elem × Bool)) : (s.noteReads op l).smp = s.smp := rfl
@[simp] theorem State.noteReads_twv (op : Word) (l : List (Elem × Bool)) : (s.noteReads op l).twv = s.twv := rfl
@[simp] theorem State.noteReads_magv (op : Word) (l : List (Elem × Bool)) : (s.noteReads op l).magv = s.magv := rfl
@[simp] theorem State.noteReads_dbv (op : Word) (l : List (Elem × Bool)) : (s.noteReads op l).dbv = s.dbv := rfl
@[simp] theorem State.noteReads_magMax (op : Word) (l : List (Elem × Bool)) : (s.noteReads op l).magMax = s.magMax := rfl
@[simp] theorem State.noteReads_dbMax (op : Word) (l : List (Elem × Bool)) : (s.noteReads op l).dbMax = s.dbMax := rfl
@[simp] theorem State.noteReads_domFreq (op : Word) (l : List (Elem × Bool)) : (s.noteReads op l).domFreq = s.domFreq := rfl
@[simp] theorem State.noteReads_hue (op : Word) (l : List (Elem × Bool)) : (s.noteReads op l).hue = s.hue := rfl
@[simp] theorem State.noteReads_bri (op : Word) (l : List (Elem × Bool)) : (s.noteReads op l).bri = s.bri := rfl
@[simp] theorem State.noteReads_rf (op : Word) (l : List (Elem × Bool)) : (s.noteReads op l).rf = s.rf := rfl
@[simp] theorem State.noteReads_gf (op : Word) (l : List (Elem × Bool)) : (s.noteReads op l).gf = s.gf := rfl
@[simp] theorem State.noteReads_bf (op : Word) (l : List (Elem × Bool)) : (s.noteReads op l).bf = s.bf := rfl
@[simp] theorem State.noteReads_r8 (op : Word) (l : List (Elem × Bool)) : (s.noteReads op l).r8 = s.r8 := rfl
@[simp] theorem State.noteReads_g8 (op : Word) (l : List (Elem × Bool)) : (s.noteReads op l).g8 = s.g8 := rfl
@[simp] theorem State.noteReads_b8 (op : Word) (l : List (Elem × Bool)) : (s.noteReads op l).b8 = s.b8 := rfl
@[simp] theorem State.noteReads_color (op : Word) (l : List (Elem × Bool)) : (s.noteReads op l).color = s.color := rfl
@[simp] theorem State.noteReads_fld (op : Word) (l : List (Elem × Bool)) : (s.noteReads op l).fld = s.fld := rfl
@[simp] theorem State.noteReads_prevColor (op : Word) (l : List (Elem × Bool)) : (s.noteReads op l).prevColor = s.prevColor := rfl
@[simp] theorem State.noteReads_gateSend (op : Word) (l : List (Elem × Bool)) : (s.noteReads op l).gateSend = s.gateSend := rfl
@[simp] theorem State.noteReads_wrOk (op : Word) (l : List (Elem × Bool)) : (s.noteReads op l).wrOk = s.wrOk := rfl
@[simp] theorem State.noteReads_txStatus (op : Word) (l : List (Elem × Bool)) : (s.noteReads op l).txStatus = s.txStatus := rfl
@[simp] theorem State.noteReads_txFailIdx (op : Word) (l : List (Elem × Bool)) : (s.noteReads op l).txFailIdx = s.txFailIdx := rfl
@[simp] theorem State.noteReads_waiting (op : Word) (l : List (Elem × Bool)) : (s.noteReads op l).waiting = s.waiting := rfl
@[simp] theorem State.noteReads_producer (op : Word) (l : List (Elem × Bool)) : (s.noteReads op l).producer = s.producer := rfl
@[simp] theorem State.noteReads_sink (op : Word) (l : List (Elem × Bool)) : (s.noteReads op l).sink = s.sink := rfl
@[simp] theorem State.noteReads_opReq (op : Word) (l : List (Elem × Bool)) : (s.noteReads op l).opReq = s.opReq := rfl
@[simp] theorem State.noteReads_resetReq (op : Word) (l : List (Elem × Bool)) : (s.noteReads op l).resetReq = s.resetReq := rfl
@[simp] theorem State.noteReads_trace (op : Word) (l : List (Elem × Bool)) : (s.noteReads op l).trace = s.trace := rfl
@[simp] theorem State.noteReads_events (op : Word) (l : List (Elem × Bool)) : (s.noteReads op l).events = s.events := rfl
@[simp] theorem State.noteReads_faultLog (op : Word) (l : List (Elem × Bool)) : (s.noteReads op l).faultLog = s.faultLog ++ unwrittenReads op l := rfl
@[simp] theorem State.noteReads_devColor (op : Word) (l : List (Elem × Bool)) : (s.noteReads op l).devColor = s.devColor := rfl
@[simp] theorem State.noteReads_devIndet (op : Word) (l : List (Elem × Bool)) : (s.noteReads op l).devIndet = s.devIndet := rfl
@[simp] theorem State.noteReads_draws (op : Word) (l : List (Elem × Bool)) : (s.noteReads op l).draws = s.draws := rfl

/-! #### `buildFrame` -/

@[simp] theorem buildFrame_phase (r : Role) : (buildFrame r s).phase = s.phase := rfl
@[simp] theorem buildFrame_pos (r : Role) : (buildFrame r s).pos = s.pos := rfl
@[simp] theorem buildFrame_blk (r : Role) : (buildFrame r s).blk = s.blk := rfl
@[simp] theorem buildFrame_xBuf (r : Role) : (buildFrame r s).xBuf = s.xBuf := rfl
@[simp] theorem buildFrame_aBuf (r : Role) : (buildFrame r s).aBuf = s.aBuf := rfl
@[simp] theorem buildFrame_sBuf (r : Role) : (buildFrame r s).sBuf = s.sBuf := rfl
@[simp] theorem buildFrame_fbuf (r : Role) : (buildFrame r s).fbuf = Memory.fill (frameOf r s.color.value) := rfl
@[simp] theorem buildFrame_smp (r : Role) : (buildFrame r s).smp = s.smp := rfl
@[simp] theorem buildFrame_twv (r : Role) : (buildFrame r s).twv = s.twv := rfl
@[simp] theorem buildFrame_magv (r : Role) : (buildFrame r s).magv = s.magv := rfl
@[simp] theorem buildFrame_dbv (r : Role) : (buildFrame r s).dbv = s.dbv := rfl
@[simp] theorem buildFrame_magMax (r : Role) : (buildFrame r s).magMax = s.magMax := rfl
@[simp] theorem buildFrame_dbMax (r : Role) : (buildFrame r s).dbMax = s.dbMax := rfl
@[simp] theorem buildFrame_domFreq (r : Role) : (buildFrame r s).domFreq = s.domFreq := rfl
@[simp] theorem buildFrame_hue (r : Role) : (buildFrame r s).hue = s.hue := rfl
@[simp] theorem buildFrame_bri (r : Role) : (buildFrame r s).bri = s.bri := rfl
@[simp] theorem buildFrame_rf (r : Role) : (buildFrame r s).rf = s.rf := rfl
@[simp] theorem buildFrame_gf (r : Role) : (buildFrame r s).gf = s.gf := rfl
@[simp] theorem buildFrame_bf (r : Role) : (buildFrame r s).bf = s.bf := rfl
@[simp] theorem buildFrame_r8 (r : Role) : (buildFrame r s).r8 = s.r8 := rfl
@[simp] theorem buildFrame_g8 (r : Role) : (buildFrame r s).g8 = s.g8 := rfl
@[simp] theorem buildFrame_b8 (r : Role) : (buildFrame r s).b8 = s.b8 := rfl
@[simp] theorem buildFrame_color (r : Role) : (buildFrame r s).color = s.color := rfl
@[simp] theorem buildFrame_fld (r : Role) : (buildFrame r s).fld = s.fld := rfl
@[simp] theorem buildFrame_prevColor (r : Role) : (buildFrame r s).prevColor = s.prevColor := rfl
@[simp] theorem buildFrame_gateSend (r : Role) : (buildFrame r s).gateSend = s.gateSend := rfl
@[simp] theorem buildFrame_wrOk (r : Role) : (buildFrame r s).wrOk = s.wrOk := rfl
@[simp] theorem buildFrame_txStatus (r : Role) : (buildFrame r s).txStatus = s.txStatus := rfl
@[simp] theorem buildFrame_txFailIdx (r : Role) : (buildFrame r s).txFailIdx = s.txFailIdx := rfl
@[simp] theorem buildFrame_waiting (r : Role) : (buildFrame r s).waiting = s.waiting := rfl
@[simp] theorem buildFrame_producer (r : Role) : (buildFrame r s).producer = s.producer := rfl
@[simp] theorem buildFrame_sink (r : Role) : (buildFrame r s).sink = s.sink := rfl
@[simp] theorem buildFrame_opReq (r : Role) : (buildFrame r s).opReq = s.opReq := rfl
@[simp] theorem buildFrame_resetReq (r : Role) : (buildFrame r s).resetReq = s.resetReq := rfl
@[simp] theorem buildFrame_trace (r : Role) : (buildFrame r s).trace = s.trace := rfl
@[simp] theorem buildFrame_events (r : Role) : (buildFrame r s).events = s.events := rfl
@[simp] theorem buildFrame_faultLog (r : Role) : (buildFrame r s).faultLog = s.faultLog := rfl
@[simp] theorem buildFrame_devColor (r : Role) : (buildFrame r s).devColor = s.devColor := rfl
@[simp] theorem buildFrame_devIndet (r : Role) : (buildFrame r s).devIndet = s.devIndet := rfl
@[simp] theorem buildFrame_draws (r : Role) : (buildFrame r s).draws = s.draws := rfl

/-! #### `State.await` -/

@[simp] theorem State.await_phase (w : Wait) : (s.await w).phase = s.phase := rfl
@[simp] theorem State.await_pos (w : Wait) : (s.await w).pos = s.pos := rfl
@[simp] theorem State.await_blk (w : Wait) : (s.await w).blk = s.blk := rfl
@[simp] theorem State.await_xBuf (w : Wait) : (s.await w).xBuf = s.xBuf := rfl
@[simp] theorem State.await_aBuf (w : Wait) : (s.await w).aBuf = s.aBuf := rfl
@[simp] theorem State.await_sBuf (w : Wait) : (s.await w).sBuf = s.sBuf := rfl
@[simp] theorem State.await_fbuf (w : Wait) : (s.await w).fbuf = s.fbuf := rfl
@[simp] theorem State.await_smp (w : Wait) : (s.await w).smp = s.smp := rfl
@[simp] theorem State.await_twv (w : Wait) : (s.await w).twv = s.twv := rfl
@[simp] theorem State.await_magv (w : Wait) : (s.await w).magv = s.magv := rfl
@[simp] theorem State.await_dbv (w : Wait) : (s.await w).dbv = s.dbv := rfl
@[simp] theorem State.await_magMax (w : Wait) : (s.await w).magMax = s.magMax := rfl
@[simp] theorem State.await_dbMax (w : Wait) : (s.await w).dbMax = s.dbMax := rfl
@[simp] theorem State.await_domFreq (w : Wait) : (s.await w).domFreq = s.domFreq := rfl
@[simp] theorem State.await_hue (w : Wait) : (s.await w).hue = s.hue := rfl
@[simp] theorem State.await_bri (w : Wait) : (s.await w).bri = s.bri := rfl
@[simp] theorem State.await_rf (w : Wait) : (s.await w).rf = s.rf := rfl
@[simp] theorem State.await_gf (w : Wait) : (s.await w).gf = s.gf := rfl
@[simp] theorem State.await_bf (w : Wait) : (s.await w).bf = s.bf := rfl
@[simp] theorem State.await_r8 (w : Wait) : (s.await w).r8 = s.r8 := rfl
@[simp] theorem State.await_g8 (w : Wait) : (s.await w).g8 = s.g8 := rfl
@[simp] theorem State.await_b8 (w : Wait) : (s.await w).b8 = s.b8 := rfl
@[simp] theorem State.await_color (w : Wait) : (s.await w).color = s.color := rfl
@[simp] theorem State.await_fld (w : Wait) : (s.await w).fld = s.fld := rfl
@[simp] theorem State.await_prevColor (w : Wait) : (s.await w).prevColor = s.prevColor := rfl
@[simp] theorem State.await_gateSend (w : Wait) : (s.await w).gateSend = s.gateSend := rfl
@[simp] theorem State.await_wrOk (w : Wait) : (s.await w).wrOk = s.wrOk := rfl
@[simp] theorem State.await_txStatus (w : Wait) : (s.await w).txStatus = s.txStatus := rfl
@[simp] theorem State.await_txFailIdx (w : Wait) : (s.await w).txFailIdx = s.txFailIdx := rfl
@[simp] theorem State.await_waiting (w : Wait) : (s.await w).waiting = some w := rfl
@[simp] theorem State.await_producer (w : Wait) : (s.await w).producer = s.producer := rfl
@[simp] theorem State.await_sink (w : Wait) : (s.await w).sink = s.sink := rfl
@[simp] theorem State.await_opReq (w : Wait) : (s.await w).opReq = s.opReq := rfl
@[simp] theorem State.await_resetReq (w : Wait) : (s.await w).resetReq = s.resetReq := rfl
@[simp] theorem State.await_trace (w : Wait) : (s.await w).trace = s.trace := rfl
@[simp] theorem State.await_events (w : Wait) : (s.await w).events = s.events := rfl
@[simp] theorem State.await_faultLog (w : Wait) : (s.await w).faultLog = s.faultLog := rfl
@[simp] theorem State.await_devColor (w : Wait) : (s.await w).devColor = s.devColor := rfl
@[simp] theorem State.await_devIndet (w : Wait) : (s.await w).devIndet = s.devIndet := rfl
@[simp] theorem State.await_draws (w : Wait) : (s.await w).draws = s.draws := rfl

/-! #### `State.deliveryTaken` -/

@[simp] theorem State.deliveryTaken_phase (d : Delivery) (rest : List Delivery) : (s.deliveryTaken d rest).phase = s.phase := rfl
@[simp] theorem State.deliveryTaken_pos (d : Delivery) (rest : List Delivery) : (s.deliveryTaken d rest).pos = s.pos := rfl
@[simp] theorem State.deliveryTaken_blk (d : Delivery) (rest : List Delivery) : (s.deliveryTaken d rest).blk = s.blk := rfl
@[simp] theorem State.deliveryTaken_xBuf (d : Delivery) (rest : List Delivery) : (s.deliveryTaken d rest).xBuf = s.xBuf := rfl
@[simp] theorem State.deliveryTaken_aBuf (d : Delivery) (rest : List Delivery) : (s.deliveryTaken d rest).aBuf = s.aBuf := rfl
@[simp] theorem State.deliveryTaken_sBuf (d : Delivery) (rest : List Delivery) : (s.deliveryTaken d rest).sBuf = s.sBuf := rfl
@[simp] theorem State.deliveryTaken_fbuf (d : Delivery) (rest : List Delivery) : (s.deliveryTaken d rest).fbuf = s.fbuf := rfl
@[simp] theorem State.deliveryTaken_smp (d : Delivery) (rest : List Delivery) : (s.deliveryTaken d rest).smp = s.smp := rfl
@[simp] theorem State.deliveryTaken_twv (d : Delivery) (rest : List Delivery) : (s.deliveryTaken d rest).twv = s.twv := rfl
@[simp] theorem State.deliveryTaken_magv (d : Delivery) (rest : List Delivery) : (s.deliveryTaken d rest).magv = s.magv := rfl
@[simp] theorem State.deliveryTaken_dbv (d : Delivery) (rest : List Delivery) : (s.deliveryTaken d rest).dbv = s.dbv := rfl
@[simp] theorem State.deliveryTaken_magMax (d : Delivery) (rest : List Delivery) : (s.deliveryTaken d rest).magMax = s.magMax := rfl
@[simp] theorem State.deliveryTaken_dbMax (d : Delivery) (rest : List Delivery) : (s.deliveryTaken d rest).dbMax = s.dbMax := rfl
@[simp] theorem State.deliveryTaken_domFreq (d : Delivery) (rest : List Delivery) : (s.deliveryTaken d rest).domFreq = s.domFreq := rfl
@[simp] theorem State.deliveryTaken_hue (d : Delivery) (rest : List Delivery) : (s.deliveryTaken d rest).hue = s.hue := rfl
@[simp] theorem State.deliveryTaken_bri (d : Delivery) (rest : List Delivery) : (s.deliveryTaken d rest).bri = s.bri := rfl
@[simp] theorem State.deliveryTaken_rf (d : Delivery) (rest : List Delivery) : (s.deliveryTaken d rest).rf = s.rf := rfl
@[simp] theorem State.deliveryTaken_gf (d : Delivery) (rest : List Delivery) : (s.deliveryTaken d rest).gf = s.gf := rfl
@[simp] theorem State.deliveryTaken_bf (d : Delivery) (rest : List Delivery) : (s.deliveryTaken d rest).bf = s.bf := rfl
@[simp] theorem State.deliveryTaken_r8 (d : Delivery) (rest : List Delivery) : (s.deliveryTaken d rest).r8 = s.r8 := rfl
@[simp] theorem State.deliveryTaken_g8 (d : Delivery) (rest : List Delivery) : (s.deliveryTaken d rest).g8 = s.g8 := rfl
@[simp] theorem State.deliveryTaken_b8 (d : Delivery) (rest : List Delivery) : (s.deliveryTaken d rest).b8 = s.b8 := rfl
@[simp] theorem State.deliveryTaken_color (d : Delivery) (rest : List Delivery) : (s.deliveryTaken d rest).color = s.color := rfl
@[simp] theorem State.deliveryTaken_fld (d : Delivery) (rest : List Delivery) : (s.deliveryTaken d rest).fld = s.fld := rfl
@[simp] theorem State.deliveryTaken_prevColor (d : Delivery) (rest : List Delivery) : (s.deliveryTaken d rest).prevColor = s.prevColor := rfl
@[simp] theorem State.deliveryTaken_gateSend (d : Delivery) (rest : List Delivery) : (s.deliveryTaken d rest).gateSend = s.gateSend := rfl
@[simp] theorem State.deliveryTaken_wrOk (d : Delivery) (rest : List Delivery) : (s.deliveryTaken d rest).wrOk = s.wrOk := rfl
@[simp] theorem State.deliveryTaken_txStatus (d : Delivery) (rest : List Delivery) : (s.deliveryTaken d rest).txStatus = s.txStatus := rfl
@[simp] theorem State.deliveryTaken_txFailIdx (d : Delivery) (rest : List Delivery) : (s.deliveryTaken d rest).txFailIdx = s.txFailIdx := rfl
@[simp] theorem State.deliveryTaken_waiting (d : Delivery) (rest : List Delivery) : (s.deliveryTaken d rest).waiting = none := rfl
@[simp] theorem State.deliveryTaken_producer (d : Delivery) (rest : List Delivery) : (s.deliveryTaken d rest).producer = rest := rfl
@[simp] theorem State.deliveryTaken_sink (d : Delivery) (rest : List Delivery) : (s.deliveryTaken d rest).sink = s.sink := rfl
@[simp] theorem State.deliveryTaken_opReq (d : Delivery) (rest : List Delivery) : (s.deliveryTaken d rest).opReq = s.opReq := rfl
@[simp] theorem State.deliveryTaken_resetReq (d : Delivery) (rest : List Delivery) : (s.deliveryTaken d rest).resetReq = s.resetReq := rfl
@[simp] theorem State.deliveryTaken_trace (d : Delivery) (rest : List Delivery) : (s.deliveryTaken d rest).trace = s.trace := rfl
@[simp] theorem State.deliveryTaken_events (d : Delivery) (rest : List Delivery) : (s.deliveryTaken d rest).events = s.events ++ [.read d] := rfl
@[simp] theorem State.deliveryTaken_faultLog (d : Delivery) (rest : List Delivery) : (s.deliveryTaken d rest).faultLog = s.faultLog := rfl
@[simp] theorem State.deliveryTaken_devColor (d : Delivery) (rest : List Delivery) : (s.deliveryTaken d rest).devColor = s.devColor := rfl
@[simp] theorem State.deliveryTaken_devIndet (d : Delivery) (rest : List Delivery) : (s.deliveryTaken d rest).devIndet = s.devIndet := rfl
@[simp] theorem State.deliveryTaken_draws (d : Delivery) (rest : List Delivery) : (s.deliveryTaken d rest).draws = s.draws := rfl

/-! #### `State.frameAnswered` -/

@[simp] theorem State.frameAnswered_phase (f : List Byte) (a : SinkAnswer) (rest : List SinkAnswer) : (s.frameAnswered f a rest).phase = s.phase := rfl
@[simp] theorem State.frameAnswered_pos (f : List Byte) (a : SinkAnswer) (rest : List SinkAnswer) : (s.frameAnswered f a rest).pos = s.pos := rfl
@[simp] theorem State.frameAnswered_blk (f : List Byte) (a : SinkAnswer) (rest : List SinkAnswer) : (s.frameAnswered f a rest).blk = s.blk := rfl
@[simp] theorem State.frameAnswered_xBuf (f : List Byte) (a : SinkAnswer) (rest : List SinkAnswer) : (s.frameAnswered f a rest).xBuf = s.xBuf := rfl
@[simp] theorem State.frameAnswered_aBuf (f : List Byte) (a : SinkAnswer) (rest : List SinkAnswer) : (s.frameAnswered f a rest).aBuf = s.aBuf := rfl
@[simp] theorem State.frameAnswered_sBuf (f : List Byte) (a : SinkAnswer) (rest : List SinkAnswer) : (s.frameAnswered f a rest).sBuf = s.sBuf := rfl
@[simp] theorem State.frameAnswered_fbuf (f : List Byte) (a : SinkAnswer) (rest : List SinkAnswer) : (s.frameAnswered f a rest).fbuf = s.fbuf := rfl
@[simp] theorem State.frameAnswered_smp (f : List Byte) (a : SinkAnswer) (rest : List SinkAnswer) : (s.frameAnswered f a rest).smp = s.smp := rfl
@[simp] theorem State.frameAnswered_twv (f : List Byte) (a : SinkAnswer) (rest : List SinkAnswer) : (s.frameAnswered f a rest).twv = s.twv := rfl
@[simp] theorem State.frameAnswered_magv (f : List Byte) (a : SinkAnswer) (rest : List SinkAnswer) : (s.frameAnswered f a rest).magv = s.magv := rfl
@[simp] theorem State.frameAnswered_dbv (f : List Byte) (a : SinkAnswer) (rest : List SinkAnswer) : (s.frameAnswered f a rest).dbv = s.dbv := rfl
@[simp] theorem State.frameAnswered_magMax (f : List Byte) (a : SinkAnswer) (rest : List SinkAnswer) : (s.frameAnswered f a rest).magMax = s.magMax := rfl
@[simp] theorem State.frameAnswered_dbMax (f : List Byte) (a : SinkAnswer) (rest : List SinkAnswer) : (s.frameAnswered f a rest).dbMax = s.dbMax := rfl
@[simp] theorem State.frameAnswered_domFreq (f : List Byte) (a : SinkAnswer) (rest : List SinkAnswer) : (s.frameAnswered f a rest).domFreq = s.domFreq := rfl
@[simp] theorem State.frameAnswered_hue (f : List Byte) (a : SinkAnswer) (rest : List SinkAnswer) : (s.frameAnswered f a rest).hue = s.hue := rfl
@[simp] theorem State.frameAnswered_bri (f : List Byte) (a : SinkAnswer) (rest : List SinkAnswer) : (s.frameAnswered f a rest).bri = s.bri := rfl
@[simp] theorem State.frameAnswered_rf (f : List Byte) (a : SinkAnswer) (rest : List SinkAnswer) : (s.frameAnswered f a rest).rf = s.rf := rfl
@[simp] theorem State.frameAnswered_gf (f : List Byte) (a : SinkAnswer) (rest : List SinkAnswer) : (s.frameAnswered f a rest).gf = s.gf := rfl
@[simp] theorem State.frameAnswered_bf (f : List Byte) (a : SinkAnswer) (rest : List SinkAnswer) : (s.frameAnswered f a rest).bf = s.bf := rfl
@[simp] theorem State.frameAnswered_r8 (f : List Byte) (a : SinkAnswer) (rest : List SinkAnswer) : (s.frameAnswered f a rest).r8 = s.r8 := rfl
@[simp] theorem State.frameAnswered_g8 (f : List Byte) (a : SinkAnswer) (rest : List SinkAnswer) : (s.frameAnswered f a rest).g8 = s.g8 := rfl
@[simp] theorem State.frameAnswered_b8 (f : List Byte) (a : SinkAnswer) (rest : List SinkAnswer) : (s.frameAnswered f a rest).b8 = s.b8 := rfl
@[simp] theorem State.frameAnswered_color (f : List Byte) (a : SinkAnswer) (rest : List SinkAnswer) : (s.frameAnswered f a rest).color = s.color := rfl
@[simp] theorem State.frameAnswered_fld (f : List Byte) (a : SinkAnswer) (rest : List SinkAnswer) : (s.frameAnswered f a rest).fld = s.fld := rfl
@[simp] theorem State.frameAnswered_prevColor (f : List Byte) (a : SinkAnswer) (rest : List SinkAnswer) : (s.frameAnswered f a rest).prevColor = s.prevColor := rfl
@[simp] theorem State.frameAnswered_gateSend (f : List Byte) (a : SinkAnswer) (rest : List SinkAnswer) : (s.frameAnswered f a rest).gateSend = s.gateSend := rfl
@[simp] theorem State.frameAnswered_wrOk (f : List Byte) (a : SinkAnswer) (rest : List SinkAnswer) : (s.frameAnswered f a rest).wrOk = s.wrOk := rfl
@[simp] theorem State.frameAnswered_txStatus (f : List Byte) (a : SinkAnswer) (rest : List SinkAnswer) : (s.frameAnswered f a rest).txStatus = s.txStatus := rfl
@[simp] theorem State.frameAnswered_txFailIdx (f : List Byte) (a : SinkAnswer) (rest : List SinkAnswer) : (s.frameAnswered f a rest).txFailIdx = s.txFailIdx := rfl
@[simp] theorem State.frameAnswered_waiting (f : List Byte) (a : SinkAnswer) (rest : List SinkAnswer) : (s.frameAnswered f a rest).waiting = none := rfl
@[simp] theorem State.frameAnswered_producer (f : List Byte) (a : SinkAnswer) (rest : List SinkAnswer) : (s.frameAnswered f a rest).producer = s.producer := rfl
@[simp] theorem State.frameAnswered_sink (f : List Byte) (a : SinkAnswer) (rest : List SinkAnswer) : (s.frameAnswered f a rest).sink = rest := rfl
@[simp] theorem State.frameAnswered_opReq (f : List Byte) (a : SinkAnswer) (rest : List SinkAnswer) : (s.frameAnswered f a rest).opReq = s.opReq := rfl
@[simp] theorem State.frameAnswered_resetReq (f : List Byte) (a : SinkAnswer) (rest : List SinkAnswer) : (s.frameAnswered f a rest).resetReq = s.resetReq := rfl
@[simp] theorem State.frameAnswered_trace (f : List Byte) (a : SinkAnswer) (rest : List SinkAnswer) : (s.frameAnswered f a rest).trace = s.trace := rfl
@[simp] theorem State.frameAnswered_events (f : List Byte) (a : SinkAnswer) (rest : List SinkAnswer) : (s.frameAnswered f a rest).events = s.events ++ [.write f a (deliveredBytes a s.draws)] := rfl
@[simp] theorem State.frameAnswered_faultLog (f : List Byte) (a : SinkAnswer) (rest : List SinkAnswer) : (s.frameAnswered f a rest).faultLog = s.faultLog := rfl
@[simp] theorem State.frameAnswered_devColor (f : List Byte) (a : SinkAnswer) (rest : List SinkAnswer) : (s.frameAnswered f a rest).devColor = s.devColor := rfl
@[simp] theorem State.frameAnswered_devIndet (f : List Byte) (a : SinkAnswer) (rest : List SinkAnswer) : (s.frameAnswered f a rest).devIndet = s.devIndet := rfl
@[simp] theorem State.frameAnswered_draws (f : List Byte) (a : SinkAnswer) (rest : List SinkAnswer) : (s.frameAnswered f a rest).draws = if a = .count 16 then s.draws else s.draws + 1 := rfl

/-! #### `State.beginCycle` -/

@[simp] theorem State.beginCycle_phase (bytes : List Byte) : (s.beginCycle bytes).phase = .load := rfl
@[simp] theorem State.beginCycle_pos (bytes : List Byte) : (s.beginCycle bytes).pos = s.pos := rfl
@[simp] theorem State.beginCycle_blk (bytes : List Byte) : (s.beginCycle bytes).blk = Memory.fill bytes := rfl
@[simp] theorem State.beginCycle_xBuf (bytes : List Byte) : (s.beginCycle bytes).xBuf = [] := rfl
@[simp] theorem State.beginCycle_aBuf (bytes : List Byte) : (s.beginCycle bytes).aBuf = [] := rfl
@[simp] theorem State.beginCycle_sBuf (bytes : List Byte) : (s.beginCycle bytes).sBuf = [] := rfl
@[simp] theorem State.beginCycle_fbuf (bytes : List Byte) : (s.beginCycle bytes).fbuf = [] := rfl
@[simp] theorem State.beginCycle_smp (bytes : List Byte) : (s.beginCycle bytes).smp = s.smp := rfl
@[simp] theorem State.beginCycle_twv (bytes : List Byte) : (s.beginCycle bytes).twv = s.twv := rfl
@[simp] theorem State.beginCycle_magv (bytes : List Byte) : (s.beginCycle bytes).magv = s.magv := rfl
@[simp] theorem State.beginCycle_dbv (bytes : List Byte) : (s.beginCycle bytes).dbv = s.dbv := rfl
@[simp] theorem State.beginCycle_magMax (bytes : List Byte) : (s.beginCycle bytes).magMax = s.magMax := rfl
@[simp] theorem State.beginCycle_dbMax (bytes : List Byte) : (s.beginCycle bytes).dbMax = s.dbMax := rfl
@[simp] theorem State.beginCycle_domFreq (bytes : List Byte) : (s.beginCycle bytes).domFreq = s.domFreq := rfl
@[simp] theorem State.beginCycle_hue (bytes : List Byte) : (s.beginCycle bytes).hue = s.hue := rfl
@[simp] theorem State.beginCycle_bri (bytes : List Byte) : (s.beginCycle bytes).bri = s.bri := rfl
@[simp] theorem State.beginCycle_rf (bytes : List Byte) : (s.beginCycle bytes).rf = s.rf := rfl
@[simp] theorem State.beginCycle_gf (bytes : List Byte) : (s.beginCycle bytes).gf = s.gf := rfl
@[simp] theorem State.beginCycle_bf (bytes : List Byte) : (s.beginCycle bytes).bf = s.bf := rfl
@[simp] theorem State.beginCycle_r8 (bytes : List Byte) : (s.beginCycle bytes).r8 = s.r8 := rfl
@[simp] theorem State.beginCycle_g8 (bytes : List Byte) : (s.beginCycle bytes).g8 = s.g8 := rfl
@[simp] theorem State.beginCycle_b8 (bytes : List Byte) : (s.beginCycle bytes).b8 = s.b8 := rfl
@[simp] theorem State.beginCycle_color (bytes : List Byte) : (s.beginCycle bytes).color = s.color := rfl
@[simp] theorem State.beginCycle_fld (bytes : List Byte) : (s.beginCycle bytes).fld = s.fld := rfl
@[simp] theorem State.beginCycle_prevColor (bytes : List Byte) : (s.beginCycle bytes).prevColor = s.prevColor := rfl
@[simp] theorem State.beginCycle_gateSend (bytes : List Byte) : (s.beginCycle bytes).gateSend = s.gateSend := rfl
@[simp] theorem State.beginCycle_wrOk (bytes : List Byte) : (s.beginCycle bytes).wrOk = s.wrOk := rfl
@[simp] theorem State.beginCycle_txStatus (bytes : List Byte) : (s.beginCycle bytes).txStatus = txNone := rfl
@[simp] theorem State.beginCycle_txFailIdx (bytes : List Byte) : (s.beginCycle bytes).txFailIdx = 0 := rfl
@[simp] theorem State.beginCycle_waiting (bytes : List Byte) : (s.beginCycle bytes).waiting = s.waiting := rfl
@[simp] theorem State.beginCycle_producer (bytes : List Byte) : (s.beginCycle bytes).producer = s.producer := rfl
@[simp] theorem State.beginCycle_sink (bytes : List Byte) : (s.beginCycle bytes).sink = s.sink := rfl
@[simp] theorem State.beginCycle_opReq (bytes : List Byte) : (s.beginCycle bytes).opReq = s.opReq := rfl
@[simp] theorem State.beginCycle_resetReq (bytes : List Byte) : (s.beginCycle bytes).resetReq = s.resetReq := rfl
@[simp] theorem State.beginCycle_trace (bytes : List Byte) : (s.beginCycle bytes).trace = s.trace := rfl
@[simp] theorem State.beginCycle_events (bytes : List Byte) : (s.beginCycle bytes).events = s.events := rfl
@[simp] theorem State.beginCycle_faultLog (bytes : List Byte) : (s.beginCycle bytes).faultLog = s.faultLog := rfl
@[simp] theorem State.beginCycle_devColor (bytes : List Byte) : (s.beginCycle bytes).devColor = s.devColor := rfl
@[simp] theorem State.beginCycle_devIndet (bytes : List Byte) : (s.beginCycle bytes).devIndet = s.devIndet := rfl
@[simp] theorem State.beginCycle_draws (bytes : List Byte) : (s.beginCycle bytes).draws = s.draws := rfl

/-! #### `State.takeEndOfInput` -/

@[simp] theorem State.takeEndOfInput_phase : (s.takeEndOfInput).phase = .halted := rfl
@[simp] theorem State.takeEndOfInput_pos : (s.takeEndOfInput).pos = s.pos := rfl
@[simp] theorem State.takeEndOfInput_blk : (s.takeEndOfInput).blk = s.blk := rfl
@[simp] theorem State.takeEndOfInput_xBuf : (s.takeEndOfInput).xBuf = s.xBuf := rfl
@[simp] theorem State.takeEndOfInput_aBuf : (s.takeEndOfInput).aBuf = s.aBuf := rfl
@[simp] theorem State.takeEndOfInput_sBuf : (s.takeEndOfInput).sBuf = s.sBuf := rfl
@[simp] theorem State.takeEndOfInput_fbuf : (s.takeEndOfInput).fbuf = s.fbuf := rfl
@[simp] theorem State.takeEndOfInput_smp : (s.takeEndOfInput).smp = s.smp := rfl
@[simp] theorem State.takeEndOfInput_twv : (s.takeEndOfInput).twv = s.twv := rfl
@[simp] theorem State.takeEndOfInput_magv : (s.takeEndOfInput).magv = s.magv := rfl
@[simp] theorem State.takeEndOfInput_dbv : (s.takeEndOfInput).dbv = s.dbv := rfl
@[simp] theorem State.takeEndOfInput_magMax : (s.takeEndOfInput).magMax = s.magMax := rfl
@[simp] theorem State.takeEndOfInput_dbMax : (s.takeEndOfInput).dbMax = s.dbMax := rfl
@[simp] theorem State.takeEndOfInput_domFreq : (s.takeEndOfInput).domFreq = s.domFreq := rfl
@[simp] theorem State.takeEndOfInput_hue : (s.takeEndOfInput).hue = s.hue := rfl
@[simp] theorem State.takeEndOfInput_bri : (s.takeEndOfInput).bri = s.bri := rfl
@[simp] theorem State.takeEndOfInput_rf : (s.takeEndOfInput).rf = s.rf := rfl
@[simp] theorem State.takeEndOfInput_gf : (s.takeEndOfInput).gf = s.gf := rfl
@[simp] theorem State.takeEndOfInput_bf : (s.takeEndOfInput).bf = s.bf := rfl
@[simp] theorem State.takeEndOfInput_r8 : (s.takeEndOfInput).r8 = s.r8 := rfl
@[simp] theorem State.takeEndOfInput_g8 : (s.takeEndOfInput).g8 = s.g8 := rfl
@[simp] theorem State.takeEndOfInput_b8 : (s.takeEndOfInput).b8 = s.b8 := rfl
@[simp] theorem State.takeEndOfInput_color : (s.takeEndOfInput).color = s.color := rfl
@[simp] theorem State.takeEndOfInput_fld : (s.takeEndOfInput).fld = s.fld := rfl
@[simp] theorem State.takeEndOfInput_prevColor : (s.takeEndOfInput).prevColor = s.prevColor := rfl
@[simp] theorem State.takeEndOfInput_gateSend : (s.takeEndOfInput).gateSend = s.gateSend := rfl
@[simp] theorem State.takeEndOfInput_wrOk : (s.takeEndOfInput).wrOk = s.wrOk := rfl
@[simp] theorem State.takeEndOfInput_txStatus : (s.takeEndOfInput).txStatus = s.txStatus := rfl
@[simp] theorem State.takeEndOfInput_txFailIdx : (s.takeEndOfInput).txFailIdx = s.txFailIdx := rfl
@[simp] theorem State.takeEndOfInput_waiting : (s.takeEndOfInput).waiting = s.waiting := rfl
@[simp] theorem State.takeEndOfInput_producer : (s.takeEndOfInput).producer = s.producer := rfl
@[simp] theorem State.takeEndOfInput_sink : (s.takeEndOfInput).sink = s.sink := rfl
@[simp] theorem State.takeEndOfInput_opReq : (s.takeEndOfInput).opReq = s.opReq := rfl
@[simp] theorem State.takeEndOfInput_resetReq : (s.takeEndOfInput).resetReq = s.resetReq := rfl
@[simp] theorem State.takeEndOfInput_trace : (s.takeEndOfInput).trace = s.trace := rfl
@[simp] theorem State.takeEndOfInput_events : (s.takeEndOfInput).events = s.events := rfl
@[simp] theorem State.takeEndOfInput_faultLog : (s.takeEndOfInput).faultLog = s.faultLog := rfl
@[simp] theorem State.takeEndOfInput_devColor : (s.takeEndOfInput).devColor = s.devColor := rfl
@[simp] theorem State.takeEndOfInput_devIndet : (s.takeEndOfInput).devIndet = s.devIndet := rfl
@[simp] theorem State.takeEndOfInput_draws : (s.takeEndOfInput).draws = s.draws := rfl

/-! #### `State.takeTransmissionFailure` -/

@[simp] theorem State.takeTransmissionFailure_phase (r : Role) : (s.takeTransmissionFailure r).phase = s.phase := rfl
@[simp] theorem State.takeTransmissionFailure_pos (r : Role) : (s.takeTransmissionFailure r).pos = s.pos := rfl
@[simp] theorem State.takeTransmissionFailure_blk (r : Role) : (s.takeTransmissionFailure r).blk = s.blk := rfl
@[simp] theorem State.takeTransmissionFailure_xBuf (r : Role) : (s.takeTransmissionFailure r).xBuf = s.xBuf := rfl
@[simp] theorem State.takeTransmissionFailure_aBuf (r : Role) : (s.takeTransmissionFailure r).aBuf = s.aBuf := rfl
@[simp] theorem State.takeTransmissionFailure_sBuf (r : Role) : (s.takeTransmissionFailure r).sBuf = s.sBuf := rfl
@[simp] theorem State.takeTransmissionFailure_fbuf (r : Role) : (s.takeTransmissionFailure r).fbuf = s.fbuf := rfl
@[simp] theorem State.takeTransmissionFailure_smp (r : Role) : (s.takeTransmissionFailure r).smp = s.smp := rfl
@[simp] theorem State.takeTransmissionFailure_twv (r : Role) : (s.takeTransmissionFailure r).twv = s.twv := rfl
@[simp] theorem State.takeTransmissionFailure_magv (r : Role) : (s.takeTransmissionFailure r).magv = s.magv := rfl
@[simp] theorem State.takeTransmissionFailure_dbv (r : Role) : (s.takeTransmissionFailure r).dbv = s.dbv := rfl
@[simp] theorem State.takeTransmissionFailure_magMax (r : Role) : (s.takeTransmissionFailure r).magMax = s.magMax := rfl
@[simp] theorem State.takeTransmissionFailure_dbMax (r : Role) : (s.takeTransmissionFailure r).dbMax = s.dbMax := rfl
@[simp] theorem State.takeTransmissionFailure_domFreq (r : Role) : (s.takeTransmissionFailure r).domFreq = s.domFreq := rfl
@[simp] theorem State.takeTransmissionFailure_hue (r : Role) : (s.takeTransmissionFailure r).hue = s.hue := rfl
@[simp] theorem State.takeTransmissionFailure_bri (r : Role) : (s.takeTransmissionFailure r).bri = s.bri := rfl
@[simp] theorem State.takeTransmissionFailure_rf (r : Role) : (s.takeTransmissionFailure r).rf = s.rf := rfl
@[simp] theorem State.takeTransmissionFailure_gf (r : Role) : (s.takeTransmissionFailure r).gf = s.gf := rfl
@[simp] theorem State.takeTransmissionFailure_bf (r : Role) : (s.takeTransmissionFailure r).bf = s.bf := rfl
@[simp] theorem State.takeTransmissionFailure_r8 (r : Role) : (s.takeTransmissionFailure r).r8 = s.r8 := rfl
@[simp] theorem State.takeTransmissionFailure_g8 (r : Role) : (s.takeTransmissionFailure r).g8 = s.g8 := rfl
@[simp] theorem State.takeTransmissionFailure_b8 (r : Role) : (s.takeTransmissionFailure r).b8 = s.b8 := rfl
@[simp] theorem State.takeTransmissionFailure_color (r : Role) : (s.takeTransmissionFailure r).color = s.color := rfl
@[simp] theorem State.takeTransmissionFailure_fld (r : Role) : (s.takeTransmissionFailure r).fld = s.fld := rfl
@[simp] theorem State.takeTransmissionFailure_prevColor (r : Role) : (s.takeTransmissionFailure r).prevColor = s.prevColor := rfl
@[simp] theorem State.takeTransmissionFailure_gateSend (r : Role) : (s.takeTransmissionFailure r).gateSend = s.gateSend := rfl
@[simp] theorem State.takeTransmissionFailure_wrOk (r : Role) : (s.takeTransmissionFailure r).wrOk = s.wrOk := rfl
@[simp] theorem State.takeTransmissionFailure_txStatus (r : Role) : (s.takeTransmissionFailure r).txStatus = txFail := rfl
@[simp] theorem State.takeTransmissionFailure_txFailIdx (r : Role) : (s.takeTransmissionFailure r).txFailIdx = BitVec.ofNat 2 r.code := rfl
@[simp] theorem State.takeTransmissionFailure_waiting (r : Role) : (s.takeTransmissionFailure r).waiting = s.waiting := rfl
@[simp] theorem State.takeTransmissionFailure_producer (r : Role) : (s.takeTransmissionFailure r).producer = s.producer := rfl
@[simp] theorem State.takeTransmissionFailure_sink (r : Role) : (s.takeTransmissionFailure r).sink = s.sink := rfl
@[simp] theorem State.takeTransmissionFailure_opReq (r : Role) : (s.takeTransmissionFailure r).opReq = s.opReq := rfl
@[simp] theorem State.takeTransmissionFailure_resetReq (r : Role) : (s.takeTransmissionFailure r).resetReq = s.resetReq := rfl
@[simp] theorem State.takeTransmissionFailure_trace (r : Role) : (s.takeTransmissionFailure r).trace = s.trace := rfl
@[simp] theorem State.takeTransmissionFailure_events (r : Role) : (s.takeTransmissionFailure r).events = s.events := rfl
@[simp] theorem State.takeTransmissionFailure_faultLog (r : Role) : (s.takeTransmissionFailure r).faultLog = s.faultLog := rfl
@[simp] theorem State.takeTransmissionFailure_devColor (r : Role) : (s.takeTransmissionFailure r).devColor = s.devColor := rfl
@[simp] theorem State.takeTransmissionFailure_devIndet (r : Role) : (s.takeTransmissionFailure r).devIndet = true := rfl
@[simp] theorem State.takeTransmissionFailure_draws (r : Role) : (s.takeTransmissionFailure r).draws = s.draws := rfl

/-! #### `State.completeTransmission` -/

@[simp] theorem State.completeTransmission_phase : (s.completeTransmission).phase = s.phase := rfl
@[simp] theorem State.completeTransmission_pos : (s.completeTransmission).pos = s.pos := rfl
@[simp] theorem State.completeTransmission_blk : (s.completeTransmission).blk = s.blk := rfl
@[simp] theorem State.completeTransmission_xBuf : (s.completeTransmission).xBuf = s.xBuf := rfl
@[simp] theorem State.completeTransmission_aBuf : (s.completeTransmission).aBuf = s.aBuf := rfl
@[simp] theorem State.completeTransmission_sBuf : (s.completeTransmission).sBuf = s.sBuf := rfl
@[simp] theorem State.completeTransmission_fbuf : (s.completeTransmission).fbuf = s.fbuf := rfl
@[simp] theorem State.completeTransmission_smp : (s.completeTransmission).smp = s.smp := rfl
@[simp] theorem State.completeTransmission_twv : (s.completeTransmission).twv = s.twv := rfl
@[simp] theorem State.completeTransmission_magv : (s.completeTransmission).magv = s.magv := rfl
@[simp] theorem State.completeTransmission_dbv : (s.completeTransmission).dbv = s.dbv := rfl
@[simp] theorem State.completeTransmission_magMax : (s.completeTransmission).magMax = s.magMax := rfl
@[simp] theorem State.completeTransmission_dbMax : (s.completeTransmission).dbMax = s.dbMax := rfl
@[simp] theorem State.completeTransmission_domFreq : (s.completeTransmission).domFreq = s.domFreq := rfl
@[simp] theorem State.completeTransmission_hue : (s.completeTransmission).hue = s.hue := rfl
@[simp] theorem State.completeTransmission_bri : (s.completeTransmission).bri = s.bri := rfl
@[simp] theorem State.completeTransmission_rf : (s.completeTransmission).rf = s.rf := rfl
@[simp] theorem State.completeTransmission_gf : (s.completeTransmission).gf = s.gf := rfl
@[simp] theorem State.completeTransmission_bf : (s.completeTransmission).bf = s.bf := rfl
@[simp] theorem State.completeTransmission_r8 : (s.completeTransmission).r8 = s.r8 := rfl
@[simp] theorem State.completeTransmission_g8 : (s.completeTransmission).g8 = s.g8 := rfl
@[simp] theorem State.completeTransmission_b8 : (s.completeTransmission).b8 = s.b8 := rfl
@[simp] theorem State.completeTransmission_color : (s.completeTransmission).color = s.color := rfl
@[simp] theorem State.completeTransmission_fld : (s.completeTransmission).fld = s.fld := rfl
@[simp] theorem State.completeTransmission_prevColor : (s.completeTransmission).prevColor = s.prevColor := rfl
@[simp] theorem State.completeTransmission_gateSend : (s.completeTransmission).gateSend = s.gateSend := rfl
@[simp] theorem State.completeTransmission_wrOk : (s.completeTransmission).wrOk = s.wrOk := rfl
@[simp] theorem State.completeTransmission_txStatus : (s.completeTransmission).txStatus = txOk := rfl
@[simp] theorem State.completeTransmission_txFailIdx : (s.completeTransmission).txFailIdx = 0 := rfl
@[simp] theorem State.completeTransmission_waiting : (s.completeTransmission).waiting = s.waiting := rfl
@[simp] theorem State.completeTransmission_producer : (s.completeTransmission).producer = s.producer := rfl
@[simp] theorem State.completeTransmission_sink : (s.completeTransmission).sink = s.sink := rfl
@[simp] theorem State.completeTransmission_opReq : (s.completeTransmission).opReq = s.opReq := rfl
@[simp] theorem State.completeTransmission_resetReq : (s.completeTransmission).resetReq = s.resetReq := rfl
@[simp] theorem State.completeTransmission_trace : (s.completeTransmission).trace = s.trace := rfl
@[simp] theorem State.completeTransmission_events : (s.completeTransmission).events = s.events := rfl
@[simp] theorem State.completeTransmission_faultLog : (s.completeTransmission).faultLog = s.faultLog := rfl
@[simp] theorem State.completeTransmission_devColor : (s.completeTransmission).devColor = s.color.value := rfl
@[simp] theorem State.completeTransmission_devIndet : (s.completeTransmission).devIndet = false := rfl
@[simp] theorem State.completeTransmission_draws : (s.completeTransmission).draws = s.draws := rfl

/-! #### `State.putRgb` -/

@[simp] theorem State.putRgb_phase (o : Rgb) : (s.putRgb o).phase = s.phase := rfl
@[simp] theorem State.putRgb_pos (o : Rgb) : (s.putRgb o).pos = s.pos := rfl
@[simp] theorem State.putRgb_blk (o : Rgb) : (s.putRgb o).blk = s.blk := rfl
@[simp] theorem State.putRgb_xBuf (o : Rgb) : (s.putRgb o).xBuf = s.xBuf := rfl
@[simp] theorem State.putRgb_aBuf (o : Rgb) : (s.putRgb o).aBuf = s.aBuf := rfl
@[simp] theorem State.putRgb_sBuf (o : Rgb) : (s.putRgb o).sBuf = s.sBuf := rfl
@[simp] theorem State.putRgb_fbuf (o : Rgb) : (s.putRgb o).fbuf = s.fbuf := rfl
@[simp] theorem State.putRgb_smp (o : Rgb) : (s.putRgb o).smp = s.smp := rfl
@[simp] theorem State.putRgb_twv (o : Rgb) : (s.putRgb o).twv = s.twv := rfl
@[simp] theorem State.putRgb_magv (o : Rgb) : (s.putRgb o).magv = s.magv := rfl
@[simp] theorem State.putRgb_dbv (o : Rgb) : (s.putRgb o).dbv = s.dbv := rfl
@[simp] theorem State.putRgb_magMax (o : Rgb) : (s.putRgb o).magMax = s.magMax := rfl
@[simp] theorem State.putRgb_dbMax (o : Rgb) : (s.putRgb o).dbMax = s.dbMax := rfl
@[simp] theorem State.putRgb_domFreq (o : Rgb) : (s.putRgb o).domFreq = s.domFreq := rfl
@[simp] theorem State.putRgb_hue (o : Rgb) : (s.putRgb o).hue = s.hue := rfl
@[simp] theorem State.putRgb_bri (o : Rgb) : (s.putRgb o).bri = s.bri := rfl
@[simp] theorem State.putRgb_rf (o : Rgb) : (s.putRgb o).rf = Reg.put o.r := rfl
@[simp] theorem State.putRgb_gf (o : Rgb) : (s.putRgb o).gf = Reg.put o.g := rfl
@[simp] theorem State.putRgb_bf (o : Rgb) : (s.putRgb o).bf = Reg.put o.b := rfl
@[simp] theorem State.putRgb_r8 (o : Rgb) : (s.putRgb o).r8 = s.r8 := rfl
@[simp] theorem State.putRgb_g8 (o : Rgb) : (s.putRgb o).g8 = s.g8 := rfl
@[simp] theorem State.putRgb_b8 (o : Rgb) : (s.putRgb o).b8 = s.b8 := rfl
@[simp] theorem State.putRgb_color (o : Rgb) : (s.putRgb o).color = s.color := rfl
@[simp] theorem State.putRgb_fld (o : Rgb) : (s.putRgb o).fld = s.fld := rfl
@[simp] theorem State.putRgb_prevColor (o : Rgb) : (s.putRgb o).prevColor = s.prevColor := rfl
@[simp] theorem State.putRgb_gateSend (o : Rgb) : (s.putRgb o).gateSend = s.gateSend := rfl
@[simp] theorem State.putRgb_wrOk (o : Rgb) : (s.putRgb o).wrOk = s.wrOk := rfl
@[simp] theorem State.putRgb_txStatus (o : Rgb) : (s.putRgb o).txStatus = s.txStatus := rfl
@[simp] theorem State.putRgb_txFailIdx (o : Rgb) : (s.putRgb o).txFailIdx = s.txFailIdx := rfl
@[simp] theorem State.putRgb_waiting (o : Rgb) : (s.putRgb o).waiting = s.waiting := rfl
@[simp] theorem State.putRgb_producer (o : Rgb) : (s.putRgb o).producer = s.producer := rfl
@[simp] theorem State.putRgb_sink (o : Rgb) : (s.putRgb o).sink = s.sink := rfl
@[simp] theorem State.putRgb_opReq (o : Rgb) : (s.putRgb o).opReq = s.opReq := rfl
@[simp] theorem State.putRgb_resetReq (o : Rgb) : (s.putRgb o).resetReq = s.resetReq := rfl
@[simp] theorem State.putRgb_trace (o : Rgb) : (s.putRgb o).trace = s.trace := rfl
@[simp] theorem State.putRgb_events (o : Rgb) : (s.putRgb o).events = s.events := rfl
@[simp] theorem State.putRgb_faultLog (o : Rgb) : (s.putRgb o).faultLog = s.faultLog := rfl
@[simp] theorem State.putRgb_devColor (o : Rgb) : (s.putRgb o).devColor = s.devColor := rfl
@[simp] theorem State.putRgb_devIndet (o : Rgb) : (s.putRgb o).devIndet = s.devIndet := rfl
@[simp] theorem State.putRgb_draws (o : Rgb) : (s.putRgb o).draws = s.draws := rfl

/-! #### `twrdOp` -/

@[simp] theorem twrdOp_phase (k : Nat) : (twrdOp k s).phase = s.phase := rfl
@[simp] theorem twrdOp_pos (k : Nat) : (twrdOp k s).pos = s.pos := rfl
@[simp] theorem twrdOp_blk (k : Nat) : (twrdOp k s).blk = s.blk := rfl
@[simp] theorem twrdOp_xBuf (k : Nat) : (twrdOp k s).xBuf = s.xBuf := rfl
@[simp] theorem twrdOp_aBuf (k : Nat) : (twrdOp k s).aBuf = s.aBuf := rfl
@[simp] theorem twrdOp_sBuf (k : Nat) : (twrdOp k s).sBuf = s.sBuf := rfl
@[simp] theorem twrdOp_fbuf (k : Nat) : (twrdOp k s).fbuf = s.fbuf := rfl
@[simp] theorem twrdOp_smp (k : Nat) : (twrdOp k s).smp = s.smp := rfl
@[simp] theorem twrdOp_twv (k : Nat) : (twrdOp k s).twv = Reg.put (Rom.twiddle k) := rfl
@[simp] theorem twrdOp_magv (k : Nat) : (twrdOp k s).magv = s.magv := rfl
@[simp] theorem twrdOp_dbv (k : Nat) : (twrdOp k s).dbv = s.dbv := rfl
@[simp] theorem twrdOp_magMax (k : Nat) : (twrdOp k s).magMax = s.magMax := rfl
@[simp] theorem twrdOp_dbMax (k : Nat) : (twrdOp k s).dbMax = s.dbMax := rfl
@[simp] theorem twrdOp_domFreq (k : Nat) : (twrdOp k s).domFreq = s.domFreq := rfl
@[simp] theorem twrdOp_hue (k : Nat) : (twrdOp k s).hue = s.hue := rfl
@[simp] theorem twrdOp_bri (k : Nat) : (twrdOp k s).bri = s.bri := rfl
@[simp] theorem twrdOp_rf (k : Nat) : (twrdOp k s).rf = s.rf := rfl
@[simp] theorem twrdOp_gf (k : Nat) : (twrdOp k s).gf = s.gf := rfl
@[simp] theorem twrdOp_bf (k : Nat) : (twrdOp k s).bf = s.bf := rfl
@[simp] theorem twrdOp_r8 (k : Nat) : (twrdOp k s).r8 = s.r8 := rfl
@[simp] theorem twrdOp_g8 (k : Nat) : (twrdOp k s).g8 = s.g8 := rfl
@[simp] theorem twrdOp_b8 (k : Nat) : (twrdOp k s).b8 = s.b8 := rfl
@[simp] theorem twrdOp_color (k : Nat) : (twrdOp k s).color = s.color := rfl
@[simp] theorem twrdOp_fld (k : Nat) : (twrdOp k s).fld = s.fld := rfl
@[simp] theorem twrdOp_prevColor (k : Nat) : (twrdOp k s).prevColor = s.prevColor := rfl
@[simp] theorem twrdOp_gateSend (k : Nat) : (twrdOp k s).gateSend = s.gateSend := rfl
@[simp] theorem twrdOp_wrOk (k : Nat) : (twrdOp k s).wrOk = s.wrOk := rfl
@[simp] theorem twrdOp_txStatus (k : Nat) : (twrdOp k s).txStatus = s.txStatus := rfl
@[simp] theorem twrdOp_txFailIdx (k : Nat) : (twrdOp k s).txFailIdx = s.txFailIdx := rfl
@[simp] theorem twrdOp_waiting (k : Nat) : (twrdOp k s).waiting = s.waiting := rfl
@[simp] theorem twrdOp_producer (k : Nat) : (twrdOp k s).producer = s.producer := rfl
@[simp] theorem twrdOp_sink (k : Nat) : (twrdOp k s).sink = s.sink := rfl
@[simp] theorem twrdOp_opReq (k : Nat) : (twrdOp k s).opReq = s.opReq := rfl
@[simp] theorem twrdOp_resetReq (k : Nat) : (twrdOp k s).resetReq = s.resetReq := rfl
@[simp] theorem twrdOp_trace (k : Nat) : (twrdOp k s).trace = s.trace := rfl
@[simp] theorem twrdOp_events (k : Nat) : (twrdOp k s).events = s.events := rfl
@[simp] theorem twrdOp_faultLog (k : Nat) : (twrdOp k s).faultLog = s.faultLog := rfl
@[simp] theorem twrdOp_devColor (k : Nat) : (twrdOp k s).devColor = s.devColor := rfl
@[simp] theorem twrdOp_devIndet (k : Nat) : (twrdOp k s).devIndet = s.devIndet := rfl
@[simp] theorem twrdOp_draws (k : Nat) : (twrdOp k s).draws = s.draws := rfl

/-! #### `clearMaxima` -/

@[simp] theorem clearMaxima_phase : (clearMaxima s).phase = s.phase := rfl
@[simp] theorem clearMaxima_pos : (clearMaxima s).pos = s.pos := rfl
@[simp] theorem clearMaxima_blk : (clearMaxima s).blk = s.blk := rfl
@[simp] theorem clearMaxima_xBuf : (clearMaxima s).xBuf = s.xBuf := rfl
@[simp] theorem clearMaxima_aBuf : (clearMaxima s).aBuf = s.aBuf := rfl
@[simp] theorem clearMaxima_sBuf : (clearMaxima s).sBuf = s.sBuf := rfl
@[simp] theorem clearMaxima_fbuf : (clearMaxima s).fbuf = s.fbuf := rfl
@[simp] theorem clearMaxima_smp : (clearMaxima s).smp = s.smp := rfl
@[simp] theorem clearMaxima_twv : (clearMaxima s).twv = s.twv := rfl
@[simp] theorem clearMaxima_magv : (clearMaxima s).magv = s.magv := rfl
@[simp] theorem clearMaxima_dbv : (clearMaxima s).dbv = s.dbv := rfl
@[simp] theorem clearMaxima_magMax : (clearMaxima s).magMax = Reg.put F64.zero := rfl
@[simp] theorem clearMaxima_dbMax : (clearMaxima s).dbMax = Reg.put F64.zero := rfl
@[simp] theorem clearMaxima_domFreq : (clearMaxima s).domFreq = s.domFreq := rfl
@[simp] theorem clearMaxima_hue : (clearMaxima s).hue = s.hue := rfl
@[simp] theorem clearMaxima_bri : (clearMaxima s).bri = s.bri := rfl
@[simp] theorem clearMaxima_rf : (clearMaxima s).rf = s.rf := rfl
@[simp] theorem clearMaxima_gf : (clearMaxima s).gf = s.gf := rfl
@[simp] theorem clearMaxima_bf : (clearMaxima s).bf = s.bf := rfl
@[simp] theorem clearMaxima_r8 : (clearMaxima s).r8 = s.r8 := rfl
@[simp] theorem clearMaxima_g8 : (clearMaxima s).g8 = s.g8 := rfl
@[simp] theorem clearMaxima_b8 : (clearMaxima s).b8 = s.b8 := rfl
@[simp] theorem clearMaxima_color : (clearMaxima s).color = s.color := rfl
@[simp] theorem clearMaxima_fld : (clearMaxima s).fld = s.fld := rfl
@[simp] theorem clearMaxima_prevColor : (clearMaxima s).prevColor = s.prevColor := rfl
@[simp] theorem clearMaxima_gateSend : (clearMaxima s).gateSend = s.gateSend := rfl
@[simp] theorem clearMaxima_wrOk : (clearMaxima s).wrOk = s.wrOk := rfl
@[simp] theorem clearMaxima_txStatus : (clearMaxima s).txStatus = s.txStatus := rfl
@[simp] theorem clearMaxima_txFailIdx : (clearMaxima s).txFailIdx = s.txFailIdx := rfl
@[simp] theorem clearMaxima_waiting : (clearMaxima s).waiting = s.waiting := rfl
@[simp] theorem clearMaxima_producer : (clearMaxima s).producer = s.producer := rfl
@[simp] theorem clearMaxima_sink : (clearMaxima s).sink = s.sink := rfl
@[simp] theorem clearMaxima_opReq : (clearMaxima s).opReq = s.opReq := rfl
@[simp] theorem clearMaxima_resetReq : (clearMaxima s).resetReq = s.resetReq := rfl
@[simp] theorem clearMaxima_trace : (clearMaxima s).trace = s.trace := rfl
@[simp] theorem clearMaxima_events : (clearMaxima s).events = s.events := rfl
@[simp] theorem clearMaxima_faultLog : (clearMaxima s).faultLog = s.faultLog := rfl
@[simp] theorem clearMaxima_devColor : (clearMaxima s).devColor = s.devColor := rfl
@[simp] theorem clearMaxima_devIndet : (clearMaxima s).devIndet = s.devIndet := rfl
@[simp] theorem clearMaxima_draws : (clearMaxima s).draws = s.draws := rfl

/-! #### `updateMaxima` -/

@[simp] theorem updateMaxima_phase : (updateMaxima s).phase = s.phase := rfl
@[simp] theorem updateMaxima_pos : (updateMaxima s).pos = s.pos := rfl
@[simp] theorem updateMaxima_blk : (updateMaxima s).blk = s.blk := rfl
@[simp] theorem updateMaxima_xBuf : (updateMaxima s).xBuf = s.xBuf := rfl
@[simp] theorem updateMaxima_aBuf : (updateMaxima s).aBuf = s.aBuf := rfl
@[simp] theorem updateMaxima_sBuf : (updateMaxima s).sBuf = s.sBuf := rfl
@[simp] theorem updateMaxima_fbuf : (updateMaxima s).fbuf = s.fbuf := rfl
@[simp] theorem updateMaxima_smp : (updateMaxima s).smp = s.smp := rfl
@[simp] theorem updateMaxima_twv : (updateMaxima s).twv = s.twv := rfl
@[simp] theorem updateMaxima_magv : (updateMaxima s).magv = s.magv := rfl
@[simp] theorem updateMaxima_dbv : (updateMaxima s).dbv = s.dbv := rfl
@[simp] theorem updateMaxima_magMax : (updateMaxima s).magMax = Reg.put (runningMax s.magMax.value s.magv.value) := rfl
@[simp] theorem updateMaxima_dbMax : (updateMaxima s).dbMax = Reg.put (runningMax s.dbMax.value s.dbv.value) := rfl
@[simp] theorem updateMaxima_domFreq : (updateMaxima s).domFreq = s.domFreq := rfl
@[simp] theorem updateMaxima_hue : (updateMaxima s).hue = s.hue := rfl
@[simp] theorem updateMaxima_bri : (updateMaxima s).bri = s.bri := rfl
@[simp] theorem updateMaxima_rf : (updateMaxima s).rf = s.rf := rfl
@[simp] theorem updateMaxima_gf : (updateMaxima s).gf = s.gf := rfl
@[simp] theorem updateMaxima_bf : (updateMaxima s).bf = s.bf := rfl
@[simp] theorem updateMaxima_r8 : (updateMaxima s).r8 = s.r8 := rfl
@[simp] theorem updateMaxima_g8 : (updateMaxima s).g8 = s.g8 := rfl
@[simp] theorem updateMaxima_b8 : (updateMaxima s).b8 = s.b8 := rfl
@[simp] theorem updateMaxima_color : (updateMaxima s).color = s.color := rfl
@[simp] theorem updateMaxima_fld : (updateMaxima s).fld = s.fld := rfl
@[simp] theorem updateMaxima_prevColor : (updateMaxima s).prevColor = s.prevColor := rfl
@[simp] theorem updateMaxima_gateSend : (updateMaxima s).gateSend = s.gateSend := rfl
@[simp] theorem updateMaxima_wrOk : (updateMaxima s).wrOk = s.wrOk := rfl
@[simp] theorem updateMaxima_txStatus : (updateMaxima s).txStatus = s.txStatus := rfl
@[simp] theorem updateMaxima_txFailIdx : (updateMaxima s).txFailIdx = s.txFailIdx := rfl
@[simp] theorem updateMaxima_waiting : (updateMaxima s).waiting = s.waiting := rfl
@[simp] theorem updateMaxima_producer : (updateMaxima s).producer = s.producer := rfl
@[simp] theorem updateMaxima_sink : (updateMaxima s).sink = s.sink := rfl
@[simp] theorem updateMaxima_opReq : (updateMaxima s).opReq = s.opReq := rfl
@[simp] theorem updateMaxima_resetReq : (updateMaxima s).resetReq = s.resetReq := rfl
@[simp] theorem updateMaxima_trace : (updateMaxima s).trace = s.trace := rfl
@[simp] theorem updateMaxima_events : (updateMaxima s).events = s.events := rfl
@[simp] theorem updateMaxima_faultLog : (updateMaxima s).faultLog = s.faultLog := rfl
@[simp] theorem updateMaxima_devColor : (updateMaxima s).devColor = s.devColor := rfl
@[simp] theorem updateMaxima_devIndet : (updateMaxima s).devIndet = s.devIndet := rfl
@[simp] theorem updateMaxima_draws : (updateMaxima s).draws = s.draws := rfl

/-! #### `latchColor` -/

@[simp] theorem latchColor_phase (c : Word) : (latchColor s c).phase = s.phase := rfl
@[simp] theorem latchColor_pos (c : Word) : (latchColor s c).pos = s.pos := rfl
@[simp] theorem latchColor_blk (c : Word) : (latchColor s c).blk = s.blk := rfl
@[simp] theorem latchColor_xBuf (c : Word) : (latchColor s c).xBuf = s.xBuf := rfl
@[simp] theorem latchColor_aBuf (c : Word) : (latchColor s c).aBuf = s.aBuf := rfl
@[simp] theorem latchColor_sBuf (c : Word) : (latchColor s c).sBuf = s.sBuf := rfl
@[simp] theorem latchColor_fbuf (c : Word) : (latchColor s c).fbuf = s.fbuf := rfl
@[simp] theorem latchColor_smp (c : Word) : (latchColor s c).smp = s.smp := rfl
@[simp] theorem latchColor_twv (c : Word) : (latchColor s c).twv = s.twv := rfl
@[simp] theorem latchColor_magv (c : Word) : (latchColor s c).magv = s.magv := rfl
@[simp] theorem latchColor_dbv (c : Word) : (latchColor s c).dbv = s.dbv := rfl
@[simp] theorem latchColor_magMax (c : Word) : (latchColor s c).magMax = s.magMax := rfl
@[simp] theorem latchColor_dbMax (c : Word) : (latchColor s c).dbMax = s.dbMax := rfl
@[simp] theorem latchColor_domFreq (c : Word) : (latchColor s c).domFreq = s.domFreq := rfl
@[simp] theorem latchColor_hue (c : Word) : (latchColor s c).hue = s.hue := rfl
@[simp] theorem latchColor_bri (c : Word) : (latchColor s c).bri = s.bri := rfl
@[simp] theorem latchColor_rf (c : Word) : (latchColor s c).rf = s.rf := rfl
@[simp] theorem latchColor_gf (c : Word) : (latchColor s c).gf = s.gf := rfl
@[simp] theorem latchColor_bf (c : Word) : (latchColor s c).bf = s.bf := rfl
@[simp] theorem latchColor_r8 (c : Word) : (latchColor s c).r8 = s.r8 := rfl
@[simp] theorem latchColor_g8 (c : Word) : (latchColor s c).g8 = s.g8 := rfl
@[simp] theorem latchColor_b8 (c : Word) : (latchColor s c).b8 = s.b8 := rfl
@[simp] theorem latchColor_color (c : Word) : (latchColor s c).color = s.color := rfl
@[simp] theorem latchColor_fld (c : Word) : (latchColor s c).fld = s.fld := rfl
@[simp] theorem latchColor_prevColor (c : Word) : (latchColor s c).prevColor = if gateSendFlag c s.prevColor then c else s.prevColor := rfl
@[simp] theorem latchColor_gateSend (c : Word) : (latchColor s c).gateSend = gateSendFlag c s.prevColor := rfl
@[simp] theorem latchColor_wrOk (c : Word) : (latchColor s c).wrOk = s.wrOk := rfl
@[simp] theorem latchColor_txStatus (c : Word) : (latchColor s c).txStatus = s.txStatus := rfl
@[simp] theorem latchColor_txFailIdx (c : Word) : (latchColor s c).txFailIdx = s.txFailIdx := rfl
@[simp] theorem latchColor_waiting (c : Word) : (latchColor s c).waiting = s.waiting := rfl
@[simp] theorem latchColor_producer (c : Word) : (latchColor s c).producer = s.producer := rfl
@[simp] theorem latchColor_sink (c : Word) : (latchColor s c).sink = s.sink := rfl
@[simp] theorem latchColor_opReq (c : Word) : (latchColor s c).opReq = s.opReq := rfl
@[simp] theorem latchColor_resetReq (c : Word) : (latchColor s c).resetReq = s.resetReq := rfl
@[simp] theorem latchColor_trace (c : Word) : (latchColor s c).trace = s.trace := rfl
@[simp] theorem latchColor_events (c : Word) : (latchColor s c).events = s.events := rfl
@[simp] theorem latchColor_faultLog (c : Word) : (latchColor s c).faultLog = s.faultLog := rfl
@[simp] theorem latchColor_devColor (c : Word) : (latchColor s c).devColor = s.devColor := rfl
@[simp] theorem latchColor_devIndet (c : Word) : (latchColor s c).devIndet = s.devIndet := rfl
@[simp] theorem latchColor_draws (c : Word) : (latchColor s c).draws = s.draws := rfl

/-! #### `State.putChannel` -/

@[simp] theorem State.putChannel_phase (c : Channel) (b : Byte) : (s.putChannel c b).phase = s.phase := by cases c <;> rfl
@[simp] theorem State.putChannel_pos (c : Channel) (b : Byte) : (s.putChannel c b).pos = s.pos := by cases c <;> rfl
@[simp] theorem State.putChannel_blk (c : Channel) (b : Byte) : (s.putChannel c b).blk = s.blk := by cases c <;> rfl
@[simp] theorem State.putChannel_xBuf (c : Channel) (b : Byte) : (s.putChannel c b).xBuf = s.xBuf := by cases c <;> rfl
@[simp] theorem State.putChannel_aBuf (c : Channel) (b : Byte) : (s.putChannel c b).aBuf = s.aBuf := by cases c <;> rfl
@[simp] theorem State.putChannel_sBuf (c : Channel) (b : Byte) : (s.putChannel c b).sBuf = s.sBuf := by cases c <;> rfl
@[simp] theorem State.putChannel_fbuf (c : Channel) (b : Byte) : (s.putChannel c b).fbuf = s.fbuf := by cases c <;> rfl
@[simp] theorem State.putChannel_smp (c : Channel) (b : Byte) : (s.putChannel c b).smp = s.smp := by cases c <;> rfl
@[simp] theorem State.putChannel_twv (c : Channel) (b : Byte) : (s.putChannel c b).twv = s.twv := by cases c <;> rfl
@[simp] theorem State.putChannel_magv (c : Channel) (b : Byte) : (s.putChannel c b).magv = s.magv := by cases c <;> rfl
@[simp] theorem State.putChannel_dbv (c : Channel) (b : Byte) : (s.putChannel c b).dbv = s.dbv := by cases c <;> rfl
@[simp] theorem State.putChannel_magMax (c : Channel) (b : Byte) : (s.putChannel c b).magMax = s.magMax := by cases c <;> rfl
@[simp] theorem State.putChannel_dbMax (c : Channel) (b : Byte) : (s.putChannel c b).dbMax = s.dbMax := by cases c <;> rfl
@[simp] theorem State.putChannel_domFreq (c : Channel) (b : Byte) : (s.putChannel c b).domFreq = s.domFreq := by cases c <;> rfl
@[simp] theorem State.putChannel_hue (c : Channel) (b : Byte) : (s.putChannel c b).hue = s.hue := by cases c <;> rfl
@[simp] theorem State.putChannel_bri (c : Channel) (b : Byte) : (s.putChannel c b).bri = s.bri := by cases c <;> rfl
@[simp] theorem State.putChannel_rf (c : Channel) (b : Byte) : (s.putChannel c b).rf = s.rf := by cases c <;> rfl
@[simp] theorem State.putChannel_gf (c : Channel) (b : Byte) : (s.putChannel c b).gf = s.gf := by cases c <;> rfl
@[simp] theorem State.putChannel_bf (c : Channel) (b : Byte) : (s.putChannel c b).bf = s.bf := by cases c <;> rfl
@[simp] theorem State.putChannel_r8 (c : Channel) (b : Byte) :
    (s.putChannel c b).r8 = if c = .red then Reg.put b else s.r8 := by cases c <;> rfl
@[simp] theorem State.putChannel_g8 (c : Channel) (b : Byte) :
    (s.putChannel c b).g8 = if c = .green then Reg.put b else s.g8 := by cases c <;> rfl
@[simp] theorem State.putChannel_b8 (c : Channel) (b : Byte) :
    (s.putChannel c b).b8 = if c = .blue then Reg.put b else s.b8 := by cases c <;> rfl
@[simp] theorem State.putChannel_color (c : Channel) (b : Byte) : (s.putChannel c b).color = s.color := by cases c <;> rfl
@[simp] theorem State.putChannel_fld (c : Channel) (b : Byte) : (s.putChannel c b).fld = s.fld := by cases c <;> rfl
@[simp] theorem State.putChannel_prevColor (c : Channel) (b : Byte) : (s.putChannel c b).prevColor = s.prevColor := by cases c <;> rfl
@[simp] theorem State.putChannel_gateSend (c : Channel) (b : Byte) : (s.putChannel c b).gateSend = s.gateSend := by cases c <;> rfl
@[simp] theorem State.putChannel_wrOk (c : Channel) (b : Byte) : (s.putChannel c b).wrOk = s.wrOk := by cases c <;> rfl
@[simp] theorem State.putChannel_txStatus (c : Channel) (b : Byte) : (s.putChannel c b).txStatus = s.txStatus := by cases c <;> rfl
@[simp] theorem State.putChannel_txFailIdx (c : Channel) (b : Byte) : (s.putChannel c b).txFailIdx = s.txFailIdx := by cases c <;> rfl
@[simp] theorem State.putChannel_waiting (c : Channel) (b : Byte) : (s.putChannel c b).waiting = s.waiting := by cases c <;> rfl
@[simp] theorem State.putChannel_producer (c : Channel) (b : Byte) : (s.putChannel c b).producer = s.producer := by cases c <;> rfl
@[simp] theorem State.putChannel_sink (c : Channel) (b : Byte) : (s.putChannel c b).sink = s.sink := by cases c <;> rfl
@[simp] theorem State.putChannel_opReq (c : Channel) (b : Byte) : (s.putChannel c b).opReq = s.opReq := by cases c <;> rfl
@[simp] theorem State.putChannel_resetReq (c : Channel) (b : Byte) : (s.putChannel c b).resetReq = s.resetReq := by cases c <;> rfl
@[simp] theorem State.putChannel_trace (c : Channel) (b : Byte) : (s.putChannel c b).trace = s.trace := by cases c <;> rfl
@[simp] theorem State.putChannel_events (c : Channel) (b : Byte) : (s.putChannel c b).events = s.events := by cases c <;> rfl
@[simp] theorem State.putChannel_faultLog (c : Channel) (b : Byte) : (s.putChannel c b).faultLog = s.faultLog := by cases c <;> rfl
@[simp] theorem State.putChannel_devColor (c : Channel) (b : Byte) : (s.putChannel c b).devColor = s.devColor := by cases c <;> rfl
@[simp] theorem State.putChannel_devIndet (c : Channel) (b : Byte) : (s.putChannel c b).devIndet = s.devIndet := by cases c <;> rfl
@[simp] theorem State.putChannel_draws (c : Channel) (b : Byte) : (s.putChannel c b).draws = s.draws := by cases c <;> rfl

end

end Sys2Proof.Machine
end

