-- ==== Sys2Proof/Laws/Operations.lean ====
section
/-! SUPPORT. One lemma per operation that says once when it answers and with what state; proofs cite these
and do not unfold the operations. -/

namespace Sys2Proof.Machine

variable {s t : State}

/-! ### Transform -/

theorem decsOp_eq_ok {i : Nat} : decsOp i s = .ok t ↔ ∃ lo hi, s.blk.read (2 * i) = some lo ∧
    s.blk.read (2 * i + 1) = some hi ∧ t = { s with smp := Reg.put (sample16 lo hi) } := by
  simp only [decsOp, bind_eq_ok, Memory.fetch_eq_ok, Except.ok.injEq]
  exact ⟨fun ⟨lo, hlo, hi, hhi, h⟩ => ⟨lo, hi, hlo, hhi, h.symm⟩,
    fun ⟨lo, hi, hlo, hhi, h⟩ => ⟨lo, hlo, hi, hhi, h.symm⟩⟩

theorem normOp_eq_ok {i : Nat} : normOp i s = .ok t ↔ ∃ lo hi, s.blk.read (2 * i) = some lo ∧
    s.blk.read (2 * i + 1) = some hi ∧
    t = { s with
      smp := Reg.put (sample16 lo hi)
      xBuf := s.xBuf.write i (normalise (sample16 lo hi)) } := by
  simp only [normOp, bind_eq_ok, decsOp_eq_ok, Except.ok.injEq]
  constructor
  · rintro ⟨u, ⟨lo, hi, hlo, hhi, rfl⟩, rfl⟩
    exact ⟨lo, hi, hlo, hhi, rfl⟩
  · rintro ⟨lo, hi, hlo, hhi, rfl⟩
    exact ⟨_, ⟨lo, hi, hlo, hhi, rfl⟩, rfl⟩

theorem brevStep_eq_ok {j : Nat} : brevStep j s = .ok t ↔ ∃ v, s.xBuf.read (bitrev11 j) = some v ∧
    t = s.writeA j ⟨v, F64.zero⟩ := by
  simp only [brevStep, bind_eq_ok, Memory.fetch_eq_ok, Except.ok.injEq]
  exact ⟨fun ⟨v, hv, h⟩ => ⟨v, hv, h.symm⟩, fun ⟨v, hv, h⟩ => ⟨v, hv, h.symm⟩⟩

theorem bflyOp_eq_ok {g p : Nat} : bflyOp g p s = .ok t ↔ ∃ a b, s.aBuf.read p = some a ∧
    s.aBuf.read (p + halfGroup g) = some b ∧
    t = ((twrdOp (twiddleIndex g p) s).writeA p (cadd a (cmul (Rom.twiddle (twiddleIndex g p)) b))).writeA
      (p + halfGroup g) (csub a (cmul (Rom.twiddle (twiddleIndex g p)) b)) := by
  simp only [bflyOp, bind_eq_ok, Memory.fetch_eq_ok, Except.ok.injEq, twrdOp_aBuf, twrdOp_twv, Reg.put_value]
  exact ⟨fun ⟨a, ha, b, hb, h⟩ => ⟨a, b, ha, hb, h.symm⟩, fun ⟨a, b, ha, hb, h⟩ => ⟨a, ha, b, hb, h.symm⟩⟩

theorem binStep_eq_ok {k : Nat} : binStep k s = .ok t ↔ ∃ z, s.aBuf.read k = some z ∧ t = s.writeS k z := by
  simp only [binStep, bind_eq_ok, Memory.fetch_eq_ok, Except.ok.injEq]
  exact ⟨fun ⟨v, hv, h⟩ => ⟨v, hv, h.symm⟩, fun ⟨v, hv, h⟩ => ⟨v, hv, h.symm⟩⟩

theorem networkOp_eq_ok : networkOp s = .ok t ↔ ∃ u v, brevOp s = .ok u ∧
    forEach stageOp [1, 2, 3, 4, 5, 6, 7, 8, 9, 10, 11] u = .ok v ∧
    forEach binStep (List.range 1025) v = .ok t := by
  simp only [networkOp, Res.andThen_eq_ok]
  exact ⟨fun ⟨u, hu, v, hv, h⟩ => ⟨u, v, hu, hv, h⟩, fun ⟨u, v, hu, hv, h⟩ => ⟨u, hu, v, hv, h⟩⟩

@[simp] theorem rfftOp_default : rfftOp Config.default s = networkOp s := rfl

/-! ### Magnitude -/

theorem magOp_eq_ok {k : Nat} : magOp k s = .ok t ↔ ∃ z, s.sBuf.read k = some z ∧
    t = { s with magv := Reg.put (magnitude z) } := by
  simp only [magOp, bind_eq_ok, Memory.fetch_eq_ok, Except.ok.injEq]
  exact ⟨fun ⟨v, hv, h⟩ => ⟨v, hv, h.symm⟩, fun ⟨v, hv, h⟩ => ⟨v, hv, h.symm⟩⟩

theorem dbOp_eq_ok {c : Config} : dbOp c s = .ok t ↔
    t = { s.noteReads (opWord 0x21 0 0) [(.magv, s.magv.written)] with
      dbv := Reg.put (decibel c s.magv.value) } := by
  simp only [dbOp, Except.ok.injEq, eq_comm]

theorem peakStep_eq_ok {c : Config} {k : Nat} : peakStep c k s = .ok t ↔ ∃ z, s.sBuf.read k = some z ∧
    t = { s with
      magv := Reg.put (magnitude z)
      dbv := Reg.put (decibel c (magnitude z))
      magMax := Reg.put (runningMax s.magMax.value (magnitude z))
      dbMax := Reg.put (runningMax s.dbMax.value (decibel c (magnitude z))) } := by
  simp only [peakStep, Res.andThen_eq_ok, magOp_eq_ok, dbOp_eq_ok, Except.ok.injEq]
  constructor
  · rintro ⟨u, ⟨z, hz, rfl⟩, v, rfl, rfl⟩
    exact ⟨z, hz, by simp [updateMaxima]⟩
  · rintro ⟨z, hz, rfl⟩
    exact ⟨_, ⟨z, hz, rfl⟩, _, rfl, by simp [updateMaxima]⟩

/-! ### Color -/

theorem freqOp_eq_ok : freqOp s = .ok t ↔
    t = { s.noteReads (opWord 0x30 0 0) [(.magMax, s.magMax.written)] with
      domFreq := Reg.put (dominantFrequency s.magMax.value) } := by
  simp only [freqOp, Except.ok.injEq, eq_comm]

theorem hueOp_eq_ok : hueOp s = .ok t ↔
    t = { s.noteReads (opWord 0x31 0 0) [(.domFreq, s.domFreq.written)] with
      hue := Reg.put (hueOf s.domFreq.value) } := by
  simp only [hueOp, Except.ok.injEq, eq_comm]

theorem briOp_eq_ok {c : Config} : briOp c s = .ok t ↔
    t = { s.noteReads (opWord 0x32 0 0) [(.dbMax, s.dbMax.written)] with
      bri := Reg.put (brightnessOf c s.dbMax.value) } := by
  simp only [briOp, Except.ok.injEq, eq_comm]

theorem hsvOp_eq_ok : hsvOp s = .ok t ↔
    ∃ o, hsvOf s.hue.value (F64.ofNat 1) s.bri.value = some o ∧
      t = (s.noteReads (opWord 0x33 0 0) [(.hue, s.hue.written), (.bri, s.bri.written)]).putRgb o := by
  unfold hsvOp
  cases hsvOf s.hue.value (F64.ofNat 1) s.bri.value <;> simp [eq_comm]

theorem chfinOp_eq_ok {c : Channel} : chfinOp c s = .ok t ↔
    ∃ b, toByte (channelLevel (s.channelReg c).value) = some b ∧
      t = (s.noteReads (opWord 0x34 0 c.code) [(channelElem c, (s.channelReg c).written)]).putChannel c b := by
  unfold chfinOp
  cases toByte (channelLevel (s.channelReg c).value) <;> simp [eq_comm]

theorem packOp_eq_ok : packOp s = .ok t ↔
    t = { s.noteReads (opWord 0x35 0 0)
        [(.r8, s.r8.written), (.g8, s.g8.written), (.b8, s.b8.written)] with
      color := Reg.put (packColor s.r8.value s.g8.value s.b8.value 0) } := by
  simp only [packOp, Except.ok.injEq, eq_comm]

theorem unpkOp_eq_ok {f : Field} : unpkOp f s = .ok t ↔
    t = { s.noteReads (opWord 0x36 0 f.code) [(.color, s.color.written)] with
      fld := Reg.put (colorField f s.color.value) } := by
  simp only [unpkOp, Except.ok.injEq, eq_comm]

/-! ### Gate and transmitter -/

theorem gateOp_eq_ok : gateOp s = .ok t ↔
    t = latchColor (s.noteReads (opWord 0x40 0 0) [(.color, s.color.written)]) s.color.value := by
  simp only [gateOp, Except.ok.injEq, eq_comm]

theorem fbldOp_eq_ok {r : Role} : fbldOp r s = .ok t ↔
    t = buildFrame r (s.noteReads (opWord 0x50 0 r.code) (frameSources r s)) := by
  simp only [fbldOp, Except.ok.injEq, eq_comm]

theorem fwrOp_eq_ok {r : Role} : fwrOp r s = .ok t ↔ ∃ f, (List.range 16).map s.fbuf.read = f.map some ∧
    ((s.sink = [] ∧ t = s.await (.frame r)) ∨
      ∃ a rest, s.sink = a :: rest ∧ t = { s.frameAnswered f a rest with wrOk := wrOkFlag a }) := by
  simp only [fwrOp, bind_eq_ok, Memory.fetchAll_eq_ok]
  constructor
  · rintro ⟨f, hf, hm⟩
    refine ⟨f, hf, ?_⟩
    split at hm
    · rename_i hs
      cases hm
      exact .inl ⟨hs, rfl⟩
    · rename_i a rest hs
      cases hm
      exact .inr ⟨a, rest, hs, rfl⟩
  · rintro ⟨f, hf, ⟨hs, rfl⟩ | ⟨a, rest, hs, rfl⟩⟩
    · exact ⟨f, hf, by rw [hs]⟩
    · exact ⟨f, hf, by rw [hs]⟩

/-- The frame buffer that a transmission has just built reads as that frame. -/
@[simp] theorem fetchAll_fill_frameOf (r : Role) (c op : Word) :
    (Memory.fill (frameOf r c)).fetchAll op .fbuf (List.range 16) = .ok (frameOf r c) := by
  cases r <;> rfl

/-- Within a transmission a frame is written or waits; it never faults. -/
theorem fwrOp_buildFrame (r : Role) (s : State) : fwrOp r (buildFrame r s) = .ok (match s.sink with
    | [] => (buildFrame r s).await (.frame r)
    | a :: rest =>
      { (buildFrame r s).frameAnswered (frameOf r s.color.value) a rest with wrOk := wrOkFlag a }) := by
  simp only [fwrOp, buildFrame_fbuf, fetchAll_fill_frameOf, buildFrame_sink]
  cases s.sink <;> rfl

/-- A transmission starts afresh unless one is waiting. -/
theorem txOp_eq_freshTxOp (h : s.outsideTransmission) : txOp s = freshTxOp s := by
  unfold txOp
  split
  · rename_i r hr
    exact absurd hr (h r)
  all_goals rfl

/-- A transmission that waits goes on from its unanswered frame. -/
theorem txOp_of_waiting {r : Role} (h : s.waiting = some (.transmission r)) :
    txOp s = txLoop (rolesFrom r) { s with waiting := none } := by
  unfold txOp
  rw [h]

@[simp] theorem txLoop_nil : txLoop [] s = .ok s.completeTransmission := rfl

theorem txLoop_cons_eq_ok {r : Role} {rest : List Role} : txLoop (r :: rest) s = .ok t ↔
    ∃ v, fwrOp r (buildFrame r s) = .ok v ∧
      ((v.waiting.isSome = true ∧ t = v.await (.transmission r)) ∨
       (v.waiting.isSome = false ∧ v.wrOk = true ∧ txLoop rest v = .ok t) ∨
       (v.waiting.isSome = false ∧ v.wrOk = false ∧ t = v.takeTransmissionFailure r)) := by
  simp only [txLoop, Res.andThen_eq_ok]
  refine exists_congr fun v => and_congr_right fun _ => ?_
  cases v.waiting.isSome <;> cases v.wrOk <;> simp [eq_comm]

/-! ### Sequencer -/

/-- Block intake does one of three things. -/
theorem rdblkOp_cases (s : State) :
    (s.producer = [] ∧ rdblkOp s = s.await .block) ∨
    (∃ b rest, s.producer = .block b :: rest ∧
      rdblkOp s = (s.deliveryTaken (.block b) rest).beginCycle b.toList) ∨
    (∃ l rest, s.producer = .endOfInput l :: rest ∧
      rdblkOp s = (s.deliveryTaken (.endOfInput l) rest).takeEndOfInput) := by
  unfold rdblkOp
  split
  · rename_i h
    exact .inl ⟨h, rfl⟩
  · rename_i b rest h
    exact .inr (.inl ⟨b, rest, h, rfl⟩)
  · rename_i l rest h
    exact .inr (.inr ⟨l, rest, h, rfl⟩)

/-- What a step can do when it answers. -/
theorem step_eq_next : step s = .next t ↔
    (s.resetReq = true ∧ t = s.applyReset) ∨
    (s.resetReq = false ∧ ∃ i u, decode (nextWord s) = .ok i ∧ exec i (issue (nextWord s) s) = .next u ∧
      t = settleStep s u) := by
  unfold step
  cases hr : s.resetReq
  · cases hd : decode (nextWord s) with
    | error e => simp
    | ok i =>
      simp only [Bool.false_eq_true, if_false, false_and, false_or, true_and, Except.ok.injEq]
      cases he : exec i (issue (nextWord s) s) with
      | next u =>
        simp only [settleOutcome, Host.Outcome.next.injEq]
        constructor
        · intro h
          exact ⟨i, u, rfl, he, h.symm⟩
        · rintro ⟨j, v, rfl, hv, rfl⟩
          rw [he] at hv
          cases hv
          rfl
      | fault f =>
        simp only [settleOutcome, reduceCtorEq, false_iff, not_exists, not_and]
        rintro j u rfl hu
        rw [he] at hu
        cases hu
      | refused q =>
        simp only [settleOutcome, reduceCtorEq, false_iff, not_exists, not_and]
        rintro j u rfl hu
        rw [he] at hu
        cases hu
  · simp [eq_comm]

end Sys2Proof.Machine
end

