-- ==== Sys2Proof/Laws/PerInstr.lean ====
section
/-! SUPPORT. One lemma per operation: the word of a well-formed operation has the fixed bits of its row of
the opcode table (30_encoding.md R110). -/

namespace Sys2Proof.Laws.OpcodeRow

/-- The place of an operation's row in the opcode table. -/
def rowOf : Instr → Nat
  | .rdblk => 0
  | .cycle => 1
  | .halt => 2
  | .decs _ => 3
  | .norm _ => 4
  | .ldx => 5
  | .twrd _ => 6
  | .brev => 7
  | .bfly _ _ => 8
  | .stage _ => 9
  | .rfft => 10
  | .mag _ => 11
  | .db => 12
  | .peak => 13
  | .freq => 14
  | .hue => 15
  | .bri => 16
  | .hsv => 17
  | .chfin _ => 18
  | .pack => 19
  | .unpk _ => 20
  | .gate => 21
  | .fbld _ => 22
  | .fwr _ => 23
  | .tx => 24

/-- The word of the operation has the fixed bits of its row. -/
def Statement (i : Instr) : Prop :=
  i.wellFormed = true → rowMatches (encode i) (opcodeRows.getD (rowOf i) (0, 0)) = true

/-- A row whose mask and match have no bit below `k` sees only the bits of a word from `k` on. -/
theorem rowMatches_of_shift (w mask value : Word) (k : Nat) (hm : mask >>> k <<< k = mask)
    (hv : value >>> k <<< k = value) (h : w >>> k &&& mask >>> k = value >>> k) :
    rowMatches w (mask, value) = true := by
  have key : w &&& (mask >>> k <<< k) = (w >>> k &&& mask >>> k) <<< k := by
    ext j hj
    by_cases hk : j < k <;> simp [hk, hj, Nat.add_sub_cancel' (Nat.le_of_not_lt _)]
  simp only [rowMatches, beq_iff_eq]
  rw [← hm, key, h, hv]

/-- The operand bits below `k` drop out of a shifted operation word. -/
theorem opWord_shift {opc stg imm : Nat} (k : Nat) (ho : opc < 256) (hs : stg < 16) (hk : k ≤ 20)
    (h : imm < 2 ^ k) : opWord opc stg imm >>> k = opWord opc stg 0 >>> k := by
  have h20 : 2 ^ k ∣ 2 ^ 20 := pow_dvd_pow 2 hk
  have hle : 2 ^ k ≤ 2 ^ 20 := Nat.le_of_dvd (by positivity) h20
  obtain ⟨c, hc⟩ := h20
  have e : opc * 2 ^ 24 + stg * 2 ^ 20 = 2 ^ k * (c * (opc * 16 + stg)) := by
    rw [← Nat.mul_assoc, ← hc]
    ring
  apply BitVec.eq_of_toNat_eq
  simp only [opWord, BitVec.toNat_ushiftRight, BitVec.toNat_ofNat, Nat.shiftRight_eq_div_pow]
  rw [Nat.mod_eq_of_lt (by omega), Nat.mod_eq_of_lt (by omega), e, Nat.mul_add_div (by positivity),
    Nat.add_zero, Nat.mul_div_cancel_left _ (by positivity), Nat.div_eq_of_lt h, Nat.add_zero]

/-- The operation word has the fixed bits of a row whose mask leaves the low `k` operand bits free. -/
theorem rowMatches_opWord {opc stg imm : Nat} (k : Nat) (mask value : Word) (ho : opc < 256) (hs : stg < 16)
    (hk : k ≤ 20) (h : imm < 2 ^ k)
    (hr : mask >>> k <<< k = mask ∧ value >>> k <<< k = value ∧
      opWord opc stg 0 >>> k &&& mask >>> k = value >>> k) :
    rowMatches (opWord opc stg imm) (mask, value) = true :=
  rowMatches_of_shift _ mask value k hr.1 hr.2.1 (by rw [opWord_shift k ho hs hk h]; exact hr.2.2)

theorem rdblk : Statement .rdblk := fun _ => by decide
theorem cycle : Statement .cycle := fun _ => by decide
theorem halt : Statement .halt := fun _ => by decide
theorem decs (i : Fin 2048) : Statement (.decs i) := fun _ =>
  rowMatches_opWord 11 _ _ (by decide) (by decide) (by decide) i.isLt (by decide)
theorem norm (i : Fin 2048) : Statement (.norm i) := fun _ =>
  rowMatches_opWord 11 _ _ (by decide) (by decide) (by decide) i.isLt (by decide)
theorem ldx : Statement .ldx := fun _ => by decide
theorem twrd (k : Fin 1024) : Statement (.twrd k) := fun _ =>
  rowMatches_opWord 10 _ _ (by decide) (by decide) (by decide) k.isLt (by decide)
theorem brev : Statement .brev := fun _ => by decide
theorem bfly (g : Fin 16) (p : Fin 2048) : Statement (.bfly g p) := by
  intro h
  clear h
  exact rowMatches_opWord 11 _ _ (by decide) g.isLt (by decide) p.isLt (by revert g; decide)
theorem stage (g : Fin 16) : Statement (.stage g) := by
  intro h
  clear h
  exact rowMatches_opWord 0 _ _ (by decide) g.isLt (by decide) (by decide) (by revert g; decide)
theorem rfft : Statement .rfft := fun _ => by decide
theorem mag (k : Fin 2048) : Statement (.mag k) := fun _ =>
  rowMatches_opWord 11 _ _ (by decide) (by decide) (by decide) k.isLt (by decide)
theorem db : Statement .db := fun _ => by decide
theorem peak : Statement .peak := fun _ => by decide
theorem freq : Statement .freq := fun _ => by decide
theorem hue : Statement .hue := fun _ => by decide
theorem bri : Statement .bri := fun _ => by decide
theorem hsv : Statement .hsv := fun _ => by decide
theorem chfin (c : Channel) : Statement (.chfin c) := fun _ => by cases c <;> decide
theorem pack : Statement .pack := fun _ => by decide
theorem unpk (f : Field) : Statement (.unpk f) := fun _ => by cases f <;> decide
theorem gate : Statement .gate := fun _ => by decide
theorem fbld (r : Role) : Statement (.fbld r) := fun _ => by cases r <;> decide
theorem fwr (r : Role) : Statement (.fwr r) := fun _ => by cases r <;> decide
theorem tx : Statement .tx := fun _ => by decide

end Sys2Proof.Laws.OpcodeRow
end

