-- ==== Sys2Proof/Tests/Slice0.lean ====
section
/-! SUPPORT. Tests of one operation each, their expected results taken from the spec's vectors
(95_test_vectors.md) or worked out by hand from its rules, and for every statement that has hypotheses a
witness that meets them together. -/

namespace Sys2Proof.Tests

/- One proof at a time: the tests that the kernel evaluates, waiting for one another all at once, take more
memory than one process has. -/
set_option Elab.async false

open Sys2Proof.Machine

/-- The next state of an outcome. -/
def after : Host.Outcome State Fault Refusal → Option State
  | .next t => some t
  | .fault _ => none
  | .refused _ => none

/-- The fault of an outcome. -/
def faultOf : Host.Outcome State Fault Refusal → Option Fault
  | .next _ => none
  | .fault f => some f
  | .refused _ => none

/-- The model faults recorded by an operation that went on. -/
def recorded (o : Host.Outcome State Fault Refusal) : Option (List Fault) := (after o).map (·.faultLog)

/-- The refusal of an outcome. -/
def refusalOf : Host.Outcome State Fault Refusal → Option Refusal
  | .next _ => none
  | .fault _ => none
  | .refused q => some q

/-- A binary64 value by its bits. -/
def bits (n : Nat) : F64 := F64.ofBits (BitVec.ofNat 64 n)

/-- 0.5, -0.5 and 0.25. -/
def half : F64 := bits 0x3FE0000000000000
def minusHalf : F64 := bits 0xBFE0000000000000
def quarter : F64 := bits 0x3FD0000000000000

/-- The integer as a value. -/
def num (n : Nat) : F64 := F64.ofNat n

/-! ### Well-formedness: an ill-formed term for each check -/

theorem test_wf_bfly_stage_zero : (Instr.bfly 0 0).wellFormed = false := by decide
theorem test_wf_bfly_stage_twelve : (Instr.bfly 12 0).wellFormed = false := by decide
theorem test_wf_bfly_second_half : (Instr.bfly 3 4).wellFormed = false := by decide
theorem test_wf_bfly_last_pair : (Instr.bfly 11 1023).wellFormed = true := by decide
theorem test_wf_stage_zero : (Instr.stage 0).wellFormed = false := by decide
theorem test_wf_stage_twelve : (Instr.stage 12).wellFormed = false := by decide
theorem test_wf_mag_1025 : (Instr.mag 1025).wellFormed = false := by decide
theorem test_wf_mag_1024 : (Instr.mag 1024).wellFormed = true := by decide

/-! ### Decoding: words written out from the patterns of R110 (vectors E1 to E31) -/

theorem test_decode_sequencer :
    decode 0b00000001000000000000000000000000 = .ok .rdblk ∧
    decode 0b00000010000000000000000000000000 = .ok .cycle ∧
    decode 0b00000011000000000000000000000000 = .ok .halt := by decide

theorem test_decode_transform :
    decode 0b00010000000000000000000000000101 = .ok (.decs 5) ∧
    decode 0b00010001000000000000011111111111 = .ok (.norm 2047) ∧
    decode 0b00010010000000000000000000000000 = .ok .ldx ∧
    decode 0b00010011000000000000001111111111 = .ok (.twrd 1023) ∧
    decode 0b00010100000000000000000000000000 = .ok .brev ∧
    decode 0b00010101001100000000000000000010 = .ok (.bfly 3 2) ∧
    decode 0b00010110101100000000000000000000 = .ok (.stage 11) ∧
    decode 0b00010111000000000000000000000000 = .ok .rfft := by decide

theorem test_decode_magnitude :
    decode 0b00100000000000000000010000000000 = .ok (.mag 1024) ∧
    decode 0b00100001000000000000000000000000 = .ok .db ∧
    decode 0b00100010000000000000000000000000 = .ok .peak := by decide

theorem test_decode_color :
    decode 0b00110000000000000000000000000000 = .ok .freq ∧
    decode 0b00110001000000000000000000000000 = .ok .hue ∧
    decode 0b00110010000000000000000000000000 = .ok .bri ∧
    decode 0b00110011000000000000000000000000 = .ok .hsv ∧
    decode 0b00110100000000000000000000000010 = .ok (.chfin .blue) ∧
    decode 0b00110101000000000000000000000000 = .ok .pack ∧
    decode 0b00110110000000000000000000000011 = .ok (.unpk .alpha) := by decide

theorem test_decode_gate_transmitter :
    decode 0b01000000000000000000000000000000 = .ok .gate ∧
    decode 0b01010000000000000000000000000010 = .ok (.fbld .payload) ∧
    decode 0b01010001000000000000000000000011 = .ok (.fwr .teardown) ∧
    decode 0b01010010000000000000000000000000 = .ok .tx := by decide

/-- E6, E8, E10, E12 to E14, E16, E18, E20. -/
theorem test_decode_refuses_operands :
    decode 0x10000800 = .error .fixedZeroSet ∧ decode 0x13000400 = .error .fixedZeroSet ∧
    decode 0x15300004 = .error .operandRange ∧ decode 0x15B00400 = .error .operandRange ∧
    decode 0x15000000 = .error .operandRange ∧ decode 0x15C00000 = .error .operandRange ∧
    decode 0x16000000 = .error .operandRange ∧ decode 0x20000401 = .error .operandRange ∧
    decode 0x34000003 = .error .operandRange := by decide

/-- E25 to E30. -/
theorem test_decode_refuses_codes :
    decode 0x00000000 = .error (.reservedOpcode 0x00) ∧ decode 0xFF000000 = .error (.reservedOpcode 0xFF) ∧
    decode 0x04000000 = .error (.reservedOpcode 0x04) ∧ decode 0x18000000 = .error (.reservedOpcode 0x18) ∧
    decode 0x23000000 = .error (.reservedOpcode 0x23) ∧ decode 0x37000000 = .error (.reservedOpcode 0x37) ∧
    decode 0x41000000 = .error (.reservedOpcode 0x41) ∧ decode 0x53000000 = .error (.reservedOpcode 0x53) ∧
    decode 0x12001000 = .error .fixedZeroSet ∧ decode 0x12100000 = .error .fixedZeroSet ∧
    decode 0x12000001 = .error .fixedZeroSet := by decide

/-- The examples of R110. -/
theorem test_encode_examples :
    encode (.decs 5) = 0x10000005 ∧ encode (.bfly 3 2) = 0x15300002 ∧ encode (.mag 1024) = 0x20000400 ∧
    encode (.fbld .payload) = 0x50000002 ∧ encode (.chfin .green) = 0x34000001 := by decide

theorem test_decodeTableWord : decodeTableWord 32 0x16B00000 = some (.stage 11) := by decide

/-! ### Sample decoder and transform -/

/-- A state whose Block begins with the two bytes. -/
def twoBytes (lo hi : Byte) : State := { State.reset with blk := [(0, lo), (1, hi)] }

/-- F5. -/
theorem test_decs_minimum :
    (after (exec (.decs 0) (twoBytes 0x00 0x80))).map (·.smp.value.toInt) = some (-32768) := by decide

/-- F13. -/
theorem test_decs_after_reset :
    faultOf (exec (.decs 0) State.reset) = some (.unwrittenRead 0x10000000 .blk 0) := by decide

/-- F4 and F3. -/
theorem test_norm_values :
    (after (exec (.norm 0) (twoBytes 0xFF 0x7F))).map (·.xBuf) = some [(0, bits 0x3FEFFFC000000000)] ∧
    (after (exec (.norm 0) (twoBytes 0xFF 0xFF))).map (·.xBuf) = some [(0, bits 0xBF00000000000000)] := by
  decide +kernel

/-- F1. -/
theorem test_norm_zero : (after (exec (.norm 0) (twoBytes 0 0))).map (·.xBuf) = some [(0, F64.zero)] := by
  decide +kernel

/-- R144: the loop begins with sample 0. -/
theorem test_ldx_after_reset :
    faultOf (exec .ldx State.reset) = some (.unwrittenRead 0x10000000 .blk 0) := by decide +kernel

/-- T2 and T6. -/
theorem test_twrd_rom :
    (after (exec (.twrd 1) State.reset)).map (·.twv.value) =
      some ⟨bits 0x3FEFFFF621621D02, bits 0xBF6921F8BECCA4BA⟩ ∧
    (after (exec (.twrd 512) State.reset)).map (·.twv.value) = some ⟨F64.zero, bits 0xBFF0000000000000⟩ := by
  decide +kernel

/-- T9. -/
theorem test_bitrev11 :
    [0, 1, 2, 3, 5, 1000, 1024, 2047].map bitrev11 = [0, 1024, 512, 1536, 1280, 190, 1, 2047] := by decide

/-- R148: the first element read is `X[bitrev11(0)]`. -/
theorem test_brev_after_reset :
    faultOf (exec .brev State.reset) = some (.unwrittenRead 0x14000000 .x 0) := by decide +kernel

/-- R148: `A[1] <- (X[1024], +0.0)`. -/
theorem test_brev_second_element :
    brevStep 1 { State.reset with xBuf := [(1, half), (1024, quarter)] } =
      .ok { State.reset with xBuf := [(1, half), (1024, quarter)], aBuf := [(1, ⟨quarter, F64.zero⟩)] } := by
  decide +kernel

/-- A state with two elements of the working array. -/
def twoElements (i j : Nat) (a b : Cplx) : State := { State.reset with aBuf := [(i, a), (j, b)] }

/-- B4. -/
theorem test_bfly_b4 :
    (after (exec (.bfly 10 256) (twoElements 256 768 ⟨num 1, F64.zero⟩ ⟨quarter, minusHalf⟩))).map (·.aBuf) =
      some [(256, ⟨half, bits 0xBFD0000000000000⟩), (768, ⟨bits 0x3FF8000000000000, quarter⟩)] := by
  decide +kernel

/-- B3. -/
theorem test_bfly_b3 :
    (after (exec (.bfly 10 0) (twoElements 0 512 ⟨num 1, F64.zero⟩ ⟨quarter, minusHalf⟩))).map (·.aBuf) =
      some [(0, ⟨bits 0x3FF4000000000000, minusHalf⟩), (512, ⟨bits 0x3FE8000000000000, half⟩)] := by
  decide +kernel

/-- R112 (c): refused when run, whatever the state; B13: the first unwritten element. -/
theorem test_stage_stops :
    refusalOf (exec (.stage 12) State.reset) = some (.illegalOp 0x16C00000) ∧
    faultOf (exec (.stage 1) State.reset) = some (.unwrittenRead 0x15100000 .a 0) := by decide +kernel

/-- R152: the order of stage 10: two groups of 512 pairs. -/
theorem test_stage_pairs :
    (stagePairs 10).take 2 = [0, 1] ∧ (stagePairs 10).getD 512 0 = 1024 ∧ (stagePairs 10).length = 1024 := by
  decide +kernel

theorem test_rfft_after_reset :
    faultOf (exec .rfft State.reset) = some (.unwrittenRead 0x14000000 .x 0) := by decide +kernel

/-! ### Magnitude and dB -/

/-- M2, and M3 with zeros of both signs. -/
theorem test_mag_values :
    (after (exec (.mag 7) { State.reset with sBuf := [(7, ⟨num 3, num 4⟩)] })).map (·.magv.value) = some (num 5) ∧
    (after (exec (.mag 0) { State.reset with sBuf := [(0, ⟨F64.negZero, F64.negZero⟩)] })).map (·.magv.value) =
      some F64.zero := by decide +kernel

/-- M19. -/
theorem test_mag_after_reset :
    faultOf (exec (.mag 0) State.reset) = some (.unwrittenRead 0x20000000 .s 0) := by decide

/-- A state with a magnitude. -/
def withMagv (m : F64) : State := { State.reset with magv := Reg.put m }

/-- M10 and M5. -/
theorem test_db_values :
    (after (exec .db (withMagv (num 1024)))).map (·.dbv.value) = some (bits 0x404E1A5E2DF92E9F) ∧
    (after (exec .db (withMagv F64.zero))).map (·.dbv.value) = some (.inf true) := by decide +kernel

/-- M9, and M20: `DB` after reset. -/
theorem test_db_half :
    (after (exec .db (withMagv half))).map (·.dbv.value) = some (bits 0xC018151824C7587F) ∧
    recorded (exec .db State.reset) = some [.unwrittenRead 0x21000000 .magv 0] := by decide +kernel

/-- R194: a bin of magnitude 0.5 moves the one maximum and not the other (C5). -/
theorem test_peak_step :
    (peakStep Config.default 3 (clearMaxima { State.reset with sBuf := [(3, ⟨F64.zero, half⟩)] })).toOption.map
      (fun t => (t.magMax.value, t.dbMax.value)) = some (half, F64.zero) := by decide +kernel

theorem test_peak_after_reset :
    faultOf (exec .peak State.reset) = some (.unwrittenRead 0x20000000 .s 0) := by decide +kernel

/-! ### Color mapper -/

/-- H3. -/
theorem test_freq :
    (after (exec .freq { State.reset with magMax := Reg.put (bits 0x404F400000000000) })).map (·.domFreq.value) =
      some (bits 0x40A5020C7CE0C7CE) := by decide +kernel

/-- H3. -/
theorem test_hue :
    (after (exec .hue { State.reset with domFreq := Reg.put (bits 0x40A5020C7CE0C7CE) })).map (·.hue.value) =
      some (bits 0x404A576A2576A258) := by decide +kernel

/-- H17. -/
theorem test_map_after_reset :
    recorded (exec .freq State.reset) = some [.unwrittenRead 0x30000000 .magMax 0] ∧
    recorded (exec .hue State.reset) = some [.unwrittenRead 0x31000000 .domFreq 0] ∧
    recorded (exec .bri State.reset) = some [.unwrittenRead 0x32000000 .dbMax 0] := by decide +kernel

/-- R224: `DB_MAX = 60.205999132796244` and `DB_MAX = +0.0`. -/
theorem test_bri :
    (after (exec .bri { State.reset with dbMax := Reg.put (bits 0x404E1A5E2DF92E9F) })).map (·.bri.value) =
      some (bits 0x3FED2414F0EA2132) ∧
    (after (exec .bri { State.reset with dbMax := Reg.put F64.zero })).map (·.bri.value) = some (.inf true) := by
  decide +kernel

/-- A state with a hue and a brightness. -/
def withHsv (h v : F64) : State := { State.reset with hue := Reg.put h, bri := Reg.put v }

/-- V19: a silent cycle. -/
theorem test_hsv_silent :
    (after (exec .hsv (withHsv F64.zero (.inf true)))).map (fun t => (t.rf.value, t.gf.value, t.bf.value)) =
      some (.inf true, .nan, .nan) := by decide +kernel

/-- V21 and V23. -/
theorem test_hsv_domain :
    faultOf (exec .hsv (withHsv .nan (num 1))) = some (.hueDomain 0x33000000 .nan) ∧
    faultOf (exec .hsv (withHsv (num 150000000000) (num 1))) =
      some (.hueDomain 0x33000000 (num 150000000000)) := by decide +kernel

/-- V8, V11 (a negative sector), S7 (saturation 0) and a hue out of R227's domain at saturation 0. -/
theorem test_hsv_function :
    hsvOf (num 330) (num 1) (num 1) = some ⟨num 1, F64.zero, half⟩ ∧
    hsvOf (num 30).neg (num 1) (num 1) = some ⟨num 1, F64.zero, half⟩ ∧
    hsvOf (num 200) F64.zero half = some ⟨half, half, half⟩ ∧
    hsvOf .nan F64.zero half = none := by decide +kernel

/-- A state with a red channel value. -/
def withRed (x : F64) : State := { State.reset with rf := Reg.put x }

/-- K9, K10, K12 and K13. -/
theorem test_chfin_values :
    (after (exec (.chfin .red) (withRed half))).map (·.r8.value) = some 127 ∧
    (after (exec (.chfin .red) (withRed quarter.neg))).map (·.r8.value) = some 0 ∧
    (after (exec (.chfin .red) (withRed .nan))).map (·.r8.value) = some 0 ∧
    (after (exec (.chfin .red) (withRed (.inf false)))).map (·.r8.value) = some 255 := by decide +kernel

/-- K23, and K17: `to_byte` of a value that is no integer. -/
theorem test_chfin_corners :
    recorded (exec (.chfin .red) State.reset) = some [.unwrittenRead 0x34000000 .rf 0] ∧
    toByte (bits 0x4029000000000000) = none := by decide +kernel

/-- A state with three channel bytes. -/
def withBytes (r g b : Byte) : State :=
  { State.reset with r8 := Reg.put r, g8 := Reg.put g, b8 := Reg.put b }

/-- K20. -/
theorem test_pack : (after (exec .pack (withBytes 0x12 0x34 0x56))).map (·.color.value) = some 0x00123456 := by
  decide

/-- K24: the fault on `R8` comes first; R236: a read of a written byte records nothing. -/
theorem test_pack_after_reset :
    (recorded (exec .pack State.reset)).map (·.head?) = some (some (.unwrittenRead 0x35000000 .r8 0)) ∧
    recorded (exec .pack { State.reset with g8 := Reg.put 7 }) =
      some [.unwrittenRead 0x35000000 .r8 0, .unwrittenRead 0x35000000 .b8 0] ∧
    recorded (exec .pack (withBytes 1 2 3)) = some [] := by decide

/-- A state with a color. -/
def withColor (c : Word) : State := { State.reset with color := Reg.put c }

/-- K21. -/
theorem test_unpk :
    [Field.blue, .green, .red, .alpha].map
      (fun f => (after (exec (.unpk f) (withColor 0x00123456))).map (·.fld.value)) =
      [some 0x56, some 0x34, some 0x12, some 0x00] := by decide

/-! ### Gate -/

/-- G2 and G3. -/
theorem test_gate :
    (after (exec .gate (withColor 0x0000E859))).map (fun t => (t.gateSend, t.prevColor)) =
      some (true, 0x0000E859) ∧
    (after (exec .gate { withColor 0x0000E859 with prevColor := 0x0000E859 })).map
      (fun t => (t.gateSend, t.prevColor)) = some (false, 0x0000E859) := by decide

/-- G7; G6: all 32 bits are compared. -/
theorem test_gate_corners :
    recorded (exec .gate State.reset) = some [.unwrittenRead 0x40000000 .color 0] ∧
    (after (exec .gate { withColor 0x01010000 with prevColor := 0x00010000 })).map (·.gateSend) =
      some true := by decide

/-! ### Transmitter -/

/-- X3. -/
theorem test_fbld_payload :
    (after (exec (.fbld .payload) (withColor 0x0000E859))).map (fun t => t.fbuf.map (·.2)) =
      some [0x01, 0x00, 0x83, 0x03, 0x00, 0xE8, 0x59, 0, 0, 0, 0, 0, 0, 0, 0, 0] := by decide

/-- X18, and X19 with X1. -/
theorem test_fbld_after_reset :
    recorded (exec (.fbld .payload) State.reset) = some [.unwrittenRead 0x50000002 .color 0] ∧
    (after (exec (.fbld .setup) State.reset)).map (fun t => (t.fbuf.map (·.2), t.faultLog)) =
      some ([0x01, 0x00, 0x95, 0x02, 0x80, 0xBF, 0, 0, 0, 0, 0, 0, 0, 0, 0, 0], []) := by decide

/-- A state with the setup frame built and the sink's answers. -/
def withFrame (answers : List SinkAnswer) : State :=
  { State.reset with fbuf := Memory.fill Rom.setupFrame, sink := answers }

/-- X7 and X8. -/
theorem test_fwr_answers :
    (after (exec (.fwr .setup) (withFrame [.count 16]))).map (·.wrOk) = some true ∧
    (after (exec (.fwr .setup) { withFrame [.count 15] with wrOk := true })).map (·.wrOk) = some false := by
  decide

/-- X17; with no answer it waits (R361). -/
theorem test_fwr_stops :
    faultOf (exec (.fwr .setup) State.reset) = some (.unwrittenRead 0x51000000 .fbuf 0) ∧
    (after (exec (.fwr .setup) (withFrame []))).map (·.waiting) = some (some (.frame .setup)) := by decide

/-- X14: the payload write fails. -/
theorem test_tx_failure :
    (after (exec .tx { withColor 0x0000E859 with sink := [.count 16, .count 16, .count 7] })).map
      (fun t => (t.txStatus, t.txFailIdx, t.events.length, t.devIndet)) = some (2, 2, 3, true) := by decide

/-- X11. -/
theorem test_tx_success :
    (after (exec .tx { withColor 0x0000E859 with
        sink := [.count 16, .count 16, .count 16, .count 16] })).map
      (fun t => (t.txStatus, t.events.length, t.devColor, t.devIndet)) = some (1, 4, 0x0000E859, false) := by
  decide

/-- R298: the fault of an unwritten `COLOR` is recorded once, also where the transmission waits and goes on. -/
theorem test_tx_after_reset :
    recorded (exec .tx State.reset) = some [.unwrittenRead 0x52000000 .color 0] ∧
    ((after (exec .tx State.reset)).bind fun t => recorded (exec .tx { t with sink := [.count 16] })) =
      some [.unwrittenRead 0x52000000 .color 0] := by decide

/-! ### Sequencer and reset -/

/-- A Block of zeros. -/
def silence : Vector Byte 4096 := Vector.replicate 4096 0

/-- A state with one delivery. -/
def withDelivery (d : Delivery) : State := { State.reset with producer := [d] }

/-- Q4: a short read ends the run. -/
theorem test_rdblk_short_read :
    (after (exec .rdblk (withDelivery (.endOfInput [1, 2, 3])))).map (fun t => (t.phase, t.blk)) =
      some (.halted, []) := by decide

/-- Q5: no answer is a wait. -/
theorem test_rdblk_waits :
    (after (exec .rdblk State.reset)).map (fun t => (t.phase, t.waiting)) = some (.idle, some .block) := by
  decide

/-- Q6. -/
theorem test_halt : (after (exec .halt State.reset)).map (·.phase) = some .halted := by decide

/-- R327: a cycle that sees the end of the input returns in `HALTED`. -/
theorem test_cycle_end_of_input :
    (after (exec .cycle (withDelivery (.endOfInput [])))).map (·.phase) = some .halted := by decide

/-- A step of the reset state issues `RDBLK`, records its word and waits. -/
theorem test_step_from_reset :
    (after (step State.reset)).map (fun t => (t.trace, t.waiting, t.phase)) =
      some ([0x01000000], some .block, .idle) := by decide

/-- A test's operation is run by the next step; an illegal word is refused. -/
theorem test_step_of_named_operation :
    (after (step (State.reset.withFetchWord 32 0x50000000))).map (fun t => (t.fbuf.length, t.opReq)) =
      some (16, none) ∧
    refusalOf (step (State.reset.withFetchWord 32 0x12100000)) = some (.illegalOp 0x12100000) := by decide

/-- R391: a reset during a transmission. -/
theorem test_reset_in_tx :
    (after (step { withFrame [] with resetReq := true, phase := .tx, prevColor := 5, devIndet := false,
                                     waiting := some (.transmission .setup) })).map
      (fun t => (t.phase, t.prevColor, t.fbuf.length, t.events.length, t.devIndet)) =
      some (.idle, 0, 0, 1, true) := by decide

/-! ### Witnesses: states and operands that meet the hypotheses of the statements -/

/-- A whole index space with the values of a function. -/
@[irreducible] def filled {α : Type} (n : Nat) (f : Nat → α) : Memory α := Memory.fill ((List.range n).map f)

/-- A space filled from a function holds the function's values. -/
theorem holds_filled {α : Type} (n : Nat) (f : Nat → α) : (filled n f).Holds n f := by
  intro i hi
  simp [filled, Memory.read_fill, hi]

theorem witness_DecodeEncodeAgree : (Instr.bfly 11 1023).wellFormed = true := by decide

theorem witness_EveryWordIsOneOperationOrIllegal :
    rowMatches 0x20000401 (0xFFFFF800, 0x20000000) = true ∧ IllegalWord 0x20000401 ∧
    encode (.mag 1024) = 0x20000400 := by
  refine ⟨by decide, ?_, by decide⟩
  right; right; left
  decide

/-- One illegal word for each clause of R112, and a state in which it is next. -/
theorem witness_IllegalWordsAreRefused :
    IllegalWord 0xFF000000 ∧ IllegalWord 0x12100000 ∧ IllegalWord 0x34000003 ∧ IllegalWord 0x16C00000 ∧
    IllegalWord 0x15300004 ∧
    nextWord (State.reset.withFetchWord 32 0xFF000000) = 0xFF000000 ∧
    (State.reset.withFetchWord 32 0xFF000000).resetReq = false ∧ State.reset.opReq = none ∧
    (Instr.stage 12).wellFormed = false := by
  have reserved : (opcodeRows.all fun row => wordOpc 0xFF000000 != wordOpc row.2) = true := by decide +kernel
  refine ⟨.inl fun row hr => by simpa using List.all_eq_true.mp reserved row hr,
    .inr (.inl ⟨(0xFFFFFFFF, 0x12000000), ?_, ?_, ?_⟩),
    .inr (.inr (.inr (.inl (by decide +kernel)))), .inr (.inr (.inr (.inr (.inl (by decide +kernel))))),
    .inr (.inr (.inr (.inr (.inr (by decide +kernel))))), ?_, rfl, rfl, rfl⟩
  all_goals decide +kernel

theorem witness_StepRunsDecodedInstruction :
    State.reset.resetReq = false ∧ decode (nextWord State.reset) = .ok .rdblk := by decide

/-- A state at `IDLE` with a delivery and the four answers of a whole transmission. -/
def ready (d : Delivery) : State :=
  { withDelivery d with sink := [.count 16, .count 16, .count 16, .count 16] }

theorem witness_idle (d : Delivery) :
    (ready d).selfRunning ∧ (ready d).phase = .idle ∧ (ready d).waiting = none ∧
    (ready d).producer = d :: [] ∧ 4 ≤ (ready d).sink.length :=
  ⟨⟨rfl, rfl⟩, rfl, rfl, rfl, le_refl 4⟩

/-- One state for each phase: `IDLE` with a Block, with the end of the input and with no answer; `GATE`;
`TX`. -/
theorem witness_ConditionalPhases :
    (ready (.block silence)).producer = .block silence :: [] ∧
    (ready (.endOfInput [1])).producer = .endOfInput [1] :: [] ∧ State.reset.producer = [] ∧
    { withColor 1 with phase := .gate }.selfRunning ∧ { withColor 1 with phase := .gate }.waiting = none ∧
    { ready (.endOfInput []) with phase := .tx, color := Reg.put 1 }.selfRunning ∧
    4 ≤ { ready (.endOfInput []) with phase := .tx, color := Reg.put 1 }.sink.length :=
  ⟨rfl, rfl, rfl, ⟨rfl, rfl⟩, rfl, ⟨rfl, rfl⟩, le_refl 4⟩

/-- A state on track at each of the unconditional phases. -/
def loadState : State := { State.reset with phase := .load, blk := filled 4096 (fun _ => 0) }
def fftState : State :=
  { State.reset with phase := .fft, xBuf := filled 2048 (fun _ => F64.zero) }
def peakState : State :=
  { State.reset with
    phase := .peak, sBuf := filled 1025 (fun _ => ⟨F64.zero, F64.zero⟩) }
def mapState (pos : Fin 8) : State :=
  { State.reset with
    phase := .map, pos := pos
    magMax := Reg.put F64.zero, dbMax := Reg.put F64.zero, domFreq := Reg.put F64.zero, hue := Reg.put F64.zero
    bri := Reg.put (.inf true), rf := Reg.put .nan, gf := Reg.put .nan, bf := Reg.put .nan
    r8 := Reg.put 0, g8 := Reg.put 0, b8 := Reg.put 0 }

theorem atMost_zero (k : Nat) : F64AtMost k F64.zero := Nat.zero_le _

theorem witness_UnconditionalPhases :
    (loadState.onTrack ∧ loadState.resetReq = false) ∧ (fftState.onTrack ∧ fftState.resetReq = false) ∧
    (peakState.onTrack ∧ peakState.resetReq = false) ∧
    ∀ pos, (mapState pos).onTrack ∧ (mapState pos).resetReq = false := by
  refine ⟨⟨⟨rfl, rfl, fun i hi => ⟨_, holds_filled 4096 _ i hi⟩⟩, rfl⟩,
    ⟨⟨rfl, rfl, fun i hi => ⟨_, holds_filled 2048 _ i hi, atMost_zero 0⟩⟩, rfl⟩,
    ⟨⟨rfl, rfl, fun i hi => ⟨_, holds_filled 1025 _ i hi, atMost_zero 22, atMost_zero 22⟩⟩, rfl⟩,
    fun pos => ⟨⟨rfl, rfl, rfl, rfl, atMost_zero 23, fun _ => ⟨rfl, atMost_zero 29⟩,
      fun _ => ⟨rfl, atMost_zero 25⟩, fun _ => rfl, fun _ => ⟨rfl, rfl, rfl⟩, fun _ => rfl, fun _ => rfl,
      fun _ => rfl⟩, rfl⟩⟩

theorem witness_CycleIssuesItsWords :
    (ready (.block silence)).selfRunning ∧ (ready (.block silence)).phase = .idle ∧
    (ready (.block silence)).waiting = none ∧ 4 ≤ (ready (.block silence)).sink.length ∧
    (ready (.endOfInput [])).selfRunning ∧ State.reset.opReq = none :=
  ⟨⟨rfl, rfl⟩, rfl, rfl, le_refl 4, ⟨rfl, rfl⟩, rfl⟩

theorem witness_HaltedIsFinal :
    { State.reset with phase := .halted }.selfRunning ∧ { State.reset with phase := .halted }.phase = .halted ∧
    State.reset.requestReset.resetReq = true := ⟨⟨rfl, rfl⟩, rfl, rfl⟩

theorem witness_RdblkByAnswer :
    (withDelivery (.block silence)).producer = .block silence :: [] ∧
    (withDelivery (.endOfInput [1, 2])).producer = .endOfInput [1, 2] :: [] ∧ State.reset.producer = [] :=
  ⟨rfl, rfl, rfl⟩

theorem witness_CycleIsItsParts :
    State.reset.selfRunning ∧ State.reset.phase = .idle ∧ State.reset.waiting = none := ⟨⟨rfl, rfl⟩, rfl, rfl⟩

/-- A state that waits in a transmission, with the answers now there. -/
def inTransmission : State :=
  { ready (.endOfInput []) with phase := .tx, color := Reg.put 1, waiting := some (.transmission .payload) }

/-- A state that waits in its `RDBLK`, with the producer's answer now there. -/
def inRequest (d : Delivery) : State := { ready d with waiting := some .block }

theorem witness_CycleCompletes :
    (inRequest (.block silence)).outsideTransmission ∧
    (inRequest (.block silence)).producer = .block silence :: [] ∧
    (inRequest (.endOfInput [])).outsideTransmission ∧
    (inRequest (.endOfInput [])).producer = .endOfInput [] :: [] ∧
    State.reset.outsideTransmission ∧ State.reset.producer = [] ∧
    inTransmission.waiting = some (.transmission .payload) ∧ 4 ≤ inTransmission.sink.length :=
  ⟨nofun, rfl, nofun, rfl, nofun, rfl, rfl, le_refl 4⟩

/-- With black held, and with another color held. -/
theorem witness_SilentCycleIsBlack :
    (ready (.block silence)).outsideTransmission ∧
    (ready (.block silence)).producer = .block silence :: [] ∧
    (∀ i (h : i < 4096), silence[i] = 0) ∧ (ready (.block silence)).prevColor = 0 ∧
    { ready (.block silence) with prevColor := 7 }.outsideTransmission ∧
    { ready (.block silence) with prevColor := 7 }.prevColor ≠ 0 :=
  ⟨nofun, rfl, fun _ _ => Vector.getElem_replicate .., rfl, nofun, by decide⟩

/-- Two different states with the same Block. -/
theorem witness_ColorDependsOnBlockAlone :
    (ready (.block silence)).waiting = none ∧ (ready (.block silence)).producer = .block silence :: [] ∧
    { ready (.block silence) with prevColor := 7, color := Reg.put 9 }.waiting = none ∧
    { ready (.block silence) with prevColor := 7, color := Reg.put 9 }.producer = .block silence :: [] :=
  ⟨rfl, rfl, rfl, rfl⟩

theorem witness_SendPatternOverCycles :
    (inRequest (.block silence)).outsideTransmission ∧
    (inRequest (.block silence)).producer = .block silence :: [] ∧
    4 ≤ (inRequest (.block silence)).sink.length ∧
    4 * [silence, silence].length ≤ (List.replicate 8 (SinkAnswer.count 16)).length :=
  ⟨nofun, rfl, le_refl 4, by decide⟩

theorem witness_ResetAtAnyStep :
    State.reset.requestReset.resetReq = true ∧ State.reset.requestReset.offering = false ∧
    inTransmission.requestReset.resetReq = true ∧ inTransmission.requestReset.offering = true :=
  ⟨rfl, rfl, rfl, rfl⟩

/-- What the invariants say of the reset state, each by its own computation. -/
theorem witness_SequencerNeverStops : State.reset.onTrack := ⟨rfl, .inl rfl⟩

theorem witness_StepKeepsMemoryWf :
    State.reset.memoryWf = true ∧ ∃ t, step State.reset = .next t := ⟨rfl, _, rfl⟩

theorem witness_StepKeepsRegisterInvariants :
    State.reset.statusLegal ∧ State.reset.maximaLegal ∧ State.reset.alphaZero ∧
    ∃ t, step State.reset = .next t :=
  ⟨⟨by decide, fun _ => rfl⟩, ⟨nofun, nofun⟩, ⟨by decide, by decide⟩, _, rfl⟩

theorem witness_StepKeepsFramesLegal : State.reset.framesLegal ∧ ∃ t, step State.reset = .next t :=
  ⟨⟨.inl rfl, fun h => absurd h (by decide), fun _ h => absurd h (List.not_mem_nil)⟩, _, rfl⟩

theorem witness_OnlyWritersWrite : ∃ t, exec (.twrd 512) State.reset = .next t := ⟨_, rfl⟩

theorem witness_OnlyGateChangesPrevColor :
    ∃ t, step { withColor 1 with phase := .gate } = .next t ∧ t.prevColor ≠ (withColor 1).prevColor :=
  ⟨_, rfl, by decide⟩

theorem witness_WritesHappenOnlyInTx :
    State.reset.selfRunning ∧ State.reset.phase ≠ .tx ∧ ∃ t, step State.reset = .next t :=
  ⟨⟨rfl, rfl⟩, by decide, _, rfl⟩

/-- On both sides of the overflow threshold. -/
theorem witness_RoundingIsNearestTiesToEven :
    0 < 1 ∧ (2 ^ 54 - 1) * 2 ^ 970 * 1 ≤ (2 ^ 54 - 1) * 2 ^ 970 ∧
    (2 ^ 54 - 1) * 2 ^ 970 - 1 < (2 ^ 54 - 1) * 2 ^ 970 * 1 := by decide +kernel

theorem witness_SquareRootWithinHalfUnit : F64.units 0 1 ≠ 0 ∧ F64.units 2046 (-1) ≠ 0 := by decide +kernel

theorem witness_FloorIsExact :
    F64.units 0 1 < 2 ^ F64.unitExp ∧ 0 < F64.units 0 1 ∧ F64.units 1023 0 ≤ 2 ^ F64.unitExp := by
  decide +kernel

theorem witness_LogarithmSpecialValuesAndSign :
    (num 1).neg.lt F64.zero = true ∧ (bits 0x3FF0000000000001).gt (num 1) = true := by decide +kernel

/-- `ln 2` and `log10 2` are settled at the first precision. -/
theorem witness_LogarithmBoundsEnclose :
    0 < 1 ∧ F64.units 1024 0 ≠ 0 ∧ 192 ∈ Logarithm.precisions ∧
    Logarithm.lnAt 192 (F64.units 1024 0) = some (bits 0x3FE62E42FEFA39EF) ∧
    Logarithm.log10At 192 (F64.units 1024 0) = some (bits 0x3FD34413509F79FF) := by decide +kernel

theorem witness_DecsReadsLittleEndianSample :
    (twoBytes 0xFF 0x7F).blk.read (2 * (0 : Fin 2048).val) = some 0xFF ∧
    (twoBytes 0xFF 0x7F).blk.read (2 * (0 : Fin 2048).val + 1) = some 0x7F ∧
    State.reset.blk.read (2 * (2047 : Fin 2048).val) = none := by decide

theorem witness_NormWritesExactFraction :
    (twoBytes 0x00 0x80).blk.read (2 * (0 : Fin 2048).val) = some 0x00 ∧
    (twoBytes 0x00 0x80).blk.read (2 * (0 : Fin 2048).val + 1) = some 0x80 ∧
    State.reset.blk.read (2 * (0 : Fin 2048).val) = none := by decide

theorem witness_LdxLoadsEverySample :
    (loadState.blk.Holds 4096 fun _ => 0) ∧ State.reset.blk.read 0 = none := ⟨holds_filled 4096 _, rfl⟩

/-- Both ends of each range of an index, and `k = 512`, where the zero part stands. -/
theorem witness_TwrdReadsTheSymmetricRom :
    (1 ≤ 1 ∧ 1 ≤ 1023) ∧ (1 ≤ 1023 ∧ 1023 ≤ 1023 ∧ 1023 ≠ 512) ∧ (1 ≤ 512 ∧ 512 ≤ 1023) ∧
    (1 ≤ 1 ∧ 1 ≤ 511) ∧ (1 ≤ 511 ∧ 511 ≤ 511) := by decide

theorem witness_TwiddleRomIsRounded : 0 < 1024 ∧ 512 < 1024 ∧ 1023 < 1024 := by decide

/-- A state in which one element of `X` is written and the others are not. -/
def partInput : State := { State.reset with xBuf := [(0, half)] }

theorem witness_BrevLoadsReversedInput :
    fftState.xBuf.Holds 2048 (fun _ => F64.zero) ∧ 1024 < 2048 ∧ partInput.xBuf.read 1024 = none ∧
    State.reset.xBuf.read 0 = none := ⟨holds_filled 2048 _, by decide, rfl, rfl⟩

theorem witness_ButterflyFromOldValues :
    1 ≤ (11 : Fin 16).val ∧ (11 : Fin 16).val ≤ 11 ∧
    (1023 : Fin 2048).val % 2 ^ (11 : Fin 16).val < 2 ^ ((11 : Fin 16).val - 1) ∧
    (twoElements 1023 2047 ⟨half, half⟩ ⟨quarter, half⟩).aBuf.read 1023 = some ⟨half, half⟩ ∧
    (twoElements 1023 2047 ⟨half, half⟩ ⟨quarter, half⟩).aBuf.read (1023 + 2 ^ 10) = some ⟨quarter, half⟩ ∧
    State.reset.aBuf.read 1023 = none := by decide +kernel

/-- A state whose working array is whole. -/
def arrayState : State :=
  { State.reset with aBuf := filled 2048 (fun _ => ⟨half, F64.zero⟩) }

theorem witness_StageIsOneButterflyPerPair :
    (arrayState.aBuf.Holds 2048 fun _ => ⟨half, F64.zero⟩) ∧ 1 ≤ (1 : Fin 16).val ∧ (11 : Fin 16).val ≤ 11 ∧
    State.reset.aBuf.read 0 = none := ⟨holds_filled 2048 _, by decide, by decide, rfl⟩

theorem witness_RfftIsItsStages :
    (fftState.xBuf.Holds 2048 fun _ => F64.zero) ∧ 2047 < 2048 ∧ partInput.xBuf.read 2047 = none :=
  ⟨holds_filled 2048 _, by decide, rfl⟩

/-- The sign of the logarithm of a number of units. -/
def stepSign (z : Int) : F64 :=
  if z < 0 then .nan
  else if z = 0 then .inf true
  else if z < 2 ^ F64.unitExp then .fin true 1023 0
  else if z = 2 ^ F64.unitExp then F64.zero
  else .fin false 1023 0

/-- The simplest logarithm that the spec admits: at finite values the sign of the logarithm. -/
def stepLog : F64 → F64
  | .nan => .nan
  | .inf neg => if neg then .nan else .inf false
  | .fin neg e f => stepSign (F64.signed neg e f)

/-- A configuration with a replaced transform and other logarithms. -/
def otherConfig : Config where
  fft := .replaced fun xs k => ⟨xs.getD k F64.zero, F64.zero⟩
  log10 := stepLog
  ln := stepLog

theorem one_eq : F64.ofNat 1 = .fin false 1023 0 := by decide +kernel

theorem signed_one : F64.signed false 1023 0 = 2 ^ F64.unitExp := by decide +kernel

theorem signed_zero : F64.signed false 0 0 = 0 := by decide +kernel

theorem signed_nonneg (e : Fin 2047) (f : BitVec 52) : 0 ≤ F64.signed false e f := Int.natCast_nonneg _

/-- `stepSign` is in order from 0 on. -/
theorem stepSign_mono {a b : Int} (ha : 0 ≤ a) (h : a ≤ b) : F64Le (stepSign a) (stepSign b) := by
  unfold stepSign
  split_ifs <;> first
    | omega
    | exact ⟨nofun, nofun, by decide +kernel⟩

theorem stepSign_le_inf {a : Int} (ha : 0 ≤ a) : F64Le (stepSign a) (.inf false) := by
  unfold stepSign
  split_ifs <;> first
    | omega
    | exact ⟨nofun, nofun, rfl⟩

theorem stepLog_nonDecreasing : NonDecreasing stepLog := by
  rintro (_ | neg | ⟨neg, e, f⟩) (_ | neg' | ⟨neg', e', f'⟩) hx hy ⟨-, -, h⟩
  · exact hx.elim
  · exact hx.elim
  · exact hx.elim
  · exact hy.elim
  · cases hx
    cases hy
    exact ⟨nofun, nofun, rfl⟩
  · cases hx
    cases h
  · exact hy.elim
  · cases hx
    cases hy
    exact stepSign_le_inf (signed_nonneg e f)
  · cases hx
    cases hy
    exact stepSign_mono (signed_nonneg e f) (not_lt.mp (of_decide_eq_false h))

theorem stepSign_positive (a : Int) : (stepSign a).gt F64.zero = true ↔ 2 ^ F64.unitExp < a := by
  have hu : (0 : Int) < 2 ^ F64.unitExp := by decide +kernel
  unfold stepSign
  generalize (2 : Int) ^ F64.unitExp = u at *
  split_ifs <;> first
    | exact iff_of_true (by decide +kernel) (by omega)
    | exact iff_of_false (by decide +kernel) (by omega)

theorem stepLog_laws : LogarithmLaws stepLog := by
  refine ⟨by decide +kernel, by decide +kernel, stepLog_nonDecreasing, ?_, rfl, ?_, rfl⟩
  · rintro (_ | neg | ⟨neg, e, f⟩) <;> rw [one_eq]
    · decide
    · cases neg <;> decide
    · exact (stepSign_positive _).trans (by
        simp only [F64.gt, F64.lt, signed_one, decide_eq_true_eq])
  · rintro (_ | neg | ⟨neg, e, f⟩) h
    · rfl
    · cases neg
      · cases h
      · rfl
    · exact if_pos (signed_zero ▸ of_decide_eq_true h)

theorem otherConfig_admissible : otherConfig.Admissible := ⟨stepLog_laws, stepLog_laws⟩

theorem witness_SpectrumDependsOnInputAlone :
    fftState.xBuf.Holds 2048 (fun _ => F64.zero) ∧
    { fftState with prevColor := 3, sBuf := [(0, ⟨half, half⟩)] }.xBuf.Holds 2048 (fun _ => F64.zero) ∧
    otherConfig.fft = .replaced fun xs k => ⟨xs.getD k F64.zero, F64.zero⟩ :=
  ⟨holds_filled 2048 _, holds_filled 2048 _, rfl⟩

/-- A state with the given transform input. -/
def inputState (x : Nat → F64) : State := { State.reset with xBuf := filled 2048 x }

theorem witness_SpectraOfSimpleInputs (x : F64) :
    (inputState fun _ => x).xBuf.Holds 2048 (fun _ => x) ∧
    (inputState fun n => if n = 0 then x else F64.zero).xBuf.Holds 2048
      (fun n => if n = 0 then x else F64.zero) ∧
    (inputState fun n => if n % 2 = 0 then x else x.neg).xBuf.Holds 2048
      (fun n => if n % 2 = 0 then x else x.neg) :=
  ⟨holds_filled 2048 _, holds_filled 2048 _, holds_filled 2048 _⟩

theorem witness_MagIsRootOfSquares :
    (1024 : Fin 2048).val ≤ 1024 ∧
    { State.reset with sBuf := [(1024, ⟨F64.negZero, F64.zero⟩)] }.sBuf.read (1024 : Fin 2048).val =
      some ⟨F64.negZero, F64.zero⟩ ∧
    CplxIsZero ⟨F64.negZero, F64.zero⟩ ∧ State.reset.sBuf.read (1024 : Fin 2048).val = none :=
  ⟨by decide, by decide +kernel, ⟨.inr rfl, .inl rfl⟩, rfl⟩

theorem witness_DbIsTwentyLog :
    (withMagv half).magv.written = true ∧ State.reset.magv.written = false := ⟨rfl, rfl⟩

theorem witness_PeakTracksBothMaxima :
    (peakState.sBuf.Holds 1025 fun _ => ⟨F64.zero, F64.zero⟩) ∧ State.reset.sBuf.read 0 = none :=
  ⟨holds_filled 1025 _, rfl⟩

theorem witness_PeakCoupling :
    peakState.sBuf.Holds 1025 (fun _ => ⟨F64.zero, F64.zero⟩) ∧ NonDecreasing otherConfig.log10 ∧
    otherConfig.log10 F64.zero = .inf true ∧ otherConfig.log10 .nan = .nan ∧ otherConfig.Admissible :=
  ⟨holds_filled 1025 _, stepLog_nonDecreasing, stepLog_laws.1, rfl, otherConfig_admissible⟩

theorem witness_FreqAndHueFormulas :
    (mapState 0).magMax.written = true ∧ State.reset.magMax.written = false ∧
    (mapState 1).domFreq.written = true ∧ State.reset.domFreq.written = false := ⟨rfl, rfl, rfl, rfl⟩

theorem witness_FreqAndHueGrowWithMagnitude :
    F64NonNegative (num 1) ∧ F64NonNegative (num 2048) ∧ F64Le (num 1) (num 2048) := by
  have h1 : num 1 = .fin false 1023 0 := by decide +kernel
  have h2 : num 2048 = .fin false 1034 0 := by decide +kernel
  rw [h1, h2]
  exact ⟨rfl, rfl, by decide, by decide, by decide +kernel⟩

theorem witness_BriIsLogBaseNinety :
    (mapState 2).dbMax.written = true ∧ State.reset.dbMax.written = false := ⟨rfl, rfl⟩

/-- Saturation 0; sector 28, the highest of R223; the last sector of the domain and the first beyond it; a
negative sector. -/
theorem witness_HsvSectorAlgorithm :
    F64.negZero.ieeeEq F64.zero = true ∧ (num 1).ieeeEq F64.zero = false ∧
    ((bits 0x409AF941AF941AF9).div (num 60)).floorInt = some 28 ∧ (28 : Int).natAbs < 2 ^ 31 ∧
    ((num 128849018820).div (num 60)).floorInt = some 2147483647 ∧ (2147483647 : Int).natAbs < 2 ^ 31 ∧
    ((num 128849018880).div (num 60)).floorInt = some 2147483648 ∧ 2 ^ 31 ≤ (2147483648 : Int).natAbs ∧
    (-6 : Int) < 0 := by decide +kernel

/-- Brightness above and below 0, a hue out of the domain, and the registers unwritten. -/
theorem witness_HsvChannelsWithinBrightness :
    (withHsv (num 330) (num 1)).hue.written = true ∧ (withHsv (num 330) (num 1)).bri.written = true ∧
    hsvOf (num 330) (num 1) (num 1) = some ⟨num 1, F64.zero, half⟩ ∧
    hsvOf (num 330) (num 1) minusHalf = some ⟨minusHalf, F64.negZero, quarter.neg⟩ ∧
    hsvOf .nan (num 1) (num 1) = none ∧
    hsvOf State.reset.hue.value (num 1) State.reset.bri.value = some ⟨F64.zero, F64.zero, F64.zero⟩ := by
  decide +kernel

theorem witness_ClampAndToByte :
    (num 1).neg.lt (num 0) = true ∧ (num 256).lt (num 0) = false ∧ (num 256).gt (num 255) = true ∧
    (num 255).gt (num 255) = false := by decide +kernel

theorem witness_ChannelByteForEveryValue (c : Channel) :
    ((mapState 4).channelReg c).written = true ∧ (State.reset.channelReg c).written = false := by
  cases c <;> exact ⟨rfl, rfl⟩

theorem witness_QuietMaximumGivesBlack :
    F64NonNegative F64.zero ∧ F64Le F64.zero (num 1) ∧
    hsvOf F64.zero (num 1) (brightnessOf Config.default F64.zero) = some ⟨.inf true, .nan, .nan⟩ :=
  ⟨rfl, ⟨by decide, by decide +kernel, by decide +kernel⟩, by decide +kernel⟩

theorem witness_PackThenUnpack :
    (withBytes 1 2 3).r8.written = true ∧ (withBytes 1 2 3).g8.written = true ∧
    (withBytes 1 2 3).b8.written = true ∧ (withColor 5).color.written = true ∧
    State.reset.color.written = false := ⟨rfl, rfl, rfl, rfl, rfl⟩

theorem witness_GateComparesAndLatches :
    (withColor 5).color.written = true ∧ (withColor 5).color.value ≠ (withColor 5).prevColor ∧
    (withColor 0).color.value = (withColor 0).prevColor ∧ State.reset.color.written = false := by decide

theorem witness_FbldBuildsTheFrame :
    (withColor 5).color.written = true ∧ State.reset.color.written = false ∧
    alphaOf 0x0000E859 = 0 ∧ alphaOf 0x00CAB200 = 0 := by decide

theorem witness_FwrByAnswer :
    Rom.setupFrame.length = 16 ∧
    (∀ i < 16, (withFrame [.err]).fbuf.read i = Rom.setupFrame[i]?) ∧ (withFrame [.err]).sink = .err :: [] ∧
    (withFrame []).sink = [] ∧ State.reset.fbuf.read 0 = none ∧
    { State.reset with fbuf := [(0, 1)] }.fbuf.read 15 = none := by decide

theorem witness_TxWritesInOrderUntilFailure :
    { ready (.endOfInput []) with color := Reg.put 1 }.waiting = none ∧
    { ready (.endOfInput []) with color := Reg.put 1 }.sink =
      [.count 16, .count 16, .count 16, .count 16] ++ [] ∧
    ∀ r, { withColor 1 with
          sink := (rolesBefore r).map (fun _ => SinkAnswer.count 16) ++ [SinkAnswer.count 15] }.sink =
        (rolesBefore r).map (fun _ => SinkAnswer.count 16) ++ SinkAnswer.count 15 :: [] ∧
      (withColor 1).waiting = none ∧ SinkAnswer.count 15 ≠ SinkAnswer.count 16 :=
  ⟨rfl, rfl, fun _ => ⟨rfl, rfl, by decide⟩⟩

theorem witness_TxWaitIsTransparent :
    (withColor 1).waiting = none ∧
    ∃ t, exec .tx { withColor 1 with sink := [.count 16] } = .next t ∧ t.waiting.isSome = true :=
  ⟨rfl, _, rfl, by decide⟩

end Sys2Proof.Tests
end

section
/-! Proofs about the operation word (30_encoding.md R107 to R112): the decoder answers a well-formed operation
exactly for that operation's own word (`decode_eq_ok_iff`) and refuses exactly the illegal words
(`decode_refuses_iff`). -/

namespace Sys2Proof
open Machine

/-! ### The fields of a word -/

theorem toNat_wordOpc (w : Word) : (wordOpc w).toNat = w.toNat / 2 ^ 24 := by
  simp only [wordOpc, BitVec.extractLsb'_toNat, Nat.shiftRight_eq_div_pow]
  omega

theorem wordStg_eq (w : Word) : wordStg w = w.toNat / 2 ^ 20 % 2 ^ 4 := by
  simp only [wordStg, BitVec.extractLsb'_toNat, Nat.shiftRight_eq_div_pow]

theorem wordStg_lt (w : Word) : wordStg w < 16 := BitVec.isLt _

theorem wordRsv_eq (w : Word) : wordRsv w = w.toNat / 2 ^ 12 % 2 ^ 8 := by
  simp only [wordRsv, BitVec.extractLsb'_toNat, Nat.shiftRight_eq_div_pow]

theorem wordImm_eq (w : Word) : wordImm w = w.toNat % 2 ^ 12 := by
  simp only [wordImm, BitVec.extractLsb'_toNat, Nat.shiftRight_zero]

/-- R107: a word whose reserved bits are 0 is the word of its own fields. -/
theorem opWord_fields {w : Word} (h : wordRsv w = 0) :
    opWord (wordOpc w).toNat (wordStg w) (wordImm w) = w := by
  rw [wordRsv_eq] at h
  apply BitVec.eq_of_toNat_eq
  rw [opWord, BitVec.toNat_ofNat, toNat_wordOpc, wordStg_eq, wordImm_eq]
  omega

section opWord
variable {opc stg imm : Nat}

theorem toNat_opWord (ho : opc < 256) (hs : stg < 16) (hi : imm < 4096) :
    (opWord opc stg imm).toNat = opc * 2 ^ 24 + stg * 2 ^ 20 + imm := by
  rw [opWord, BitVec.toNat_ofNat]
  omega

theorem toNat_wordOpc_opWord (ho : opc < 256) (hs : stg < 16) (hi : imm < 4096) :
    (wordOpc (opWord opc stg imm)).toNat = opc := by
  rw [toNat_wordOpc, toNat_opWord ho hs hi]
  omega

theorem wordStg_opWord (ho : opc < 256) (hs : stg < 16) (hi : imm < 4096) :
    wordStg (opWord opc stg imm) = stg := by
  rw [wordStg_eq, toNat_opWord ho hs hi]
  omega

theorem wordRsv_opWord (ho : opc < 256) (hs : stg < 16) (hi : imm < 4096) :
    wordRsv (opWord opc stg imm) = 0 := by
  rw [wordRsv_eq, toNat_opWord ho hs hi]
  omega

theorem wordImm_opWord (ho : opc < 256) (hs : stg < 16) (hi : imm < 4096) :
    wordImm (opWord opc stg imm) = imm := by
  rw [wordImm_eq, toNat_opWord ho hs hi]
  omega

end opWord

/-! ### The rows of the opcode table -/

/-- A word that matches a row has the row's value in every run of bits that the row fixes whole. -/
theorem extract_eq_of_rowMatches {w : Word} {row : Word × Word} {start len : Nat} (h : rowMatches w row = true)
    (hm : row.1.extractLsb' start len = BitVec.allOnes len) :
    w.extractLsb' start len = row.2.extractLsb' start len := by
  rw [← beq_iff_eq.mp h, BitVec.extractLsb'_and, hm, BitVec.and_allOnes]

/-- A word that matches a row has zeros where the row fixes a run of zeros. -/
theorem run_eq_zero_of_rowMatches {w : Word} {row : Word × Word} {start len : Nat} (h : rowMatches w row = true)
    (hm : row.1.extractLsb' start len = BitVec.allOnes len) (hv : row.2.extractLsb' start len = 0#len) :
    w.toNat / 2 ^ start % 2 ^ len = 0 := by
  rw [← Nat.shiftRight_eq_div_pow, ← BitVec.extractLsb'_toNat, extract_eq_of_rowMatches h hm, hv,
    BitVec.toNat_zero]

/-- R109: every row fixes OPC. -/
theorem opcodeRows_fix_opc : ∀ row ∈ opcodeRows, row.1.extractLsb' 24 8 = BitVec.allOnes 8 := by
  simp [opcodeRows]

/-- R111: the rows differ in OPC. -/
theorem opcodeRows_opc_nodup : (opcodeRows.map fun row => wordOpc row.2).Nodup := by decide +kernel

theorem wordOpc_of_rowMatches {w : Word} {row : Word × Word} (hr : row ∈ opcodeRows)
    (h : rowMatches w row = true) : wordOpc w = wordOpc row.2 :=
  extract_eq_of_rowMatches h (opcodeRows_fix_opc row hr)

theorem opcodeRows_opc_inj {a b : Word × Word} (ha : a ∈ opcodeRows) (hb : b ∈ opcodeRows)
    (h : wordOpc a.2 = wordOpc b.2) : a = b :=
  List.inj_on_of_nodup_map opcodeRows_opc_nodup ha hb h

/-- R111: no two rows match one word. -/
theorem row_eq_of_rowMatches {w : Word} {a b : Word × Word} (ha : a ∈ opcodeRows) (hb : b ∈ opcodeRows)
    (hwa : rowMatches w a = true) (hwb : rowMatches w b = true) : a = b :=
  opcodeRows_opc_inj ha hb ((wordOpc_of_rowMatches ha hwa).symm.trans (wordOpc_of_rowMatches hb hwb))

/-- A row that leaves the low `k` bits free matches only words with an operand of `k` bits and zeros above it. -/
theorem fields_of_rowMatches {w : Word} {opc k : Nat} (ho : opc < 256) (hk : k ≤ 12)
    (h : rowMatches w (BitVec.allOnes 32 <<< k, opWord opc 0 0) = true) :
    wordStg w = 0 ∧ wordRsv w = 0 ∧ wordImm w < 2 ^ k := by
  have hw : w >>> k <<< k = opWord opc 0 0 := by
    rw [BitVec.shiftLeft_ushiftRight]
    exact beq_iff_eq.mp h
  have hle := Nat.div_mul_le_self w.toNat (2 ^ k)
  have hlt := Nat.lt_div_mul_add (a := w.toNat) (Nat.two_pow_pos k)
  have hpow : 2 ^ k ≤ 2 ^ 12 := Nat.pow_le_pow_right (by decide) hk
  have hn := congrArg BitVec.toNat hw
  rw [BitVec.toNat_shiftLeft, BitVec.toNat_ushiftRight, Nat.shiftLeft_eq, Nat.shiftRight_eq_div_pow,
    Nat.mod_eq_of_lt (hle.trans_lt w.isLt), toNat_opWord ho (by decide) (by decide)] at hn
  rw [wordStg_eq, wordRsv_eq, wordImm_eq]
  omega

/-- R109: the operation codes of the rows. -/
theorem opcodeRows_codes : (opcodeRows.map fun row => (wordOpc row.2).toNat) =
    [0x01, 0x02, 0x03, 0x10, 0x11, 0x12, 0x13, 0x14, 0x15, 0x16, 0x17, 0x20, 0x21, 0x22, 0x30, 0x31, 0x32, 0x33,
     0x34, 0x35, 0x36, 0x40, 0x50, 0x51, 0x52] := by decide +kernel

/-! ### Decoding the word of an operation -/

theorem decodeImm_opWord {opc imm : Nat} (bits : Nat) (mk : Nat → Except Illegal Instr) (ho : opc < 256)
    (hb : bits ≤ 12) (hi : imm < 2 ^ bits) : decodeImm (opWord opc 0 imm) bits mk = mk imm := by
  have hw : imm < 4096 := hi.trans_le (Nat.pow_le_pow_right (by decide) hb)
  have hs : 0 < 16 := by decide
  simp [decodeImm, wordStg_opWord ho hs hw, wordRsv_opWord ho hs hw, wordImm_opWord ho hs hw, hi]

theorem decode_encode {i : Instr} (h : i.wellFormed = true) : decode (encode i) = .ok i := by
  cases i with
  | decs i | norm i | twrd i =>
    simp (disch := omega) [decode, encode, toNat_wordOpc_opWord, decodeImm_opWord, indexOperand]
  | mag k =>
    simp (disch := omega) [decode, encode, toNat_wordOpc_opWord, decodeImm_opWord, magOperand, legalOnly, h]
  | bfly g p =>
    simp (disch := omega) [decode, encode, toNat_wordOpc_opWord, decodeBfly, wordStg_opWord, wordRsv_opWord,
      wordImm_opWord, legalOnly, h]
  | stage g =>
    simp (disch := omega) [decode, encode, toNat_wordOpc_opWord, decodeStage, wordStg_opWord, wordRsv_opWord,
      wordImm_opWord, legalOnly, h]
  | chfin c => cases c <;> rfl
  | unpk f => cases f <;> rfl
  | fbld r => cases r <;> rfl
  | fwr r => cases r <;> rfl
  | _ => rfl

/-! ### What the decoder answers -/

/-- What R111 asks of an answer of the decoder to a word: an operation with legal operands whose word it is,
or else that the word is illegal. -/
def SoundAnswer (w : Word) : Except Illegal Instr → Prop
  | .ok i => i.wellFormed = true ∧ encode i = w
  | .error _ => IllegalWord w

section Sound
variable {w : Word} {opc : Nat}

/-- R112 (b): a word with the code of a row that it does not match is illegal. -/
theorem illegalWord_of_not_rowMatches {mask : Word} (ho : (wordOpc w).toNat = opc)
    (hr : (mask, opWord opc 0 0) ∈ opcodeRows) (h : ¬ rowMatches w (mask, opWord opc 0 0) = true) :
    IllegalWord w := by
  have hlt : opc < 256 := ho ▸ (wordOpc w).isLt
  refine .inr (.inl ⟨_, hr, BitVec.eq_of_toNat_eq ?_, Bool.eq_false_of_not_eq_true h⟩)
  rw [ho, toNat_wordOpc_opWord hlt (by decide) (by decide)]

theorem decodeImm_sound {k : Nat} {mk : Nat → Except Illegal Instr} (ho : (wordOpc w).toNat = opc)
    (hk : k ≤ 12) (hr : (BitVec.allOnes 32 <<< k, opWord opc 0 0) ∈ opcodeRows)
    (hmk : ∀ v < 2 ^ k, wordImm w = v → opWord opc 0 v = w → SoundAnswer w (mk v)) :
    SoundAnswer w (decodeImm w k mk) := by
  unfold decodeImm
  split
  next h =>
    obtain ⟨hs, hz, hi⟩ := h
    refine hmk _ hi rfl ?_
    have hw := opWord_fields hz
    rwa [ho, hs] at hw
  next h =>
    have hlt : opc < 256 := ho ▸ (wordOpc w).isLt
    exact illegalWord_of_not_rowMatches ho hr fun hm => h (fields_of_rowMatches hlt hk hm)

/-- A row without operands is one with an operand of 0 bits. -/
theorem decodePlain_eq_decodeImm (w : Word) (i : Instr) : decodePlain w i = decodeImm w 0 fun _ => .ok i := by
  simp [decodePlain, decodeImm]

theorem decodePlain_sound {i : Instr} (ho : (wordOpc w).toNat = opc)
    (hr : (BitVec.allOnes 32, opWord opc 0 0) ∈ opcodeRows) (hi : i.wellFormed = true)
    (he : encode i = opWord opc 0 0) : SoundAnswer w (decodePlain w i) := by
  rw [decodePlain_eq_decodeImm]
  refine decodeImm_sound ho (by decide) (by simpa using hr) fun v hv _ hw => ⟨hi, ?_⟩
  rw [he, ← hw, Nat.lt_one_iff.mp hv]

theorem indexOperand_sound {n v : Nat} {mk : Fin n → Instr} (hv : v < n) (hi : ∀ k, (mk k).wellFormed = true)
    (he : encode (mk ⟨v, hv⟩) = w) : SoundAnswer w (indexOperand n mk v) := by
  rw [indexOperand, dif_pos hv]
  exact ⟨hi _, he⟩

theorem legalOnly_sound {i : Instr} (he : encode i = w) (hn : i.wellFormed = false → IllegalWord w) :
    SoundAnswer w (legalOnly i) := by
  unfold legalOnly
  split
  next h => exact ⟨h, he⟩
  next h => exact hn (Bool.eq_false_of_not_eq_true h)

theorem magOperand_sound (ho : (wordOpc w).toNat = 0x20) {v : Nat} (hv : v < 2048) (hi : wordImm w = v)
    (hw : opWord 0x20 0 v = w) : SoundAnswer w (magOperand v) := by
  rw [magOperand, dif_pos hv]
  refine legalOnly_sound hw fun h => .inr (.inr (.inl ⟨BitVec.eq_of_toNat_eq ho, ?_⟩))
  simpa [Instr.wellFormed, hi] using h

theorem channelOperand_sound (ho : (wordOpc w).toNat = 0x34) {v : Nat} (hv : v < 4) (hi : wordImm w = v)
    (hw : opWord 0x34 0 v = w) : SoundAnswer w (channelOperand v) := by
  interval_cases v
  · exact ⟨rfl, hw⟩
  · exact ⟨rfl, hw⟩
  · exact ⟨rfl, hw⟩
  · exact .inr (.inr (.inr (.inl ⟨BitVec.eq_of_toNat_eq ho, hi⟩)))

theorem fieldOperand_sound {v : Nat} (hv : v < 4) (hw : opWord 0x36 0 v = w) :
    SoundAnswer w (fieldOperand v) := by
  interval_cases v <;> exact ⟨rfl, hw⟩

theorem roleOperand_sound {mk : Role → Instr} (hi : ∀ r, (mk r).wellFormed = true)
    (he : ∀ r, encode (mk r) = opWord opc 0 r.code) {v : Nat} (hv : v < 4) (hw : opWord opc 0 v = w) :
    SoundAnswer w (roleOperand mk v) := by
  interval_cases v <;> exact ⟨hi _, (he _).trans hw⟩

theorem stageLegal_eq_false_iff {hs : wordStg w < 16} :
    stageLegal ⟨wordStg w, hs⟩ = false ↔ wordStg w = 0 ∨ 12 ≤ wordStg w := by
  simp only [stageLegal, Bool.and_eq_false_iff, decide_eq_false_iff_not]
  omega

/-- R109, R112 (c): a stage outside 1..11, in the word of `BFLY` or `STAGE`. -/
theorem illegalWord_of_stage (ho : wordOpc w = 0x15 ∨ wordOpc w = 0x16) (hs : wordStg w < 16)
    (h : stageLegal ⟨wordStg w, hs⟩ = false) : IllegalWord w :=
  .inr (.inr (.inr (.inr (.inl ⟨ho, stageLegal_eq_false_iff.mp h⟩))))

theorem decodeBfly_sound (ho : (wordOpc w).toNat = 0x15) : SoundAnswer w (decodeBfly w) := by
  have hopc : wordOpc w = 0x15 := BitVec.eq_of_toNat_eq ho
  have fixedZero (h : ¬ (wordRsv w = 0 ∧ wordImm w < 2048)) : IllegalWord w :=
    illegalWord_of_not_rowMatches (mask := 0xFF0FF800) ho (by decide) fun hm => by
      have run := run_eq_zero_of_rowMatches (start := 11) (len := 9) hm (by decide) (by decide)
      rw [wordRsv_eq, wordImm_eq] at h
      omega
  unfold decodeBfly
  split
  next h =>
    split
    next hz =>
      refine legalOnly_sound (by simpa [encode, ho] using opWord_fields hz) fun hn => ?_
      rcases Bool.and_eq_false_iff.mp hn with hs | hp
      · exact illegalWord_of_stage (.inl hopc) h.1 hs
      · exact .inr (.inr (.inr (.inr (.inr ⟨hopc, by simpa [pairLegal] using hp⟩))))
    next hz => exact fixedZero fun ⟨hz', _⟩ => hz hz'
  next h => exact fixedZero fun ⟨_, hi⟩ => h ⟨wordStg_lt w, hi⟩

theorem decodeStage_sound (ho : (wordOpc w).toNat = 0x16) : SoundAnswer w (decodeStage w) := by
  rw [decodeStage, dif_pos (wordStg_lt w)]
  split
  next h =>
    obtain ⟨hz, hi⟩ := h
    exact legalOnly_sound (by simpa [encode, ho, hi] using opWord_fields hz)
      (illegalWord_of_stage (.inr (BitVec.eq_of_toNat_eq ho)) (wordStg_lt w))
  next h =>
    refine illegalWord_of_not_rowMatches (mask := 0xFF0FFFFF) ho (by decide) fun hm => h ?_
    have run := run_eq_zero_of_rowMatches (start := 0) (len := 20) hm (by decide) (by decide)
    rw [wordRsv_eq, wordImm_eq]
    omega

end Sound

/-- R111: each branch of the decoder answers soundly; the branches are numbered as the rows of R109. -/
theorem decode_sound (w : Word) : SoundAnswer w (decode w) := by
  unfold decode
  split
  case h_4 h | h_5 h | h_7 h =>
    exact decodeImm_sound h (by decide) (by decide) fun v hv _ hw => indexOperand_sound hv (fun _ => rfl) hw
  case h_9 h => exact decodeBfly_sound h
  case h_10 h => exact decodeStage_sound h
  case h_12 h => exact decodeImm_sound h (by decide) (by decide) fun _ => magOperand_sound h
  case h_19 h => exact decodeImm_sound h (by decide) (by decide) fun _ => channelOperand_sound h
  case h_21 h => exact decodeImm_sound h (by decide) (by decide) fun v hv _ => fieldOperand_sound hv
  case h_23 h | h_24 h =>
    exact decodeImm_sound h (by decide) (by decide) fun v hv _ => roleOperand_sound (fun _ => rfl) (fun _ => rfl) hv
  case h_26 =>
    refine .inl fun row hr ho => ?_
    have hmem : (wordOpc w).toNat ∈ opcodeRows.map fun row => (wordOpc row.2).toNat :=
      List.mem_map.mpr ⟨row, hr, by rw [ho]⟩
    rw [opcodeRows_codes] at hmem
    simp_all
  all_goals exact decodePlain_sound ‹_› (by decide) rfl rfl

theorem decode_eq_ok_iff {w : Word} {i : Instr} : decode w = .ok i ↔ i.wellFormed = true ∧ encode i = w := by
  constructor
  · intro hd
    have hsound := decode_sound w
    rwa [hd] at hsound
  · rintro ⟨hi, rfl⟩
    exact decode_encode hi

/-! ### Illegal words -/

section RowOf
open Laws.OpcodeRow

theorem rowMatches_encode : ∀ i : Instr, Statement i
  | .rdblk => rdblk | .cycle => cycle | .halt => halt | .decs i => decs i | .norm i => norm i | .ldx => ldx
  | .twrd k => twrd k | .brev => brev | .bfly g p => bfly g p | .stage g => stage g | .rfft => rfft
  | .mag k => mag k | .db => db | .peak => peak | .freq => freq | .hue => hue | .bri => bri | .hsv => hsv
  | .chfin c => chfin c | .pack => pack | .unpk f => unpk f | .gate => gate | .fbld r => fbld r
  | .fwr r => fwr r | .tx => tx

theorem rowOf_lt (i : Instr) : rowOf i < opcodeRows.length := by
  rw [show opcodeRows.length = 25 from rfl]
  cases i <;> simp [rowOf]

/-- R110: the word of an operation that the decoder answers matches a row of the opcode table. -/
theorem exists_rowMatches_of_decode {w : Word} {i : Instr} (hd : decode w = .ok i) :
    ∃ row ∈ opcodeRows, rowMatches w row = true := by
  obtain ⟨hi, rfl⟩ := decode_eq_ok_iff.mp hd
  have hrow := List.getD_eq_getElem opcodeRows (0, 0) (rowOf_lt i)
  exact ⟨_, List.getElem_mem (rowOf_lt i), hrow ▸ rowMatches_encode i hi⟩

end RowOf

section OperandRange
variable {w : Word} (j : Instr)

theorem legalOnly_ne_ok {i : Instr} (h : i.wellFormed = false) : legalOnly i ≠ .ok j := by
  simp [legalOnly, h]

theorem decodeImm_ne_ok {bits : Nat} {mk : Nat → Except Illegal Instr} (h : mk (wordImm w) ≠ .ok j) :
    decodeImm w bits mk ≠ .ok j := by
  unfold decodeImm
  split
  · exact h
  · simp

theorem magOperand_ne_ok {v : Nat} (h : 1024 < v) : magOperand v ≠ .ok j := by
  unfold magOperand
  split
  · exact legalOnly_ne_ok j (by simpa [Instr.wellFormed] using h)
  · simp

theorem decodeBfly_ne_ok (h : ∀ hs hi, (Instr.bfly ⟨wordStg w, hs⟩ ⟨wordImm w, hi⟩).wellFormed = false) :
    decodeBfly w ≠ .ok j := by
  unfold decodeBfly
  split
  · split
    · exact legalOnly_ne_ok j (h _ _)
    · simp
  · simp

theorem decodeStage_ne_ok (h : ∀ hs, (Instr.stage ⟨wordStg w, hs⟩).wellFormed = false) :
    decodeStage w ≠ .ok j := by
  unfold decodeStage
  split
  · split
    · exact legalOnly_ne_ok j (h _)
    · simp
  · simp

/-- R112: the decoder gives no operation for an illegal word. -/
theorem decode_ne_ok_of_illegalWord (h : IllegalWord w) : decode w ≠ .ok j := by
  rcases h with hres | ⟨row, hr, ho, hm⟩ | ⟨ho, hi⟩ | ⟨ho, hi⟩ | ⟨ho | ho, hs⟩ | ⟨ho, hp⟩
  · intro hd
    obtain ⟨row, hr, hm⟩ := exists_rowMatches_of_decode hd
    exact hres row hr (wordOpc_of_rowMatches hr hm)
  · intro hd
    obtain ⟨row', hr', hm'⟩ := exists_rowMatches_of_decode hd
    have hrow : row' = row := opcodeRows_opc_inj hr' hr ((wordOpc_of_rowMatches hr' hm').symm.trans ho)
    rw [← hrow, hm'] at hm
    contradiction
  · simpa [decode, ho] using decodeImm_ne_ok j (magOperand_ne_ok j hi)
  · simpa [decode, ho] using decodeImm_ne_ok j (by simp [channelOperand, hi])
  · simpa [decode, ho] using decodeBfly_ne_ok j fun _ _ => by simp [Instr.wellFormed, stageLegal_eq_false_iff.mpr hs]
  · simpa [decode, ho] using decodeStage_ne_ok j fun _ => stageLegal_eq_false_iff.mpr hs
  · simpa [decode, ho] using decodeBfly_ne_ok j fun _ _ => by simp [Instr.wellFormed, pairLegal, hp]

end OperandRange

theorem decode_refuses_iff {w : Word} : (∃ e, decode w = .error e) ↔ IllegalWord w := by
  constructor
  · rintro ⟨e, he⟩
    have hsound := decode_sound w
    rwa [he] at hsound
  · intro h
    cases hd : decode w with
    | error e => exact ⟨e, rfl⟩
    | ok i => exact absurd hd (decode_ne_ok_of_illegalWord i h)

theorem not_illegalWord_encode {i : Instr} (h : i.wellFormed = true) : ¬ IllegalWord (encode i) :=
  fun hw => decode_ne_ok_of_illegalWord i hw (decode_encode h)

/-- Settles O2: the decoder's answer to the word says which of the two cases holds. -/
theorem everyWordIsOneOperationOrIllegal : Obligations.EveryWordIsOneOperationOrIllegal := by
  refine ⟨fun w => ?_, fun w a ha b hb => row_eq_of_rowMatches ha hb⟩
  cases hd : decode w with
  | error e =>
    have hw : IllegalWord w := decode_refuses_iff.mp ⟨e, hd⟩
    refine .inl ⟨hw, ?_⟩
    rintro i hi rfl
    exact not_illegalWord_encode hi hw
  | ok i =>
    obtain ⟨hi, he⟩ := decode_eq_ok_iff.mp hd
    refine .inr ⟨he ▸ not_illegalWord_encode hi, i, hi, he, rfl, fun j hj hw => ?_⟩
    have hj' := decode_eq_ok_iff.mpr ⟨hj, hw⟩
    exact Except.ok.inj (hj'.symm.trans hd)

/-! ### Refusal at a step -/

theorem step_of_illegalWord {s : State} (h : IllegalWord (nextWord s)) (hr : s.resetReq = false) :
    step s = .refused (.illegalOp (nextWord s)) := by
  obtain ⟨e, he⟩ := decode_refuses_iff.mpr h
  simp [step, hr, he]

theorem sequencerOp_wellFormed (s : State) : (sequencerOp s).wellFormed = true := by
  have hmap : ∀ p, (mapProgram p).wellFormed = true := by decide
  unfold sequencerOp
  split
  case h_5 => exact hmap s.pos
  all_goals rfl

theorem nextWord_of_opReq_none {s : State} (h : s.opReq = none) : nextWord s = encode (sequencerOp s) := by
  rw [nextWord, h]

/-- R112 (c): only `BFLY`, `STAGE` and `MAG` have operands that their types let out of range. -/
theorem exec_of_not_wellFormed {i : Instr} (s : State) (h : i.wellFormed = false) :
    exec i s = .refused (.illegalOp (encode i)) := by
  cases i with
  | bfly g p => simp [exec, execBfly, h]
  | stage g => simp [exec, execStage, h]
  | mag k => simp [exec, execMag, h]
  | _ => simp [Instr.wellFormed] at h

/-- Settles O3: the decoder refuses exactly the illegal words, and the sequencer's operations are well formed. -/
theorem illegalWordsAreRefused : Obligations.IllegalWordsAreRefused := by
  refine ⟨fun w => decode_refuses_iff, ?_, fun s hs => ?_, fun i s => exec_of_not_wellFormed s⟩
  · rintro w s hw hr rfl
    exact step_of_illegalWord hw hr
  · rw [nextWord_of_opReq_none hs]
    exact not_illegalWord_encode (sequencerOp_wellFormed s)

end Sys2Proof
end

section
/-! Exact results of the binary64 operations (00_scope.md R11): a sum, product or quotient whose exact value is
representable is that value, with a sign of zero of its own where the value is 0. -/

namespace Sys2Proof

/-- The value is finite, and a signed number `z` of units `2^-1074`.  Both zeros have 0 units. -/
def F64.HasUnits (x : F64) (z : Int) : Prop := ∃ s e f, x = .fin s e f ∧ F64.signed s e f = z

/-- A number of units that a finite binary64 value has. -/
def F64.Representable (n : Nat) : Prop := ∃ m j, m < 2 ^ 53 ∧ j ≤ 2045 ∧ n = m * 2 ^ j

namespace F64

@[simp] theorem neg_neg (x : F64) : x.neg.neg = x := by
  cases x <;> simp [neg]

theorem representable_zero : Representable 0 := ⟨0, 0, by norm_num, by norm_num, by norm_num⟩

theorem representable_mul_pow {z : Int} {j : Nat} (hz : z.natAbs < 2 ^ 53) (hj : j ≤ 2045) :
    Representable (z * 2 ^ j).natAbs :=
  ⟨z.natAbs, j, hz, hj, by rw [Int.natAbs_mul, Int.natAbs_pow]; rfl⟩

theorem representable_units (e : Fin 2047) (f : BitVec 52) : Representable (units e f) := by
  have hf := f.isLt
  unfold units
  split
  · exact ⟨f.toNat, 0, by omega, by omega, by omega⟩
  · exact ⟨2 ^ 52 + f.toNat, e.val - 1, by omega, by omega, rfl⟩

@[simp] theorem natAbs_signed (s : Bool) (e : Fin 2047) (f : BitVec 52) : (signed s e f).natAbs = units e f := by
  cases s <;> simp [signed]

theorem units_eq_zero {e : Fin 2047} {f : BitVec 52} (h : units e f = 0) : e = 0 ∧ f = 0 := by
  unfold units at h
  split at h
  next he => exact ⟨Fin.ext he, BitVec.eq_of_toNat_eq h⟩
  next => simp at h

/-- One rounding of a ratio whose exact value has a representable number `z` of units. -/
theorem hasUnits_ofRatio {neg : Bool} {n d : Nat} {z : Int} (hd : 0 < d) (hz : Representable z.natAbs)
    (h : (if neg then -(n : Int) else n) * 2 ^ unitExp = z * d) : (ofRatio neg n d).HasUnits z := by
  obtain ⟨m, j, hm, hj, hmj⟩ := hz
  have hlt : m * 2 ^ j < 2 ^ (1024 + unitExp) :=
    calc m * 2 ^ j < 2 ^ 53 * 2 ^ j := by gcongr
      _ ≤ 2 ^ 53 * 2 ^ 2045 := by gcongr; norm_num
      _ = 2 ^ (1024 + unitExp) := by rw [← pow_add, unitExp]
  have habs : n * 2 ^ unitExp = m * 2 ^ j * d := by
    have hn := congrArg Int.natAbs h
    rw [Int.natAbs_mul, Int.natAbs_mul, hmj] at hn
    cases neg <;> simpa [Int.natAbs_pow] using hn
  obtain ⟨e, f, hx, hu⟩ := ofRatio_exact neg hd hm.le hlt habs
  refine ⟨neg, e, f, hx, ?_⟩
  rw [signed, hu, ← hmj]
  have hpos : (0 : Int) < d := by exact_mod_cast hd
  have hpow : (0 : Int) < 2 ^ unitExp := by positivity
  generalize (2 : Int) ^ unitExp = u at h hpow
  cases neg with
  | false =>
    rw [if_neg Bool.false_ne_true] at h ⊢
    have hz : 0 ≤ z * d := by
      rw [← h]
      exact mul_nonneg (Int.natCast_nonneg n) hpow.le
    rw [Int.natAbs_of_nonneg (nonneg_of_mul_nonneg_left hz hpos)]
  | true =>
    rw [if_pos rfl] at h ⊢
    have hz : z * d ≤ 0 := by
      rw [← h, Int.neg_mul]
      exact neg_nonpos.mpr (mul_nonneg (Int.natCast_nonneg n) hpow.le)
    rw [Int.ofNat_natAbs_of_nonpos (nonpos_of_mul_nonpos_left hz hpos), Int.neg_neg]

theorem hasUnits_ofUnits {neg : Bool} {z : Int} (hz : Representable z.natAbs) : (ofUnits neg z).HasUnits z := by
  refine hasUnits_ofRatio (by positivity) hz ?_
  rw [Nat.cast_pow, Nat.cast_ofNat]
  congr 1
  by_cases h0 : z = 0
  · simp [h0]
  · simp only [h0, if_false, decide_eq_true_eq]
    split <;> omega

namespace HasUnits
variable {x y : F64} {a b c : Int}

theorem representable (hx : x.HasUnits a) : Representable a.natAbs := by
  obtain ⟨s, e, f, rfl, rfl⟩ := hx
  rw [natAbs_signed]
  exact representable_units e f

/-- A value of 0 units is a zero. -/
theorem isZero (hx : x.HasUnits 0) : x = zero ∨ x = negZero := by
  obtain ⟨s, e, f, rfl, h⟩ := hx
  have hu : units e f = 0 := by rw [← natAbs_signed s, h, Int.natAbs_zero]
  obtain ⟨rfl, rfl⟩ := units_eq_zero hu
  cases s
  · exact .inl rfl
  · exact .inr rfl

theorem neg (hx : x.HasUnits a) : x.neg.HasUnits (-a) := by
  obtain ⟨s, e, f, rfl, rfl⟩ := hx
  exact ⟨!s, e, f, rfl, by cases s <;> simp [signed]⟩

theorem add (hx : x.HasUnits a) (hy : y.HasUnits b) (h : Representable (a + b).natAbs) :
    (x.add y).HasUnits (a + b) := by
  obtain ⟨s, e, f, rfl, rfl⟩ := hx
  obtain ⟨t, g, k, rfl, rfl⟩ := hy
  exact hasUnits_ofUnits h

theorem sub (hx : x.HasUnits a) (hy : y.HasUnits b) (h : Representable (a - b).natAbs) :
    (x.sub y).HasUnits (a - b) :=
  hx.add hy.neg h

theorem signed_mul (s t : Bool) (e g : Fin 2047) (f k : BitVec 52) :
    (if s ^^ t then -((units e f * units g k : Nat) : Int) else (units e f * units g k : Nat)) =
      signed s e f * signed t g k := by
  cases s <;> cases t <;> simp [signed]

/-- A product of `c` units: `a * b` units of `2^-2148`. -/
theorem mul (hx : x.HasUnits a) (hy : y.HasUnits b) (hc : Representable c.natAbs)
    (h : a * b = c * 2 ^ unitExp) : (x.mul y).HasUnits c := by
  obtain ⟨s, e, f, rfl, rfl⟩ := hx
  obtain ⟨t, g, k, rfl, rfl⟩ := hy
  refine hasUnits_ofRatio (by positivity) hc ?_
  rw [signed_mul, h]
  push_cast
  ring

theorem mul_zero (hx : x.HasUnits a) (hy : y.HasUnits 0) : (x.mul y).HasUnits 0 :=
  hx.mul hy representable_zero (by simp)

theorem zero_mul (hx : x.HasUnits 0) (hy : y.HasUnits b) : (x.mul y).HasUnits 0 :=
  hx.mul hy representable_zero (by simp)

/-- A product with 1. -/
theorem one_mul (hx : x.HasUnits (2 ^ unitExp)) (hy : y.HasUnits b) : (x.mul y).HasUnits b :=
  hx.mul hy hy.representable (mul_comm _ _)

/-- A quotient of `c` units. -/
theorem div (hx : x.HasUnits a) (hy : y.HasUnits b) (hb : b ≠ 0) (hc : Representable c.natAbs)
    (h : a * 2 ^ unitExp = c * b) : (x.div y).HasUnits c := by
  obtain ⟨s, e, f, rfl, rfl⟩ := hx
  obtain ⟨t, g, k, rfl, rfl⟩ := hy
  have hu : units g k ≠ 0 := by rwa [← natAbs_signed t, Int.natAbs_ne_zero]
  rw [F64.div, if_neg hu]
  refine hasUnits_ofRatio (Nat.pos_of_ne_zero hu) hc ?_
  cases s <;> cases t <;> simp [signed] at h ⊢ <;> linarith

end HasUnits

theorem hasUnits_zero : zero.HasUnits 0 := ⟨false, 0, 0, rfl, by decide +kernel⟩

/-- An integer of at most 53 bits is exact (R11). -/
theorem hasUnits_ofInt {z : Int} (hz : z.natAbs < 2 ^ 53) : (ofInt z).HasUnits (z * 2 ^ unitExp) := by
  refine hasUnits_ofRatio one_pos (representable_mul_pow hz (by decide)) ?_
  rcases lt_or_ge z 0 with hneg | hpos
  · simp [hneg, abs_of_neg hneg]
  · simp [hpos.not_gt, abs_of_nonneg hpos]

theorem hasUnits_ofNat {n : Nat} (hn : n < 2 ^ 53) : (ofNat n).HasUnits (n * 2 ^ unitExp) :=
  hasUnits_ofInt (z := n) hn

end F64
end Sys2Proof
end

section
/-! The operations of the transform as `exec` runs them, loops over an interval of indices, and the frame of an
operation that writes some of the elements. -/

namespace Sys2Proof.Machine

section Exec
variable (s : State)

theorem exec_decs (i : Fin 2048) : exec (.decs i) s = (decsOp i.val s).outcome := rfl

theorem exec_norm (i : Fin 2048) : exec (.norm i) s = (normOp i.val s).outcome := rfl

theorem exec_ldx : exec .ldx s = (ldxOp s).outcome := rfl

theorem exec_brev : exec .brev s = (brevOp s).outcome := rfl

theorem exec_rfft : exec .rfft s = (networkOp s).outcome := rfl

theorem exec_stage {g : Fin 16} (h1 : 1 ≤ g.val) (h11 : g.val ≤ 11) :
    exec (.stage g) s = (stageOp g.val s).outcome :=
  if_pos (by simp [Instr.wellFormed, stageLegal, h1, h11])

theorem exec_bfly {g : Fin 16} {p : Fin 2048} (h1 : 1 ≤ g.val) (h11 : g.val ≤ 11)
    (hp : p.val % 2 ^ g.val < 2 ^ (g.val - 1)) : exec (.bfly g p) s = (bflyOp g.val p.val s).outcome :=
  if_pos (by simp [Instr.wellFormed, stageLegal, pairLegal, h1, h11, hp])

end Exec

/-- The first round of a loop faults. -/
theorem forEach_cons_error {body : Nat → State → Res} {i : Nat} {rest : List Nat} {s : State} {f : Fault}
    (h : body i s = .error f) : forEach body (i :: rest) s = .error f := by
  rw [forEach, h]

/-- A loop over `a, a + 1, ..., a + n - 1` with an invariant `P i` before round `i` answers, and ends with the
invariant. -/
theorem forEach_range'_answers {body : Nat → State → Res} {P : Nat → State → Prop} {a n : Nat} {s : State}
    (round : ∀ i u, a ≤ i → i < a + n → P i u → ∃ v, body i u = .ok v ∧ P (i + 1) v) (hs : P a s) :
    ∃ t, forEach body (List.range' a n) s = .ok t ∧ P (a + n) t := by
  induction n generalizing a s with
  | zero => exact ⟨s, rfl, hs⟩
  | succ n ih =>
    obtain ⟨u, hu, hP⟩ := round a s le_rfl (by omega) hs
    obtain ⟨t, ht, hPt⟩ := ih (fun i v hi hn => round i v (by omega) (by omega)) hP
    refine ⟨t, ?_, by rwa [Nat.add_right_comm] at hPt⟩
    rw [List.range'_succ, forEach_cons_eq_ok]
    exact ⟨u, hu, ht⟩

/-- The same for a loop from 0. -/
theorem forEach_range_answers {body : Nat → State → Res} {P : Nat → State → Prop} {n : Nat} {s : State}
    (round : ∀ i u, i < n → P i u → ∃ v, body i u = .ok v ∧ P (i + 1) v) (hs : P 0 s) :
    ∃ t, forEach body (List.range n) s = .ok t ∧ P n t := by
  rw [List.range_eq_range']
  simpa using forEach_range'_answers (P := P) (a := 0) (n := n) (fun i u _ hi => round i u (by omega)) hs

/-- A loop from 0 faults at round `j` when the rounds before it answer and round `j` faults. -/
theorem forEach_range_error {body : Nat → State → Res} {P : Nat → State → Prop} {n j : Nat} {s : State} {f : Fault}
    (hj : j < n) (round : ∀ i u, i < j → P i u → ∃ v, body i u = .ok v ∧ P (i + 1) v) (hs : P 0 s)
    (stop : ∀ u, P j u → body j u = .error f) : forEach body (List.range n) s = .error f := by
  obtain ⟨m, rfl⟩ := Nat.exists_eq_add_of_lt hj
  obtain ⟨t, ht, hP⟩ := forEach_range_answers round hs
  rw [Nat.add_assoc, List.range_add, forEach_append, ht, Res.andThen_ok, List.range_succ_eq_map, List.map_cons]
  exact forEach_cons_error (stop t hP)

section Frame
variable (s : State)

theorem frame_smp_x (smp : Reg (BitVec 16)) (x : Memory F64) :
    s.frame [.smp, .x] { s with smp := smp, xBuf := x } :=
  ⟨fun p hp => by cases p <;> simp_all [State.agree], rfl, rfl, rfl⟩

theorem frame_a (a : Memory Cplx) : s.frame [.a] { s with aBuf := a } :=
  ⟨fun p hp => by cases p <;> simp_all [State.agree], rfl, rfl, rfl⟩

theorem frame_twv_a (twv : Reg Cplx) (a : Memory Cplx) : s.frame [.twv, .a] { s with twv := twv, aBuf := a } :=
  ⟨fun p hp => by cases p <;> simp_all [State.agree], rfl, rfl, rfl⟩

end Frame

end Sys2Proof.Machine
end

section
/-! Samples (40_fft.md R140 to R144): two bytes and their signed value, the exact transform input, and the loop
that loads the whole input. -/

namespace Sys2Proof.Machine

/-! ### Sample values (R140, R141) -/

theorem toNat_sample16 (lo hi : Byte) : (sample16 lo hi).toNat = lo.toNat + 256 * hi.toNat := by
  have hlo := lo.isLt
  rw [sample16, BitVec.toNat_append, ← Nat.shiftLeft_add_eq_or_of_lt hlo, Nat.shiftLeft_eq]
  omega

theorem toInt_sample16 (lo hi : Byte) : (sample16 lo hi).toInt = sampleValue lo hi := by
  rw [BitVec.toInt_eq_toNat_cond, toNat_sample16, sampleValue]
  split <;> split <;> omega

theorem sample16_injective {lo hi lo' hi' : Byte} (h : sample16 lo hi = sample16 lo' hi') : lo = lo' ∧ hi = hi' := by
  have hn := congrArg BitVec.toNat h
  rw [toNat_sample16, toNat_sample16] at hn
  have hlo := lo.isLt
  have hlo' := lo'.isLt
  exact ⟨BitVec.eq_of_toNat_eq (by omega), BitVec.eq_of_toNat_eq (by omega)⟩

theorem exists_sample16 (v : BitVec 16) : ∃ lo hi, sample16 lo hi = v := by
  refine ⟨v.extractLsb' 0 8, v.extractLsb' 8 8, BitVec.eq_of_toNat_eq ?_⟩
  have hv := v.isLt
  rw [toNat_sample16]
  simp only [BitVec.extractLsb'_toNat, Nat.shiftRight_eq_div_pow]
  omega

/-! ### DECS (R140) -/

variable {s : State} {lo hi : Byte}

theorem decsOp_of_read {i : Nat} (hlo : s.blk.read (2 * i) = some lo) (hhi : s.blk.read (2 * i + 1) = some hi) :
    decsOp i s = .ok { s with smp := Reg.put (sample16 lo hi) } :=
  decsOp_eq_ok.mpr ⟨lo, hi, hlo, hhi, rfl⟩

theorem decsOp_of_unwritten {i : Nat} (h : s.blk.read (2 * i) = none) :
    decsOp i s = .error (.unwrittenRead (opWord 0x10 0 i) .blk (2 * i)) := by
  rw [decsOp, Memory.fetch_eq_error.mpr ⟨h, rfl⟩]
  rfl

/-- Settles O31: a sample is the 16-bit word of its two bytes, and words and byte pairs correspond. -/
theorem decsReadsLittleEndianSample : Obligations.DecsReadsLittleEndianSample := by
  refine ⟨fun s i lo hi hlo hhi => ⟨sample16 lo hi, ?_, toInt_sample16 lo hi⟩, fun s i h => ?_, fun lo hi => ?_,
    fun z hz hz' => ?_⟩
  · rw [exec_decs, Res.outcome_eq_next]
    exact decsOp_of_read hlo hhi
  · rw [exec_decs, Res.outcome_eq_fault]
    exact decsOp_of_unwritten h
  · have hle := BitVec.le_toInt (sample16 lo hi)
    have hlt := BitVec.toInt_lt (x := sample16 lo hi)
    rw [toInt_sample16] at hle hlt
    omega
  · obtain ⟨lo, hi, hv⟩ := exists_sample16 (BitVec.ofInt 16 z)
    have hval : sampleValue lo hi = z := by
      rw [← toInt_sample16, hv]
      exact BitVec.toInt_ofInt_eq_self (by decide) (by omega) (by omega)
    refine ⟨lo, hi, hval, fun lo' hi' h => sample16_injective (BitVec.eq_of_toInt_eq ?_)⟩
    rw [toInt_sample16, toInt_sample16, h, hval]

/-! ### NORM (R142) -/

open F64 in
/-- R142: the transform input of a sample `v` is exactly `v / 32768`, which is `v * 2^1059` units. -/
theorem hasUnits_normalise (v : BitVec 16) : (normalise v).HasUnits (v.toInt * 2 ^ 1059) := by
  have hle := BitVec.le_toInt v
  have hlt := BitVec.toInt_lt (x := v)
  have hpow : (2 : Int) ^ unitExp = 2 ^ 15 * 2 ^ 1059 := by rw [← pow_add, unitExp]
  refine (hasUnits_ofInt (z := 2 * v.toInt) (by omega)).div (hasUnits_ofNat (n := 65536) (by norm_num))
    (by positivity) (representable_mul_pow (by omega) (by norm_num)) ?_
  generalize (2 : Int) ^ unitExp = u at hpow ⊢
  generalize (2 : Int) ^ 1059 = w at hpow ⊢
  subst hpow
  push_cast
  ring

theorem normalise_zero : normalise 0 = F64.zero := by decide +kernel

theorem normOp_of_read {i : Nat} (hlo : s.blk.read (2 * i) = some lo) (hhi : s.blk.read (2 * i + 1) = some hi) :
    normOp i s = .ok { s with smp := Reg.put (sample16 lo hi), xBuf := s.xBuf.write i (sampleInput lo hi) } :=
  normOp_eq_ok.mpr ⟨lo, hi, hlo, hhi, rfl⟩

theorem normOp_of_unwritten {i : Nat} (h : s.blk.read (2 * i) = none) :
    normOp i s = .error (.unwrittenRead (opWord 0x10 0 i) .blk (2 * i)) := by
  rw [normOp, decsOp_of_unwritten h]
  rfl

/-- Settles O32: both roundings of R142 are exact. -/
theorem normWritesExactFraction : Obligations.NormWritesExactFraction := by
  simp only [Obligations.NormWritesExactFraction, exec_norm, Res.outcome_eq_next, Res.outcome_eq_fault]
  refine ⟨fun s i lo hi hlo hhi => ?_, fun s i h => ⟨_, normOp_of_unwritten h⟩⟩
  refine ⟨sample16 lo hi, sampleInput lo hi, normOp_of_read hlo hhi, toInt_sample16 lo hi, rfl, ?_, fun hv => ?_⟩
  · obtain ⟨neg, e, f, hx, hz⟩ := hasUnits_normalise (sample16 lo hi)
    refine ⟨neg, e, f, hx, ?_⟩
    have hpow : (2 : Int) ^ F64.unitExp = 2 ^ 1059 * 2 ^ 15 := by rw [← pow_add, F64.unitExp]
    rw [hz, hpow, mul_assoc]
    norm_num
  · rw [sampleInput, hv, normalise_zero]

/-! ### LDX (R143, R144) -/

/-- What `LDX` has done to the state `s` before round `i`: the inputs below `i` are loaded. -/
def Loaded (b : Nat → Byte) (s : State) (i : Nat) (u : State) : Prop :=
  u = { s with smp := u.smp, xBuf := u.xBuf } ∧
  (∀ n, u.xBuf.read n = if n < i then some (sampleInput (b (2 * n)) (b (2 * n + 1))) else s.xBuf.read n) ∧
  (0 < i → u.smp = Reg.put (sample16 (b (2 * (i - 1))) (b (2 * (i - 1) + 1))))

theorem normOp_loads {b : Nat → Byte} (hb : s.blk.Holds 4096 b) {i : Nat} {u : State} (hi : i < 2048)
    (hu : Loaded b s i u) : ∃ v, normOp i u = .ok v ∧ Loaded b s (i + 1) v := by
  obtain ⟨hstate, hx, -⟩ := hu
  have hblk : u.blk = s.blk := by rw [hstate]
  refine ⟨_, normOp_of_read (hblk ▸ hb (2 * i) (by omega)) (hblk ▸ hb (2 * i + 1) (by omega)), ?_, fun n => ?_,
    fun _ => rfl⟩
  · rw [hstate]
  · rw [Memory.read_write, hx]
    grind

theorem ldxOp_answers {b : Nat → Byte} (hb : s.blk.Holds 4096 b) : ∃ t, ldxOp s = .ok t ∧ Loaded b s 2048 t :=
  forEach_range_answers (fun _ _ hi hu => normOp_loads hb hi hu) ⟨rfl, fun _ => rfl, nofun⟩

theorem ldxOp_of_unwritten (h : s.blk.read 0 = none) :
    ldxOp s = .error (.unwrittenRead (opWord 0x10 0 0) .blk 0) := by
  rw [ldxOp, List.range_succ_eq_map (n := 2047)]
  exact forEach_cons_error (normOp_of_unwritten h)

/-- Settles O33: the loop of `NORM` loads the inputs in order. -/
theorem ldxLoadsEverySample : Obligations.LdxLoadsEverySample := by
  simp only [Obligations.LdxLoadsEverySample, exec_ldx, Res.outcome_eq_next, Res.outcome_eq_fault]
  refine ⟨fun s b hb => ?_, fun s h => ⟨_, ldxOp_of_unwritten h⟩⟩
  obtain ⟨t, ht, hstate, hx, hsmp⟩ := ldxOp_answers hb
  refine ⟨t, ht, fun n hn => ?_, fun i hi => ?_, hsmp (by omega), ?_⟩
  · rw [hx, if_pos hn]
  · rw [hx, if_neg (by omega)]
  · rw [hstate]
    exact frame_smp_x s t.smp t.xBuf

end Sys2Proof.Machine
end

section
/-! The twiddle ROM (40_fft.md R146, R147): its symmetries, and that every part of an entry is finite. -/

namespace Sys2Proof
open Machine

theorem twiddle_zero : Rom.twiddle 0 = ⟨F64.ofNat 1, F64.zero⟩ := by decide +kernel

theorem twiddle_512 : Rom.twiddle 512 = ⟨F64.zero, (F64.ofNat 1).neg⟩ := by decide +kernel

/-- R146: `TW[1024-k].re = -TW[k].re`, but for the zero at 512. -/
theorem twiddleRe_mirror {k : Nat} (hk : k ≤ 1023) (h : k ≠ 512) :
    Rom.twiddleRe (1024 - k) = (Rom.twiddleRe k).neg := by
  unfold Rom.twiddleRe
  rcases Nat.lt_or_gt_of_ne h with hlt | hgt
  · rw [if_neg (by omega), if_pos hlt.le, Nat.sub_sub_self (by omega)]
  · rw [if_pos (by omega), if_neg (by omega), F64.neg_neg]

/-- R146: `TW[1024-k].im = TW[k].im`. -/
theorem twiddleIm_mirror {k : Nat} (h0 : 1 ≤ k) (hk : k ≤ 1023) : Rom.twiddleIm (1024 - k) = Rom.twiddleIm k := by
  unfold Rom.twiddleIm
  rw [if_neg (show 1024 - k ≠ 0 by omega), if_neg (show k ≠ 0 by omega)]
  rcases Nat.lt_trichotomy k 512 with hlt | rfl | hgt
  · rw [if_neg (by omega), if_pos hlt.le, show 1024 - k - 512 = 512 - k by omega]
  · rfl
  · rw [if_pos (by omega), if_neg (by omega), show 512 - (1024 - k) = k - 512 by omega]

/-- R146: `TW[512-k] = (-TW[k].im, -TW[k].re)`. -/
theorem twiddle_quarter {k : Nat} (h0 : 1 ≤ k) (hk : k ≤ 511) :
    Rom.twiddle (512 - k) = ⟨(Rom.twiddle k).im.neg, (Rom.twiddle k).re.neg⟩ := by
  simp only [Rom.twiddle, Rom.twiddleRe, Rom.twiddleIm]
  rw [if_pos (by omega), if_neg (by omega), if_pos (by omega), if_neg (by omega), if_pos (by omega),
    if_pos (by omega), F64.neg_neg, Nat.sub_sub_self (by omega)]

/-- Settles O34: the ROM is built from one quarter wave by the symmetries that R146 states. -/
theorem twrdReadsTheSymmetricRom : Obligations.TwrdReadsTheSymmetricRom :=
  ⟨fun _ _ => rfl, twiddle_zero, twiddle_512,
    fun _ h0 hk => ⟨fun h => twiddleRe_mirror hk h, twiddleIm_mirror h0 hk⟩, fun _ h0 hk => twiddle_quarter h0 hk⟩

/-! ### The entries are finite -/

theorem cosines_lt : ∀ n ∈ Rom.cosines, n < 0x7FF0000000000000 := by
  have h : (Rom.cosines.all fun n => decide (n < 0x7FF0000000000000)) = true := by decide +kernel
  simpa using h

theorem ofBits_ofNat_hasUnits {n : Nat} (h : n < 0x7FF0000000000000) :
    ∃ z, (F64.ofBits (BitVec.ofNat 64 n)).HasUnits z := by
  have he : ((BitVec.ofNat 64 n).extractLsb' 52 11).toNat < 2047 := by
    rw [BitVec.extractLsb'_toNat, BitVec.toNat_ofNat, Nat.shiftRight_eq_div_pow]
    omega
  rw [F64.ofBits, dif_pos he]
  exact ⟨_, _, _, _, rfl, rfl⟩

theorem cosine_hasUnits (k : Nat) : ∃ z, (Rom.cosine k).HasUnits z := by
  refine ofBits_ofNat_hasUnits ?_
  rw [List.getD_eq_getElem?_getD]
  cases hk : Rom.cosines[k]? with
  | none => norm_num
  | some n => exact cosines_lt n (List.mem_of_getElem? hk)

theorem neg_cosine_hasUnits (k : Nat) : ∃ z, (Rom.cosine k).neg.HasUnits z :=
  (cosine_hasUnits k).imp' _ fun _ h => h.neg

theorem twiddleRe_hasUnits (k : Nat) : ∃ z, (Rom.twiddleRe k).HasUnits z := by
  unfold Rom.twiddleRe
  split
  · exact cosine_hasUnits k
  · exact neg_cosine_hasUnits _

theorem twiddleIm_hasUnits (k : Nat) : ∃ z, (Rom.twiddleIm k).HasUnits z := by
  unfold Rom.twiddleIm
  split
  · exact ⟨0, F64.hasUnits_zero⟩
  · split
    · exact neg_cosine_hasUnits _
    · exact neg_cosine_hasUnits _

end Sys2Proof
end

section
/-! Bit reversal (40_fft.md R148, R149): the bits of a reversed index, and the loop that loads the working
array. -/

namespace Sys2Proof.Machine

theorem bitrevBits_lt (b j : Nat) : bitrevBits b j < 2 ^ b := by
  induction b generalizing j with
  | zero => simp [bitrevBits]
  | succ b ih =>
    have hr := ih (j / 2)
    rw [bitrevBits, pow_succ]
    rcases Nat.mod_two_eq_zero_or_one j with h | h <;> rw [h] <;> omega

theorem testBit_bitrevBits (b j i : Nat) : (bitrevBits b j).testBit i = (decide (i < b) && j.testBit (b - 1 - i)) := by
  induction b generalizing j with
  | zero => simp [bitrevBits]
  | succ b ih =>
    rw [bitrevBits, Nat.mul_comm, Nat.testBit_two_pow_mul_add _ (bitrevBits_lt b _)]
    rcases Nat.lt_trichotomy i b with hlt | rfl | hgt
    · rw [if_pos hlt, ih, Nat.testBit_div_two, show b - 1 - i + 1 = b + 1 - 1 - i by omega]
      simp [hlt, Nat.lt_succ_of_lt hlt]
    · simp
    · have hbit : 2 ≤ 2 ^ (i - b) := Nat.le_self_pow (by omega) 2
      rw [if_neg (by omega), Nat.testBit_lt_two_pow (by omega)]
      simp [show ¬ i < b + 1 by omega]

theorem bitrev11_lt (j : Nat) : bitrev11 j < 2048 := bitrevBits_lt 11 j

theorem testBit_bitrev11 (j : Nat) {b : Nat} (hb : b ≤ 10) : (bitrev11 j).testBit b = j.testBit (10 - b) := by
  simp [bitrev11, testBit_bitrevBits, Nat.lt_succ_of_le hb]

theorem bitrev11_bitrev11 {j : Nat} (hj : j < 2048) : bitrev11 (bitrev11 j) = j := by
  refine Nat.eq_of_testBit_eq fun i => ?_
  rcases Nat.lt_or_ge 10 i with hi | hi
  · have hpow : 2 ^ 11 ≤ 2 ^ i := Nat.pow_le_pow_right (by norm_num) hi
    rw [Nat.testBit_lt_two_pow ((bitrev11_lt _).trans_le hpow), Nat.testBit_lt_two_pow (hj.trans_le hpow)]
  · rw [testBit_bitrev11 _ hi, testBit_bitrev11 _ (Nat.sub_le 10 i), Nat.sub_sub_self hi]

/-! ### BREV -/

variable {s : State}

/-- What `BREV` has done to the state `s` before round `j`: the elements below `j` are loaded. -/
def ReversedBelow (x : Nat → F64) (s : State) (j : Nat) (u : State) : Prop :=
  u = { s with aBuf := u.aBuf } ∧
  ∀ i, u.aBuf.read i = if i < j then some ⟨x (bitrev11 i), F64.zero⟩ else s.aBuf.read i

theorem brevStep_reverses {x : Nat → F64} (hx : s.xBuf.Holds 2048 x) {j : Nat} {u : State}
    (hu : ReversedBelow x s j u) : ∃ v, brevStep j u = .ok v ∧ ReversedBelow x s (j + 1) v := by
  obtain ⟨hstate, ha⟩ := hu
  have hxBuf : u.xBuf = s.xBuf := by rw [hstate]
  refine ⟨_, brevStep_eq_ok.mpr ⟨_, hxBuf ▸ hx _ (bitrev11_lt j), rfl⟩, ?_, fun i => ?_⟩
  · rw [State.writeA, hstate]
  · rw [State.writeA_aBuf, Memory.read_write, ha]
    grind

theorem brevOp_answers {x : Nat → F64} (hx : s.xBuf.Holds 2048 x) :
    ∃ t, brevOp s = .ok t ∧ ReversedBelow x s 2048 t :=
  forEach_range_answers (fun _ _ _ hu => brevStep_reverses hx hu) ⟨rfl, fun _ => rfl⟩

/-- `BREV` stops at the first `j` whose element of `X` is not written. -/
theorem brevOp_error {j : Nat} (hj : j < 2048) (hnone : s.xBuf.read (bitrev11 j) = none)
    (hsome : ∀ i < j, (s.xBuf.read (bitrev11 i)).isSome = true) :
    brevOp s = .error (.unwrittenRead (opWord 0x14 0 0) .x (bitrev11 j)) := by
  refine forEach_range_error (P := fun _ u => u.xBuf = s.xBuf) hj (fun i u hi hu => ?_) rfl fun u hu => ?_
  · obtain ⟨v, hv⟩ := Option.isSome_iff_exists.mp (hsome i hi)
    exact ⟨_, brevStep_eq_ok.mpr ⟨v, hu ▸ hv, rfl⟩, hu⟩
  · rw [brevStep, Memory.fetch_eq_error.mpr ⟨hu ▸ hnone, rfl⟩]
    rfl

/-- Any unwritten element of `X` is behind a first one in the order of `BREV`. -/
theorem exists_first_unwritten {n : Nat} (hn : n < 2048) (hnone : s.xBuf.read n = none) :
    ∃ j < 2048, s.xBuf.read (bitrev11 j) = none ∧ ∀ i < j, (s.xBuf.read (bitrev11 i)).isSome = true := by
  have hex : ∃ j, s.xBuf.read (bitrev11 j) = none := ⟨bitrev11 n, by rwa [bitrev11_bitrev11 hn]⟩
  have hle : Nat.find hex ≤ bitrev11 n := Nat.find_min' hex (by rwa [bitrev11_bitrev11 hn])
  exact ⟨Nat.find hex, hle.trans_lt (bitrev11_lt n), Nat.find_spec hex,
    fun i hi => Option.isSome_iff_ne_none.mpr (Nat.find_min hex hi)⟩

/-- Settles O36: the loop loads `X` in the order of the reversed index, or stops at the first element that has no
value. -/
theorem brevLoadsReversedInput : Obligations.BrevLoadsReversedInput := by
  simp only [Obligations.BrevLoadsReversedInput, exec_brev, Res.outcome_eq_next, Res.outcome_eq_fault]
  refine ⟨fun s x hx => ?_, fun s n hn hnone => ?_, fun j hj =>
    ⟨bitrev11_lt j, bitrev11_bitrev11 hj, fun b hb => testBit_bitrev11 j hb⟩⟩
  · obtain ⟨t, ht, hstate, ha⟩ := brevOp_answers hx
    refine ⟨t, ht, fun j hj => ?_, fun i hi => ?_, ?_⟩
    · rw [ha, if_pos hj]
    · rw [ha, if_neg (by omega)]
    · rw [hstate]
      exact frame_a s t.aBuf
  · obtain ⟨j, hj, hj', hfirst⟩ := exists_first_unwritten hn hnone
    exact ⟨j, hj, hj', hfirst, brevOp_error hj hj' hfirst⟩

end Sys2Proof.Machine
end

section
/-! The butterfly (40_fft.md R150, R151) and the stage (R152): the pairs of a stage are disjoint, so each butterfly
finds the old values of its pair. -/

namespace Sys2Proof.Machine

variable {g p q : Nat}

/-! ### The pairs of a stage -/

theorem halfGroup_pos (g : Nat) : 0 < halfGroup g := Nat.two_pow_pos _

theorem two_pow_eq_halfGroup (h1 : 1 ≤ g) : 2 ^ g = 2 * halfGroup g := by
  rw [halfGroup, ← pow_succ', Nat.sub_add_cancel h1]

/-- The partner of a position in the lower half of a group is in the upper half, at the same place. -/
theorem add_halfGroup_mod (h1 : 1 ≤ g) (hp : p % 2 ^ g < halfGroup g) :
    (p + halfGroup g) % 2 ^ g = p % 2 ^ g + halfGroup g := by
  have hpow := two_pow_eq_halfGroup h1
  rw [Nat.add_mod, Nat.mod_eq_of_lt (a := halfGroup g) (by have := halfGroup_pos g; omega), Nat.mod_eq_of_lt (by omega)]

theorem two_pow_dvd_2048 (h11 : g ≤ 11) : 2 ^ g ∣ 2048 := pow_dvd_pow 2 h11

/-- A legal position and its partner are in one group. -/
theorem add_halfGroup_lt_of_dvd {n : Nat} (h1 : 1 ≤ g) (hdvd : 2 ^ g ∣ n) (hlt : p < n)
    (hp : p % 2 ^ g < halfGroup g) : p + halfGroup g < n := by
  obtain ⟨m, rfl⟩ := hdvd
  have hmul : 2 ^ g * (p / 2 ^ g + 1) ≤ 2 ^ g * m := Nat.mul_le_mul_left _ (Nat.div_lt_of_lt_mul hlt)
  have hpow := two_pow_eq_halfGroup h1
  have hdm := Nat.div_add_mod p (2 ^ g)
  rw [Nat.mul_add] at hmul
  omega

/-- The partner of a legal position is in range. -/
theorem add_halfGroup_lt (h1 : 1 ≤ g) (h11 : g ≤ 11) (hlt : p < 2048) (hp : p % 2 ^ g < halfGroup g) :
    p + halfGroup g < 2048 :=
  add_halfGroup_lt_of_dvd h1 (two_pow_dvd_2048 h11) hlt hp

/-- R151: the twiddle index of a legal position is in the ROM. -/
theorem twiddleIndex_lt (h1 : 1 ≤ g) (h11 : g ≤ 11) (hp : p % 2 ^ g < halfGroup g) : twiddleIndex g p < 1024 :=
  calc p % 2 ^ g * 2 ^ (11 - g) < halfGroup g * 2 ^ (11 - g) := by gcongr
    _ = 2 ^ 10 := by rw [halfGroup, ← pow_add, show g - 1 + (11 - g) = 10 by omega]

theorem ne_add_halfGroup (h1 : 1 ≤ g) (hp : p % 2 ^ g < halfGroup g) (hq : q % 2 ^ g < halfGroup g) :
    p ≠ q + halfGroup g := by
  rintro rfl
  rw [add_halfGroup_mod h1 hq] at hp
  omega

/-- R152: the loop's positions are the lower halves of the groups. -/
theorem mem_stagePairs (h1 : 1 ≤ g) (h11 : g ≤ 11) :
    p ∈ stagePairs g ↔ p < 2048 ∧ p % 2 ^ g < halfGroup g := by
  have hpow := two_pow_eq_halfGroup h1
  simp only [stagePairs, List.mem_flatMap, List.mem_map, List.mem_range]
  constructor
  · rintro ⟨b, hb, k, hk, rfl⟩
    have hmul : (b + 1) * 2 ^ g ≤ 2048 := (Nat.le_div_iff_mul_le (Nat.two_pow_pos g)).mp hb
    rw [Nat.mul_add_mod', Nat.mod_eq_of_lt (by omega)]
    rw [Nat.add_mul] at hmul
    exact ⟨by omega, hk⟩
  · rintro ⟨hlt, hp⟩
    exact ⟨p / 2 ^ g, Nat.div_lt_div_of_lt_of_dvd (two_pow_dvd_2048 h11) hlt, p % 2 ^ g, hp, Nat.div_add_mod' p _⟩

theorem stagePairs_nodup (h1 : 1 ≤ g) : (stagePairs g).Nodup := by
  have hpow := two_pow_eq_halfGroup h1
  refine List.nodup_flatMap.mpr ⟨fun b _ => List.nodup_range.map (add_right_injective _), ?_⟩
  refine List.nodup_range.imp fun {b c} hbc p hb hc => hbc ?_
  obtain ⟨k, hk, rfl⟩ := List.mem_map.mp hb
  obtain ⟨m, hm, hmk⟩ := List.mem_map.mp hc
  rw [List.mem_range] at hk hm
  have hdiv := congrArg (· / 2 ^ g) hmk
  simpa [Nat.mul_add_div (Nat.two_pow_pos g), Nat.mul_comm _ (2 ^ g), Nat.div_eq_of_lt (show k < 2 ^ g by omega),
    Nat.div_eq_of_lt (show m < 2 ^ g by omega), eq_comm] using hdiv

theorem exists_stagePairs_eq_cons (h11 : g ≤ 11) : ∃ rest, stagePairs g = 0 :: rest := by
  obtain ⟨n, hn⟩ := Nat.exists_eq_succ_of_ne_zero (Nat.div_pos (Nat.le_of_dvd (by norm_num) (two_pow_dvd_2048 h11))
    (Nat.two_pow_pos g)).ne'
  obtain ⟨k, hk⟩ := Nat.exists_eq_succ_of_ne_zero (halfGroup_pos g).ne'
  simp [stagePairs, hn, hk, List.range_succ_eq_map]

/-- The last butterfly of a stage is the last of a group. -/
theorem exists_getLast?_stagePairs (h1 : 1 ≤ g) (h11 : g ≤ 11) :
    ∃ p, (stagePairs g).getLast? = some p ∧ p % 2 ^ g = halfGroup g - 1 := by
  obtain ⟨n, hn⟩ := Nat.exists_eq_succ_of_ne_zero (Nat.div_pos (Nat.le_of_dvd (by norm_num) (two_pow_dvd_2048 h11))
    (Nat.two_pow_pos g)).ne'
  obtain ⟨k, hk⟩ := Nat.exists_eq_succ_of_ne_zero (halfGroup_pos g).ne'
  have hpow := two_pow_eq_halfGroup h1
  refine ⟨n * 2 ^ g + k, by simp [stagePairs, hn, hk, List.range_succ], ?_⟩
  rw [Nat.mul_add_mod', Nat.mod_eq_of_lt (by omega)]
  omega

/-! ### BFLY -/

variable {s : State}

theorem bflyOp_of_read {a b : Cplx} (ha : s.aBuf.read p = some a) (hb : s.aBuf.read (p + halfGroup g) = some b) :
    bflyOp g p s = .ok { s with
      twv := Reg.put (Rom.twiddle (twiddleIndex g p))
      aBuf := (s.aBuf.write p (cadd a (cmul (Rom.twiddle (twiddleIndex g p)) b))).write (p + halfGroup g)
        (csub a (cmul (Rom.twiddle (twiddleIndex g p)) b)) } :=
  bflyOp_eq_ok.mpr ⟨a, b, ha, hb, rfl⟩

theorem bflyOp_of_unwritten (h : s.aBuf.read p = none) :
    bflyOp g p s = .error (.unwrittenRead (opWord 0x15 g p) .a p) := by
  rw [bflyOp, twrdOp_aBuf, Memory.fetch_eq_error.mpr ⟨h, rfl⟩]
  rfl

/-- Settles O37: both inputs are read from the state before either output is written. -/
theorem butterflyFromOldValues : Obligations.ButterflyFromOldValues := by
  intro s g p h1 h11 hp
  rw [exec_bfly s h1 h11 hp]
  refine ⟨twiddleIndex_lt h1 h11 hp, add_halfGroup_lt h1 h11 p.isLt hp, fun a b ha hb => ?_, fun h => ?_⟩
  · exact Res.outcome_eq_next.mpr (bflyOp_of_read ha hb)
  · exact Res.outcome_eq_fault.mpr (bflyOp_of_unwritten h)

/-! ### STAGE -/

/-- R151, R152: element `i` of the working array after stage `g`, from the old values `a`: a sum in the lower half of
a group, a difference in the upper half. -/
def stageValue (g : Nat) (a : Nat → Cplx) (i : Nat) : Cplx :=
  if i % 2 ^ g < halfGroup g then
    cadd (a i) (cmul (Rom.twiddle (twiddleIndex g i)) (a (i + halfGroup g)))
  else csub (a (i - halfGroup g)) (cmul (Rom.twiddle (twiddleIndex g (i - halfGroup g))) (a i))

theorem stageValue_lower {a : Nat → Cplx} (hp : p % 2 ^ g < halfGroup g) :
    stageValue g a p = cadd (a p) (cmul (Rom.twiddle (twiddleIndex g p)) (a (p + halfGroup g))) :=
  if_pos hp

theorem stageValue_upper {a : Nat → Cplx} (h1 : 1 ≤ g) (hp : p % 2 ^ g < halfGroup g) :
    stageValue g a (p + halfGroup g) =
      csub (a p) (cmul (Rom.twiddle (twiddleIndex g p)) (a (p + halfGroup g))) := by
  rw [stageValue, if_neg (by rw [add_halfGroup_mod h1 hp]; omega), Nat.add_sub_cancel]

/-- The elements of the pairs at the positions `l` hold the values `v`. -/
def HoldsPairs (m : Memory Cplx) (g : Nat) (l : List Nat) (v : Nat → Cplx) : Prop :=
  ∀ p ∈ l, m.read p = some (v p) ∧ m.read (p + halfGroup g) = some (v (p + halfGroup g))

/-- What the butterflies of stage `g` at the positions `l` make of the state `s` with the values `a`. -/
structure Butterflied (g : Nat) (a : Nat → Cplx) (l : List Nat) (s t : State) : Prop where
  state : t = { s with twv := t.twv, aBuf := t.aBuf }
  pairs : HoldsPairs t.aBuf g l (stageValue g a)
  others : ∀ i, (∀ p ∈ l, i ≠ p ∧ i ≠ p + halfGroup g) → t.aBuf.read i = s.aBuf.read i
  twv : ∀ p, l.getLast? = some p → t.twv = Reg.put (Rom.twiddle (twiddleIndex g p))

/-- One butterfly on the values `a` of its pair. -/
theorem bflyOp_butterflied {a : Nat → Cplx} (h1 : 1 ≤ g) (hp : p % 2 ^ g < halfGroup g)
    (ha : s.aBuf.read p = some (a p)) (hb : s.aBuf.read (p + halfGroup g) = some (a (p + halfGroup g))) :
    ∃ u, bflyOp g p s = .ok u ∧ Butterflied g a [p] s u := by
  have hpos := halfGroup_pos g
  refine ⟨_, bflyOp_of_read ha hb, rfl, fun q hq => ?_, fun i hi => ?_, fun q hq => ?_⟩
  · obtain rfl := List.mem_singleton.mp hq
    rw [stageValue_lower hp, stageValue_upper h1 hp, Memory.read_write_same, Memory.read_write_other _ _ (by omega),
      Memory.read_write_same]
    exact ⟨rfl, rfl⟩
  · obtain ⟨hne, hne'⟩ := hi p (List.mem_singleton_self p)
    rw [Memory.read_write_other _ _ hne', Memory.read_write_other _ _ hne]
  · obtain rfl : p = q := by simpa using hq
    rfl

/-- R152: the butterflies of one stage touch disjoint pairs, so each finds the values `a` of its own. -/
theorem forEach_bflyOp_answers {a : Nat → Cplx} {l : List Nat} (h1 : 1 ≤ g) (hnodup : l.Nodup)
    (hlower : ∀ p ∈ l, p % 2 ^ g < halfGroup g) (ha : HoldsPairs s.aBuf g l a) :
    ∃ t, forEach (bflyOp g) l s = .ok t ∧ Butterflied g a l s t := by
  induction l generalizing s with
  | nil => exact ⟨s, rfl, rfl, nofun, fun _ _ => rfl, nofun⟩
  | cons p rest ih =>
    obtain ⟨hp, hrest⟩ := List.forall_mem_cons.mp hlower
    obtain ⟨⟨hap, haq⟩, harest⟩ := List.forall_mem_cons.mp ha
    obtain ⟨hnotin, hnodup⟩ := List.nodup_cons.mp hnodup
    have apart : ∀ q ∈ rest, (q ≠ p ∧ q ≠ p + halfGroup g) ∧
        q + halfGroup g ≠ p ∧ q + halfGroup g ≠ p + halfGroup g := fun q hq =>
      have hne : q ≠ p := fun h => hnotin (h ▸ hq)
      ⟨⟨hne, ne_add_halfGroup h1 (hrest q hq) hp⟩, (ne_add_halfGroup h1 hp (hrest q hq)).symm, by omega⟩
    obtain ⟨u, hu, first⟩ := bflyOp_butterflied h1 hp hap haq
    have hread : ∀ i, i ≠ p ∧ i ≠ p + halfGroup g → u.aBuf.read i = s.aBuf.read i := fun i hi =>
      first.others i fun q hq => List.mem_singleton.mp hq ▸ hi
    obtain ⟨t, ht, later⟩ := ih hnodup hrest fun q hq => by
      rw [hread q (apart q hq).1, hread _ (apart q hq).2]
      exact harest q hq
    refine ⟨t, forEach_cons_eq_ok.mpr ⟨u, hu, ht⟩, ?_, List.forall_mem_cons.mpr ⟨?_, later.pairs⟩, fun i hi => ?_,
      fun q hq => ?_⟩
    · rw [later.state, first.state]
    · rw [later.others p fun q hq => ⟨(apart q hq).1.1.symm, (apart q hq).2.1.symm⟩,
        later.others _ fun q hq => ⟨(apart q hq).1.2.symm, (apart q hq).2.2.symm⟩]
      exact first.pairs p (List.mem_singleton_self p)
    · obtain ⟨hip, hirest⟩ := List.forall_mem_cons.mp hi
      rw [later.others i hirest, hread i hip]
    · cases hlast : rest.getLast? with
      | none =>
        rw [List.getLast?_eq_none_iff] at hlast
        subst hlast
        cases ht
        exact first.twv q hq
      | some r =>
        rw [List.getLast?_cons, hlast] at hq
        exact later.twv q (hlast.trans hq)

/-- A whole working array goes through a stage: every element takes its value from the old ones. -/
theorem stageOp_answers {a : Nat → Cplx} (h1 : 1 ≤ g) (h11 : g ≤ 11) (ha : s.aBuf.Holds 2048 a) :
    ∃ t, stageOp g s = .ok t ∧ Butterflied g a (stagePairs g) s t :=
  forEach_bflyOp_answers h1 (stagePairs_nodup h1) (fun _ hp => ((mem_stagePairs h1 h11).mp hp).2) fun p hp => by
    obtain ⟨hlt, hlower⟩ := (mem_stagePairs h1 h11).mp hp
    exact ⟨ha p hlt, ha _ (add_halfGroup_lt h1 h11 hlt hlower)⟩

theorem stageOp_of_unwritten (h11 : g ≤ 11) (h : s.aBuf.read 0 = none) :
    stageOp g s = .error (.unwrittenRead (opWord 0x15 g 0) .a 0) := by
  obtain ⟨rest, hrest⟩ := exists_stagePairs_eq_cons h11
  rw [stageOp, hrest]
  exact forEach_cons_error (bflyOp_of_unwritten h)

/-- A stage leaves what lies beyond the working array. -/
theorem Butterflied.read_beyond {a : Nat → Cplx} {t : State} (h1 : 1 ≤ g) (h11 : g ≤ 11)
    (h : Butterflied g a (stagePairs g) s t) {i : Nat} (hi : 2048 ≤ i) : t.aBuf.read i = s.aBuf.read i :=
  h.others i fun p hp => by
    obtain ⟨hlt, hlower⟩ := (mem_stagePairs h1 h11).mp hp
    have hpartner := add_halfGroup_lt h1 h11 hlt hlower
    omega

/-- Settles O38: the loop of butterflies over the disjoint pairs of the stage. -/
theorem stageIsOneButterflyPerPair : Obligations.StageIsOneButterflyPerPair := by
  refine ⟨fun s a g h1 h11 ha => ?_, fun s g h1 h11 h => ?_⟩
  · obtain ⟨t, ht, done⟩ := stageOp_answers h1 h11 ha
    obtain ⟨last, hlast, hmod⟩ := exists_getLast?_stagePairs h1 h11
    refine ⟨t, (exec_stage s h1 h11).trans (Res.outcome_eq_next.mpr ht), fun p hlt hp => ?_,
      fun i hi => done.read_beyond h1 h11 hi, ?_, ?_⟩
    · have hpair := done.pairs p ((mem_stagePairs h1 h11).mpr ⟨hlt, hp⟩)
      rwa [stageValue_lower hp, stageValue_upper h1 hp] at hpair
    · rw [done.twv last hlast, twiddleIndex, hmod]
      rfl
    · rw [done.state]
      exact frame_twv_a s t.twv t.aBuf
  · rw [exec_stage s h1 h11]
    exact ⟨_, Res.outcome_eq_fault.mpr (stageOp_of_unwritten h11 h)⟩

end Sys2Proof.Machine
end

section
/-! The network (40_fft.md R153, R154) as a function of its input, and its exact results for three inputs (R156). -/

namespace Sys2Proof.Machine

/-! ### The values of the network -/

/-- R148, R153: the working array after the stages 1 to `g`, for the transform input `x`. -/
def networkValue (x : Nat → F64) : Nat → Nat → Cplx
  | 0 => fun j => ⟨x (bitrev11 j), F64.zero⟩
  | g + 1 => stageValue (g + 1) (networkValue x g)

variable {s : State}

/-- Every element is in the lower half of a group or the partner of one that is. -/
theorem lower_or_upper {g i : Nat} (h1 : 1 ≤ g) (hi : i < 2048) :
    (i < 2048 ∧ i % 2 ^ g < halfGroup g) ∨
      ∃ p < 2048, p % 2 ^ g < halfGroup g ∧ i = p + halfGroup g := by
  refine or_iff_not_imp_left.mpr fun hupper => ?_
  have hge : halfGroup g ≤ i % 2 ^ g := by omega
  have hpow := two_pow_eq_halfGroup h1
  have hmod := Nat.mod_lt i (Nat.two_pow_pos g)
  have hle := Nat.mod_le i (2 ^ g)
  have hsub : (i - halfGroup g) % 2 ^ g = i % 2 ^ g - halfGroup g := by
    have hdm := Nat.div_add_mod i (2 ^ g)
    rw [show i - halfGroup g = 2 ^ g * (i / 2 ^ g) + (i % 2 ^ g - halfGroup g) by omega, Nat.mul_add_mod,
      Nat.mod_eq_of_lt (by omega)]
  exact ⟨i - halfGroup g, by omega, by omega, by omega⟩

theorem Butterflied.holds {g : Nat} {a : Nat → Cplx} {t : State} (h1 : 1 ≤ g) (h11 : g ≤ 11)
    (h : Butterflied g a (stagePairs g) s t) : t.aBuf.Holds 2048 (stageValue g a) := by
  intro i hi
  rcases lower_or_upper h1 hi with hlower | ⟨p, hp, hlower, rfl⟩
  · exact (h.pairs i ((mem_stagePairs h1 h11).mpr hlower)).1
  · exact (h.pairs p ((mem_stagePairs h1 h11).mpr ⟨hp, hlower⟩)).2

/-- R153: the stages 1 to 11 in order. -/
theorem forEach_stageOp_answers {x : Nat → F64} (ha : s.aBuf.Holds 2048 (networkValue x 0)) :
    ∃ t, forEach stageOp [1, 2, 3, 4, 5, 6, 7, 8, 9, 10, 11] s = .ok t ∧ t.aBuf.Holds 2048 (networkValue x 11) := by
  refine forEach_range'_answers (P := fun g u => u.aBuf.Holds 2048 (networkValue x (g - 1))) (a := 1) (n := 11)
    (fun g u h1 h11 hu => ?_) ha
  obtain ⟨v, hv, done⟩ := stageOp_answers h1 (Nat.le_of_lt_succ h11) hu
  obtain ⟨k, rfl⟩ := Nat.exists_eq_add_of_le' h1
  exact ⟨v, hv, done.holds h1 (Nat.le_of_lt_succ h11)⟩

/-- R154: the copy of the bins. -/
theorem forEach_binStep_answers {z : Nat → Cplx} (ha : s.aBuf.Holds 2048 z) :
    ∃ t, forEach binStep (List.range 1025) s = .ok t ∧ t.sBuf.Holds 1025 z := by
  obtain ⟨t, ht, -, hbins⟩ := forEach_range_answers (body := binStep) (n := 1025) (s := s)
    (P := fun k u => u.aBuf = s.aBuf ∧ u.sBuf.Holds k z) (fun k u hk ⟨hstate, hbins⟩ =>
      ⟨_, binStep_eq_ok.mpr ⟨z k, hstate ▸ ha k (by omega), rfl⟩, hstate, fun i hi => by
        rw [State.writeS_sBuf, Memory.read_write]
        grind [Memory.Holds]⟩) ⟨rfl, nofun⟩
  exact ⟨t, ht, hbins⟩

/-- R154: the spectrum of the input `x`. -/
theorem networkOp_answers {x : Nat → F64} (hx : s.xBuf.Holds 2048 x) :
    ∃ t, networkOp s = .ok t ∧ t.sBuf.Holds 1025 (networkValue x 11) := by
  obtain ⟨u, hu, -, ha⟩ := brevOp_answers hx
  obtain ⟨v, hv, hstages⟩ := forEach_stageOp_answers (s := u) (x := x) fun j hj => by rw [ha, if_pos hj, networkValue]
  obtain ⟨t, ht, hbins⟩ := forEach_binStep_answers hstages
  exact ⟨t, networkOp_eq_ok.mpr ⟨u, v, hu, hv, ht⟩, hbins⟩

/-! ### Real values in the network

For the three inputs of R156 every element of the working array is an integer multiple of one input value `x`, with
an imaginary part of 0.  The multiples go through the stages as integers: at each pair the twiddle is 1 or the upper
element is 0. -/

/-- The real part has `n` units, the imaginary part is a zero. -/
def IsReal (z : Cplx) (n : Int) : Prop := z.re.HasUnits n ∧ z.im.HasUnits 0

theorem IsReal.isZero {z : Cplx} (h : IsReal z 0) : CplxIsZero z := ⟨h.1.isZero, h.2.isZero⟩

theorem cmul_isReal_of_zero {b : Cplx} (hb : IsReal b 0) (k : Nat) : IsReal (cmul (Rom.twiddle k) b) 0 := by
  obtain ⟨w, hw⟩ := twiddleRe_hasUnits k
  obtain ⟨w', hw'⟩ := twiddleIm_hasUnits k
  obtain ⟨hre, him⟩ := hb
  exact ⟨(hw.mul_zero hre).sub (hw'.mul_zero him) F64.representable_zero,
    (hw.mul_zero him).add (hw'.mul_zero hre) F64.representable_zero⟩

theorem cmul_twiddle_zero_isReal {b : Cplx} {n : Int} (hb : IsReal b n) : IsReal (cmul (Rom.twiddle 0) b) n := by
  obtain ⟨hre, him⟩ := hb
  have hone : (F64.ofNat 1).HasUnits (2 ^ F64.unitExp) := by
    simpa only [Nat.cast_one, one_mul] using F64.hasUnits_ofNat (n := 1) (by norm_num)
  have hsub := (hone.one_mul hre).sub (F64.hasUnits_zero.zero_mul him) (by rw [sub_zero]; exact hre.representable)
  rw [sub_zero] at hsub
  rw [twiddle_zero]
  exact ⟨hsub, (hone.one_mul him).add (F64.hasUnits_zero.zero_mul hre) F64.representable_zero⟩

theorem cadd_isReal {a t : Cplx} {m n : Int} (ha : IsReal a m) (ht : IsReal t n)
    (h : F64.Representable (m + n).natAbs) : IsReal (cadd a t) (m + n) :=
  ⟨ha.1.add ht.1 h, ha.2.add ht.2 F64.representable_zero⟩

theorem csub_isReal {a t : Cplx} {m n : Int} (ha : IsReal a m) (ht : IsReal t n)
    (h : F64.Representable (m - n).natAbs) : IsReal (csub a t) (m - n) :=
  ⟨ha.1.sub ht.1 h, ha.2.sub ht.2 F64.representable_zero⟩

/-- Stage `g` takes the multiples `c` to the multiples `d`, without a twiddle other than 1. -/
def IntegerStage (g : Nat) (c d : Nat → Int) : Prop :=
  ∀ p < 2048, p % 2 ^ g < halfGroup g → (p % 2 ^ g = 0 ∨ c (p + halfGroup g) = 0) ∧
    d p = c p + c (p + halfGroup g) ∧ d (p + halfGroup g) = c p - c (p + halfGroup g)

/-- A stage on integer multiples of `u` units. -/
theorem stageValue_isReal {g : Nat} {c d : Nat → Int} {a : Nat → Cplx} {u : Int} (h1 : 1 ≤ g) (h11 : g ≤ 11)
    (hstage : IntegerStage g c d) (hd : ∀ j, F64.Representable (d j * u).natAbs)
    (ha : ∀ j < 2048, IsReal (a j) (c j * u)) {j : Nat} (hj : j < 2048) :
    IsReal (stageValue g a j) (d j * u) := by
  have product : ∀ p < 2048, p % 2 ^ g < halfGroup g →
      IsReal (cmul (Rom.twiddle (twiddleIndex g p)) (a (p + halfGroup g))) (c (p + halfGroup g) * u) := by
    intro p hp hlower
    have hb := ha _ (add_halfGroup_lt h1 h11 hp hlower)
    rcases (hstage p hp hlower).1 with hzero | hzero
    · rw [twiddleIndex, hzero, Nat.zero_mul]
      exact cmul_twiddle_zero_isReal hb
    · rw [hzero, zero_mul] at hb ⊢
      exact cmul_isReal_of_zero hb _
  rcases lower_or_upper h1 hj with ⟨-, hlower⟩ | ⟨p, hp, hlower, rfl⟩
  · have hdj := (hstage j hj hlower).2.1
    have hrep := hd j
    rw [hdj, add_mul] at hrep ⊢
    rw [stageValue_lower hlower]
    exact cadd_isReal (ha j hj) (product j hj hlower) hrep
  · have hdj := (hstage p hp hlower).2.2
    have hrep := hd (p + halfGroup g)
    rw [hdj, sub_mul] at hrep ⊢
    rw [stageValue_upper h1 hlower]
    exact csub_isReal (ha p hp) (product p hp hlower) hrep

/-- The whole network on integer multiples of a sample's input `v / 32768`. -/
theorem networkValue_isReal {x : Nat → F64} {v : BitVec 16} {c : Nat → Nat → Int}
    (hstage : ∀ g, 1 ≤ g → g ≤ 11 → IntegerStage g (c (g - 1)) (c g)) (hbound : ∀ g ≤ 11, ∀ j, (c g j).natAbs ≤ 2048)
    (hx : ∀ j < 2048, (x (bitrev11 j)).HasUnits (c 0 j * (v.toInt * 2 ^ 1059))) {g : Nat} (hg : g ≤ 11) :
    ∀ j < 2048, IsReal (networkValue x g j) (c g j * (v.toInt * 2 ^ 1059)) := by
  induction g with
  | zero => exact fun j hj => ⟨hx j hj, F64.hasUnits_zero⟩
  | succ g ih =>
    refine fun j hj => stageValue_isReal (by omega) hg (hstage (g + 1) (by omega) hg) (fun j => ?_) (ih (by omega)) hj
    have hle := BitVec.le_toInt v
    have hlt := BitVec.toInt_lt (x := v)
    have hv : v.toInt.natAbs ≤ 32768 := by omega
    rw [← mul_assoc]
    refine F64.representable_mul_pow ?_ (by norm_num)
    calc (c (g + 1) j * v.toInt).natAbs ≤ 2048 * 32768 := by
          rw [Int.natAbs_mul]
          exact Nat.mul_le_mul (hbound (g + 1) hg j) hv
      _ < 2 ^ 53 := by norm_num

/-- A value of `m` times the units of another. -/
theorem isMultiple_of_hasUnits {x y : F64} {m : Nat} {n : Int} (hx : x.HasUnits (m * n)) (hy : y.HasUnits n) :
    F64IsMultiple x m y := by
  obtain ⟨s, e, f, rfl, hx⟩ := hx
  obtain ⟨t, g, k, rfl, hy⟩ := hy
  exact ⟨s, e, f, t, g, k, rfl, rfl, by rw [hx, hy]⟩

/-- `RFFT` on an input whose multiples `c` go through the stages. -/
theorem networkOp_isReal {x : Nat → F64} {v : BitVec 16} {c : Nat → Nat → Int}
    (hstage : ∀ g, 1 ≤ g → g ≤ 11 → IntegerStage g (c (g - 1)) (c g)) (hbound : ∀ g ≤ 11, ∀ j, (c g j).natAbs ≤ 2048)
    (hc : ∀ j < 2048, (x (bitrev11 j)).HasUnits (c 0 j * (v.toInt * 2 ^ 1059))) (hx : s.xBuf.Holds 2048 x) :
    ∃ t z, networkOp s = .ok t ∧ t.sBuf.Holds 1025 z ∧ ∀ k ≤ 1024, F64IsZero (z k).im ∧
      (c 11 k = 0 → CplxIsZero (z k)) ∧ ∀ m : Nat, c 11 k = m → F64IsMultiple (z k).re m (normalise v) := by
  obtain ⟨t, ht, hbins⟩ := networkOp_answers hx
  refine ⟨t, _, ht, hbins, fun k hk => ?_⟩
  have hreal := networkValue_isReal hstage hbound hc le_rfl k (by omega)
  refine ⟨hreal.2.isZero, fun h0 => ?_, fun m hm => ?_⟩
  · rw [h0, zero_mul] at hreal
    exact hreal.isZero
  · rw [hm] at hreal
    exact isMultiple_of_hasUnits hreal.1 (hasUnits_normalise v)

/-! ### The three inputs (R156) -/

section Half
variable {g p : Nat}

/-- A legal position is at the same place in the half as in the group. -/
theorem mod_half (hp : p % 2 ^ g < halfGroup g) : p % 2 ^ (g - 1) = p % 2 ^ g := by
  rw [← Nat.mod_mod_of_dvd p (pow_dvd_pow 2 (Nat.sub_le g 1))]
  exact Nat.mod_eq_of_lt hp

/-- And so is its partner. -/
theorem add_halfGroup_mod_half (hp : p % 2 ^ g < halfGroup g) :
    (p + halfGroup g) % 2 ^ (g - 1) = p % 2 ^ g := by
  rw [halfGroup, Nat.add_mod_right, mod_half hp]

end Half

/-- The multiples of an input of values `σ j * x` that a stage adds up or cancels in pairs: after stage `g` all is
gathered in the multiples of `2^g`. -/
def gathered (σ : Nat → Int) (g j : Nat) : Int := if j % 2 ^ g = 0 then σ j * 2 ^ g else 0

theorem gathered_zero (σ : Nat → Int) (j : Nat) : gathered σ 0 j = σ j := by
  simp [gathered, Nat.mod_one]

theorem gathered_stage {σ : Nat → Int} {g : Nat} (h1 : 1 ≤ g)
    (hσ : ∀ p < 2048, p % 2 ^ g < halfGroup g → σ (p + halfGroup g) = σ p) :
    IntegerStage g (gathered σ (g - 1)) (gathered σ g) := by
  intro p hlt hp
  have hpos := halfGroup_pos g
  have hpow : (2 : Int) ^ g = 2 * 2 ^ (g - 1) := by rw [← pow_succ', Nat.sub_add_cancel h1]
  have hne : p % 2 ^ g + halfGroup g ≠ 0 := by omega
  simp only [gathered, hσ p hlt hp, add_halfGroup_mod h1 hp, mod_half hp, add_halfGroup_mod_half hp,
    if_neg hne, sub_self, and_true]
  by_cases h0 : p % 2 ^ g = 0
  · simp only [h0, true_or, if_true, true_and, hpow]
    ring
  · simp [h0]

theorem gathered_le {σ : Nat → Int} (hσ : ∀ j, (σ j).natAbs = 1) {g : Nat} (hg : g ≤ 11) (j : Nat) :
    (gathered σ g j).natAbs ≤ 2048 := by
  unfold gathered
  split
  · rw [Int.natAbs_mul, hσ, Int.natAbs_pow, Nat.one_mul]
    exact Nat.pow_le_pow_right (by norm_num) hg
  · norm_num

/-- The impulse is spread over the first group. -/
def spread (g j : Nat) : Int := if j < 2 ^ g then 1 else 0

theorem spread_stage {g : Nat} (h1 : 1 ≤ g) : IntegerStage g (spread (g - 1)) (spread g) := by
  intro p _ hp
  have hpow := two_pow_eq_halfGroup h1
  have hfirst : p < 2 ^ g ↔ p < halfGroup g :=
    ⟨fun h => by rwa [Nat.mod_eq_of_lt h] at hp, fun h => by omega⟩
  have hpartner : p + halfGroup g < 2 ^ g ↔ p < halfGroup g := by omega
  have hupper : ¬ p + halfGroup g < halfGroup g := by omega
  simp [spread, ← halfGroup.eq_1, hfirst, hpartner, hupper]

theorem spread_le (g j : Nat) : (spread g j).natAbs ≤ 2048 := by
  unfold spread
  split <;> norm_num

/-- The sign of the alternating input in bit-reversed order: the even inputs come first. -/
def alternation (j : Nat) : Int := if j < 1024 then 1 else -1

/-- The alternating input is gathered as a constant one up to stage 10, and stage 11 takes the difference of the two
halves. -/
def alternating (g j : Nat) : Int := if g ≤ 10 then gathered alternation g j else if j = 1024 then 2048 else 0

theorem alternating_of_le {g : Nat} (hg : g ≤ 10) : alternating g = gathered alternation g :=
  funext fun _ => if_pos hg

theorem alternating_last (j : Nat) : alternating 11 j = if j = 1024 then 2048 else 0 := rfl

theorem alternating_stage {g : Nat} (h1 : 1 ≤ g) (h11 : g ≤ 11) :
    IntegerStage g (alternating (g - 1)) (alternating g) := by
  rcases Nat.lt_or_ge g 11 with hlt | hge
  · rw [alternating_of_le (g := g) (by omega), alternating_of_le (g := g - 1) (by omega)]
    refine gathered_stage h1 fun p hp hlower => ?_
    have hhalf := add_halfGroup_lt_of_dvd h1 (n := 1024) (pow_dvd_pow 2 (show g ≤ 10 by omega)) (p := p)
    simp only [alternation]
    grind
  · obtain rfl : g = 11 := by omega
    intro p hp hlower
    have hhalf : halfGroup 11 = 1024 := rfl
    have hpow : (2 : Nat) ^ 10 = 1024 := by norm_num
    have hmod : p % 2 ^ 11 = p := Nat.mod_eq_of_lt hp
    rw [hmod, hhalf] at hlower
    simp only [alternating_last, alternating_of_le le_rfl, gathered, alternation, hmod, hhalf, hpow,
      Nat.add_mod_right, Nat.mod_eq_of_lt hlower]
    by_cases h0 : p = 0
    · subst h0
      decide
    · simp [h0, show p ≠ 1024 by omega]

theorem alternating_le (g j : Nat) : (alternating g j).natAbs ≤ 2048 := by
  unfold alternating
  split
  next h => exact gathered_le (fun j => by unfold alternation; split <;> rfl) (by omega) j
  next => split <;> norm_num

theorem bitrev11_eq_zero {j : Nat} (hj : j < 2048) : bitrev11 j = 0 ↔ j = 0 := by
  constructor
  · intro h
    rw [← bitrev11_bitrev11 hj, h]
    rfl
  · rintro rfl
    rfl

theorem bitrev11_even {j : Nat} (hj : j < 2048) : bitrev11 j % 2 = 0 ↔ j < 1024 := by
  have hbit := testBit_bitrev11 j (Nat.zero_le 10)
  rw [Nat.testBit_zero, Nat.testBit_eq_decide_div_mod_eq, decide_eq_decide] at hbit
  omega

/-- Settles O41: the three inputs are integer multiples of one value, which the stages add and cancel exactly. -/
theorem spectraOfSimpleInputs : Obligations.SpectraOfSimpleInputs := by
  intro s v x
  simp only [exec_rfft, Res.outcome_eq_next]
  have hxv : x.HasUnits (v.toInt * 2 ^ 1059) := hasUnits_normalise v
  refine ⟨fun hx => ?_, fun hx => ?_, fun hx => ?_⟩
  · obtain ⟨t, z, ht, hz, hbins⟩ := networkOp_isReal (v := v) (c := gathered fun _ => 1)
      (fun g h1 _ => gathered_stage h1 fun _ _ _ => rfl) (fun g hg j => gathered_le (fun _ => rfl) hg j)
      (fun j _ => by rwa [gathered_zero, one_mul]) hx
    refine ⟨t, z, ht, hz, (hbins 0 (by omega)).2.2 2048 rfl, (hbins 0 (by omega)).1, fun k hk hk' => ?_⟩
    exact (hbins k hk').2.1 (if_neg (by omega))
  · obtain ⟨t, z, ht, hz, hbins⟩ := networkOp_isReal (v := v) (c := spread)
      (fun g h1 _ => spread_stage h1) (fun g _ j => spread_le g j)
      (fun j hj => by
        simp only [bitrev11_eq_zero hj, spread, pow_zero, Nat.lt_one_iff]
        split
        · rwa [one_mul]
        · rw [zero_mul]
          exact F64.hasUnits_zero) hx
    exact ⟨t, z, ht, hz, fun k hk => ⟨(hbins k hk).2.2 1 (if_pos (by omega)), (hbins k hk).1⟩⟩
  · obtain ⟨t, z, ht, hz, hbins⟩ := networkOp_isReal (v := v) (c := alternating)
      (fun g h1 h11 => alternating_stage h1 h11) (fun g _ j => alternating_le g j)
      (fun j hj => by
        rw [alternating_of_le (by norm_num), gathered_zero, alternation]
        simp only [bitrev11_even hj]
        split
        · rwa [one_mul]
        · rw [neg_one_mul]
          exact hxv.neg) hx
    refine ⟨t, z, ht, hz, (hbins 1024 le_rfl).2.2 2048 rfl, (hbins 1024 le_rfl).1, fun k hk => ?_⟩
    exact (hbins k (by omega)).2.1 ((alternating_last k).trans (if_neg (by omega)))

end Sys2Proof.Machine
end

section
/-! The order of R11 on binary64 values as an order of integers, and what one rounding does to it: rounding a ratio
is monotone, and so is multiplication by a positive value. -/

namespace Sys2Proof
namespace F64

/-! ### The fields of a finite value as one integer (R102) -/

/-- The exponent and fraction fields, read as one integer. -/
def code (e : Fin 2047) (f : BitVec 52) : Nat := e.val * 2 ^ 52 + f.toNat

/-- The first integer that is the code of no finite value: that of infinity. -/
def topCode : Nat := 2047 * 2 ^ 52

variable {e g : Fin 2047} {f h : BitVec 52}

theorem code_lt_topCode (e : Fin 2047) (f : BitVec 52) : code e f < topCode := by
  unfold code topCode
  omega

theorem code_injective (hc : code e f = code g h) : e = g ∧ f = h := by
  unfold code at hc
  exact ⟨by omega, BitVec.eq_of_toNat_eq (by omega)⟩

/-- A greater code has more units: with one exponent by the fraction, and else since the greatest fraction of an
exponent stays below the next power of two. -/
theorem units_lt_units (hc : code e f < code g h) : units e f < units g h := by
  have hf := f.isLt
  unfold code at hc
  unfold units
  rcases Nat.lt_or_ge e.val g.val with heg | hge
  · rw [if_neg (by omega : g.val ≠ 0)]
    split
    · exact hf.trans_le (le_trans (by omega) (Nat.le_mul_of_pos_right _ (by positivity)))
    · calc (2 ^ 52 + f.toNat) * 2 ^ (e.val - 1) < 2 ^ 53 * 2 ^ (e.val - 1) := by gcongr; omega
        _ = 2 ^ 52 * 2 ^ e.val := by rw [← pow_add, ← pow_add]; congr 1; omega
        _ ≤ (2 ^ 52 + h.toNat) * 2 ^ (g.val - 1) := by gcongr <;> omega
  · have heq : e.val = g.val := by omega
    rw [heq]
    split
    · omega
    · gcongr
      omega

theorem units_lt_units_iff : units e f < units g h ↔ code e f < code g h := by
  refine ⟨fun hu => ?_, units_lt_units⟩
  rcases lt_trichotomy (code e f) (code g h) with hlt | heq | hgt
  · exact hlt
  · obtain ⟨rfl, rfl⟩ := code_injective heq
    omega
  · have := units_lt_units hgt
    omega

theorem units_le_units_iff : units e f ≤ units g h ↔ code e f ≤ code g h := by
  rw [← not_lt, ← not_lt, units_lt_units_iff]

theorem units_pos_iff : 0 < units e f ↔ 0 < code e f :=
  units_lt_units_iff (e := 0) (f := 0)

/-! ### The place of a value in the order -/

/-- A number with a sign. -/
def withSign (neg : Bool) (n : Nat) : Int := if neg then -(n : Int) else n

/-- The place of a value in the order of R11: both zeros are at 0, and NaN, which has no place, is put there too. -/
def rank : F64 → Int
  | .nan => 0
  | .inf s => withSign s topCode
  | .fin s e f => withSign s (code e f)

@[simp] theorem rank_nan : rank .nan = 0 := rfl

@[simp] theorem rank_inf (s : Bool) : rank (.inf s) = withSign s topCode := rfl

@[simp] theorem rank_fin (s : Bool) (e : Fin 2047) (f : BitVec 52) : rank (.fin s e f) = withSign s (code e f) := rfl

@[simp] theorem rank_zero : rank zero = 0 := rfl

theorem signed_lt_signed_iff {s t : Bool} :
    signed s e f < signed t g h ↔ withSign s (code e f) < withSign t (code g h) := by
  have hlt : units e f < units g h ↔ code e f < code g h := units_lt_units_iff
  have hgt : units g h < units e f ↔ code g h < code e f := units_lt_units_iff
  have hx := units_pos_iff (e := e) (f := f)
  have hy := units_pos_iff (e := g) (f := h)
  cases s <;> cases t <;> simp only [signed, withSign, Bool.false_eq_true, if_true, if_false] <;> omega

/-- The comparison of R11 compares the places. -/
theorem lt_iff_rank {x y : F64} : x.lt y = true ↔ x ≠ .nan ∧ y ≠ .nan ∧ x.rank < y.rank := by
  have htop : 0 < topCode := by decide
  rcases x with _ | s | ⟨s, e, f⟩ <;> rcases y with _ | t | ⟨t, g, h⟩ <;>
    simp only [lt, rank_inf, rank_fin, ne_eq, not_true, reduceCtorEq, not_false_eq_true, true_and, false_and, and_false,
      Bool.false_eq_true]
  · cases s <;> cases t <;> simp [withSign, htop]
  · have := code_lt_topCode g h
    cases s <;> cases t <;> simp [withSign] <;> omega
  · have := code_lt_topCode e f
    cases s <;> cases t <;> simp [withSign] <;> omega
  · rw [decide_eq_true_eq, signed_lt_signed_iff]

theorem gt_iff_rank {x y : F64} : x.gt y = true ↔ x ≠ .nan ∧ y ≠ .nan ∧ y.rank < x.rank := by
  rw [gt, lt_iff_rank]
  tauto

theorem f64Le_iff_rank {x y : F64} : Machine.F64Le x y ↔ x ≠ .nan ∧ y ≠ .nan ∧ x.rank ≤ y.rank := by
  rw [Machine.F64Le, ← Bool.not_eq_true, lt_iff_rank]
  constructor
  · rintro ⟨hx, hy, h⟩
    exact ⟨hx, hy, not_lt.mp fun hlt => h ⟨hy, hx, hlt⟩⟩
  · rintro ⟨hx, hy, h⟩
    exact ⟨hx, hy, fun hlt => by omega⟩

theorem withSign_inj {s t : Bool} {a b : Nat} (hpos : 0 < withSign s a) (h : withSign s a = withSign t b) :
    s = t ∧ a = b := by
  cases s <;> cases t <;> simp [withSign] at hpos h ⊢ <;> omega

/-- Only the two zeros, and NaN, share a place. -/
theorem eq_of_rank_eq {x y : F64} (hx : 0 < x.rank) (h : x.rank = y.rank) : x = y := by
  rcases x with _ | s | ⟨s, e, f⟩ <;> rcases y with _ | t | ⟨t, g, k⟩
  · rfl
  · exact absurd hx (lt_irrefl 0)
  · exact absurd hx (lt_irrefl 0)
  · exact absurd (h ▸ hx) (lt_irrefl 0)
  · rw [(withSign_inj hx h).1]
  · exact absurd (withSign_inj hx h).2 (code_lt_topCode g k).ne'
  · exact absurd (h ▸ hx) (lt_irrefl 0)
  · exact absurd (withSign_inj hx h).2 (code_lt_topCode e f).ne
  · obtain ⟨rfl, hcode⟩ := withSign_inj hx h
    obtain ⟨rfl, rfl⟩ := code_injective hcode
    rfl

@[simp] theorem nan_gt (x : F64) : gt .nan x = false := by cases x <;> rfl

theorem not_gt_self (x : F64) : x.gt x = false := by
  rw [← Bool.not_eq_true, gt_iff_rank]
  omega

theorem gt_of_gt_of_gt {x y z : F64} (hxy : x.gt y = true) (hyz : y.gt z = true) : x.gt z = true := by
  obtain ⟨hx, -, hlt⟩ := gt_iff_rank.mp hxy
  obtain ⟨-, hz, hlt'⟩ := gt_iff_rank.mp hyz
  exact gt_iff_rank.mpr ⟨hx, hz, hlt'.trans hlt⟩

theorem f64Le_of_gt {x y : F64} (h : x.gt y = true) : Machine.F64Le y x := by
  obtain ⟨hx, hy, hlt⟩ := gt_iff_rank.mp h
  exact f64Le_iff_rank.mpr ⟨hy, hx, hlt.le⟩

theorem gt_of_f64Le_of_gt {x y z : F64} (hle : Machine.F64Le y x) (hgt : y.gt z = true) : x.gt z = true := by
  obtain ⟨-, hx, hle⟩ := f64Le_iff_rank.mp hle
  obtain ⟨-, hz, hlt⟩ := gt_iff_rank.mp hgt
  exact gt_iff_rank.mpr ⟨hx, hz, hlt.trans_le hle⟩

/-! ### Rounding (R11) -/

/-- The code of the rounded ratio. -/
def roundCode (n d : Nat) : Nat :=
  let e := excess (n * 2 ^ unitExp / d)
  min (e * 2 ^ 52 + nearest (n * 2 ^ unitExp) (d * 2 ^ e)) topCode

theorem rank_pack (neg : Bool) (n : Nat) : (pack neg n).rank = withSign neg (min n topCode) := by
  unfold pack
  split
  next hn =>
    rw [rank_fin, min_eq_left (by unfold topCode; omega)]
    congr 1
    simp only [code, BitVec.toNat_ofNat]
    omega
  next hn => rw [rank_inf, min_eq_right (by unfold topCode; omega)]

theorem pack_ne_nan (neg : Bool) (n : Nat) : pack neg n ≠ .nan := by
  unfold pack
  split <;> nofun

theorem ofRatio_ne_nan (neg : Bool) (n d : Nat) : ofRatio neg n d ≠ .nan := by
  rw [ofRatio]
  exact pack_ne_nan _ _

theorem rank_ofRatio (neg : Bool) (n d : Nat) : (ofRatio neg n d).rank = withSign neg (roundCode n d) := by
  rw [ofRatio]
  exact rank_pack _ _

theorem excess_mono {k l : Nat} (h : k ≤ l) : excess k ≤ excess l := by
  rw [excess, excess, Nat.log2_eq_log_two, Nat.log2_eq_log_two]
  exact Nat.sub_le_sub_right (Nat.log_mono_right h) 52

/-- Rounding is monotone: over one number of dropped bits the nearest integer is, and a greater number of dropped bits
is a greater exponent. -/
theorem roundCode_mono {n m d : Nat} (hd : 0 < d) (h : n ≤ m) : roundCode n d ≤ roundCode m d := by
  have hu : n * 2 ^ unitExp ≤ m * 2 ^ unitExp := Nat.mul_le_mul_right _ h
  have he : excess (n * 2 ^ unitExp / d) ≤ excess (m * 2 ^ unitExp / d) := excess_mono (Nat.div_le_div_right hu)
  obtain ⟨hn, -⟩ := ratio_bounds n d hd
  obtain ⟨-, hm⟩ := ratio_bounds m d hd
  refine min_le_min_right _ ?_
  rcases he.eq_or_lt with heq | hlt
  · rw [heq]
    exact Nat.add_le_add_left (nearest_mono hu) _
  · have hlow := nearest_le (by positivity) hn
    have hhigh := le_nearest (by positivity) (hm.resolve_left (by omega))
    omega

theorem roundCode_zero {d : Nat} (hd : 0 < d) : roundCode 0 d = 0 := by
  have hex : excess (0 * 2 ^ unitExp / d) = 0 := by simp [excess]
  have hnear : nearest (0 * 2 ^ unitExp) (d * 2 ^ 0) ≤ 0 := nearest_le (by positivity) (by simp)
  simp only [roundCode, hex]
  omega

theorem roundCode_le_topCode (n d : Nat) : roundCode n d ≤ topCode := min_le_right _ _

/-! ### Multiplication by a positive value -/

/-- A monotone change of the magnitudes that keeps 0 is monotone on the numbers with a sign. -/
theorem withSign_le_withSign {s t : Bool} {a b a' b' : Nat} (h : withSign s a ≤ withSign t b) (hab : a ≤ b → a' ≤ b')
    (hba : b ≤ a → b' ≤ a') (ha : a = 0 → a' = 0) (hb : b = 0 → b' = 0) : withSign s a' ≤ withSign t b' := by
  cases s <;> cases t <;> simp only [withSign, Bool.false_eq_true, if_true, if_false] at h ⊢ <;> omega

section
variable {x y : F64} {e : Fin 2047} {f : BitVec 52} (hc : units e f ≠ 0)

/-- The code of the magnitude of a product with a given finite value. -/
def productCode (e : Fin 2047) (f : BitVec 52) (g : Fin 2047) (h : BitVec 52) : Nat :=
  roundCode (units e f * units g h) (2 ^ (2 * unitExp))

theorem rank_fin_mul_fin (t : Bool) (g : Fin 2047) (h : BitVec 52) :
    ((fin false e f).mul (fin t g h)).rank = withSign t (productCode e f g h) := by
  rw [mul, rank_ofRatio, Bool.false_xor]
  rfl

include hc in
theorem fin_mul_inf (t : Bool) : (fin false e f).mul (.inf t) = .inf t := by
  rw [mul, if_neg hc, Bool.false_xor]

theorem productCode_mono {g g' : Fin 2047} {h h' : BitVec 52} (hle : code g h ≤ code g' h') :
    productCode e f g h ≤ productCode e f g' h' :=
  roundCode_mono (by positivity) (Nat.mul_le_mul_left _ (units_le_units_iff.mpr hle))

theorem productCode_eq_zero {g : Fin 2047} {h : BitVec 52} (hz : code g h = 0) : productCode e f g h = 0 := by
  have hu := units_pos_iff (e := g) (f := h)
  rw [productCode, show units g h = 0 by omega, Nat.mul_zero, roundCode_zero (by positivity)]

include hc in
theorem fin_mul_ne_nan (hx : x ≠ .nan) : (fin false e f).mul x ≠ .nan := by
  rcases x with _ | t | ⟨t, g, h⟩
  · exact absurd rfl hx
  · rw [fin_mul_inf hc]
    nofun
  · exact ofRatio_ne_nan _ _ _

include hc in
/-- Multiplication by a positive finite value is monotone. -/
theorem fin_mul_f64Le (h : Machine.F64Le x y) : Machine.F64Le ((fin false e f).mul x) ((fin false e f).mul y) := by
  obtain ⟨hx, hy, hle⟩ := f64Le_iff_rank.mp h
  refine f64Le_iff_rank.mpr ⟨fin_mul_ne_nan hc hx, fin_mul_ne_nan hc hy, ?_⟩
  have htop : topCode ≠ 0 := by decide
  have hlt := fun g h => (code_lt_topCode g h).not_ge
  rcases x with _ | s | ⟨s, g, k⟩ <;> rcases y with _ | t | ⟨t, g', k'⟩
  · exact absurd rfl hx
  · exact absurd rfl hx
  · exact absurd rfl hx
  · exact absurd rfl hy
  · rwa [fin_mul_inf hc, fin_mul_inf hc]
  · rw [fin_mul_inf hc, rank_fin_mul_fin]
    exact withSign_le_withSign hle (fun h => absurd h (hlt _ _)) (fun _ => roundCode_le_topCode _ _)
      (fun h => absurd h htop) productCode_eq_zero
  · exact absurd rfl hy
  · rw [fin_mul_inf hc, rank_fin_mul_fin]
    exact withSign_le_withSign hle (fun _ => roundCode_le_topCode _ _) (fun h => absurd h (hlt _ _))
      productCode_eq_zero (fun h => absurd h htop)
  · rw [rank_fin_mul_fin, rank_fin_mul_fin]
    exact withSign_le_withSign hle productCode_mono productCode_mono productCode_eq_zero productCode_eq_zero

end
end F64
end Sys2Proof
end

section
/-! The magnitude (41_magnitude_db.md R190): a root of a sum of squares is NaN or has no minus sign. -/

namespace Sys2Proof
namespace F64

/-- A value without a minus sign: NaN, or at least `+0.0` and not `-0.0`. -/
def Unsigned (x : F64) : Prop := x = .nan ∨ Machine.F64NonNegative x

theorem unsigned_pack (n : Nat) : (pack false n).Unsigned := by
  unfold pack
  split
  · exact .inr rfl
  · exact .inr rfl

theorem unsigned_ofRatio (n d : Nat) : (ofRatio false n d).Unsigned := by
  rw [ofRatio]
  exact unsigned_pack _

theorem unsigned_rootOfUnits (k : Nat) : (rootOfUnits k).Unsigned := by
  rw [rootOfUnits]
  exact unsigned_pack _

theorem unsigned_mul_self (x : F64) : (x.mul x).Unsigned := by
  rcases x with _ | s | ⟨s, e, f⟩
  · exact .inl rfl
  · exact .inr (Bool.xor_self s)
  · rw [mul, Bool.xor_self]
    exact unsigned_ofRatio _ _

theorem unsigned_ofUnits {z : Int} (hz : 0 ≤ z) : (ofUnits false z).Unsigned := by
  rw [ofUnits, decide_eq_false hz.not_gt, ite_self]
  exact unsigned_ofRatio _ _

theorem Unsigned.cases {x : F64} (hx : x.Unsigned) : x = .nan ∨ x = .inf false ∨ ∃ e f, x = .fin false e f := by
  rcases hx with rfl | hx
  · exact .inl rfl
  rcases x with _ | s | ⟨s, e, f⟩
  · exact .inl rfl
  · cases hx
    exact .inr (.inl rfl)
  · cases hx
    exact .inr (.inr ⟨e, f, rfl⟩)

theorem unsigned_add {x y : F64} (hx : x.Unsigned) (hy : y.Unsigned) : (x.add y).Unsigned := by
  obtain rfl | rfl | ⟨e, f, rfl⟩ := hx.cases
  · exact .inl rfl
  · obtain rfl | rfl | ⟨g, h, rfl⟩ := hy.cases
    · exact .inl rfl
    · exact .inr rfl
    · exact .inr rfl
  · obtain rfl | rfl | ⟨g, h, rfl⟩ := hy.cases
    · exact .inl rfl
    · exact .inr rfl
    · exact unsigned_ofUnits (Int.add_nonneg (Int.natCast_nonneg _) (Int.natCast_nonneg _))

theorem unsigned_sqrt {x : F64} (hx : x.Unsigned) : x.sqrt.Unsigned := by
  obtain rfl | rfl | ⟨e, f, rfl⟩ := hx.cases
  · exact .inl rfl
  · exact .inr rfl
  · rw [sqrt, if_neg Bool.false_ne_true]
    split
    · exact .inr rfl
    · exact unsigned_rootOfUnits _

end F64

namespace Machine
variable {s : State}

theorem magnitude_unsigned (z : Cplx) : (magnitude z).Unsigned :=
  F64.unsigned_sqrt (F64.unsigned_add (F64.unsigned_mul_self z.re) (F64.unsigned_mul_self z.im))

theorem magnitude_of_isZero {z : Cplx} (hz : CplxIsZero z) : magnitude z = F64.zero := by
  obtain ⟨re, im⟩ := z
  obtain ⟨rfl | rfl, rfl | rfl⟩ := hz <;> decide +kernel

theorem exec_mag (s : State) {k : Fin 2048} (hk : k.val ≤ 1024) : exec (.mag k) s = (magOp k.val s).outcome :=
  if_pos (decide_eq_true hk)

theorem magOp_of_unwritten {k : Nat} (h : s.sBuf.read k = none) :
    magOp k s = .error (.unwrittenRead (opWord 0x20 0 k) .s k) := by
  rw [magOp, Memory.fetch_eq_error.mpr ⟨h, rfl⟩]
  rfl

/-- Settles O42: squares, their sum and its root have no minus sign. -/
theorem magIsRootOfSquares : Obligations.MagIsRootOfSquares := by
  refine ⟨fun s k z hk hz => ⟨magnitude z, ?_, rfl, magnitude_unsigned z, magnitude_of_isZero⟩, fun s k hk h => ?_⟩
  · rw [exec_mag s hk, Res.outcome_eq_next]
    exact magOp_eq_ok.mpr ⟨z, hz, rfl⟩
  · rw [exec_mag s hk, Res.outcome_eq_fault]
    exact magOp_of_unwritten h

end Machine
end Sys2Proof
end

section
/-! The two running maxima of `PEAK` (41_magnitude_db.md R194) as maxima of the values of the bins, each by itself. -/

namespace Sys2Proof.Machine

/-! ### A running maximum from `+0.0` -/

/-- The running maximum of `v 0`, ..., `v (n - 1)` from `+0.0`. -/
def maximum (v : Nat → F64) (n : Nat) : F64 := (List.range n).foldl (fun m k => runningMax m (v k)) F64.zero

@[simp] theorem maximum_zero (v : Nat → F64) : maximum v 0 = F64.zero := rfl

theorem maximum_succ (v : Nat → F64) (n : Nat) : maximum v (n + 1) = runningMax (maximum v n) (v n) := by
  simp [maximum, List.range_succ]

/-! ### PEAK -/

variable {c : Config} {z : Nat → Cplx} {s : State}

/-- The state `s` after the bins 0 to `n` of `PEAK`. -/
def afterBins (c : Config) (z : Nat → Cplx) (s : State) (n : Nat) : State :=
  { s with
    magv := Reg.put (magnitude (z n))
    dbv := Reg.put (decibel c (magnitude (z n)))
    magMax := Reg.put (maximum (fun k => magnitude (z k)) (n + 1))
    dbMax := Reg.put (maximum (fun k => decibel c (magnitude (z k))) (n + 1)) }

theorem forEach_peakStep {n : Nat} (hz : s.sBuf.Holds (n + 1) z) :
    forEach (peakStep c) (List.range (n + 1)) (clearMaxima s) = .ok (afterBins c z s n) := by
  induction n with
  | zero => exact forEach_cons_eq_ok.mpr ⟨_, peakStep_eq_ok.mpr ⟨z 0, hz 0 one_pos, rfl⟩, rfl⟩
  | succ n ih =>
    rw [List.range_succ, forEach_append, ih fun i hi => hz i (by omega), Res.andThen_ok]
    refine forEach_cons_eq_ok.mpr ⟨_, peakStep_eq_ok.mpr ⟨z (n + 1), hz (n + 1) (by omega), ?_⟩, rfl⟩
    simp [afterBins, maximum_succ _ (n + 1)]

theorem peakOp_of_holds (hz : s.sBuf.Holds 1025 z) : peakOp c s = .ok (afterBins c z s 1024) := forEach_peakStep hz

theorem peakOp_of_unwritten (h : s.sBuf.read 0 = none) :
    peakOp c s = .error (.unwrittenRead (opWord 0x20 0 0) .s 0) := by
  rw [peakOp, List.range_succ_eq_map (n := 1024)]
  refine forEach_cons_error ?_
  rw [peakStep, magOp_of_unwritten (s := clearMaxima s) h]
  rfl

theorem exec_peak (s : State) : exec .peak s = (peakOp Config.default s).outcome := rfl

theorem frame_afterBins (c : Config) (z : Nat → Cplx) (s : State) (n : Nat) :
    s.frame [.magv, .dbv, .maxima] (afterBins c z s n) :=
  ⟨fun p hp => by cases p <;> simp_all [State.agree, afterBins], rfl, rfl, rfl⟩

/-- Settles O44: the loop over the bins is one fold for each maximum. -/
theorem peakTracksBothMaxima : Obligations.PeakTracksBothMaxima := by
  simp only [Obligations.PeakTracksBothMaxima, exec_peak, Res.outcome_eq_next, Res.outcome_eq_fault]
  exact ⟨fun s z hz => ⟨_, peakOp_of_holds hz, rfl, rfl, rfl, rfl, frame_afterBins _ z s 1024⟩,
    fun s h => ⟨_, peakOp_of_unwritten h⟩⟩

end Sys2Proof.Machine
end

section
/-! The relation of the two maxima (41_magnitude_db.md R195): each is the greatest of its values, and a non-decreasing
logarithm takes the one to the other. -/

namespace Sys2Proof.Machine

/-! ### The running maximum -/

variable {m v w x : F64}

theorem runningMax_of_gt (h : v.gt m = true) : runningMax m v = v := if_pos h

theorem runningMax_of_not_gt (h : v.gt m = false) : runningMax m v = m := if_neg (Bool.eq_false_iff.mp h)

theorem not_gt_runningMax_new (m v : F64) : v.gt (runningMax m v) = false := by
  cases h : v.gt m with
  | true => rw [runningMax_of_gt h, F64.not_gt_self]
  | false => rw [runningMax_of_not_gt h, h]

theorem not_gt_runningMax_held (h : x.gt m = false) : x.gt (runningMax m v) = false := by
  cases hv : v.gt m with
  | true =>
    rw [runningMax_of_gt hv, ← Bool.not_eq_true]
    exact fun hx => absurd (F64.gt_of_gt_of_gt hx hv) (Bool.eq_false_iff.mp h)
  | false => rwa [runningMax_of_not_gt hv]

/-- No value is above the maximum. -/
theorem not_gt_maximum {v : Nat → F64} {n k : Nat} (hk : k < n) : (v k).gt (maximum v n) = false := by
  induction n with
  | zero => exact absurd hk k.not_lt_zero
  | succ n ih =>
    rw [maximum_succ]
    rcases Nat.lt_succ_iff_lt_or_eq.mp hk with hlt | rfl
    · exact not_gt_runningMax_held (ih hlt)
    · exact not_gt_runningMax_new _ _

/-- The maximum is `+0.0` or one of the values. -/
theorem maximum_mem (v : Nat → F64) (n : Nat) : maximum v n = F64.zero ∨ ∃ k < n, maximum v n = v k := by
  induction n with
  | zero => exact .inl rfl
  | succ n ih =>
    rw [maximum_succ]
    cases h : (v n).gt (maximum v n) with
    | true => exact .inr ⟨n, n.lt_succ_self, runningMax_of_gt h⟩
    | false =>
      rw [runningMax_of_not_gt h]
      exact ih.imp_right fun ⟨k, hk, he⟩ => ⟨k, by omega, he⟩

theorem maximum_eq_zero_iff {v : Nat → F64} {n : Nat} :
    maximum v n = F64.zero ↔ ∀ k < n, (v k).gt F64.zero = false := by
  refine ⟨fun h k hk => h ▸ not_gt_maximum hk, fun h => ?_⟩
  induction n with
  | zero => rfl
  | succ n ih => rw [maximum_succ, ih fun k hk => h k (by omega), runningMax_of_not_gt (h n n.lt_succ_self)]

/-! ### A non-decreasing function of the values -/

/-- A value held is dropped for one that is not below it. -/
theorem runningMax_runningMax_of_le (h : F64Le v w) :
    runningMax (runningMax F64.zero v) w = runningMax F64.zero w := by
  cases hv : v.gt F64.zero with
  | false => rw [runningMax_of_not_gt hv]
  | true =>
    have hw : w.gt F64.zero = true := F64.gt_of_f64Le_of_gt h hv
    rw [runningMax_of_gt hv, runningMax_of_gt hw]
    cases hgt : w.gt v with
    | true => exact runningMax_of_gt hgt
    | false =>
      obtain ⟨hvn, hwn, hle⟩ := F64.f64Le_iff_rank.mp h
      have hlt : ¬ v.rank < w.rank := fun hlt => Bool.eq_false_iff.mp hgt (F64.gt_iff_rank.mpr ⟨hwn, hvn, hlt⟩)
      rw [runningMax_of_not_gt hgt]
      exact F64.eq_of_rank_eq (F64.gt_iff_rank.mp hv).2.2 (by omega)

theorem not_gt_runningMax_of_le (h : F64Le x v) : x.gt (runningMax m v) = false := by
  cases hv : v.gt m with
  | true =>
    rw [runningMax_of_gt hv]
    exact h.2.2
  | false =>
    rw [runningMax_of_not_gt hv, ← Bool.not_eq_true]
    exact fun hx => Bool.eq_false_iff.mp hv (F64.gt_of_f64Le_of_gt h hx)

theorem nonNegative_ne_nan (h : F64NonNegative x) : x ≠ .nan := by
  rintro rfl
  exact h

theorem nonNegative_runningMax (hm : F64NonNegative m) (hv : v.Unsigned) : F64NonNegative (runningMax m v) := by
  cases h : v.gt m with
  | true =>
    rw [runningMax_of_gt h]
    exact hv.resolve_left (F64.gt_iff_rank.mp h).1
  | false => rwa [runningMax_of_not_gt h]

theorem nonNegative_maximum {v : Nat → F64} (hv : ∀ k, (v k).Unsigned) (n : Nat) : F64NonNegative (maximum v n) := by
  induction n with
  | zero => rfl
  | succ n ih =>
    rw [maximum_succ]
    exact nonNegative_runningMax ih (hv n)

/-- A non-decreasing function takes the maximum of the values to the maximum of its own: a value that replaces the
one held has the function's value not below, and one that does not has it not above. -/
theorem maximum_of_nonDecreasing {g : F64 → F64} (hmono : NonDecreasing g) (hzero : (g F64.zero).gt F64.zero = false)
    (hnan : g .nan = .nan) {v : Nat → F64} (hv : ∀ k, (v k).Unsigned) (n : Nat) :
    maximum (fun k => g (v k)) n = runningMax F64.zero (g (maximum v n)) := by
  induction n with
  | zero => exact (runningMax_of_not_gt hzero).symm
  | succ n ih =>
    have hheld : F64NonNegative (maximum v n) := nonNegative_maximum hv n
    rw [maximum_succ, maximum_succ, ih]
    cases h : (v n).gt (maximum v n) with
    | true =>
      have hnew : F64NonNegative (v n) := (hv n).resolve_left (F64.gt_iff_rank.mp h).1
      rw [runningMax_of_gt h]
      exact runningMax_runningMax_of_le (hmono _ _ hheld hnew (F64.f64Le_of_gt h))
    | false =>
      rw [runningMax_of_not_gt h]
      refine runningMax_of_not_gt ?_
      rcases hv n with heq | hnew
      · rw [heq, hnan]
        exact F64.nan_gt _
      · exact not_gt_runningMax_of_le (hmono _ _ hnew hheld ⟨nonNegative_ne_nan hnew, nonNegative_ne_nan hheld, h⟩)

/-! ### The dB value (R192) -/

theorem ofNat_twenty : F64.ofNat 20 = .fin false 1027 (2 ^ 50) := by decide +kernel

theorem units_twenty : F64.units 1027 (2 ^ 50) ≠ 0 := by decide +kernel

theorem twenty_mul_le (h : F64Le x v) : F64Le ((F64.ofNat 20).mul x) ((F64.ofNat 20).mul v) := by
  rw [ofNat_twenty]
  exact F64.fin_mul_f64Le units_twenty h

theorem twenty_mul_nan : (F64.ofNat 20).mul .nan = .nan := by
  rw [ofNat_twenty]
  rfl

/-- Twenty times a value is above 0 exactly when the value is: the smallest positive value, `2^-1074`, stays so. -/
theorem twenty_mul_gt_zero (x : F64) : ((F64.ofNat 20).mul x).gt F64.zero = x.gt F64.zero := by
  by_cases hnan : x = .nan
  · rw [hnan, twenty_mul_nan]
  cases h : x.gt F64.zero with
  | true =>
    have hsmall : F64Le (.fin false 0 1) x := F64.f64Le_iff_rank.mpr ⟨nofun, hnan, (F64.gt_iff_rank.mp h).2.2⟩
    exact F64.gt_of_f64Le_of_gt (twenty_mul_le hsmall) (by decide +kernel)
  | false =>
    have hle : F64Le ((F64.ofNat 20).mul x) ((F64.ofNat 20).mul F64.zero) := twenty_mul_le ⟨hnan, nofun, h⟩
    rw [show (F64.ofNat 20).mul F64.zero = F64.zero by decide +kernel] at hle
    exact hle.2.2

variable {c : Config}

theorem decibel_nonDecreasing (h : NonDecreasing c.log10) : NonDecreasing (decibel c) :=
  fun _ _ hx hy hle => twenty_mul_le (h _ _ hx hy hle)

theorem decibel_zero_not_gt (h : c.log10 F64.zero = .inf true) : (decibel c F64.zero).gt F64.zero = false := by
  rw [decibel, twenty_mul_gt_zero, h]
  rfl

theorem decibel_nan (h : c.log10 .nan = .nan) : decibel c .nan = .nan := by
  rw [decibel, h, twenty_mul_nan]

/-- Property L4 for the dB value. -/
theorem decibel_gt_zero (hc : c.Admissible) (m : F64) : (decibel c m).gt F64.zero = m.gt (F64.ofNat 1) := by
  obtain ⟨⟨-, -, -, hpos, -⟩, -⟩ := hc
  rw [decibel, twenty_mul_gt_zero, Bool.eq_iff_iff]
  exact hpos m

/-- Settles O45: both registers hold maxima, the dB value is non-decreasing in the magnitude, and it is above 0
exactly for a magnitude above 1. -/
theorem peakCoupling : Obligations.PeakCoupling := by
  intro c s z hz
  refine ⟨_, peakOp_of_holds hz, ?_⟩
  generalize 1024 = n
  simp only [← Nat.lt_add_one_iff, afterBins, Reg.put_value]
  refine ⟨fun k hk => ⟨?_, ?_⟩, maximum_mem _ _, maximum_mem _ _, fun hmono hzero hnan => ?_, fun hc => ?_⟩
  · exact not_gt_maximum (v := fun k => magnitude (z k)) hk
  · exact not_gt_maximum (v := fun k => decibel c (magnitude (z k))) hk
  · exact maximum_of_nonDecreasing (decibel_nonDecreasing hmono) (decibel_zero_not_gt hzero) (decibel_nan hnan)
      (fun k => magnitude_unsigned (z k)) (n + 1)
  · simp only [maximum_eq_zero_iff, decibel_gt_zero hc]

end Sys2Proof.Machine
end

section
/-! `floor` (42_color_mapper.md R233): the greatest integer not above a finite value is representable, so the one
rounding is exact. -/

namespace Sys2Proof
namespace F64

/-- The greatest integer not above a representable value is representable: a value with no bits below the point is that
integer already, and one with such bits is below `2^52`. -/
theorem representable_ediv {z : Int} (hz : Representable z.natAbs) :
    Representable (z / 2 ^ unitExp * 2 ^ unitExp).natAbs := by
  obtain ⟨m, j, hm, hj, hmj⟩ := hz
  rcases Nat.lt_or_ge j unitExp with hlt | hge
  · have hpos : (0 : Int) < 2 ^ unitExp := by positivity
    have hle : j ≤ 1073 := by
      rw [unitExp] at hlt
      omega
    have hbound : z.natAbs < 2 ^ 52 * 2 ^ unitExp :=
      calc z.natAbs = m * 2 ^ j := hmj
        _ < 2 ^ 53 * 2 ^ j := by gcongr
        _ ≤ 2 ^ 53 * 2 ^ 1073 := by gcongr; norm_num
        _ = 2 ^ 52 * 2 ^ unitExp := by rw [← pow_add, ← pow_add, unitExp]
    have habs : |z| < 2 ^ 52 * 2 ^ unitExp := by
      rw [Int.abs_eq_natAbs]
      exact_mod_cast hbound
    obtain ⟨hlow, hhigh⟩ := abs_lt.mp habs
    have h1 : -2 ^ 52 ≤ z / 2 ^ unitExp := Int.le_ediv_of_mul_le hpos (by rw [Int.neg_mul]; exact hlow.le)
    have h2 : z / 2 ^ unitExp < 2 ^ 52 := Int.ediv_lt_of_lt_mul hpos hhigh
    exact representable_mul_pow (by omega) (by decide)
  · have hdvd : (2 : Int) ^ unitExp ∣ z := by
      rw [← Int.natAbs_dvd_natAbs, hmj, Int.natAbs_pow]
      exact (pow_dvd_pow 2 hge).mul_left m
    rw [Int.ediv_mul_cancel hdvd]
    exact ⟨m, j, hm, hj, hmj⟩

theorem floor_fin (s : Bool) (e : Fin 2047) (f : BitVec 52) :
    floor (.fin s e f) = ofRatio s (signed s e f / 2 ^ unitExp).natAbs 1 := rfl

/-- The greatest integer not above a value has the sign of the value. -/
theorem withSign_natAbs_ediv (s : Bool) (e : Fin 2047) (f : BitVec 52) :
    withSign s (signed s e f / 2 ^ unitExp).natAbs = signed s e f / 2 ^ unitExp := by
  have hpos : (0 : Int) < 2 ^ unitExp := by positivity
  cases s with
  | false => exact Int.natAbs_of_nonneg (Int.ediv_nonneg (Int.natCast_nonneg _) hpos.le)
  | true =>
    have hle : signed true e f / 2 ^ unitExp ≤ 0 :=
      Int.ediv_nonpos_of_nonpos_of_neg (Int.neg_nonpos_of_nonneg (Int.natCast_nonneg _)) hpos
    rw [withSign, if_pos rfl, Int.ofNat_natAbs_of_nonpos hle, Int.neg_neg]

/-- `floor` is exact. -/
theorem HasUnits.floor {x : F64} {z : Int} (hx : x.HasUnits z) :
    x.floor.HasUnits (z / 2 ^ unitExp * 2 ^ unitExp) := by
  have hz := representable_ediv hx.representable
  obtain ⟨s, e, f, rfl, rfl⟩ := hx
  refine hasUnits_ofRatio one_pos hz ?_
  rw [Nat.cast_one, mul_one]
  exact congrArg (· * 2 ^ unitExp) (withSign_natAbs_ediv s e f)

/-- A magnitude below 1 has the floor `+0.0`. -/
theorem floor_of_units_lt_one {e : Fin 2047} {f : BitVec 52} (h : units e f < 2 ^ unitExp) :
    floor (.fin false e f) = zero := by
  have hlt : (units e f : Int) < 2 ^ unitExp := by exact_mod_cast h
  have hdiv : signed false e f / 2 ^ unitExp = 0 := Int.ediv_eq_zero_of_lt (Int.natCast_nonneg _) hlt
  rw [floor_fin, hdiv]
  decide +kernel

/-- A value from -1 on and below 0 has the floor -1.0. -/
theorem floor_of_neg_units_le_one {e : Fin 2047} {f : BitVec 52} (h0 : 0 < units e f) (h1 : units e f ≤ 2 ^ unitExp) :
    floor (.fin true e f) = (ofNat 1).neg := by
  have hdiv : signed true e f / 2 ^ unitExp = -1 := by
    have h0 : (0 : Int) < units e f := by exact_mod_cast h0
    have h1 : (units e f : Int) ≤ 2 ^ unitExp := by exact_mod_cast h1
    rw [Int.ediv_eq_iff_of_pos (by positivity)]
    simp only [signed, if_true]
    constructor <;> linarith
  rw [floor_fin, hdiv]
  decide +kernel

end F64

namespace Machine

/-- A value of `n * 2^1074` units is the integer `n` exactly. -/
theorem isExactly_of_hasUnits {x : F64} {n : Int} (hx : x.HasUnits (n * 2 ^ F64.unitExp)) : F64IsExactly x n 1 := by
  obtain ⟨s, e, f, rfl, h⟩ := hx
  exact ⟨s, e, f, rfl, by rw [h, Nat.cast_one, mul_one]⟩

/-- Settles O28: the rounding of the greatest integer is exact, and its sign is that of the operand. -/
theorem floorIsExact : Obligations.FloorIsExact := by
  refine ⟨fun s e f => isExactly_of_hasUnits (F64.HasUnits.floor ⟨s, e, f, rfl, rfl⟩), ?_, ?_, fun e f h => ?_,
    fun e f h0 h1 => ?_, fun _ => rfl, rfl⟩
  · exact F64.floor_of_units_lt_one (by decide +kernel)
  · decide +kernel
  · exact F64.floor_of_units_lt_one h
  · exact F64.floor_of_neg_units_le_one h0 h1

end Machine
end Sys2Proof
end

section
/-! The clamp and `to_byte` (42_color_mapper.md R230, R231, R234): clamped between 0 and 255, a floored value is NaN or
an integer that a byte holds. -/

namespace Sys2Proof
namespace F64
namespace HasUnits
variable {x y : F64} {a b : Int}

theorem lt_iff (hx : x.HasUnits a) (hy : y.HasUnits b) : x.lt y = true ↔ a < b := by
  obtain ⟨s, e, f, rfl, rfl⟩ := hx
  obtain ⟨t, g, h, rfl, rfl⟩ := hy
  exact decide_eq_true_iff

/-- Integers are compared as integers. -/
theorem lt_iff_of_integers (hx : x.HasUnits (a * 2 ^ unitExp)) (hy : y.HasUnits (b * 2 ^ unitExp)) :
    x.lt y = true ↔ a < b :=
  (hx.lt_iff hy).trans (mul_lt_mul_iff_left₀ (by positivity))

theorem rank_lt_iff (hx : x.HasUnits a) (hy : y.HasUnits b) : x.rank < y.rank ↔ a < b := by
  rw [← hx.lt_iff hy, lt_iff_rank]
  obtain ⟨s, e, f, rfl, -⟩ := hx
  obtain ⟨t, g, h, rfl, -⟩ := hy
  simp

/-- A positive number of units belongs to one value; 0 units belong to both zeros. -/
theorem eq_of_pos (hx : x.HasUnits a) (hy : y.HasUnits a) (ha : 0 < a) : x = y := by
  have hpos : 0 < x.rank := (hasUnits_zero.rank_lt_iff hx).mpr ha
  have hxy := (hx.rank_lt_iff hy).not.mpr (lt_irrefl a)
  have hyx := (hy.rank_lt_iff hx).not.mpr (lt_irrefl a)
  exact eq_of_rank_eq hpos (by omega)

end HasUnits

theorem ofNat_zero : ofNat 0 = zero := by decide +kernel

end F64

namespace Machine
variable {x lo hi z : F64} {b : Byte}

/-! ### The clamp (R230) -/

theorem clamp_of_lt (h : x.lt lo = true) : clamp x lo hi = F64.zero := if_pos h

theorem clamp_of_gt (hlo : x.lt lo = false) (hhi : x.gt hi = true) : clamp x lo hi = F64.ofNat 255 := by
  rw [clamp, if_neg (Bool.eq_false_iff.mp hlo), if_pos hhi]

theorem clamp_of_between (hlo : x.lt lo = false) (hhi : x.gt hi = false) : clamp x lo hi = x := by
  rw [clamp, if_neg (Bool.eq_false_iff.mp hlo), if_neg (Bool.eq_false_iff.mp hhi)]

/-! ### `to_byte` (R234) -/

/-- A finite value has the byte that it is equal to, if there is one. -/
theorem toByte_eq_some_iff {u : Int} (hz : z.HasUnits u) : toByte z = some b ↔ u = b.toNat * 2 ^ F64.unitExp := by
  obtain ⟨s, e, f, rfl, rfl⟩ := hz
  have hpos : (0 : Int) < 2 ^ F64.unitExp := by positivity
  have hb := b.isLt
  rw [toByte]
  generalize F64.signed s e f = u
  generalize (2 : Int) ^ F64.unitExp = d at hpos ⊢
  simp only [Option.ite_none_right_eq_some, Option.some.injEq]
  constructor
  · rintro ⟨⟨hmod, hnonneg, hle⟩, rfl⟩
    have hq : 0 ≤ u / d := Int.ediv_nonneg hnonneg hpos.le
    have hbyte : ((BitVec.ofInt 8 (u / d)).toNat : Int) = u / d := by
      rw [BitVec.toNat_ofInt]
      omega
    rw [hbyte, Int.ediv_mul_cancel_of_emod_eq_zero hmod]
  · rintro rfl
    rw [Int.mul_emod_left, Int.mul_ediv_cancel _ hpos.ne', BitVec.ofInt_natCast, BitVec.ofNat_toNat, BitVec.setWidth_eq]
    exact ⟨⟨rfl, by positivity, by omega⟩, rfl⟩

theorem toByte_ofNat (b : Byte) : toByte (F64.ofNat b.toNat) = some b :=
  (toByte_eq_some_iff (F64.hasUnits_ofNat (by omega))).mpr rfl

theorem toByte_eq_some_cases :
    toByte z = some b ↔ (z = .nan ∧ b = 0) ∨ (z = F64.negZero ∧ b = 0) ∨ z = F64.ofNat b.toNat := by
  have hbyte : (F64.ofNat b.toNat).HasUnits (b.toNat * 2 ^ F64.unitExp) := F64.hasUnits_ofNat (by omega)
  constructor
  · intro h
    rcases z with _ | s | ⟨s, e, f⟩
    · exact .inl ⟨rfl, (Option.some.inj h).symm⟩
    · exact absurd h nofun
    · right
      have hz : F64.HasUnits (.fin s e f) (b.toNat * 2 ^ F64.unitExp) :=
        ⟨s, e, f, rfl, (toByte_eq_some_iff ⟨s, e, f, rfl, rfl⟩).mp h⟩
      rcases Nat.eq_zero_or_pos b.toNat with h0 | hpos
      · rw [h0, Nat.cast_zero, zero_mul] at hz
        rw [h0, F64.ofNat_zero]
        exact hz.isZero.symm.imp_left (⟨·, BitVec.eq_of_toNat_eq h0⟩)
      · exact .inr (hz.eq_of_pos hbyte (by positivity))
  · rintro (⟨rfl, rfl⟩ | ⟨rfl, rfl⟩ | rfl)
    · rfl
    · decide +kernel
    · exact toByte_ofNat b

/-! ### The clamp of a floored value -/

theorem clamp_minus_infinity : clamp (.inf true) (F64.ofNat 0) (F64.ofNat 255) = F64.ofNat 0 := by decide +kernel

theorem clamp_infinity : clamp (.inf false) (F64.ofNat 0) (F64.ofNat 255) = F64.ofNat 255 := by decide +kernel

theorem clamp_nan : clamp .nan lo hi = .nan := clamp_of_between rfl (F64.nan_gt hi)

/-- A finite value is floored and clamped as an integer. -/
theorem toByte_clamp_floor {u : Int} (hx : x.HasUnits u) :
    ∃ b : Byte, toByte (clamp x.floor (F64.ofNat 0) (F64.ofNat 255)) = some b ∧
      (b.toNat : Int) = max 0 (min 255 (u / 2 ^ F64.unitExp)) := by
  have hfloor := hx.floor
  generalize u / 2 ^ F64.unitExp = k at hfloor ⊢
  have hlow : x.floor.lt (F64.ofNat 0) = true ↔ k < 0 :=
    hfloor.lt_iff_of_integers (F64.hasUnits_ofNat (n := 0) (by norm_num))
  have hhigh : x.floor.gt (F64.ofNat 255) = true ↔ 255 < k :=
    (F64.hasUnits_ofNat (n := 255) (by norm_num)).lt_iff_of_integers hfloor
  rcases lt_or_ge k 0 with hneg | hnonneg
  · refine ⟨0, ?_, by simp; omega⟩
    rw [clamp_of_lt (hlow.mpr hneg), ← F64.ofNat_zero]
    exact toByte_ofNat 0
  have hlow := Bool.eq_false_iff.mpr (hlow.not.mpr hnonneg.not_gt)
  rcases lt_or_ge 255 k with hbig | hle
  · refine ⟨255, ?_, by simp; omega⟩
    rw [clamp_of_gt hlow (hhigh.mpr hbig)]
    exact toByte_ofNat 255
  · have hbyte : ((BitVec.ofNat 8 k.toNat).toNat : Int) = k := by
      rw [BitVec.toNat_ofNat]
      omega
    refine ⟨BitVec.ofNat 8 k.toNat, ?_, by omega⟩
    rw [clamp_of_between hlow (Bool.eq_false_iff.mpr (hhigh.not.mpr hle.not_gt)), toByte_eq_some_iff hfloor, hbyte]

/-- Settles O51: the three cases of the clamp are its tests, and a byte is a zero or the integer it holds. -/
theorem clampAndToByte : Obligations.ClampAndToByte := by
  refine ⟨fun _ _ _ => clamp_of_lt, fun _ _ _ => clamp_of_gt, fun _ _ _ => clamp_of_between, ?_, ?_, ?_,
    clamp_minus_infinity, clamp_infinity, clamp_nan, ?_, ?_, ?_, ?_, ?_, fun _ _ => toByte_eq_some_cases, ?_⟩
  iterate 8 decide +kernel
  intro x
  rcases x with _ | (_ | _) | ⟨s, e, f⟩
  · exact ⟨0, congrArg toByte clamp_nan⟩
  · exact ⟨255, (congrArg toByte clamp_infinity).trans (toByte_ofNat 255)⟩
  · exact ⟨0, (congrArg toByte clamp_minus_infinity).trans (toByte_ofNat 0)⟩
  · obtain ⟨b, hb, -⟩ := toByte_clamp_floor ⟨s, e, f, rfl, rfl⟩
    exact ⟨b, hb⟩

end Machine
end Sys2Proof
end

section
/-! The function `hsv` (42_color_mapper.md R226, R227): its domain, which the hue alone decides, and its sectors. -/

namespace Sys2Proof
namespace F64

/-! ### The quotient of the hue by 60 -/

theorem ofNat_sixty : ofNat 60 = .fin false 1028 (7 * 2 ^ 49) := by decide +kernel

theorem units_sixty : units 1028 (7 * 2 ^ 49) = 60 * 2 ^ unitExp := by decide +kernel

theorem units_lt_two_pow (e : Fin 2047) (f : BitVec 52) : units e f < 2 ^ (1024 + unitExp) := by
  obtain ⟨m, j, hm, hj, h⟩ := representable_units e f
  calc units e f = m * 2 ^ j := h
    _ < 2 ^ 53 * 2 ^ j := by gcongr
    _ ≤ 2 ^ 53 * 2 ^ 2045 := by gcongr; norm_num
    _ = 2 ^ (1024 + unitExp) := by rw [← pow_add, unitExp]

/-- A finite hue does not overflow. -/
theorem fin_div_sixty (s : Bool) (e : Fin 2047) (f : BitVec 52) :
    ∃ e' f', (fin s e f).div (ofNat 60) = .fin s e' f' := by
  have hle : units e f ≤ 2 ^ 1023 * (60 * 2 ^ unitExp) :=
    calc units e f ≤ 2 ^ (1024 + unitExp) := (units_lt_two_pow e f).le
      _ = 2 ^ 1023 * (2 * 2 ^ unitExp) := by rw [pow_add, ← mul_assoc, ← pow_succ]
      _ ≤ 2 ^ 1023 * (60 * 2 ^ unitExp) := by gcongr; norm_num
  obtain ⟨e', f', h, -⟩ := ofRatio_le s (by positivity) le_rfl hle
  refine ⟨e', f', ?_⟩
  rw [ofNat_sixty, div, units_sixty, if_neg (by positivity), Bool.xor_false, h]

theorem floorInt_eq_none_iff {x : F64} : x.floorInt = none ↔ x = .nan ∨ ∃ s, x = .inf s := by
  cases x <;> simp [floorInt]

/-- The quotient has no integer below it exactly when the hue has none. -/
theorem floorInt_div_sixty_eq_none_iff {h : F64} :
    (h.div (ofNat 60)).floorInt = none ↔ h = .nan ∨ ∃ s, h = .inf s := by
  rw [floorInt_eq_none_iff]
  rcases h with _ | s | ⟨s, e, f⟩
  · exact iff_of_true (.inl rfl) (.inl rfl)
  · refine iff_of_true (.inr ⟨s, ?_⟩) (.inr ⟨s, rfl⟩)
    rw [ofNat_sixty, div, Bool.xor_false]
  · obtain ⟨e', f', hdiv⟩ := fin_div_sixty s e f
    rw [hdiv]
    exact iff_of_false nofun nofun

end F64

namespace Machine
variable {h s v hp : F64} {i : Int}

/-! ### The sector (R227) -/

theorem sectorOf_eq_some (hi : hp.floorInt = some i) (hlt : i.natAbs < 2 ^ 31) : sectorOf hp = some i := by
  rw [sectorOf, hi]
  exact if_pos hlt

theorem sectorOf_eq_none_iff :
    sectorOf hp = none ↔ hp.floorInt = none ∨ ∃ i : Int, hp.floorInt = some i ∧ 2 ^ 31 ≤ i.natAbs := by
  unfold sectorOf
  cases hp.floorInt <;> simp

/-- A truncating remainder of a negative number is not positive, so only two of the six cases are left. -/
theorem sectorCase_of_neg (hi : i < 0) (v p q t : F64) :
    sectorCase i v p q t = if i % 6 = 0 then ⟨v, t, p⟩ else ⟨v, p, q⟩ := by
  have hnonpos : 0 ≤ -i.tmod 6 := Int.neg_tmod i 6 ▸ Int.tmod_nonneg 6 (by omega)
  have hzero : i.tmod 6 = 0 ↔ i % 6 = 0 := by rw [← Int.dvd_iff_tmod_eq_zero, Int.dvd_iff_emod_eq_zero]
  simp only [sectorCase, hzero]
  rw [if_neg (c := i.tmod 6 = 1) (by omega), if_neg (c := i.tmod 6 = 2) (by omega),
    if_neg (c := i.tmod 6 = 3) (by omega), if_neg (c := i.tmod 6 = 4) (by omega)]

/-! ### The function `hsv` (R226) -/

theorem hsvOf_eq_none_iff_sectorOf : hsvOf h s v = none ↔ sectorOf (h.div (F64.ofNat 60)) = none := by
  rw [hsvOf]
  cases sectorOf (h.div (F64.ofNat 60)) with
  | none => exact iff_of_true rfl rfl
  | some i => cases s.ieeeEq F64.zero <;> simp

/-- Settles O49: the hue decides the domain, since its quotient by 60 is finite when it is, and a negative sector has a
remainder that is not positive. -/
theorem hsvSectorAlgorithm : Obligations.HsvSectorAlgorithm := by
  refine ⟨fun h s v i hs hi hlt => ?_, fun h s v i hs hi hlt => ?_, fun h s v => ?_,
    fun i v p q t hi => sectorCase_of_neg hi v p q t⟩
  · simp only [hsvOf, sectorOf_eq_some hi hlt, hs, if_true]
  · simp only [hsvOf, sectorOf_eq_some hi hlt, hs, Bool.false_eq_true, if_false, sectorCase]
  · rw [hsvOf_eq_none_iff_sectorOf, sectorOf_eq_none_iff, F64.floorInt_div_sixty_eq_none_iff, or_assoc]

end Machine
end Sys2Proof
end

section
/-! Bounds by powers of two (00_scope.md R11): what an operation of binary64 makes of operands of a bounded
magnitude. -/

namespace Sys2Proof
namespace F64
open Machine

/-- A finite value of magnitude at least `2^k`. -/
def AtLeast (k : Nat) (x : F64) : Prop := ∃ s e f, x = .fin s e f ∧ 2 ^ (k + unitExp) ≤ units e f

variable {x y : F64} {i j k n : Nat}

theorem atMost_iff : F64AtMost k x ↔ ∃ s e f, x = .fin s e f ∧ units e f ≤ 2 ^ (k + unitExp) := by
  cases x <;> simp [F64AtMost]

theorem atMost_mono (hjk : j ≤ k) (h : F64AtMost j x) : F64AtMost k x := by
  obtain ⟨s, e, f, rfl, hu⟩ := atMost_iff.mp h
  exact hu.trans (Nat.pow_le_pow_right two_pos (by omega))

theorem atMost_neg (h : F64AtMost k x) : F64AtMost k x.neg := by
  obtain ⟨s, e, f, rfl, hu⟩ := atMost_iff.mp h
  exact hu

theorem atMost_of_hasUnits {z : Int} (hx : x.HasUnits z) (hz : z.natAbs ≤ 2 ^ (k + unitExp)) : F64AtMost k x := by
  obtain ⟨s, e, f, rfl, rfl⟩ := hx
  rwa [natAbs_signed] at hz

/-! ### Rounding -/

theorem atMost_ofRatio (neg : Bool) {d : Nat} (hd : 0 < d) (hk : k ≤ 1023) (h : n ≤ 2 ^ k * d) :
    F64AtMost k (ofRatio neg n d) := by
  obtain ⟨e, f, hx, hu⟩ := ofRatio_le neg hd hk h
  exact atMost_iff.mpr ⟨neg, e, f, hx, hu⟩

theorem atMost_ofNat (hk : k ≤ 1023) (h : n ≤ 2 ^ k) : F64AtMost k (ofNat n) :=
  atMost_ofRatio false one_pos hk (by rwa [mul_one])

theorem atLeast_ofNat (hn : n < 2 ^ 53) (h : 2 ^ k ≤ n) : (ofNat n).AtLeast k := by
  obtain ⟨s, e, f, hx, hz⟩ := hasUnits_ofNat hn
  have hu : units e f = n * 2 ^ unitExp := by
    rw [← natAbs_signed s, hz]
    exact_mod_cast Int.natAbs_natCast (n * 2 ^ unitExp)
  refine ⟨s, e, f, hx, ?_⟩
  rw [hu, pow_add]
  exact Nat.mul_le_mul_right _ h

/-- The code of `2^k` is `(k + 1023) * 2^52`, and no smaller code has more units. -/
theorem atMost_pack (neg : Bool) (hk : k ≤ 1023) (h : n ≤ (k + 1023) * 2 ^ 52) : F64AtMost k (pack neg n) := by
  have hn : n / 2 ^ 52 < 2047 := by omega
  have hcode : code ⟨n / 2 ^ 52, hn⟩ (BitVec.ofNat 52 n) ≤ code ⟨k + 1023, by omega⟩ 0 := by
    simp only [code, BitVec.toNat_ofNat]
    omega
  have htop : units ⟨k + 1023, by omega⟩ 0 = 2 ^ (k + unitExp) := by
    rw [units, if_neg (by simp), unitExp, show k + 1074 = 52 + (k + 1023 - 1) by omega, pow_add]
    rfl
  rw [pack, dif_pos hn]
  exact (units_le_units_iff.mpr hcode).trans_eq htop

/-! ### Sums, products and quotients -/

theorem atMost_mul (hx : F64AtMost i x) (hy : F64AtMost j y) (hij : i + j ≤ k) (hk : k ≤ 1023) :
    F64AtMost k (x.mul y) := by
  obtain ⟨s, e, f, rfl, hu⟩ := atMost_iff.mp hx
  obtain ⟨t, g, h, rfl, hv⟩ := atMost_iff.mp hy
  refine atMost_ofRatio _ (by positivity) hk ?_
  calc units e f * units g h ≤ 2 ^ (i + unitExp) * 2 ^ (j + unitExp) := Nat.mul_le_mul hu hv
    _ = 2 ^ (i + j) * 2 ^ (2 * unitExp) := by ring
    _ ≤ 2 ^ k * 2 ^ (2 * unitExp) := by gcongr; norm_num

theorem atMost_add (hx : F64AtMost k x) (hy : F64AtMost k y) (hk : k + 1 ≤ 1023) : F64AtMost (k + 1) (x.add y) := by
  obtain ⟨s, e, f, rfl, hu⟩ := atMost_iff.mp hx
  obtain ⟨t, g, h, rfl, hv⟩ := atMost_iff.mp hy
  refine atMost_ofRatio _ (by positivity) hk ?_
  calc (signed s e f + signed t g h).natAbs ≤ units e f + units g h := by
        simpa using Int.natAbs_add_le (signed s e f) (signed t g h)
    _ ≤ 2 ^ (k + unitExp) + 2 ^ (k + unitExp) := Nat.add_le_add hu hv
    _ = 2 ^ (k + 1) * 2 ^ unitExp := by ring

theorem atMost_sub (hx : F64AtMost k x) (hy : F64AtMost k y) (hk : k + 1 ≤ 1023) : F64AtMost (k + 1) (x.sub y) :=
  atMost_add hx (atMost_neg hy) hk

theorem atMost_div (hx : F64AtMost i x) (hy : y.AtLeast j) (hij : i ≤ j + k) (hk : k ≤ 1023) :
    F64AtMost k (x.div y) := by
  obtain ⟨s, e, f, rfl, hu⟩ := atMost_iff.mp hx
  obtain ⟨t, g, h, rfl, hv⟩ := hy
  have hpos : 0 < units g h := (Nat.two_pow_pos _).trans_le hv
  rw [div, if_neg hpos.ne']
  refine atMost_ofRatio _ hpos hk ?_
  calc units e f ≤ 2 ^ (i + unitExp) := hu
    _ ≤ 2 ^ (j + k + unitExp) := Nat.pow_le_pow_right two_pos (by omega)
    _ = 2 ^ k * 2 ^ (j + unitExp) := by ring
    _ ≤ 2 ^ k * units g h := Nat.mul_le_mul_left _ hv

/-! ### The square root -/

theorem rootBits_lt (m b r : Nat) : rootBits m b r < r + 2 ^ b := by
  induction b generalizing r with
  | zero => simp [rootBits]
  | succ b ih =>
    have hpos := Nat.two_pow_pos b
    have hpow : 2 ^ (b + 1) = 2 ^ b + 2 ^ b := by rw [pow_succ, mul_two]
    have htake := ih (r + 2 ^ b)
    have hskip := ih r
    rw [rootBits]
    split <;> omega

theorem nearestRoot_le (m e : Nat) : nearestRoot m e ≤ 2 ^ 53 := by
  have h := rootBits_lt (m / 4 ^ e) 53 0
  rw [nearestRoot]
  split <;> omega

/-- The exponent of a root is half of that of its operand. -/
theorem atMost_rootOfUnits (hk : k + 1 ≤ 1023) (h : n ≤ 2 ^ (2 * k + 1 + unitExp)) :
    F64AtMost (k + 1) (rootOfUnits n) := by
  have hm : n * 2 ^ unitExp ≤ 2 ^ (2 * k + 2149) :=
    calc n * 2 ^ unitExp ≤ 2 ^ (2 * k + 1 + unitExp) * 2 ^ unitExp := Nat.mul_le_mul_right _ h
      _ = 2 ^ (2 * k + 2149) := by rw [← pow_add, unitExp]
  have hlog : Nat.log2 (n * 2 ^ unitExp) ≤ 2 * k + 2149 :=
    calc Nat.log2 (n * 2 ^ unitExp) = Nat.log 2 (n * 2 ^ unitExp) := Nat.log2_eq_log_two
      _ ≤ Nat.log 2 (2 ^ (2 * k + 2149)) := Nat.log_mono_right hm
      _ = 2 * k + 2149 := Nat.log_pow one_lt_two _
  have hroot := nearestRoot_le (n * 2 ^ unitExp) (Nat.log2 (n * 2 ^ unitExp) / 2 - 52)
  rw [rootOfUnits]
  exact atMost_pack false hk (by omega)

theorem atMost_sqrt (hx : x.Unsigned) (h : F64AtMost (2 * k + 1) x) (hk : k + 1 ≤ 1023) :
    F64AtMost (k + 1) x.sqrt := by
  obtain rfl | rfl | ⟨e, f, rfl⟩ := hx.cases
  · exact h.elim
  · exact h.elim
  · rw [sqrt, if_neg Bool.false_ne_true]
    split
    · exact Nat.zero_le _
    · exact atMost_rootOfUnits hk h

/-! ### Encodings (R102) -/

theorem ofBits_ofNat (h : n < 2047 * 2 ^ 52) : ofBits (BitVec.ofNat 64 n) = pack false n := by
  have he : ((BitVec.ofNat 64 n).extractLsb' 52 11).toNat = n / 2 ^ 52 := by
    rw [BitVec.extractLsb'_toNat, BitVec.toNat_ofNat, Nat.shiftRight_eq_div_pow]
    omega
  have hf : (BitVec.ofNat 64 n).extractLsb' 0 52 = BitVec.ofNat 52 n := by
    refine BitVec.eq_of_toNat_eq ?_
    rw [BitVec.extractLsb'_toNat, BitVec.toNat_ofNat, BitVec.toNat_ofNat, Nat.shiftRight_zero]
    omega
  have hs : (BitVec.ofNat 64 n).getLsbD 63 = false := by
    rw [BitVec.getLsbD_ofNat, Nat.testBit_lt_two_pow (by omega), Bool.and_false]
  have hlt : n / 2 ^ 52 < 2047 := by omega
  simp only [ofBits, he, hf, hs, pack, hlt, dite_true]

end F64

namespace Machine
open F64

/-! ### The twiddle ROM (R146) -/

theorem cosines_le_one : ∀ n ∈ Rom.cosines, n ≤ 1023 * 2 ^ 52 := by
  have h : (Rom.cosines.all fun n => decide (n ≤ 1023 * 2 ^ 52)) = true := by decide +kernel
  simpa using h

theorem atMost_cosine (k : Nat) : F64AtMost 0 (Rom.cosine k) := by
  have hle : Rom.cosines.getD k 0 ≤ 1023 * 2 ^ 52 := by
    rw [List.getD_eq_getElem?_getD]
    cases hk : Rom.cosines[k]? with
    | none => exact Nat.zero_le _
    | some n => exact cosines_le_one n (List.mem_of_getElem? hk)
  rw [Rom.cosine, ofBits_ofNat (by omega)]
  exact atMost_pack false (Nat.zero_le _) (by omega)

/-- Both parts of a twiddle are at most 1. -/
theorem atMost_twiddle (k : Nat) : CplxAtMost 0 (Rom.twiddle k) := by
  constructor
  · simp only [Rom.twiddle, Rom.twiddleRe]
    split
    · exact atMost_cosine k
    · exact atMost_neg (atMost_cosine _)
  · simp only [Rom.twiddle, Rom.twiddleIm]
    split
    · exact Nat.zero_le _
    · split
      · exact atMost_neg (atMost_cosine _)
      · exact atMost_neg (atMost_cosine _)

/-! ### The network (R150 to R153) and the magnitude (R190) -/

variable {a b w z : Cplx} {k : Nat}

theorem cplxAtMost_mono {j : Nat} (hjk : j ≤ k) (h : CplxAtMost j z) : CplxAtMost k z :=
  h.imp (atMost_mono hjk) (atMost_mono hjk)

theorem atMost_cmul (hw : CplxAtMost 0 w) (hb : CplxAtMost k b) (hk : k + 1 ≤ 1023) : CplxAtMost (k + 1) (cmul w b) := by
  have product {x y : F64} (hx : F64AtMost 0 x) (hy : F64AtMost k y) : F64AtMost k (x.mul y) :=
    atMost_mul hx hy (Nat.zero_add k).le (by omega)
  obtain ⟨hwr, hwi⟩ := hw
  obtain ⟨hbr, hbi⟩ := hb
  exact ⟨atMost_sub (product hwr hbr) (product hwi hbi) hk, atMost_add (product hwr hbi) (product hwi hbr) hk⟩

theorem atMost_cadd (ha : CplxAtMost k a) (hb : CplxAtMost k b) (hk : k + 1 ≤ 1023) : CplxAtMost (k + 1) (cadd a b) :=
  ⟨atMost_add ha.1 hb.1 hk, atMost_add ha.2 hb.2 hk⟩

theorem atMost_csub (ha : CplxAtMost k a) (hb : CplxAtMost k b) (hk : k + 1 ≤ 1023) : CplxAtMost (k + 1) (csub a b) :=
  ⟨atMost_sub ha.1 hb.1 hk, atMost_sub ha.2 hb.2 hk⟩

/-- A stage multiplies the bound by 4: a product with a twiddle by 2, and the sum or difference by 2. -/
theorem atMost_stageValue {v : Nat → Cplx} (hv : ∀ i, CplxAtMost k (v i)) (hk : k + 2 ≤ 1023) (g i : Nat) :
    CplxAtMost (k + 2) (stageValue g v i) := by
  have hleft i : CplxAtMost (k + 1) (v i) := cplxAtMost_mono k.le_succ (hv i)
  have hright q i : CplxAtMost (k + 1) (cmul (Rom.twiddle q) (v i)) := atMost_cmul (atMost_twiddle q) (hv i) (by omega)
  unfold stageValue
  split
  · exact atMost_cadd (hleft _) (hright _ _) hk
  · exact atMost_csub (hleft _) (hright _ _) hk

theorem atMost_networkValue {x : Nat → F64} (hx : ∀ n, F64AtMost 0 (x n)) {g : Nat} (hg : g ≤ 11) (i : Nat) :
    CplxAtMost (2 * g) (networkValue x g i) := by
  induction g generalizing i with
  | zero => exact ⟨hx _, Nat.zero_le _⟩
  | succ g ih => exact atMost_stageValue (ih (by omega)) (by omega) (g + 1) i

theorem natAbs_mul_two_pow (z : Int) (j : Nat) : (z * 2 ^ j).natAbs = z.natAbs * 2 ^ j := by
  rw [Int.natAbs_mul, Int.natAbs_pow]
  rfl

theorem atMost_sampleInput (lo hi : Byte) : F64AtMost 0 (sampleInput lo hi) := by
  have hle := BitVec.le_toInt (sample16 lo hi)
  have hlt := BitVec.toInt_lt (x := sample16 lo hi)
  refine atMost_of_hasUnits (hasUnits_normalise (sample16 lo hi)) ?_
  have habs : (sample16 lo hi).toInt.natAbs ≤ 2 ^ 15 := by omega
  calc ((sample16 lo hi).toInt * 2 ^ 1059).natAbs = (sample16 lo hi).toInt.natAbs * 2 ^ 1059 :=
        natAbs_mul_two_pow _ _
    _ ≤ 2 ^ 15 * 2 ^ 1059 := Nat.mul_le_mul_right _ habs
    _ = 2 ^ (0 + unitExp) := by rw [← pow_add, unitExp]

theorem atMost_magnitude (hz : CplxAtMost k z) (hk : 2 * k + 1 ≤ 1023) : F64AtMost (k + 1) (magnitude z) := by
  have square {x : F64} (hx : F64AtMost k x) : F64AtMost (2 * k) (x.mul x) :=
    atMost_mul hx hx (two_mul k).ge (by omega)
  exact atMost_sqrt (unsigned_add (unsigned_mul_self z.re) (unsigned_mul_self z.im))
    (atMost_add (square hz.1) (square hz.2) hk) (by omega)

theorem atMost_maximum {v : Nat → F64} (hv : ∀ i, F64AtMost k (v i)) (n : Nat) : F64AtMost k (maximum v n) := by
  rcases maximum_mem v n with h | ⟨i, -, h⟩
  · rw [h]
    exact Nat.zero_le _
  · rw [h]
    exact hv i

/-! ### The hue and its domain (R220 to R227) -/

variable {m h : F64}

/-- R221: `44100 < 2^16` and `1025 > 2^10`. -/
theorem atMost_dominantFrequency (hm : F64AtMost 23 m) : F64AtMost 29 (dominantFrequency m) :=
  have hproduct : F64AtMost 39 (m.mul (ofNat 44100)) :=
    atMost_mul hm (atMost_ofNat (k := 16) (by norm_num) (by norm_num)) (by norm_num) (by norm_num)
  atMost_div hproduct (atLeast_ofNat (k := 10) (by norm_num) (by norm_num)) (by norm_num) (by norm_num)

/-- R223: `360 < 2^9`, `22050 > 2^14` and `1.2 < 2`. -/
theorem atMost_hueOf (hm : F64AtMost 29 m) : F64AtMost 25 (hueOf m) :=
  have hproduct : F64AtMost 38 (m.mul (ofNat 360)) :=
    atMost_mul hm (atMost_ofNat (k := 9) (by norm_num) (by norm_num)) (by norm_num) (by norm_num)
  have hquotient : F64AtMost 24 ((m.mul (ofNat 360)).div (ofNat 22050)) :=
    atMost_div hproduct (atLeast_ofNat (k := 14) (by norm_num) (by norm_num)) (by norm_num) (by norm_num)
  have hfactor : F64AtMost 1 hueFactor := atMost_ofRatio false (by norm_num) (by norm_num) (by norm_num)
  atMost_mul hquotient hfactor (by norm_num) (by norm_num)

theorem exists_sectorOf (hh : F64AtMost 30 h) : ∃ i, sectorOf h = some i := by
  obtain ⟨s, e, f, rfl, hu⟩ := atMost_iff.mp hh
  refine ⟨_, sectorOf_eq_some rfl ?_⟩
  have hpos : (0 : Int) < 2 ^ unitExp := by positivity
  have habs : |signed s e f| ≤ 2 ^ 30 * 2 ^ unitExp := by
    rw [Int.abs_eq_natAbs, natAbs_signed, ← pow_add]
    exact_mod_cast hu
  generalize (2 : Int) ^ unitExp = d at hpos habs ⊢
  obtain ⟨hlow, hhigh⟩ := abs_le.mp habs
  have h1 : -2 ^ 30 ≤ signed s e f / d := Int.le_ediv_of_mul_le hpos (by rwa [Int.neg_mul])
  have h2 : signed s e f / d ≤ 2 ^ 30 := Int.ediv_le_of_le_mul hpos hhigh
  omega

/-- R227: a hue of a bounded magnitude is in the domain. -/
theorem exists_hsvOf (hh : F64AtMost 25 h) (s v : F64) : ∃ o, hsvOf h s v = some o := by
  have hquotient : F64AtMost 30 (h.div (ofNat 60)) :=
    atMost_div hh (atLeast_ofNat (k := 5) (by norm_num) (by norm_num)) (by norm_num) (by norm_num)
  obtain ⟨i, hi⟩ := exists_sectorOf hquotient
  refine Option.ne_none_iff_exists'.mp fun hnone => ?_
  rw [hsvOf_eq_none_iff_sectorOf, hi] at hnone
  cases hnone

/-- R232, R234: every channel value has its byte. -/
theorem exists_channelByte (x : F64) : ∃ b, toByte (channelLevel x) = some b := by
  obtain ⟨-, -, -, -, -, -, -, -, -, -, -, -, -, -, -, htotal⟩ := clampAndToByte
  exact htotal (x.mul (ofNat 255))

end Machine
end Sys2Proof
end

section
/-! The frame of an operation: frames compose, and a loop has the frame that its rounds have. -/

namespace Sys2Proof.Machine

variable {s t u : State} {l m : List Part} {p : Part}

theorem agree_trans (h : s.agree t p) (h' : t.agree u p) : s.agree u p := by
  cases p <;> simp_all [State.agree]

theorem agree_of_frame (h : s.frame l t) (hp : p ∉ l) : s.agree t p := h.1 p hp

theorem frame_refl (s : State) (l : List Part) : s.frame l s :=
  ⟨fun p _ => by cases p <;> simp [State.agree], rfl, rfl, rfl⟩

theorem frame_trans (h : s.frame l t) (h' : t.frame l u) : s.frame l u := by
  obtain ⟨hp, hop, hreset, htrace⟩ := h
  obtain ⟨hp', hop', hreset', htrace'⟩ := h'
  exact ⟨fun p hl => agree_trans (hp p hl) (hp' p hl), hop'.trans hop, hreset'.trans hreset, htrace'.trans htrace⟩

theorem frame_mono (h : s.frame l t) (hlm : l ⊆ m) : s.frame m t := by
  obtain ⟨hp, hrest⟩ := h
  exact ⟨fun p hm => hp p fun hl => hm (hlm hl), hrest⟩

theorem frame_s (s : State) (b : Memory Cplx) : s.frame [.s] { s with sBuf := b } :=
  ⟨fun p hp => by cases p <;> simp_all [State.agree], rfl, rfl, rfl⟩

theorem forEach_frame {body : Nat → State → Res} {is : List Nat} (h : forEach body is s = .ok t)
    (round : ∀ i u v, body i u = .ok v → u.frame l v) : s.frame l t :=
  forEach_keeps (P := s.frame l) (fun i _ u v hu hv => frame_trans hu (round i u v hv)) (frame_refl s l) h

/-- R154: the network writes `TWV`, `A` and `S` and nothing else. -/
theorem networkOp_frame (h : networkOp s = .ok t) : s.frame [.twv, .a, .s] t := by
  obtain ⟨u, v, hu, hv, ht⟩ := networkOp_eq_ok.mp h
  have hbrev : s.frame [.twv, .a, .s] u := forEach_frame hu fun j w x hx => by
    obtain ⟨z, -, rfl⟩ := brevStep_eq_ok.mp hx
    exact frame_mono (frame_a w _) (by simp)
  have hstages : u.frame [.twv, .a, .s] v := forEach_frame hv fun g w x hx => forEach_frame hx fun p y z hz => by
    obtain ⟨a, b, -, -, rfl⟩ := bflyOp_eq_ok.mp hz
    exact frame_mono (frame_twv_a y _ _) (by simp)
  have hbins : v.frame [.twv, .a, .s] t := forEach_frame ht fun k w x hx => by
    obtain ⟨z, -, rfl⟩ := binStep_eq_ok.mp hx
    exact frame_mono (frame_s w _) (by simp)
  exact frame_trans (frame_trans hbrev hstages) hbins

end Sys2Proof.Machine
end

section
/-! The analysis of a Block (45_sequencer.md R323): `SPECTRUM` and `MAPC` complete on every Block, since no magnitude
of a spectrum is so great that its hue leaves the domain of R227. -/

namespace Sys2Proof.Machine
open F64

variable {s t : State} {c : Config} {m d : F64}

/-! ### SPECTRUM -/

/-- R143, R154: the spectrum of the Block `b`. -/
def spectrumOf (b : Nat → Byte) : Nat → Cplx := networkValue (fun n => sampleInput (b (2 * n)) (b (2 * n + 1))) 11

theorem atMost_spectrumOf (b : Nat → Byte) (k : Nat) : CplxAtMost 22 (spectrumOf b k) := by
  unfold spectrumOf
  exact atMost_networkValue (fun _ => atMost_sampleInput _ _) le_rfl k

/-- The parts that `SPECTRUM` and `MAPC` write. -/
def analysisParts : List Part :=
  [.x, .a, .s, .smp, .twv, .magv, .dbv, .maxima, .domFreq, .hue, .bri, .rgb, .channels, .color]

/-- The loop of `PEAK` over the bins 0 to `n`: both maxima are functions of the bins `z`. -/
theorem forEach_peakStep_answers {z : Nat → Cplx} (hz : ∀ k, CplxAtMost 22 (z k)) (c : Config) (n : Nat) :
    ∃ m d, F64AtMost 23 m ∧ ∀ s : State, s.sBuf.Holds (n + 1) z →
      ∃ t, forEach (peakStep c) (List.range (n + 1)) (clearMaxima s) = .ok t ∧ t.magMax = Reg.put m ∧
        t.dbMax = Reg.put d ∧ s.frame analysisParts t := by
  have hmagnitude k : F64AtMost 23 (magnitude (z k)) := atMost_magnitude (hz k) (by norm_num)
  exact ⟨_, _, atMost_maximum hmagnitude (n + 1), fun s hs =>
    ⟨_, forEach_peakStep hs, rfl, rfl, frame_mono (frame_afterBins c z s n) (by decide)⟩⟩

/-- Both maxima are functions of the Block `b`. -/
theorem spectrumOp_answers (b : Nat → Byte) : ∃ m d, F64AtMost 23 m ∧ ∀ s : State, s.blk.Holds 4096 b →
    ∃ t, spectrumOp Config.default s = .ok t ∧ t.magMax = Reg.put m ∧ t.dbMax = Reg.put d ∧
      s.frame analysisParts t := by
  obtain ⟨m, d, hle, hpeak⟩ := forEach_peakStep_answers (atMost_spectrumOf b) Config.default 1024
  refine ⟨m, d, hle, fun s hb => ?_⟩
  obtain ⟨u, hu, hload, hx, -⟩ := ldxOp_answers hb
  have hinput : u.xBuf.Holds 2048 fun n => sampleInput (b (2 * n)) (b (2 * n + 1)) := fun n hn => by
    rw [hx, if_pos hn]
  obtain ⟨v, hv, hbins⟩ := networkOp_answers hinput
  have hloaded : s.frame analysisParts u := by
    rw [hload]
    exact frame_mono (frame_smp_x s _ _) (by decide)
  have hnetwork : u.frame analysisParts v := frame_mono (networkOp_frame hv) (by decide)
  obtain ⟨t, ht, hm, hd, hvt⟩ := hpeak v hbins
  refine ⟨t, ?_, hm, hd, frame_trans (frame_trans hloaded hnetwork) hvt⟩
  rw [spectrumOp, hu, Res.andThen_ok, rfftOp_default, hv, Res.andThen_ok]
  exact ht

/-! ### MAPC -/

/-- The state `s` after `MAPC` on the maxima `m` and `d`, with the outputs `o` of the HSV unit and the channel bytes
`r`, `g` and `b`. -/
def afterMap (c : Config) (m d : F64) (o : Rgb) (r g b : Byte) (s : State) : State :=
  { s with
    domFreq := Reg.put (dominantFrequency m)
    hue := Reg.put (hueOf (dominantFrequency m))
    bri := Reg.put (brightnessOf c d)
    rf := Reg.put o.r
    gf := Reg.put o.g
    bf := Reg.put o.b
    r8 := Reg.put r
    g8 := Reg.put g
    b8 := Reg.put b
    color := Reg.put (packColor r g b 0) }

theorem mapcOp_of_channels {o : Rgb} {r g b : Byte} (hm : s.magMax = Reg.put m) (hd : s.dbMax = Reg.put d)
    (ho : hsvOf (hueOf (dominantFrequency m)) (ofNat 1) (brightnessOf c d) = some o)
    (hr : toByte (channelLevel o.r) = some r) (hg : toByte (channelLevel o.g) = some g)
    (hb : toByte (channelLevel o.b) = some b) : mapcOp c s = .ok (afterMap c m d o r g b s) := by
  simp [mapcOp, freqOp, hueOp, briOp, hsvOp, chfinOp, packOp, State.channelReg, State.putChannel, State.putRgb,
    afterMap, hm, hd, ho, hr, hg, hb]

theorem frame_afterMap (c : Config) (m d : F64) (o : Rgb) (r g b : Byte) (s : State) :
    s.frame analysisParts (afterMap c m d o r g b s) :=
  ⟨fun p hp => by cases p <;> simp_all [State.agree, afterMap, analysisParts], rfl, rfl, rfl⟩

/-- The color is a function of the two maxima. -/
theorem mapcOp_answers (c : Config) (d : F64) (hle : F64AtMost 23 m) :
    ∃ w, ∀ s : State, s.magMax = Reg.put m → s.dbMax = Reg.put d →
      ∃ t, mapcOp c s = .ok t ∧ t.color = Reg.put w ∧ s.frame analysisParts t := by
  obtain ⟨o, ho⟩ := exists_hsvOf (atMost_hueOf (atMost_dominantFrequency hle)) (ofNat 1) (brightnessOf c d)
  obtain ⟨r, hr⟩ := exists_channelByte o.r
  obtain ⟨g, hg⟩ := exists_channelByte o.g
  obtain ⟨b, hb⟩ := exists_channelByte o.b
  exact ⟨_, fun s hm hd => ⟨_, mapcOp_of_channels hm hd ho hr hg hb, rfl, frame_afterMap c m d o r g b s⟩⟩

/-- Every Block has a color. -/
theorem analysis_answers (b : Nat → Byte) : ∃ w, ∀ s : State, s.blk.Holds 4096 b →
    ∃ t u, spectrumOp Config.default s = .ok t ∧ mapcOp Config.default t = .ok u ∧ u.color = Reg.put w ∧
      s.frame analysisParts u := by
  obtain ⟨m, d, hle, hspectrum⟩ := spectrumOp_answers b
  obtain ⟨w, hmap⟩ := mapcOp_answers Config.default d hle
  refine ⟨w, fun s hb => ?_⟩
  obtain ⟨t, ht, hm, hd, hst⟩ := hspectrum s hb
  obtain ⟨u, hu, hw, htu⟩ := hmap t hm hd
  exact ⟨t, u, ht, hu, hw, frame_trans hst htu⟩

end Sys2Proof.Machine
end

section
/-! The transmission (44_transmitter.md R298, R299) with an answer of the sink for every frame: it does not wait, and
it writes at least one frame. -/

namespace Sys2Proof.Machine

variable {s t u v : State}

/-- The parts that a transmission of a written color writes. -/
def transmissionParts : List Part := [.fbuf, .wrOk, .txStatus, .interfaces, .device]

/-- From `s` to `t` between `least` and `most` answers of the sink are taken, each for one frame write, and nothing is
left waiting; outside of the transmission nothing changes. -/
structure WritesFrames (least most : Nat) (s t : State) : Prop where
  frame : s.frame transmissionParts t
  waiting : t.waiting = none
  producer : t.producer = s.producer
  sink : s.sink.length ≤ t.sink.length + most
  events : ∃ ws : List Event, t.events = s.events ++ ws ∧ (∀ e ∈ ws, e.isWrite = true) ∧ least ≤ ws.length ∧
    ws.length ≤ most

theorem WritesFrames.trans {a b m n : Nat} (h : WritesFrames a m s t) (h' : WritesFrames b n t u) :
    WritesFrames (a + b) (m + n) s u := by
  obtain ⟨ws, hws, hwrite, hleast, hmost⟩ := h.events
  obtain ⟨ws', hws', hwrite', hleast', hmost'⟩ := h'.events
  have hsink := h.sink
  have hsink' := h'.sink
  refine ⟨frame_trans h.frame h'.frame, h'.waiting, h'.producer.trans h.producer, by omega, ws ++ ws', ?_,
    List.forall_mem_append.mpr ⟨hwrite, hwrite'⟩, ?_, ?_⟩
  · rw [hws', hws, List.append_assoc]
  · rw [List.length_append]
    omega
  · rw [List.length_append]
    omega

theorem WritesFrames.weaken {a b m n : Nat} (h : WritesFrames a m s t) (hba : b ≤ a) (hmn : m ≤ n) :
    WritesFrames b n s t := by
  obtain ⟨ws, hws, hwrite, hleast, hmost⟩ := h.events
  exact ⟨h.frame, h.waiting, h.producer, h.sink.trans (by omega), ws, hws, hwrite, by omega, by omega⟩

/-- The end of a transmission, in either way, takes no answer of the sink. -/
theorem writesFrames_of_status {x y : BitVec 2} {w : Word} {b : Bool} (hw : s.waiting = none) :
    WritesFrames 0 0 s { s with txStatus := x, txFailIdx := y, devColor := w, devIndet := b } where
  frame := ⟨fun p hp => by cases p <;> simp_all [State.agree, transmissionParts], rfl, rfl, rfl⟩
  waiting := hw
  producer := rfl
  sink := le_rfl
  events := ⟨[], (List.append_nil _).symm, nofun, le_rfl, le_rfl⟩

/-- R296: an answered frame. -/
theorem fwrOp_writes (r : Role) (h : s.sink ≠ []) :
    ∃ v, fwrOp r (buildFrame r s) = .ok v ∧ WritesFrames 1 1 s v := by
  obtain ⟨a, rest, hsink⟩ := List.exists_cons_of_ne_nil h
  have hanswer := fwrOp_buildFrame r s
  rw [hsink] at hanswer
  refine ⟨_, hanswer, ?_, rfl, rfl, ?_, _, rfl, List.forall_mem_singleton.mpr rfl, le_rfl, le_rfl⟩
  · exact ⟨fun p hp => by cases p <;> simp_all [State.agree, transmissionParts], rfl, rfl, rfl⟩
  · rw [hsink]
    rfl

/-- R298, R299: a transmission with an answer for every frame ends in `OK` or in `FAIL`. -/
theorem txLoop_answers {roles : List Role} (hw : s.waiting = none) (hs : roles.length ≤ s.sink.length) :
    ∃ t, txLoop roles s = .ok t ∧ WritesFrames (min 1 roles.length) roles.length s t ∧
      (t.txStatus = txOk ∨ t.txStatus = txFail) := by
  induction roles generalizing s with
  | nil => exact ⟨_, rfl, writesFrames_of_status hw, .inl rfl⟩
  | cons r rest ih =>
    rw [List.length_cons] at hs ⊢
    obtain ⟨v, hv, hframe⟩ := fwrOp_writes (s := s) r (List.ne_nil_of_length_pos (by omega))
    have hwait : v.waiting.isSome = false := by rw [hframe.waiting]; rfl
    cases hok : v.wrOk with
    | true =>
      have hsink := hframe.sink
      obtain ⟨t, ht, hrest, hstatus⟩ := ih hframe.waiting (by omega)
      exact ⟨t, txLoop_cons_eq_ok.mpr ⟨v, hv, .inr (.inl ⟨hwait, hok, ht⟩)⟩,
        (hframe.trans hrest).weaken (by omega) (by omega), hstatus⟩
    | false =>
      have hend : WritesFrames 0 0 v (v.takeTransmissionFailure r) := writesFrames_of_status hframe.waiting
      exact ⟨_, txLoop_cons_eq_ok.mpr ⟨v, hv, .inr (.inr ⟨hwait, hok, rfl⟩)⟩,
        (hframe.trans hend).weaken (by omega) (by omega), .inr rfl⟩

/-- R298: a `TX` of a written color that starts afresh and has four answers. -/
theorem txOp_answers (hw : s.waiting = none) (hc : s.color.written = true) (hs : 4 ≤ s.sink.length) :
    ∃ t, txOp s = .ok t ∧ WritesFrames 1 4 s t ∧ (t.txStatus = txOk ∨ t.txStatus = txFail) := by
  have hstart : ({ s with waiting := none } : State) = s := by rw [← hw]
  have hfresh : txOp s = txLoop (rolesFrom .setup) s := by
    rw [txOp_eq_freshTxOp fun r => by simp [hw], freshTxOp, hc, State.noteReads_written, State.noteReads_nil, hstart]
  rw [hfresh]
  exact txLoop_answers hw hs

end Sys2Proof.Machine
end

section
/-! One cycle on a Block, and the cycles of a run (43_gate.md R270, R273; 45_sequencer.md R327). -/

namespace Sys2Proof.Machine

variable {s t u v : State} {b : Vector Byte 4096} {rest : List Delivery} {w : Word}

/-- A `CYCLE` starts afresh unless a transmission is waiting. -/
theorem cycleOp_eq_freshCycleOp (c : Config) (h : s.outsideTransmission) : cycleOp c s = freshCycleOp c s := by
  unfold cycleOp
  split
  · rename_i r hr
    exact absurd hr (h r)
  all_goals rfl

/-- The state `s` after `RDBLK` has taken the Block `b`. -/
def afterBlock (s : State) (b : Vector Byte 4096) (rest : List Delivery) : State :=
  (s.deliveryTaken (.block b) rest).beginCycle b.toList

theorem blk_afterBlock (s : State) (b : Vector Byte 4096) (rest : List Delivery) :
    (afterBlock s b rest).blk.Holds 4096 fun i => b.toList[i]! := fun i hi => by
  simp [afterBlock, hi]

theorem freshCycleOp_of_block (c : Config) (h : s.producer = .block b :: rest) :
    freshCycleOp c s = analyseOp c (afterBlock s b rest) := by
  have hread : rdblkOp s = afterBlock s b rest := by rw [rdblkOp, h]; rfl
  rw [freshCycleOp, hread]
  simp [afterBlock]

/-! ### The gate (R270) -/

theorem gateOp_of_color (h : s.color = Reg.put w) : gateOp s = .ok (latchColor s w) := by
  rw [gateOp, h, Reg.put_written, State.noteReads_written, State.noteReads_nil, Reg.put_value]

theorem gateSendFlag_eq_decide (w p : Word) : gateSendFlag w p = decide (w ≠ p) := by
  rw [gateSendFlag, bne, beq_eq_decide, decide_not]

/-- The gate holds the color afterwards, whether it sends or not. -/
theorem prevColor_latchColor (s : State) (w : Word) : (latchColor s w).prevColor = w := by
  rw [latchColor_prevColor, gateSendFlag_eq_decide]
  by_cases h : w = s.prevColor <;> simp [h]

/-! ### The end of a cycle -/

/-- R327: a cycle that sends, with four answers of the sink. -/
theorem endCycleOp_answers (hw : s.waiting = none) (hc : s.color.written = true) (hs : 4 ≤ s.sink.length) :
    ∃ t, endCycleOp s = .ok { t with phase := .idle } ∧ WritesFrames 1 4 s t ∧
      (t.txStatus = txOk ∨ t.txStatus = txFail) := by
  obtain ⟨t, ht, hframes, hstatus⟩ := txOp_answers hw hc hs
  refine ⟨t, ?_, hframes, hstatus⟩
  rw [endCycleOp, ht, Res.andThen_ok, hframes.waiting]
  rfl

/-- R327: what follows the gate in a cycle. -/
def afterGate (v : State) : Res := if v.gateSend then endCycleOp v else .ok { v with phase := .idle }

theorem analyseOp_of_color {c : Config} (ht : spectrumOp c s = .ok t) (hu : mapcOp c t = .ok u)
    (hw : u.color = Reg.put w) : analyseOp c s = afterGate (latchColor u w) := by
  rw [analyseOp, ht, Res.andThen_ok, hu, Res.andThen_ok, gateOp_of_color hw]
  rfl

/-- What a cycle from the state `s` on a Block of color `w` has done after its gate. -/
structure Gated (rest : List Delivery) (w : Word) (s v : State) : Prop where
  color : v.color = Reg.put w
  gateSend : v.gateSend = decide (w ≠ s.prevColor)
  prevColor : v.prevColor = w
  txStatus : v.txStatus = txNone
  waiting : v.waiting = none
  producer : v.producer = rest
  sink : v.sink = s.sink
  writes : v.events.filter Event.isWrite = s.events.filter Event.isWrite

theorem gated_latchColor (hw : u.color = Reg.put w) (h : (afterBlock s b rest).frame analysisParts u) :
    Gated rest w s (latchColor u w) := by
  obtain ⟨hprev, -⟩ := agree_of_frame h (p := .gate) (by decide)
  obtain ⟨hstatus, -⟩ := agree_of_frame h (p := .txStatus) (by decide)
  obtain ⟨hproducer, hsink, hwaiting, hevents, -⟩ := agree_of_frame h (p := .interfaces) (by decide)
  refine ⟨hw, ?_, prevColor_latchColor u w, hstatus, hwaiting, hproducer, hsink, ?_⟩
  · rw [latchColor_gateSend, gateSendFlag_eq_decide, hprev]
    rfl
  · rw [latchColor_events, hevents]
    simp [afterBlock, Event.isWrite]

theorem exists_gated (hs : s.outsideTransmission) (hp : s.producer = .block b :: rest) :
    ∃ w v, exec .cycle s = (afterGate v).outcome ∧ Gated rest w s v := by
  obtain ⟨w, hcolor⟩ := analysis_answers fun i => b.toList[i]!
  obtain ⟨t, u, ht, hu, hw, hframe⟩ := hcolor _ (blk_afterBlock s b rest)
  refine ⟨w, latchColor u w, ?_, gated_latchColor hw hframe⟩
  rw [← analyseOp_of_color ht hu hw, ← freshCycleOp_of_block _ hp, ← cycleOp_eq_freshCycleOp _ hs]
  rfl

/-! ### A whole cycle -/

/-- A cycle from `s` to `t` on one Block, with `rest` left of the producer's answers. -/
structure CompletesCycle (rest : List Delivery) (s t : State) : Prop where
  exec : exec .cycle s = .next t
  phase : t.phase = .idle
  waiting : t.waiting = none
  producer : t.producer = rest
  sink : s.sink.length ≤ t.sink.length + 4
  sends : SendsByColor s t

/-- R273: a cycle whose color is the one held. -/
theorem Gated.completes_without_transmission (h : Gated rest w s v) (hexec : exec .cycle s = (afterGate v).outcome)
    (hsend : v.gateSend = false) : CompletesCycle rest s { v with phase := .idle } where
  exec := by
    rw [hexec, afterGate, hsend]
    rfl
  phase := rfl
  waiting := h.waiting
  producer := h.producer
  sink := by simp [h.sink]
  sends := by
    refine ⟨?_, ?_, fun hnot => absurd hnot (Bool.eq_false_iff.mp hsend), fun _ => ⟨h.txStatus, h.writes⟩⟩
    · rw [h.gateSend, h.color, Reg.put_value]
    · rw [h.prevColor, h.color, Reg.put_value]

/-- R273, R298: a cycle whose color is another, with four answers of the sink. -/
theorem Gated.completes_with_transmission (h : Gated rest w s v) (hexec : exec .cycle s = (afterGate v).outcome)
    (hsend : v.gateSend = true) (h4 : 4 ≤ s.sink.length) : ∃ t, CompletesCycle rest s t := by
  obtain ⟨t, ht, hframes, hstatus⟩ :=
    endCycleOp_answers h.waiting (by rw [h.color, Reg.put_written]) (by rwa [h.sink])
  obtain ⟨ws, hevents, hwrite, hleast, hmost⟩ := hframes.events
  obtain ⟨hprev, hgate⟩ := agree_of_frame hframes.frame (p := .gate) (by decide)
  have hcolor : t.color = v.color := agree_of_frame hframes.frame (p := .color) (by decide)
  refine ⟨{ t with phase := .idle }, ?_, rfl, hframes.waiting, hframes.producer.trans h.producer,
    h.sink ▸ hframes.sink, ?_, ?_, fun _ => ⟨hstatus, ws, hleast, hmost, ?_⟩, fun hnot => ?_⟩
  · rw [hexec, afterGate, hsend, if_pos rfl, ht]
    rfl
  · rw [hgate, h.gateSend, hcolor, h.color, Reg.put_value]
  · rw [hprev, h.prevColor, hcolor, h.color, Reg.put_value]
  · rw [hevents, List.filter_append, List.filter_eq_self.mpr hwrite, h.writes]
  · rw [hgate, hsend] at hnot
    cases hnot

/-- R273, R327: every cycle on a Block, with four answers of the sink, completes. -/
theorem exists_completesCycle (hs : s.outsideTransmission) (hp : s.producer = .block b :: rest)
    (h4 : 4 ≤ s.sink.length) : ∃ t, CompletesCycle rest s t := by
  obtain ⟨w, v, hexec, hgated⟩ := exists_gated hs hp
  cases hsend : v.gateSend with
  | false => exact ⟨_, hgated.completes_without_transmission hexec hsend⟩
  | true => exact hgated.completes_with_transmission hexec hsend h4

/-! ### The cycles of a run -/

/-- The sequence that has `s` before the sequence `u`. -/
def precede (s : State) (u : Nat → State) : Nat → State
  | 0 => s
  | j + 1 => u j

/-- From a state that waits for nothing, the cycles on a list of Blocks complete one after another. -/
theorem exists_cycles {blocks : List (Vector Byte 4096)} (hw : s.waiting = none)
    (hp : s.producer = blocks.map .block) (hs : 4 * blocks.length ≤ s.sink.length) :
    ∃ u : Nat → State, u 0 = s ∧ ∀ j < blocks.length, ∃ rest, CompletesCycle rest (u j) (u (j + 1)) := by
  induction blocks generalizing s with
  | nil => exact ⟨fun _ => s, rfl, nofun⟩
  | cons b blocks ih =>
    rw [List.length_cons] at hs ⊢
    obtain ⟨t, ht⟩ := exists_completesCycle (s := s) (fun r => by simp [hw]) hp (by omega)
    have hsink := ht.sink
    obtain ⟨u, hu, hcycles⟩ := ih ht.waiting ht.producer (by omega)
    refine ⟨precede s u, rfl, fun j hj => ?_⟩
    cases j with
    | zero => exact ⟨_, hu.symm ▸ ht⟩
    | succ j => exact hcycles j (by omega)

/-- Settles O15: a cycle latches its color at the gate, so the color that the next one is compared with is that of the
cycle before it. -/
theorem sendPatternOverCycles : Obligations.SendPatternOverCycles := by
  refine ⟨fun s b rest hs hp h4 => ?_, fun blocks answers hanswers => ?_⟩
  · obtain ⟨t, ht⟩ := exists_completesCycle hs hp h4
    exact ⟨t, ht.exec, ht.phase, ht.sends⟩
  · obtain ⟨u, hu, hcycles⟩ :=
      exists_cycles (s := { State.reset with producer := blocks.map .block, sink := answers }) rfl rfl hanswers
    refine ⟨u, hu, fun j hj => ?_⟩
    obtain ⟨rest, hcycle⟩ := hcycles j hj
    have hheld : (u j).prevColor = if j = 0 then 0 else (u j).color.value := by
      cases j with
      | zero => rw [hu]; rfl
      | succ i =>
        obtain ⟨_, hbefore⟩ := hcycles i (by omega)
        obtain ⟨-, hlatched, -⟩ := hbefore.sends
        exact hlatched
    obtain ⟨hsend, -⟩ := hcycle.sends
    exact ⟨hcycle.exec, hcycle.phase, hheld ▸ hsend, hcycle.sends⟩

end Sys2Proof.Machine
end

section
/-! One step of the sequencer (45_sequencer.md R322 to R328): the operation of its program is run on the state with its
word recorded, and a complete operation moves the phase on. -/

namespace Sys2Proof.Machine

variable {s t u : State} {i : Instr} {p : Phase}

/-- The state with one more operation word in the record. -/
def State.recorded (s : State) (w : Word) : State := { s with trace := s.trace ++ [w] }

theorem issue_of_not_waiting (w : Word) (hw : s.waiting = none) : issue w s = s.recorded w := by
  simp [issue, hw, State.recorded]

/-- The issue of an operation writes the record of words and nothing else. -/
theorem issue_eq (w : Word) (s : State) : issue w s = { s with trace := (issue w s).trace } := by
  unfold issue
  split <;> rfl

/-- The sequencer's words are decoded to the operations of its program. -/
theorem step_eq_sequencerOp (hop : s.opReq = none) (hr : s.resetReq = false) :
    step s = settleOutcome s (exec (sequencerOp s) (issue (encode (sequencerOp s)) s)) := by
  simp [step, hr, nextWord_of_opReq_none hop, decode_encode (sequencerOp_wellFormed s)]

theorem settleStep_of_complete (hop : s.opReq = none) (hw : u.waiting = none) : settleStep s u = advance s.phase u := by
  simp [settleStep, hop, hw]

/-- A step that does not go on after a wait and completes its operation. -/
theorem step_of_exec (hop : s.opReq = none) (hr : s.resetReq = false) (hw : s.waiting = none) (hp : s.phase = p)
    (hi : sequencerOp s = i) (hexec : exec i (s.recorded (encode i)) = .next u) (hu : u.waiting = none) :
    step s = .next (advance p u) := by
  rw [step_eq_sequencerOp hop hr, hi, issue_of_not_waiting _ hw, hexec, settleOutcome, settleStep_of_complete hop hu,
    hp]

theorem frame_phase_pos (s : State) (p : Phase) (n : Fin 8) : s.frame [.phase, .pos] { s with phase := p, pos := n } :=
  ⟨fun q hq => by cases q <;> simp_all [State.agree], rfl, rfl, rfl⟩

/-- Moving the phase on writes `PHASE` and the place within `MAP`. -/
theorem advance_frame (p : Phase) (u : State) : u.frame [.phase, .pos] (advance p u) := by
  cases p with
  | map =>
    rw [advance]
    split
    · exact frame_phase_pos u _ _
    · exact frame_phase_pos u _ _
  | gate =>
    rw [advance]
    split
    · exact frame_phase_pos u _ _
    · exact frame_phase_pos u _ _
  | _ => exact frame_phase_pos u _ _

/-! ### The end of a run (R326) -/

theorem exec_halt (s : State) : exec .halt s = .next { s with phase := .halted } := rfl

theorem sequencerOp_of_halted (hp : s.phase = .halted) : sequencerOp s = .halt := by
  rw [sequencerOp, hp]

/-- A step in `HALTED` changes the record of words alone, waiting or not. -/
theorem step_of_halted (hop : s.opReq = none) (hr : s.resetReq = false) (hp : s.phase = .halted) :
    step s = .next { s with trace := (issue (encode .halt) s).trace } := by
  have hissue : { issue (encode .halt) s with phase := .halted } =
      { s with trace := (issue (encode .halt) s).trace } := by
    rw [issue_eq, ← hp]
  rw [step_eq_sequencerOp hop hr, sequencerOp_of_halted hp, exec_halt, hissue, settleOutcome, settleStep, hop, hp]
  simp [advance]

theorem step_of_resetReq (hr : s.resetReq = true) : step s = .next s.applyReset := by
  rw [step, if_pos hr]

/-- Settles O9: the one operation of phase `HALTED` is `HALT`, which writes the phase that already stands, and a
requested reset is taken before any operation. -/
theorem haltedIsFinal : Obligations.HaltedIsFinal := by
  refine ⟨exec_halt, fun s ⟨hop, hr⟩ hp => ⟨?_, _, step_of_halted hop hr hp, rfl⟩,
    fun s hr => ⟨_, step_of_resetReq hr, rfl⟩⟩
  rw [nextWord_of_opReq_none hop, sequencerOp_of_halted hp]
  rfl

/-! ### Runs of complete operations -/

/-- From `s` to `t` the sequencer issues the operations with the words `ws`, each in one step that completes it, and
the next one finds what it needs; no answer of the sink is taken. -/
structure Reaches (ws : List Word) (s t : State) : Prop where
  steps : steps ws.length s = .next t
  onTrack : t.onTrack
  resetReq : t.resetReq = false
  waiting : t.waiting = none
  sink : t.sink = s.sink
  trace : t.trace = s.trace ++ ws

theorem steps_add {m n : Nat} (h : steps m s = .next t) : steps (m + n) s = steps n t := by
  induction m generalizing s with
  | zero =>
    cases h
    rw [Nat.zero_add]
  | succ m ih =>
    rw [Nat.succ_add, steps]
    rw [steps] at h
    split at h
    next => exact ih h
    all_goals cases h

theorem steps_one (h : step s = .next t) : steps 1 s = .next t := by
  rw [steps, h]
  rfl

theorem Reaches.refl (hs : s.onTrack) (hr : s.resetReq = false) (hw : s.waiting = none) : Reaches [] s s :=
  ⟨rfl, hs, hr, hw, rfl, (List.append_nil _).symm⟩

theorem Reaches.trans {ws ws' : List Word} (h : Reaches ws s t) (h' : Reaches ws' t u) : Reaches (ws ++ ws') s u where
  steps := by rw [List.length_append, steps_add h.steps, h'.steps]
  onTrack := h'.onTrack
  resetReq := h'.resetReq
  waiting := h'.waiting
  sink := h'.sink.trans h.sink
  trace := by rw [h'.trace, h.trace, List.append_assoc]

/-- One step of an operation that leaves the interfaces alone. -/
theorem reaches_of_frame {l : List Part} (hop : s.opReq = none) (hr : s.resetReq = false) (hw : s.waiting = none)
    (hp : s.phase = p) (hi : sequencerOp s = i) (hexec : exec i (s.recorded (encode i)) = .next u)
    (hframe : (s.recorded (encode i)).frame l u) (hl : .interfaces ∉ l)
    (htrack : u.opReq = none → u.waiting = none → (advance p u).onTrack) : Reaches [encode i] s (advance p u) := by
  obtain ⟨-, -, hwait, -, -⟩ := agree_of_frame hframe hl
  have hwu : u.waiting = none := hwait.trans hw
  obtain ⟨hagree, -, hreset, htrace⟩ := frame_trans (frame_mono hframe (List.subset_append_left l _))
    (frame_mono (advance_frame p u) (List.subset_append_right l _))
  obtain ⟨-, hsink, hwaiting, -, -⟩ := hagree .interfaces (by simp [hl])
  obtain ⟨-, hopReq, -, -⟩ := hframe
  exact ⟨steps_one (step_of_exec hop hr hw hp hi hexec hwu), htrack (hopReq.trans hop) hwu, hreset.trans hr,
    hwaiting.trans hw, hsink, htrace⟩

end Sys2Proof.Machine
end

section
/-! The steps of the phases (45_sequencer.md R322 to R325), from what the phases before leave (R396) to what the next
ones need. -/

namespace Sys2Proof.Machine
open F64

variable {s : State}

/-! ### What each phase needs -/

theorem onTrack_of_idle (hop : s.opReq = none) (hw : s.waiting = none) (hp : s.phase = .idle) : s.onTrack := by
  rw [State.onTrack, hp]
  exact ⟨hop, .inl hw⟩

theorem onTrack_load_iff (hp : s.phase = .load) :
    s.onTrack ↔ s.opReq = none ∧ s.waiting = none ∧ ∀ i < 4096, ∃ v, s.blk.read i = some v := by
  rw [State.onTrack, hp]

theorem onTrack_fft_iff (hp : s.phase = .fft) : s.onTrack ↔
    s.opReq = none ∧ s.waiting = none ∧ ∀ n < 2048, ∃ v, s.xBuf.read n = some v ∧ F64AtMost 0 v := by
  rw [State.onTrack, hp]

theorem onTrack_peak_iff (hp : s.phase = .peak) : s.onTrack ↔
    s.opReq = none ∧ s.waiting = none ∧ ∀ k < 1025, ∃ z, s.sBuf.read k = some z ∧ CplxAtMost 22 z := by
  rw [State.onTrack, hp]

theorem onTrack_map_iff (hp : s.phase = .map) :
    s.onTrack ↔ s.opReq = none ∧ s.waiting = none ∧ s.mapReady := by
  rw [State.onTrack, hp]

theorem onTrack_gate_iff (hp : s.phase = .gate) :
    s.onTrack ↔ s.opReq = none ∧ s.waiting = none ∧ s.color.written = true := by
  rw [State.onTrack, hp]

theorem onTrack_tx_iff (hp : s.phase = .tx) : s.onTrack ↔ s.opReq = none ∧ s.color.written = true ∧
    (s.waiting = none ∨ ∃ r, s.waiting = some (.transmission r)) := by
  rw [State.onTrack, hp]

/-- A space whose written elements all have a property holds values with it, `d` standing for those beyond. -/
theorem exists_holds {α : Type} {m : Memory α} {n : Nat} {P : α → Prop} (d : α) (hd : P d)
    (h : ∀ i < n, ∃ v, m.read i = some v ∧ P v) : ∃ f, m.Holds n f ∧ ∀ i, P (f i) := by
  refine ⟨fun i => if i < n then (m.read i).getD d else d, fun i hi => ?_, fun i => ?_⟩
  · obtain ⟨v, hv, -⟩ := h i hi
    simp [hi, hv]
  · dsimp only
    split
    next hi =>
      obtain ⟨v, hv, hP⟩ := h i hi
      rwa [hv]
    next => exact hd

/-! ### IDLE (R322) -/

theorem exec_rdblk_of_block {b : Vector Byte 4096} {rest : List Delivery} (h : s.producer = .block b :: rest) :
    exec .rdblk s = .next (afterBlock s b rest) := by
  rw [exec, execRdblk, rdblkOp, h]
  rfl

theorem exec_rdblk_of_end {l : List Byte} {rest : List Delivery} (h : s.producer = .endOfInput l :: rest) :
    exec .rdblk s = .next (s.deliveryTaken (.endOfInput l) rest).takeEndOfInput := by
  rw [exec, execRdblk, rdblkOp, h]

section Idle
variable (hop : s.opReq = none) (hr : s.resetReq = false) (hw : s.waiting = none) (hp : s.phase = .idle)
  {rest : List Delivery}
include hop hr hw hp

theorem idle_reaches_load {b : Vector Byte 4096} (h : s.producer = .block b :: rest) :
    ∃ t, Reaches [encode .rdblk] s t ∧ t.phase = .load := by
  have hexec := exec_rdblk_of_block (s := s.recorded (encode .rdblk)) h
  exact ⟨_, ⟨steps_one (step_of_exec hop hr hw hp (by rw [sequencerOp, hp]) hexec rfl),
    (onTrack_load_iff rfl).mpr ⟨hop, rfl, fun i hi => ⟨_, blk_afterBlock _ b rest i hi⟩⟩, hr, rfl, rfl, rfl⟩, rfl⟩

theorem idle_reaches_halted {l : List Byte} (h : s.producer = .endOfInput l :: rest) :
    ∃ t, Reaches [encode .rdblk] s t ∧ t.phase = .halted := by
  have hexec := exec_rdblk_of_end (s := s.recorded (encode .rdblk)) h
  exact ⟨_, ⟨steps_one (step_of_exec hop hr hw hp (by rw [sequencerOp, hp]) hexec rfl),
    ⟨hop, rfl⟩, hr, rfl, rfl, rfl⟩, rfl⟩

end Idle

/-! ### LOAD, FFT and PEAK (R323) -/

section Unconditional
variable (hs : s.onTrack) (hr : s.resetReq = false)
include hs hr

theorem load_reaches_fft (hp : s.phase = .load) : ∃ t, Reaches [encode .ldx] s t ∧ t.phase = .fft := by
  obtain ⟨hop, hw, hblk⟩ := (onTrack_load_iff hp).mp hs
  obtain ⟨b, hb, -⟩ := exists_holds (P := fun _ => True) (0 : Byte) trivial fun i hi => by simpa using hblk i hi
  obtain ⟨u, hu, hstate, hx, -⟩ := ldxOp_answers (s := s.recorded (encode .ldx)) hb
  have hframe : (s.recorded (encode .ldx)).frame [.smp, .x] u := hstate ▸ frame_smp_x _ _ _
  refine ⟨_, reaches_of_frame hop hr hw hp (by rw [sequencerOp, hp]) ((exec_ldx _).trans (Res.outcome_eq_next.mpr hu))
    hframe (by decide) fun hopu hwu => ?_, rfl⟩
  refine (onTrack_fft_iff rfl).mpr ⟨hopu, hwu, fun n hn => ⟨_, (hx n).trans (if_pos hn), ?_⟩⟩
  exact atMost_sampleInput _ _

theorem fft_reaches_peak (hp : s.phase = .fft) : ∃ t, Reaches [encode .rfft] s t ∧ t.phase = .peak := by
  obtain ⟨hop, hw, hx⟩ := (onTrack_fft_iff hp).mp hs
  obtain ⟨x, hx, hle⟩ := exists_holds F64.zero (Nat.zero_le _) hx
  obtain ⟨u, hu, hbins⟩ := networkOp_answers (s := s.recorded (encode .rfft)) hx
  have hframe := networkOp_frame hu
  refine ⟨_, reaches_of_frame hop hr hw hp (by rw [sequencerOp, hp]) ((exec_rfft _).trans (Res.outcome_eq_next.mpr hu))
    hframe (by decide) fun hopu hwu => ?_, rfl⟩
  exact (onTrack_peak_iff rfl).mpr ⟨hopu, hwu, fun k hk => ⟨_, hbins k hk, atMost_networkValue hle le_rfl k⟩⟩

theorem peak_reaches_map (hp : s.phase = .peak) :
    ∃ t, Reaches [encode .peak] s t ∧ t.phase = .map ∧ t.pos = 0 := by
  obtain ⟨hop, hw, hbins⟩ := (onTrack_peak_iff hp).mp hs
  obtain ⟨z, hz, hle⟩ := exists_holds ⟨F64.zero, F64.zero⟩ ⟨Nat.zero_le _, Nat.zero_le _⟩ hbins
  obtain ⟨m, d, hm, hpeak⟩ := forEach_peakStep_answers hle Config.default 1024
  obtain ⟨u, hu, hmag, hdb, hframe⟩ := hpeak (s.recorded (encode .peak)) hz
  refine ⟨_, reaches_of_frame hop hr hw hp (by rw [sequencerOp, hp]) ((exec_peak _).trans (Res.outcome_eq_next.mpr hu))
    hframe (by decide) fun hopu hwu => ?_, rfl, rfl⟩
  exact (onTrack_map_iff rfl).mpr ⟨hopu, hwu, by simp [State.mapReady, advance, hmag, hdb, hm]⟩

end Unconditional

/-! ### MAP (R323)

Each operation reads registers that are written, so it records no fault, and writes the next ones. -/

theorem frame_mapRegisters (s : State) (domFreq hue bri rf gf bf : Reg F64) (r8 g8 b8 : Reg Byte) (color : Reg Word) :
    s.frame analysisParts { s with
      domFreq := domFreq, hue := hue, bri := bri, rf := rf, gf := gf, bf := bf
      r8 := r8, g8 := g8, b8 := b8, color := color } :=
  ⟨fun p hp => by cases p <;> simp_all [State.agree, analysisParts], rfl, rfl, rfl⟩

theorem exec_freq_of_written (h : s.magMax.written = true) :
    exec .freq s = .next { s with domFreq := Reg.put (dominantFrequency s.magMax.value) } := by
  rw [exec, execFreq, freqOp, h, State.noteReads_written, State.noteReads_nil, Res.outcome]

theorem exec_hue_of_written (h : s.domFreq.written = true) :
    exec .hue s = .next { s with hue := Reg.put (hueOf s.domFreq.value) } := by
  rw [exec, execHue, hueOp, h, State.noteReads_written, State.noteReads_nil, Res.outcome]

theorem exec_bri_of_written (h : s.dbMax.written = true) :
    exec .bri s = .next { s with bri := Reg.put (brightnessOf Config.default s.dbMax.value) } := by
  rw [exec, execBri, briOp, h, State.noteReads_written, State.noteReads_nil, Res.outcome]

theorem exec_hsv_of_written {o : Rgb} (hh : s.hue.written = true) (hb : s.bri.written = true)
    (ho : hsvOf s.hue.value (ofNat 1) s.bri.value = some o) : exec .hsv s = .next (s.putRgb o) := by
  rw [exec, execHsv, hsvOp, ho, hh, hb]
  simp [Res.outcome]

theorem frame_putChannel (s : State) (c : Channel) (b : Byte) : s.frame analysisParts (s.putChannel c b) := by
  cases c <;> exact frame_mapRegisters s _ _ _ _ _ _ _ _ _ _

theorem exec_chfin_of_written {c : Channel} (h : (s.channelReg c).written = true) :
    ∃ b, exec (.chfin c) s = .next (s.putChannel c b) := by
  obtain ⟨b, hb⟩ := exists_channelByte (s.channelReg c).value
  refine ⟨b, ?_⟩
  rw [exec, execChfin, chfinOp, hb, h]
  simp [Res.outcome]

theorem exec_pack_of_written (hr : s.r8.written = true) (hg : s.g8.written = true) (hb : s.b8.written = true) :
    exec .pack s = .next { s with color := Reg.put (packColor s.r8.value s.g8.value s.b8.value 0) } := by
  rw [exec, execPack, packOp, hr, hg, hb]
  simp [Res.outcome]

/-- What an operation of `MAP` leaves for what follows it: the last one a color, the others what the next one reads. -/
def MapStepped (s u : State) : Prop :=
  s.frame analysisParts u ∧ (s.pos = 7 → u.color.written = true) ∧
    (s.pos ≠ 7 → State.mapReady { u with pos := u.pos + 1 })

theorem exec_mapProgram (h : s.mapReady) : ∃ u, exec (mapProgram s.pos) s = .next u ∧ MapStepped s u := by
  obtain ⟨hmag, hdb, hm, hfreq, hhue, hbri, hrgb, hr, hg, hb⟩ := h
  match hpos : s.pos with
  | 0 =>
    refine ⟨_, exec_freq_of_written hmag, frame_mapRegisters s _ _ _ _ _ _ _ _ _ _, by simp [hpos], fun _ => ?_⟩
    simp [State.mapReady, hpos, hmag, hdb, hm, atMost_dominantFrequency hm]
  | 1 =>
    obtain ⟨hfreq, hf⟩ := hfreq (by simp [hpos])
    refine ⟨_, exec_hue_of_written hfreq, frame_mapRegisters s _ _ _ _ _ _ _ _ _ _, by simp [hpos], fun _ => ?_⟩
    simp [State.mapReady, hpos, hmag, hdb, hm, hfreq, hf, atMost_hueOf hf]
  | 2 =>
    refine ⟨_, exec_bri_of_written hdb, frame_mapRegisters s _ _ _ _ _ _ _ _ _ _, by simp [hpos], fun _ => ?_⟩
    simp_all [State.mapReady]
  | 3 =>
    obtain ⟨hhue, hh⟩ := hhue (by simp [hpos])
    obtain ⟨o, ho⟩ := exists_hsvOf hh (ofNat 1) s.bri.value
    refine ⟨_, exec_hsv_of_written hhue (hbri (by simp [hpos])) ho, frame_mapRegisters s _ _ _ _ _ _ _ _ _ _,
      by simp [hpos], fun _ => ?_⟩
    simp_all [State.mapReady]
  | 4 =>
    obtain ⟨hrf, -, -⟩ := hrgb (by simp [hpos])
    obtain ⟨b, hexec⟩ := exec_chfin_of_written (c := .red) hrf
    exact ⟨_, hexec, frame_putChannel s _ b, by simp [hpos], fun _ => by simp_all [State.mapReady]⟩
  | 5 =>
    obtain ⟨-, hgf, -⟩ := hrgb (by simp [hpos])
    obtain ⟨b, hexec⟩ := exec_chfin_of_written (c := .green) hgf
    exact ⟨_, hexec, frame_putChannel s _ b, by simp [hpos], fun _ => by simp_all [State.mapReady]⟩
  | 6 =>
    obtain ⟨-, -, hbf⟩ := hrgb (by simp [hpos])
    obtain ⟨b, hexec⟩ := exec_chfin_of_written (c := .blue) hbf
    exact ⟨_, hexec, frame_putChannel s _ b, by simp [hpos], fun _ => by simp_all [State.mapReady]⟩
  | 7 =>
    exact ⟨_, exec_pack_of_written (hr (by simp [hpos])) (hg (by simp [hpos])) (hb (by simp [hpos])),
      frame_mapRegisters s _ _ _ _ _ _ _ _ _ _, fun _ => rfl, fun hne => absurd hpos hne⟩

/-- The next phase or the next place within `MAP`. -/
theorem map_reaches_next (hs : s.onTrack) (hr : s.resetReq = false) (hp : s.phase = .map) :
    ∃ t, Reaches [encode (mapProgram s.pos)] s t ∧ (s.pos = 7 → t.phase = .gate) ∧
      (s.pos ≠ 7 → t.phase = .map ∧ t.pos = s.pos + 1) := by
  obtain ⟨hop, hw, hready⟩ := (onTrack_map_iff hp).mp hs
  obtain ⟨u, hu, hframe, hlast, hnext⟩ := exec_mapProgram (s := s.recorded (encode (mapProgram s.pos))) hready
  have hpos : u.pos = s.pos := hframe.1 .pos (by decide)
  have hphase : u.phase = s.phase := hframe.1 .phase (by decide)
  refine ⟨_, reaches_of_frame hop hr hw hp (by rw [sequencerOp, hp]) hu hframe (by decide) fun hopu hwu => ?_,
    fun h7 => ?_, fun h7 => ?_⟩
  · by_cases h7 : s.pos = 7
    · rw [advance, if_pos (hpos.trans h7)]
      exact (onTrack_gate_iff rfl).mpr ⟨hopu, hwu, hlast h7⟩
    · rw [advance, if_neg (hpos ▸ h7)]
      refine (onTrack_map_iff ?_).mpr ⟨hopu, hwu, hnext h7⟩
      exact hphase.trans hp
  · rw [advance, if_pos (hpos.trans h7)]
  · rw [advance, if_neg (hpos ▸ h7)]
    exact ⟨hphase.trans hp, congrArg (· + 1) hpos⟩

/-- R323: the words of the first operations of phase `MAP`. -/
def mapWords (n : Nat) : List Word := ((List.finRange 8).take n).map fun k => encode (mapProgram k)

theorem mapWords_succ {n : Nat} (hn : n < 8) : mapWords (n + 1) = mapWords n ++ [encode (mapProgram ⟨n, hn⟩)] := by
  simp [mapWords, List.take_add_one, hn]

/-- The places within `MAP` are taken in order. -/
theorem map_reaches_pos (hs : s.onTrack) (hr : s.resetReq = false) (hp : s.phase = .map) (h0 : s.pos = 0) {n : Nat}
    (hn : n < 8) : ∃ t, Reaches (mapWords n) s t ∧ t.phase = .map ∧ t.pos = ⟨n, hn⟩ := by
  induction n with
  | zero =>
    obtain ⟨-, hw, -⟩ := (onTrack_map_iff hp).mp hs
    exact ⟨s, Reaches.refl hs hr hw, hp, h0⟩
  | succ n ih =>
    obtain ⟨t, ht, htp, hpos⟩ := ih (by omega)
    obtain ⟨u, hu, -, hnext⟩ := map_reaches_next ht.onTrack ht.resetReq htp
    rw [hpos] at hu hnext
    obtain ⟨hpu, hposu⟩ := hnext (Fin.ne_of_val_ne (by simp; omega))
    rw [mapWords_succ (by omega)]
    exact ⟨u, ht.trans hu, hpu, hposu.trans (Fin.ext (by simp [Fin.val_add]; omega))⟩

/-! ### GATE and TX (R324, R325) -/

theorem frame_latchColor (s : State) (c : Word) : s.frame [.gate] (latchColor s c) :=
  ⟨fun p hp => by cases p <;> simp_all [State.agree], rfl, rfl, rfl⟩

theorem exec_gate_of_written (h : s.color.written = true) : exec .gate s = .next (latchColor s s.color.value) := by
  rw [exec, execGate, gateOp, h, State.noteReads_written, State.noteReads_nil, Res.outcome]

theorem phase_advance_gate (u : State) :
    (advance .gate u).phase = if (advance .gate u).gateSend then .tx else .idle := by
  cases hsend : u.gateSend <;> simp [advance, hsend]

/-- The gate decides the next phase. -/
theorem gate_reaches_next (hs : s.onTrack) (hr : s.resetReq = false) (hp : s.phase = .gate) :
    ∃ t, Reaches [encode .gate] s t ∧ t.phase = if t.gateSend then .tx else .idle := by
  obtain ⟨hop, hw, hcolor⟩ := (onTrack_gate_iff hp).mp hs
  have hexec := exec_gate_of_written (s := s.recorded (encode .gate)) hcolor
  refine ⟨_, reaches_of_frame hop hr hw hp (by rw [sequencerOp, hp]) hexec (frame_latchColor _ _) (by decide)
    fun hopu hwu => ?_, ?_⟩
  · rw [advance]
    split
    · exact ⟨hopu, hcolor, .inl hwu⟩
    · exact onTrack_of_idle hopu hwu rfl
  · exact phase_advance_gate _

theorem exec_tx (s : State) : exec .tx s = (txOp s).outcome := rfl

/-- A transmission with four answers of the sink completes and ends the cycle. -/
theorem step_of_tx (hs : s.onTrack) (hr : s.resetReq = false) (hw : s.waiting = none) (hp : s.phase = .tx)
    (h4 : 4 ≤ s.sink.length) :
    ∃ t, step s = .next t ∧ t.phase = .idle ∧ t.gateSend = s.gateSend ∧ t.trace = s.trace ++ [encode .tx] := by
  obtain ⟨hop, hcolor, -⟩ := (onTrack_tx_iff hp).mp hs
  obtain ⟨u, hu, hframes, -⟩ := txOp_answers (s := s.recorded (encode .tx)) hw hcolor h4
  obtain ⟨hagree, -, -, htrace⟩ := hframes.frame
  obtain ⟨-, hgate⟩ := hagree .gate (by decide)
  exact ⟨_, step_of_exec hop hr hw hp (by rw [sequencerOp, hp]) ((exec_tx _).trans (Res.outcome_eq_next.mpr hu))
    hframes.waiting, rfl, hgate, htrace⟩

end Sys2Proof.Machine
end

section
/-! The words of a cycle (45_sequencer.md R328). -/

namespace Sys2Proof.Machine

variable {s : State}

theorem cycleWords_eq : cycleWords =
    [encode .rdblk] ++ ([encode .ldx] ++ ([encode .rfft] ++ ([encode .peak] ++ (mapWords 8 ++ [encode .gate])))) := by
  decide

/-- Phase `MAP` as a whole. -/
theorem map_reaches_gate (hs : s.onTrack) (hr : s.resetReq = false) (hp : s.phase = .map) (h0 : s.pos = 0) :
    ∃ t, Reaches (mapWords 8) s t ∧ t.phase = .gate := by
  obtain ⟨t, ht, htp, hpos⟩ := map_reaches_pos hs hr hp h0 (n := 7) (by norm_num)
  obtain ⟨u, hu, hlast, -⟩ := map_reaches_next ht.onTrack ht.resetReq htp
  rw [hpos] at hu
  exact ⟨u, ht.trans hu, hlast hpos⟩

/-- A cycle on a Block up to and with its gate. -/
theorem block_reaches_gated (hs : s.selfRunning) (hw : s.waiting = none) (hp : s.phase = .idle) {b : Vector Byte 4096}
    {rest : List Delivery} (h : s.producer = .block b :: rest) :
    ∃ t, Reaches cycleWords s t ∧ t.phase = if t.gateSend then .tx else .idle := by
  obtain ⟨hop, hr⟩ := hs
  obtain ⟨_, hload, hp⟩ := idle_reaches_load hop hr hw hp h
  obtain ⟨_, hfft, hp⟩ := load_reaches_fft hload.onTrack hload.resetReq hp
  obtain ⟨_, hpeak, hp⟩ := fft_reaches_peak hfft.onTrack hfft.resetReq hp
  obtain ⟨_, hmap, hp, hpos⟩ := peak_reaches_map hpeak.onTrack hpeak.resetReq hp
  obtain ⟨_, hgate, hp⟩ := map_reaches_gate hmap.onTrack hmap.resetReq hp hpos
  obtain ⟨t, hgated, hp⟩ := gate_reaches_next hgate.onTrack hgate.resetReq hp
  rw [cycleWords_eq]
  exact ⟨t, hload.trans (hfft.trans (hpeak.trans (hmap.trans (hgate.trans hgated)))), hp⟩

theorem encode_sequencerOp_mem (s : State) : encode (sequencerOp s) ∈ cycleWords ++ [0x52000000, 0x03000000] := by
  have hmap : ∀ k, encode (mapProgram k) ∈ cycleWords ++ [0x52000000, 0x03000000] := by decide
  unfold sequencerOp
  split
  case h_5 => exact hmap s.pos
  all_goals decide

/-- Settles O8: from what each phase leaves, the next one completes, and the record grows by the word of each. -/
theorem cycleIssuesItsWords : Obligations.CycleIssuesItsWords := by
  refine ⟨fun s b rest hs hp hw h h4 => ?_, fun s l rest ⟨hop, hr⟩ hp hw h => ?_, fun s hop => ?_⟩
  · obtain ⟨t, ht, hpt⟩ := block_reaches_gated hs hw hp h
    cases hsend : t.gateSend with
    | false =>
      rw [hsend] at hpt
      refine ⟨t, hpt, ?_⟩
      rw [hsend]
      exact ⟨ht.steps, ht.trace⟩
    | true =>
      rw [hsend] at hpt
      obtain ⟨u, hu, hpu, hgate, htrace⟩ := step_of_tx ht.onTrack ht.resetReq ht.waiting hpt (ht.sink ▸ h4)
      refine ⟨u, hpu, ?_⟩
      rw [hgate, hsend]
      refine ⟨(steps_add ht.steps).trans (steps_one hu), ?_⟩
      rw [htrace, ht.trace]
      rfl
  · obtain ⟨t, ht, hpt⟩ := idle_reaches_halted hop hr hw hp h
    obtain ⟨hopt, -⟩ := ht.onTrack
    refine ⟨_, (steps_add ht.steps).trans (steps_one (step_of_halted hopt ht.resetReq hpt)), ?_⟩
    rw [issue_of_not_waiting _ ht.waiting, State.recorded, ht.trace, List.append_assoc]
    rfl
  · rw [nextWord_of_opReq_none hop]
    exact encode_sequencerOp_mem s

end Sys2Proof.Machine
end

section
/-! The operations as `exec` runs them, and the frame of each (10_state.md R55): an operation changes no part of the
state but those of which its row, or that of a part of it, names it as a writer. -/

namespace Sys2Proof.Machine

variable {s t u v : State} {l m : List Part} {p : Part}

section Exec

variable (s : State)

theorem exec_rdblk : exec .rdblk s = .next (rdblkOp s) := rfl
theorem exec_cycle : exec .cycle s = (cycleOp Config.default s).outcome := rfl
theorem exec_db : exec .db s = (dbOp Config.default s).outcome := rfl
theorem exec_freq : exec .freq s = (freqOp s).outcome := rfl
theorem exec_hue : exec .hue s = (hueOp s).outcome := rfl
theorem exec_bri : exec .bri s = (briOp Config.default s).outcome := rfl
theorem exec_hsv : exec .hsv s = (hsvOp s).outcome := rfl
theorem exec_chfin (c : Channel) : exec (.chfin c) s = (chfinOp c s).outcome := rfl
theorem exec_pack : exec .pack s = (packOp s).outcome := rfl
theorem exec_unpk (f : Field) : exec (.unpk f) s = (unpkOp f s).outcome := rfl
theorem exec_gate : exec .gate s = (gateOp s).outcome := rfl
theorem exec_fbld (r : Role) : exec (.fbld r) s = (fbldOp r s).outcome := rfl

end Exec

/-- R112: an operation that answers has legal operands. -/
theorem wellFormed_of_exec_next {i : Instr} (h : exec i s = .next t) : i.wellFormed = true := by
  by_contra hwf
  rw [exec_of_not_wellFormed s (Bool.eq_false_iff.mpr hwf)] at h
  cases h

theorem exec_bfly_eq_next {g : Fin 16} {k : Fin 2048} :
    exec (.bfly g k) s = .next t ↔ (Instr.bfly g k).wellFormed = true ∧ bflyOp g.val k.val s = .ok t := by
  refine ⟨fun h => ?_, fun ⟨hwf, h⟩ => by rw [exec, execBfly, if_pos hwf, h, Res.outcome]⟩
  have hwf := wellFormed_of_exec_next h
  rw [exec, execBfly, if_pos hwf] at h
  exact ⟨hwf, Res.outcome_eq_next.mp h⟩

theorem exec_stage_eq_next {g : Fin 16} :
    exec (.stage g) s = .next t ↔ (Instr.stage g).wellFormed = true ∧ stageOp g.val s = .ok t := by
  refine ⟨fun h => ?_, fun ⟨hwf, h⟩ => by rw [exec, execStage, if_pos hwf, h, Res.outcome]⟩
  have hwf := wellFormed_of_exec_next h
  rw [exec, execStage, if_pos hwf] at h
  exact ⟨hwf, Res.outcome_eq_next.mp h⟩

theorem exec_mag_eq_next {k : Fin 2048} :
    exec (.mag k) s = .next t ↔ (Instr.mag k).wellFormed = true ∧ magOp k.val s = .ok t := by
  refine ⟨fun h => ?_, fun ⟨hwf, h⟩ => by rw [exec, execMag, if_pos hwf, h, Res.outcome]⟩
  have hwf := wellFormed_of_exec_next h
  rw [exec, execMag, if_pos hwf] at h
  exact ⟨hwf, Res.outcome_eq_next.mp h⟩

/-! ### Operations that keep a property -/

/-- The operation keeps the property `P` when it answers. -/
def Keeps (P : State → Prop) (f : State → Res) : Prop := ∀ s t, P s → f s = .ok t → P t

theorem keeps_andThen {P : State → Prop} {f g : State → Res} (hf : Keeps P f) (hg : Keeps P g) :
    Keeps P fun s => (f s).andThen g := fun s t hs h => by
  obtain ⟨u, hu, ht⟩ := Res.andThen_eq_ok.mp h
  exact hg u t (hf s u hs hu) ht

theorem keeps_forEach {P : State → Prop} {body : Nat → State → Res} {is : List Nat}
    (round : ∀ i ∈ is, Keeps P (body i)) : Keeps P (forEach body is) := fun _ _ hs h =>
  forEach_keeps (fun i hi u v hu hv => round i hi u v hu hv) hs h

/-- R298: a transmission keeps what each of its frames keeps, answered, waiting or failed. -/
theorem keeps_txLoop {P : State → Prop} (hend : ∀ s, P s → P s.completeTransmission)
    (hround : ∀ r s v, P s → fwrOp r (buildFrame r s) = .ok v →
      P v ∧ P (v.await (.transmission r)) ∧ P (v.takeTransmissionFailure r))
    (roles : List Role) : Keeps P (txLoop roles) := by
  induction roles with
  | nil =>
    intro s t hs h
    cases h
    exact hend s hs
  | cons r rest ih =>
    intro s t hs h
    obtain ⟨v, hv, hcase⟩ := txLoop_cons_eq_ok.mp h
    obtain ⟨hkeep, hwait, hfail⟩ := hround r s v hs hv
    rcases hcase with ⟨-, rfl⟩ | ⟨-, -, hrest⟩ | ⟨-, -, rfl⟩
    · exact hwait
    · exact ih v t hkeep hrest
    · exact hfail

/-- R298: a transmission starts afresh with its reads recorded, or goes on from a frame. -/
theorem keeps_txOp {P : State → Prop} (hloop : ∀ roles, Keeps P (txLoop roles))
    (hstart : ∀ s, P s → P { s with waiting := none })
    (hnote : ∀ s op reads, P s → P (s.noteReads op reads)) : Keeps P txOp := by
  have hfresh : Keeps P freshTxOp := fun s t hs h => hloop _ _ t (hnote _ _ _ (hstart s hs)) h
  intro s t hs h
  unfold txOp at h
  split at h
  · exact hloop _ _ t (hstart s hs) h
  all_goals exact hfresh s t hs h

/-- R327: a cycle keeps what its parts keep. -/
theorem keeps_cycleOp {P : State → Prop} {c : Config} (hread : ∀ s, P s → P (rdblkOp s))
    (hspectrum : Keeps P (spectrumOp c)) (hmap : Keeps P (mapcOp c)) (hgate : Keeps P gateOp) (htx : Keeps P txOp)
    (hphase : ∀ s p, P s → P { s with phase := p }) : Keeps P (cycleOp c) := by
  have hend : Keeps P endCycleOp := keeps_andThen htx fun s t hs h => by
    split at h <;> (cases h; exact hphase s _ hs)
  have hanalyse : Keeps P (analyseOp c) := by
    refine keeps_andThen hspectrum (keeps_andThen hmap (keeps_andThen hgate fun s t hs h => ?_))
    split at h
    · exact hend s t hs h
    · cases h
      exact hphase s _ hs
  have hfresh : Keeps P (freshCycleOp c) := fun s t hs h => by
    unfold freshCycleOp at h
    split at h
    · cases h
      exact hread s hs
    · split at h
      · cases h
        exact hread s hs
      · exact hanalyse _ t (hread s hs) h
  intro s t hs h
  unfold cycleOp at h
  split at h
  · exact hend s t hs h
  all_goals exact hfresh s t hs h

/-! ### The frames -/

/-- An operation with a frame of its own keeps every wider frame. -/
theorem keeps_frame {f : State → Res} (hf : ∀ s t, f s = .ok t → s.frame l t) (hlm : l ⊆ m) (s : State) :
    Keeps (s.frame m) f := fun u v hu h => frame_trans hu (frame_mono (hf u v h) hlm)

theorem frame_phase (s : State) (p : Phase) : s.frame [.phase] { s with phase := p } :=
  ⟨fun q hq => by cases q <;> simp_all [State.agree], rfl, rfl, rfl⟩

theorem frame_noteReads (s : State) (op : Word) (reads : List (Elem × Bool)) :
    s.frame [.faultLog] (s.noteReads op reads) :=
  ⟨fun q hq => by cases q <;> simp_all [State.agree], rfl, rfl, rfl⟩

theorem frame_await (s : State) (w : Option Wait) : s.frame [.interfaces] { s with waiting := w } :=
  ⟨fun q hq => by cases q <;> simp_all [State.agree], rfl, rfl, rfl⟩

theorem frame_txStatus_device (s : State) (x y : BitVec 2) (w : Word) (b : Bool) :
    s.frame [.txStatus, .device] { s with txStatus := x, txFailIdx := y, devColor := w, devIndet := b } :=
  ⟨fun q hq => by cases q <;> simp_all [State.agree], rfl, rfl, rfl⟩

theorem rdblkOp_frame (s : State) : s.frame (writes .rdblk) (rdblkOp s) := by
  rcases rdblkOp_cases s with ⟨-, h⟩ | ⟨b, rest, -, h⟩ | ⟨l, rest, -, h⟩ <;> rw [h] <;>
    exact ⟨fun q hq => by cases q <;> simp_all [State.agree, writes], rfl, rfl, rfl⟩

theorem normOp_frame {i : Nat} (h : normOp i s = .ok t) : s.frame [.smp, .x] t := by
  obtain ⟨lo, hi, -, -, rfl⟩ := normOp_eq_ok.mp h
  exact frame_smp_x s _ _

theorem ldxOp_frame (h : ldxOp s = .ok t) : s.frame [.smp, .x] t :=
  forEach_frame h fun _ _ _ hv => normOp_frame hv

theorem brevOp_frame (h : brevOp s = .ok t) : s.frame [.a] t :=
  forEach_frame h fun j u v hv => by
    obtain ⟨x, -, rfl⟩ := brevStep_eq_ok.mp hv
    exact frame_a u _

theorem bflyOp_frame {g k : Nat} (h : bflyOp g k s = .ok t) : s.frame [.twv, .a] t := by
  obtain ⟨a, b, -, -, rfl⟩ := bflyOp_eq_ok.mp h
  exact frame_twv_a s _ _

theorem stageOp_frame {g : Nat} (h : stageOp g s = .ok t) : s.frame [.twv, .a] t :=
  forEach_frame h fun _ _ _ hv => bflyOp_frame hv

theorem peakOp_frame {c : Config} (h : peakOp c s = .ok t) : s.frame [.magv, .dbv, .maxima] t := by
  refine frame_trans (t := clearMaxima s) ?_ (forEach_frame h fun k u v hv => ?_)
  · exact ⟨fun q hq => by cases q <;> simp_all [State.agree], rfl, rfl, rfl⟩
  · obtain ⟨z, -, rfl⟩ := peakStep_eq_ok.mp hv
    exact ⟨fun q hq => by cases q <;> simp_all [State.agree], rfl, rfl, rfl⟩

/-- The parts that `SPECTRUM` writes. -/
def spectrumParts : List Part := [.smp, .x, .twv, .a, .s, .magv, .dbv, .maxima]

theorem spectrumOp_frame (h : spectrumOp Config.default s = .ok t) : s.frame spectrumParts t := by
  obtain ⟨u, hu, h⟩ := Res.andThen_eq_ok.mp h
  obtain ⟨v, hv, ht⟩ := Res.andThen_eq_ok.mp h
  exact frame_trans (frame_mono (ldxOp_frame hu) (by decide))
    (frame_trans (frame_mono (networkOp_frame hv) (by decide)) (frame_mono (peakOp_frame ht) (by decide)))

/-- Operations of the color mapper and the gate: each writes its destination and may record a fault. -/
theorem freqOp_frame (h : freqOp s = .ok t) : s.frame (writes .freq) t := by
  obtain rfl := freqOp_eq_ok.mp h
  exact ⟨fun q hq => by cases q <;> simp_all [State.agree, writes], rfl, rfl, rfl⟩

theorem hueOp_frame (h : hueOp s = .ok t) : s.frame (writes .hue) t := by
  obtain rfl := hueOp_eq_ok.mp h
  exact ⟨fun q hq => by cases q <;> simp_all [State.agree, writes], rfl, rfl, rfl⟩

theorem briOp_frame {c : Config} (h : briOp c s = .ok t) : s.frame (writes .bri) t := by
  obtain rfl := briOp_eq_ok.mp h
  exact ⟨fun q hq => by cases q <;> simp_all [State.agree, writes], rfl, rfl, rfl⟩

theorem hsvOp_frame (h : hsvOp s = .ok t) : s.frame (writes .hsv) t := by
  obtain ⟨o, -, rfl⟩ := hsvOp_eq_ok.mp h
  exact ⟨fun q hq => by cases q <;> simp_all [State.agree, writes], rfl, rfl, rfl⟩

theorem chfinOp_frame {c : Channel} (h : chfinOp c s = .ok t) : s.frame (writes (.chfin c)) t := by
  obtain ⟨b, -, rfl⟩ := chfinOp_eq_ok.mp h
  cases c <;> exact ⟨fun q hq => by cases q <;> simp_all [State.agree, writes, State.putChannel], rfl, rfl, rfl⟩

theorem packOp_frame (h : packOp s = .ok t) : s.frame (writes .pack) t := by
  obtain rfl := packOp_eq_ok.mp h
  exact ⟨fun q hq => by cases q <;> simp_all [State.agree, writes], rfl, rfl, rfl⟩

theorem gateOp_frame (h : gateOp s = .ok t) : s.frame (writes .gate) t := by
  obtain rfl := gateOp_eq_ok.mp h
  exact frame_trans (frame_mono (frame_noteReads s _ _) (by decide)) (frame_mono (frame_latchColor _ _) (by decide))

/-- The parts that `MAPC` writes. -/
def mapParts : List Part := [.domFreq, .hue, .bri, .rgb, .channels, .color, .faultLog]

theorem mapcOp_frame {c : Config} (h : mapcOp c s = .ok t) : s.frame mapParts t := by
  have hchfin (ch : Channel) : Keeps (s.frame mapParts) (chfinOp ch) :=
    keeps_frame (fun _ _ hv => chfinOp_frame hv) (by simp [writes, mapParts]) s
  have hmap : Keeps (s.frame mapParts) (mapcOp c) :=
    keeps_andThen (keeps_frame (fun _ _ hv => freqOp_frame hv) (by decide) s) <|
    keeps_andThen (keeps_frame (fun _ _ hv => hueOp_frame hv) (by decide) s) <|
    keeps_andThen (keeps_frame (fun _ _ hv => briOp_frame hv) (by decide) s) <|
    keeps_andThen (keeps_frame (fun _ _ hv => hsvOp_frame hv) (by decide) s) <|
    keeps_andThen (hchfin .red) <| keeps_andThen (hchfin .green) <| keeps_andThen (hchfin .blue)
      (keeps_frame (fun _ _ hv => packOp_frame hv) (by decide) s)
  exact hmap s t (frame_refl s _) h

theorem buildFrame_frame (r : Role) (s : State) : s.frame [.fbuf] (buildFrame r s) :=
  ⟨fun q hq => by cases q <;> simp_all [State.agree], rfl, rfl, rfl⟩

theorem fwrOp_frame {r : Role} (h : fwrOp r s = .ok t) : s.frame [.wrOk, .interfaces] t := by
  obtain ⟨f, -, ⟨-, rfl⟩ | ⟨a, rest, -, rfl⟩⟩ := fwrOp_eq_ok.mp h <;>
    exact ⟨fun q hq => by cases q <;> simp_all [State.agree], rfl, rfl, rfl⟩

theorem txLoop_frame {roles : List Role} (h : txLoop roles s = .ok t) : s.frame transmissionParts t := by
  refine keeps_txLoop (P := s.frame transmissionParts) (fun u hu => ?_) (fun r u v hu hv => ?_) roles s t
    (frame_refl s _) h
  · exact frame_trans hu (frame_mono (frame_txStatus_device u _ _ _ _) (by decide))
  · have hround : s.frame transmissionParts v := frame_trans hu (frame_trans
      (frame_mono (buildFrame_frame r u) (by decide)) (frame_mono (fwrOp_frame hv) (by decide)))
    exact ⟨hround, frame_trans hround (frame_mono (frame_await v _) (by decide)),
      frame_trans hround (frame_mono (frame_txStatus_device v _ _ _ _) (by decide))⟩

theorem txOp_frame (h : txOp s = .ok t) : s.frame (writes .tx) t :=
  keeps_txOp (P := s.frame (writes .tx))
    (fun _ => keeps_frame (fun _ _ hv => txLoop_frame hv) (by decide) s)
    (fun u hu => frame_trans hu (frame_mono (frame_await u none) (by decide)))
    (fun u op reads hu => frame_trans hu (frame_mono (frame_noteReads u op reads) (by decide))) s t (frame_refl s _) h

theorem cycleOp_frame (h : cycleOp Config.default s = .ok t) : s.frame (writes .cycle) t :=
  keeps_cycleOp (P := s.frame (writes .cycle))
    (fun u hu => frame_trans hu (frame_mono (rdblkOp_frame u) (by decide)))
    (keeps_frame (fun _ _ hv => spectrumOp_frame hv) (by decide) s)
    (keeps_frame (fun _ _ hv => mapcOp_frame hv) (by decide) s)
    (keeps_frame (fun _ _ hv => gateOp_frame hv) (by decide) s)
    (keeps_frame (fun _ _ hv => txOp_frame hv) (by decide) s)
    (fun u p hu => frame_trans hu (frame_mono (frame_phase u p) (by decide))) s t (frame_refl s _) h

theorem fbldOp_frame {r : Role} (h : fbldOp r s = .ok t) : s.frame (writes (.fbld r)) t := by
  obtain rfl := fbldOp_eq_ok.mp h
  cases r with
  | payload =>
    exact frame_trans (frame_mono (frame_noteReads s _ _) (by decide)) (frame_mono (buildFrame_frame _ _) (by decide))
  | _ =>
    rw [frameSources, State.noteReads_nil]
    exact buildFrame_frame _ s

/-- Settles O23: each operation by its own frame, the composite ones by those of their parts. -/
theorem onlyWritersWrite : Obligations.OnlyWritersWrite := by
  intro i s t h
  cases i with
  | rdblk =>
    cases h
    exact rdblkOp_frame s
  | cycle => exact cycleOp_frame (Res.outcome_eq_next.mp h)
  | halt =>
    cases h
    exact frame_phase s _
  | decs k =>
    obtain ⟨lo, hi, -, -, rfl⟩ := decsOp_eq_ok.mp (Res.outcome_eq_next.mp h)
    exact ⟨fun q hq => by cases q <;> simp_all [State.agree, writes], rfl, rfl, rfl⟩
  | norm k => exact normOp_frame (Res.outcome_eq_next.mp h)
  | ldx => exact ldxOp_frame (Res.outcome_eq_next.mp h)
  | twrd k =>
    cases h
    exact ⟨fun q hq => by cases q <;> simp_all [State.agree, writes], rfl, rfl, rfl⟩
  | brev => exact brevOp_frame (Res.outcome_eq_next.mp h)
  | bfly g k => exact bflyOp_frame (exec_bfly_eq_next.mp h).2
  | stage g => exact stageOp_frame (exec_stage_eq_next.mp h).2
  | rfft => exact networkOp_frame (Res.outcome_eq_next.mp (exec_rfft s ▸ h))
  | mag k =>
    obtain ⟨z, -, rfl⟩ := magOp_eq_ok.mp (exec_mag_eq_next.mp h).2
    exact ⟨fun q hq => by cases q <;> simp_all [State.agree, writes], rfl, rfl, rfl⟩
  | db =>
    obtain rfl := dbOp_eq_ok.mp (Res.outcome_eq_next.mp h)
    exact ⟨fun q hq => by cases q <;> simp_all [State.agree, writes], rfl, rfl, rfl⟩
  | peak => exact peakOp_frame (Res.outcome_eq_next.mp (exec_peak s ▸ h))
  | freq => exact freqOp_frame (Res.outcome_eq_next.mp h)
  | hue => exact hueOp_frame (Res.outcome_eq_next.mp h)
  | bri => exact briOp_frame (Res.outcome_eq_next.mp h)
  | hsv => exact hsvOp_frame (Res.outcome_eq_next.mp h)
  | chfin c => exact chfinOp_frame (Res.outcome_eq_next.mp h)
  | pack => exact packOp_frame (Res.outcome_eq_next.mp h)
  | unpk f =>
    obtain rfl := unpkOp_eq_ok.mp (Res.outcome_eq_next.mp h)
    exact ⟨fun q hq => by cases q <;> simp_all [State.agree, writes], rfl, rfl, rfl⟩
  | gate => exact gateOp_frame (Res.outcome_eq_next.mp h)
  | fbld r => exact fbldOp_frame (Res.outcome_eq_next.mp h)
  | fwr r => exact fwrOp_frame (Res.outcome_eq_next.mp h)
  | tx => exact txOp_frame (Res.outcome_eq_next.mp h)

/-- Settles O1: the decoder undoes the encoder. -/
theorem decodeEncodeAgree : Obligations.DecodeEncodeAgree := fun _ h => decode_encode h

end Sys2Proof.Machine
end

section
/-! What a step keeps (10_state.md R43, R52; 20_memory.md R70; 30_encoding.md R103, R105): an invariant that reads some
parts of the state has to be shown for the writers of these parts alone, and for reset. -/

namespace Sys2Proof.Machine

variable {s t u : State} {l m : List Part} {p : Part} {P : State → Prop}

/-! ### What a step leaves unchanged -/

theorem agree_issue (w : Word) (s : State) (p : Part) : s.agree (issue w s) p := by
  rw [issue_eq]
  cases p <;> simp [State.agree]

/-- What follows an operation moves the phase and the place within `MAP`, and drops a test's operation. -/
theorem agree_settleStep (s u : State) (hphase : p ≠ .phase) (hpos : p ≠ .pos) : u.agree (settleStep s u) p := by
  unfold settleStep
  split
  · exact (frame_refl u []).1 p (by simp)
  · split
    · cases p <;> simp [State.agree]
    · exact (advance_frame s.phase u).1 p (by simp [hphase, hpos])

/-- A step without a reset runs one operation, before which and after which nothing changes but the phase and the
place within `MAP`. -/
theorem exists_exec_of_step (h : step s = .next t) (hr : s.resetReq = false) :
    ∃ i u v, decode (nextWord s) = .ok i ∧ (∀ p, s.agree u p) ∧ exec i u = .next v ∧
      ∀ p, p ≠ .phase → p ≠ .pos → v.agree t p := by
  rcases step_eq_next.mp h with ⟨hreset, -⟩ | ⟨-, i, v, hi, hv, rfl⟩
  · rw [hr] at hreset
    cases hreset
  · exact ⟨i, _, v, hi, agree_issue _ s, hv, fun p => agree_settleStep s v⟩

/-- A part that a step changes is one that its operation writes. -/
theorem agree_of_step (h : step s = .next t) (hr : s.resetReq = false) (hphase : p ≠ .phase) (hpos : p ≠ .pos)
    (hw : ∀ i, decode (nextWord s) = .ok i → p ∉ writes i) : s.agree t p := by
  obtain ⟨i, u, v, hi, hu, hv, ht⟩ := exists_exec_of_step h hr
  exact agree_trans (hu p) (agree_trans ((onlyWritersWrite i u v hv).1 p (hw i hi)) (ht p hphase hpos))

/-- Settles O24: the gate is written by `GATE` and `CYCLE` alone. -/
theorem onlyGateChangesPrevColor : Obligations.OnlyGateChangesPrevColor := by
  intro s t h hne
  by_contra! hnot
  obtain ⟨hr, hgate, hcycle⟩ := hnot
  refine hne (agree_of_step (p := .gate) h (Bool.eq_false_iff.mpr hr) (by decide) (by decide) fun i hi => ?_).1
  obtain ⟨-, hword⟩ := decode_eq_ok_iff.mp hi
  cases i with
  | gate => exact absurd hword.symm hgate
  | cycle => exact absurd hword.symm hcycle
  | fbld r => cases r <;> decide
  | _ => simp [writes]

/-! ### Properties of some parts of the state -/

/-- The property reads no part of the state but those listed. -/
def DependsOn (P : State → Prop) (l : List Part) : Prop := ∀ s t, (∀ p ∈ l, s.agree t p) → P s → P t

/-- An operation that writes none of the parts keeps the property. -/
theorem keeps_of_frame {f : State → Res} (hP : DependsOn P l) (hf : ∀ s t, f s = .ok t → s.frame m t)
    (hlm : ∀ p ∈ l, p ∉ m) : Keeps P f := fun s t hs h => hP s t (fun p hp => (hf s t h).1 p (hlm p hp)) hs

/-- The same for `exec`. -/
theorem exec_keeps_of_not_writes {i : Instr} (hP : DependsOn P l) (hl : ∀ p ∈ l, p ∉ writes i)
    (h : exec i s = .next t) (hs : P s) : P t := hP s t (fun p hp => (onlyWritersWrite i s t h).1 p (hl p hp)) hs

/-- A property that every operation and reset keep is kept by every step. -/
theorem step_keeps (hP : DependsOn P l) (hphase : .phase ∉ l) (hpos : .pos ∉ l) (hreset : ∀ s, P s → P s.applyReset)
    (hexec : ∀ i s t, exec i s = .next t → P s → P t) (h : step s = .next t) (hs : P s) : P t := by
  cases hr : s.resetReq with
  | true =>
    rw [step_of_resetReq hr] at h
    cases h
    exact hreset s hs
  | false =>
    obtain ⟨i, u, v, -, hu, hv, ht⟩ := exists_exec_of_step h hr
    have hPu : P u := hP s u (fun p _ => hu p) hs
    refine hP v t (fun p hp => ht p ?_ ?_) (hexec i u v hv hPu)
    · rintro rfl
      exact hphase hp
    · rintro rfl
      exact hpos hp

/-! ### The canonical form of the index spaces (R70) -/

theorem memoryWf_iff : s.memoryWf = true ↔ s.blk.wf 4096 = true ∧ s.xBuf.wf 2048 = true ∧ s.aBuf.wf 2048 = true ∧
    s.sBuf.wf 1025 = true ∧ s.fbuf.wf 16 = true := by
  simp only [State.memoryWf, Bool.and_eq_true, and_assoc]

/-- The property of R70, as one of the state. -/
def MemoryWf (s : State) : Prop := s.memoryWf = true

theorem memoryWf_dependsOn : DependsOn MemoryWf [.blk, .x, .a, .s, .fbuf] := by
  intro s t h hs
  obtain ⟨hblk, hx, ha, hsp, hf⟩ : t.blk = s.blk ∧ t.xBuf = s.xBuf ∧ t.aBuf = s.aBuf ∧ t.sBuf = s.sBuf ∧
      t.fbuf = s.fbuf := by simpa [State.agree] using h
  rw [MemoryWf, memoryWf_iff] at hs ⊢
  rwa [hblk, hx, ha, hsp, hf]

theorem normOp_keeps_memoryWf {i : Nat} (hi : i < 2048) : Keeps MemoryWf (normOp i) := by
  intro s t hs h
  obtain ⟨hblk, hx, hrest⟩ := memoryWf_iff.mp hs
  obtain ⟨lo, hi', -, -, rfl⟩ := normOp_eq_ok.mp h
  exact memoryWf_iff.mpr ⟨hblk, Memory.wf_write _ hi hx, hrest⟩

theorem ldxOp_keeps_memoryWf : Keeps MemoryWf ldxOp :=
  keeps_forEach fun _ hi => normOp_keeps_memoryWf (List.mem_range.mp hi)

theorem writeA_memoryWf {i : Nat} (z : Cplx) (hi : i < 2048) (hs : MemoryWf s) : MemoryWf (s.writeA i z) := by
  obtain ⟨hblk, hx, ha, hrest⟩ := memoryWf_iff.mp hs
  exact memoryWf_iff.mpr ⟨hblk, hx, Memory.wf_write _ hi ha, hrest⟩

theorem brevOp_keeps_memoryWf : Keeps MemoryWf brevOp := keeps_forEach fun j hj s t hs h => by
  obtain ⟨v, -, rfl⟩ := brevStep_eq_ok.mp h
  exact writeA_memoryWf _ (List.mem_range.mp hj) hs

theorem bflyOp_keeps_memoryWf {g k : Nat} (h1 : 1 ≤ g) (h11 : g ≤ 11) (hk : k < 2048) (hlow : k % 2 ^ g < halfGroup g) :
    Keeps MemoryWf (bflyOp g k) := by
  intro s t hs h
  obtain ⟨a, b, -, -, rfl⟩ := bflyOp_eq_ok.mp h
  have htwrd : MemoryWf (twrdOp (twiddleIndex g k) s) := hs
  exact writeA_memoryWf _ (add_halfGroup_lt h1 h11 hk hlow) (writeA_memoryWf _ hk htwrd)

theorem stageOp_keeps_memoryWf {g : Nat} (h1 : 1 ≤ g) (h11 : g ≤ 11) : Keeps MemoryWf (stageOp g) :=
  keeps_forEach fun k hk => by
    obtain ⟨hk, hlow⟩ := (mem_stagePairs h1 h11).mp hk
    exact bflyOp_keeps_memoryWf h1 h11 hk hlow

theorem binStep_keeps_memoryWf {k : Nat} (hk : k < 1025) : Keeps MemoryWf (binStep k) := by
  intro s t hs h
  obtain ⟨hblk, hx, ha, hsp, hf⟩ := memoryWf_iff.mp hs
  obtain ⟨z, -, rfl⟩ := binStep_eq_ok.mp h
  exact memoryWf_iff.mpr ⟨hblk, hx, ha, Memory.wf_write _ hk hsp, hf⟩

theorem networkOp_keeps_memoryWf : Keeps MemoryWf networkOp :=
  keeps_andThen brevOp_keeps_memoryWf <| keeps_andThen
    (keeps_forEach fun g hg => stageOp_keeps_memoryWf (by simp at hg; omega) (by simp at hg; omega))
    (keeps_forEach fun _ hk => binStep_keeps_memoryWf (List.mem_range.mp hk))

theorem rdblkOp_memoryWf (s : State) (hs : MemoryWf s) : MemoryWf (rdblkOp s) := by
  rcases rdblkOp_cases s with ⟨-, h⟩ | ⟨b, rest, -, h⟩ | ⟨l, rest, -, h⟩ <;> rw [h]
  · exact hs
  · exact memoryWf_iff.mpr ⟨Memory.wf_fill (by simp), rfl, rfl, rfl, rfl⟩
  · exact hs

@[simp] theorem length_frameOf (r : Role) (c : Word) : (frameOf r c).length = 16 := by cases r <;> rfl

theorem buildFrame_memoryWf (r : Role) (hs : MemoryWf s) : MemoryWf (buildFrame r s) := by
  obtain ⟨hblk, hx, ha, hsp, -⟩ := memoryWf_iff.mp hs
  exact memoryWf_iff.mpr ⟨hblk, hx, ha, hsp, Memory.wf_fill (by rw [length_frameOf])⟩

theorem txOp_keeps_memoryWf : Keeps MemoryWf txOp :=
  keeps_txOp (keeps_txLoop (fun _ hs => hs) fun r s v hs hv => by
    have hv : MemoryWf v := keeps_of_frame memoryWf_dependsOn (fun _ _ h => fwrOp_frame h) (by decide) _ v
      (buildFrame_memoryWf r hs) hv
    exact ⟨hv, hv, hv⟩) (fun _ hs => hs) (fun _ _ _ hs => hs)

theorem cycleOp_keeps_memoryWf : Keeps MemoryWf (cycleOp Config.default) :=
  keeps_cycleOp rdblkOp_memoryWf
    (keeps_andThen ldxOp_keeps_memoryWf <| keeps_andThen networkOp_keeps_memoryWf <|
      keeps_of_frame memoryWf_dependsOn (fun _ _ h => peakOp_frame h) (by decide))
    (keeps_of_frame memoryWf_dependsOn (fun _ _ h => mapcOp_frame h) (by decide))
    (keeps_of_frame memoryWf_dependsOn (fun _ _ h => gateOp_frame h) (by decide)) txOp_keeps_memoryWf (fun _ _ hs => hs)

theorem exec_keeps_memoryWf (i : Instr) (s t : State) (h : exec i s = .next t) (hs : MemoryWf s) : MemoryWf t := by
  cases i with
  | rdblk =>
    cases h
    exact rdblkOp_memoryWf s hs
  | cycle => exact cycleOp_keeps_memoryWf s t hs (Res.outcome_eq_next.mp h)
  | norm i => exact normOp_keeps_memoryWf i.isLt s t hs (Res.outcome_eq_next.mp h)
  | ldx => exact ldxOp_keeps_memoryWf s t hs (Res.outcome_eq_next.mp h)
  | brev => exact brevOp_keeps_memoryWf s t hs (Res.outcome_eq_next.mp h)
  | bfly g k =>
    obtain ⟨hwf, h⟩ := exec_bfly_eq_next.mp h
    simp only [Instr.wellFormed, stageLegal, pairLegal, Bool.and_eq_true, decide_eq_true_eq] at hwf
    obtain ⟨⟨h1, h11⟩, hlow⟩ := hwf
    exact bflyOp_keeps_memoryWf h1 h11 k.isLt hlow s t hs h
  | stage g =>
    obtain ⟨hwf, h⟩ := exec_stage_eq_next.mp h
    simp only [Instr.wellFormed, stageLegal, Bool.and_eq_true, decide_eq_true_eq] at hwf
    obtain ⟨h1, h11⟩ := hwf
    exact stageOp_keeps_memoryWf h1 h11 s t hs h
  | rfft => exact networkOp_keeps_memoryWf s t hs (Res.outcome_eq_next.mp (exec_rfft s ▸ h))
  | fbld r =>
    obtain rfl := fbldOp_eq_ok.mp (Res.outcome_eq_next.mp h)
    exact buildFrame_memoryWf r hs
  | tx => exact txOp_keeps_memoryWf s t hs (Res.outcome_eq_next.mp h)
  | _ => exact exec_keeps_of_not_writes memoryWf_dependsOn (by simp [writes]) h hs

/-- Settles O20: the writes of every operation are at indices in range, and a reset empties the spaces. -/
theorem stepKeepsMemoryWf : Obligations.StepKeepsMemoryWf := fun _ _ hs h =>
  step_keeps memoryWf_dependsOn (by decide) (by decide) (fun _ _ => rfl) exec_keeps_memoryWf h hs

/-! ### The status registers (R52, R354) -/

theorem statusLegal_dependsOn : DependsOn State.statusLegal [.txStatus] := by
  intro s t h hs
  obtain ⟨hstatus, hidx⟩ : t.txStatus = s.txStatus ∧ t.txFailIdx = s.txFailIdx := by simpa [State.agree] using h
  rwa [State.statusLegal, hstatus, hidx]

theorem txNone_ne_reserved : txNone ≠ 3 := by decide
theorem txOk_ne_reserved : txOk ≠ 3 := by decide
theorem txFail_ne_reserved : txFail ≠ 3 := by decide

theorem rdblkOp_statusLegal (s : State) (hs : s.statusLegal) : (rdblkOp s).statusLegal := by
  rcases rdblkOp_cases s with ⟨-, h⟩ | ⟨b, rest, -, h⟩ | ⟨l, rest, -, h⟩ <;> rw [h]
  · exact hs
  · exact ⟨txNone_ne_reserved, fun _ => rfl⟩
  · exact hs

theorem txOp_keeps_statusLegal : Keeps State.statusLegal txOp := by
  refine keeps_txOp (keeps_txLoop (fun s _ => ⟨txOk_ne_reserved, fun _ => rfl⟩) fun r s v hs hv => ?_) (fun _ hs => hs)
    (fun _ _ _ hs => hs)
  have hv : v.statusLegal := keeps_of_frame statusLegal_dependsOn (fun _ _ h => fwrOp_frame h) (by decide)
    (buildFrame r s) v hs hv
  exact ⟨hv, hv, txFail_ne_reserved, fun hne => absurd rfl hne⟩

theorem cycleOp_keeps_statusLegal : Keeps State.statusLegal (cycleOp Config.default) :=
  keeps_cycleOp rdblkOp_statusLegal
    (keeps_of_frame statusLegal_dependsOn (fun _ _ h => spectrumOp_frame h) (by decide))
    (keeps_of_frame statusLegal_dependsOn (fun _ _ h => mapcOp_frame h) (by decide))
    (keeps_of_frame statusLegal_dependsOn (fun _ _ h => gateOp_frame h) (by decide)) txOp_keeps_statusLegal
    (fun _ _ hs => hs)

theorem exec_keeps_statusLegal (i : Instr) (s t : State) (h : exec i s = .next t) (hs : s.statusLegal) :
    t.statusLegal := by
  cases i with
  | rdblk =>
    cases h
    exact rdblkOp_statusLegal s hs
  | cycle => exact cycleOp_keeps_statusLegal s t hs (Res.outcome_eq_next.mp h)
  | tx => exact txOp_keeps_statusLegal s t hs (Res.outcome_eq_next.mp h)
  | fbld r => exact exec_keeps_of_not_writes statusLegal_dependsOn (by cases r <;> decide) h hs
  | _ => exact exec_keeps_of_not_writes statusLegal_dependsOn (by simp [writes]) h hs

/-! ### The maxima (R43) -/

theorem maximaLegal_dependsOn : DependsOn State.maximaLegal [.maxima] := by
  intro s t h hs
  obtain ⟨hmag, hdb⟩ : t.magMax = s.magMax ∧ t.dbMax = s.dbMax := by simpa [State.agree] using h
  rwa [State.maximaLegal, hmag, hdb]

/-- A value above one that has no minus sign has none. -/
theorem nonNegative_of_gt {v m : F64} (hm : F64NonNegative m) (h : v.gt m = true) : F64NonNegative v := by
  obtain ⟨hv, -, hlt⟩ := F64.gt_iff_rank.mp h
  have hrank : 0 ≤ m.rank := by cases m <;> simp_all [F64NonNegative, F64.withSign]
  cases v <;> simp_all [F64NonNegative, F64.withSign] <;> grind

/-- A running maximum has no minus sign when it starts without one. -/
theorem nonNegative_runningMax_of_held {m : F64} (v : F64) (hm : F64NonNegative m) :
    F64NonNegative (runningMax m v) := by
  unfold runningMax
  split
  · exact nonNegative_of_gt hm ‹_›
  · exact hm

/-- Both maxima are at or above `+0.0`, written or not. -/
def MaximaNonNegative (s : State) : Prop := F64NonNegative s.magMax.value ∧ F64NonNegative s.dbMax.value

theorem peakOp_maximaLegal {c : Config} (h : peakOp c s = .ok t) : t.maximaLegal := by
  have hround (k : Nat) : Keeps MaximaNonNegative (peakStep c k) := fun u v ⟨hmag, hdb⟩ hv => by
    obtain ⟨z, -, rfl⟩ := peakStep_eq_ok.mp hv
    exact ⟨nonNegative_runningMax_of_held _ hmag, nonNegative_runningMax_of_held _ hdb⟩
  obtain ⟨hmag, hdb⟩ := keeps_forEach (fun k _ => hround k) (clearMaxima s) t ⟨rfl, rfl⟩ h
  exact ⟨fun _ => hmag, fun _ => hdb⟩

theorem cycleOp_keeps_maximaLegal : Keeps State.maximaLegal (cycleOp Config.default) :=
  keeps_cycleOp
    (fun s hs => maximaLegal_dependsOn s _ (fun p hp => (rdblkOp_frame s).1 p (by revert p; decide)) hs)
    (fun s t _ h => by
      obtain ⟨u, -, h⟩ := Res.andThen_eq_ok.mp h
      obtain ⟨v, -, ht⟩ := Res.andThen_eq_ok.mp h
      exact peakOp_maximaLegal ht)
    (keeps_of_frame maximaLegal_dependsOn (fun _ _ h => mapcOp_frame h) (by decide))
    (keeps_of_frame maximaLegal_dependsOn (fun _ _ h => gateOp_frame h) (by decide))
    (keeps_of_frame maximaLegal_dependsOn (fun _ _ h => txOp_frame h) (by decide)) (fun _ _ hs => hs)

theorem exec_keeps_maximaLegal (i : Instr) (s t : State) (h : exec i s = .next t) (hs : s.maximaLegal) :
    t.maximaLegal := by
  cases i with
  | cycle => exact cycleOp_keeps_maximaLegal s t hs (Res.outcome_eq_next.mp h)
  | peak => exact peakOp_maximaLegal (Res.outcome_eq_next.mp (exec_peak s ▸ h))
  | fbld r => exact exec_keeps_of_not_writes maximaLegal_dependsOn (by cases r <;> decide) h hs
  | _ => exact exec_keeps_of_not_writes maximaLegal_dependsOn (by simp [writes]) h hs

/-! ### The alpha field (R103) -/

theorem alphaZero_dependsOn : DependsOn State.alphaZero [.color, .gate] := by
  intro s t h hs
  obtain ⟨hcolor, hprev, -⟩ : t.color = s.color ∧ t.prevColor = s.prevColor ∧ t.gateSend = s.gateSend := by
    simpa [State.agree] using h
  rwa [State.alphaZero, hcolor, hprev]

theorem toNat_packColor (r g b a : Byte) :
    (packColor r g b a).toNat = a.toNat * 2 ^ 24 + r.toNat * 2 ^ 16 + g.toNat * 2 ^ 8 + b.toNat := by
  have hr := r.isLt
  have hg := g.isLt
  have hb := b.isLt
  rw [packColor, BitVec.toNat_append, BitVec.toNat_append, BitVec.toNat_append, ← Nat.shiftLeft_add_eq_or_of_lt hr,
    ← Nat.shiftLeft_add_eq_or_of_lt hg, ← Nat.shiftLeft_add_eq_or_of_lt hb]
  simp only [Nat.shiftLeft_eq]
  omega

theorem toNat_colorField (f : Field) (c : Word) : (colorField f c).toNat = c.toNat / 2 ^ (8 * f.code) % 256 := by
  rw [colorField, BitVec.extractLsb'_toNat, Nat.shiftRight_eq_div_pow]

theorem alphaOf_packColor (r g b a : Byte) : alphaOf (packColor r g b a) = a := by
  refine BitVec.eq_of_toNat_eq ?_
  have hr := r.isLt
  have hg := g.isLt
  have hb := b.isLt
  have ha := a.isLt
  rw [alphaOf, toNat_colorField, toNat_packColor, Field.code]
  omega

theorem packOp_keeps_alphaZero : Keeps State.alphaZero packOp := fun s t ⟨_, hprev⟩ h => by
  obtain rfl := packOp_eq_ok.mp h
  exact ⟨alphaOf_packColor _ _ _ 0, hprev⟩

theorem gateOp_keeps_alphaZero : Keeps State.alphaZero gateOp := fun s t ⟨hcolor, _⟩ h => by
  obtain rfl := gateOp_eq_ok.mp h
  refine ⟨hcolor, ?_⟩
  rwa [prevColor_latchColor]

theorem mapcOp_keeps_alphaZero {c : Config} : Keeps State.alphaZero (mapcOp c) := by
  have hchfin (ch : Channel) : Keeps State.alphaZero (chfinOp ch) :=
    keeps_of_frame alphaZero_dependsOn (fun _ _ h => chfinOp_frame h) (by simp [writes])
  exact keeps_andThen (keeps_of_frame alphaZero_dependsOn (fun _ _ h => freqOp_frame h) (by decide)) <|
    keeps_andThen (keeps_of_frame alphaZero_dependsOn (fun _ _ h => hueOp_frame h) (by decide)) <|
    keeps_andThen (keeps_of_frame alphaZero_dependsOn (fun _ _ h => briOp_frame h) (by decide)) <|
    keeps_andThen (keeps_of_frame alphaZero_dependsOn (fun _ _ h => hsvOp_frame h) (by decide)) <|
    keeps_andThen (hchfin .red) <| keeps_andThen (hchfin .green) <| keeps_andThen (hchfin .blue) packOp_keeps_alphaZero

theorem cycleOp_keeps_alphaZero : Keeps State.alphaZero (cycleOp Config.default) :=
  keeps_cycleOp
    (fun s hs => alphaZero_dependsOn s _ (fun p hp => (rdblkOp_frame s).1 p (by revert p; decide)) hs)
    (keeps_of_frame alphaZero_dependsOn (fun _ _ h => spectrumOp_frame h) (by decide)) mapcOp_keeps_alphaZero
    gateOp_keeps_alphaZero (keeps_of_frame alphaZero_dependsOn (fun _ _ h => txOp_frame h) (by decide)) (fun _ _ hs => hs)

theorem exec_keeps_alphaZero (i : Instr) (s t : State) (h : exec i s = .next t) (hs : s.alphaZero) : t.alphaZero := by
  cases i with
  | cycle => exact cycleOp_keeps_alphaZero s t hs (Res.outcome_eq_next.mp h)
  | pack => exact packOp_keeps_alphaZero s t hs (Res.outcome_eq_next.mp h)
  | gate => exact gateOp_keeps_alphaZero s t hs (Res.outcome_eq_next.mp h)
  | fbld r => exact exec_keeps_of_not_writes alphaZero_dependsOn (by cases r <;> decide) h hs
  | _ => exact exec_keeps_of_not_writes alphaZero_dependsOn (by simp [writes]) h hs

theorem reset_statusLegal : State.reset.statusLegal := ⟨by decide, fun _ => rfl⟩

theorem reset_maximaLegal : State.reset.maximaLegal := ⟨nofun, nofun⟩

theorem reset_alphaZero : State.reset.alphaZero := ⟨by decide, by decide⟩

/-- Settles O21: each of the three invariants has few writers, and a reset restores all three. -/
theorem stepKeepsRegisterInvariants : Obligations.StepKeepsRegisterInvariants := fun s t h =>
  ⟨step_keeps statusLegal_dependsOn (by decide) (by decide) (fun _ _ => reset_statusLegal) exec_keeps_statusLegal h,
    step_keeps maximaLegal_dependsOn (by decide) (by decide) (fun _ _ => reset_maximaLegal) exec_keeps_maximaLegal h,
    step_keeps alphaZero_dependsOn (by decide) (by decide) (fun _ _ => reset_alphaZero) exec_keeps_alphaZero h⟩

/-! ### The frames of the protocol (R104, R105) -/

theorem framesLegal_dependsOn : DependsOn State.framesLegal [.fbuf, .interfaces] := by
  intro s t h hs
  obtain ⟨hf, -, -, hwait, hevents, -⟩ : t.fbuf = s.fbuf ∧ t.producer = s.producer ∧ t.sink = s.sink ∧
      t.waiting = s.waiting ∧ t.events = s.events ∧ t.draws = s.draws := by simpa [State.agree] using h
  rwa [State.framesLegal, State.offering, hf, hwait, hevents]

theorem eventLegal_append {es fs : List Event} (hes : ∀ e ∈ es, EventLegal e) (hfs : ∀ e ∈ fs, EventLegal e) :
    ∀ e ∈ es ++ fs, EventLegal e := fun e he => (List.mem_append.mp he).elim (hes e) (hfs e)

/-- What holds of the frame buffer and the record while nothing is offered. -/
theorem framesLegal_of_not_offering (hoff : s.offering = false)
    (hf : s.fbuf = [] ∨ ∃ r c, s.fbuf = Memory.fill (frameOf r c)) (hevents : ∀ e ∈ s.events, EventLegal e) :
    s.framesLegal := by
  refine ⟨hf, fun h => ?_, hevents⟩
  rw [hoff] at h
  cases h

theorem rdblkOp_framesLegal (s : State) (hs : s.framesLegal) : (rdblkOp s).framesLegal := by
  obtain ⟨hf, -, hevents⟩ := hs
  have hread (d : Delivery) : ∀ e ∈ s.events ++ [.read d], EventLegal e :=
    eventLegal_append hevents fun e he => by
      obtain rfl := List.mem_singleton.mp he
      trivial
  rcases rdblkOp_cases s with ⟨-, h⟩ | ⟨b, rest, -, h⟩ | ⟨l, rest, -, h⟩ <;> rw [h]
  · exact framesLegal_of_not_offering rfl hf hevents
  · exact framesLegal_of_not_offering rfl (.inl rfl) (hread _)
  · exact framesLegal_of_not_offering rfl hf (hread _)

theorem fill_frameOf_ne_nil (r : Role) (c : Word) : Memory.fill (frameOf r c) ≠ [] := by
  cases r <;> simp [Memory.fill, Memory.fillFrom, frameOf, Rom.setupFrame, Rom.contentFrame, Rom.teardownFrame,
    payloadFrame, Rom.padFrame]

theorem buildFrame_framesLegal (r : Role) (hs : s.framesLegal) : (buildFrame r s).framesLegal := by
  obtain ⟨-, -, hevents⟩ := hs
  exact ⟨.inr ⟨r, s.color.value, rfl⟩, fun _ => fill_frameOf_ne_nil r _, hevents⟩

/-- The bytes that `FWR` reads from a frame buffer that holds a frame are that frame. -/
theorem eq_frameOf_of_read {r : Role} {c : Word} {f : List Byte}
    (h : (List.range 16).map (Memory.fill (frameOf r c)).read = f.map some) : f = frameOf r c := by
  have hfetch := fetchAll_fill_frameOf r c 0
  rw [Memory.fetchAll_eq_ok.mpr h] at hfetch
  exact Except.ok.inj hfetch

/-- R296: an `FWR` that answers has a whole frame in the buffer. -/
theorem fwrOp_framesLegal {r : Role} (hs : s.framesLegal) (h : fwrOp r s = .ok t) : t.framesLegal ∧ t.fbuf ≠ [] := by
  obtain ⟨hf, -, hevents⟩ := hs
  obtain ⟨f, hread, hcase⟩ := fwrOp_eq_ok.mp h
  have hne : s.fbuf ≠ [] := by
    intro hnil
    cases f <;> simp [hnil, Memory.read, List.range_succ] at hread
  obtain ⟨q, c, hfill⟩ := hf.resolve_left hne
  rcases hcase with ⟨-, rfl⟩ | ⟨a, rest, -, rfl⟩
  · exact ⟨⟨hf, fun _ => hne, hevents⟩, hne⟩
  · refine ⟨framesLegal_of_not_offering rfl hf (eventLegal_append hevents fun e he => ?_), hne⟩
    obtain rfl := List.mem_singleton.mp he
    rw [hfill] at hread
    exact ⟨q, c, eq_frameOf_of_read hread⟩

theorem txOp_keeps_framesLegal : Keeps State.framesLegal txOp :=
  keeps_txOp (keeps_txLoop (fun _ hs => hs) fun r s v hs hv => by
    obtain ⟨⟨hf, hoff, hevents⟩, hne⟩ := fwrOp_framesLegal (buildFrame_framesLegal r hs) hv
    exact ⟨⟨hf, hoff, hevents⟩, ⟨hf, fun _ => hne, hevents⟩, ⟨hf, hoff, hevents⟩⟩)
    (fun _ ⟨hf, _, hevents⟩ => framesLegal_of_not_offering rfl hf hevents) (fun _ _ _ hs => hs)

theorem cycleOp_keeps_framesLegal : Keeps State.framesLegal (cycleOp Config.default) :=
  keeps_cycleOp rdblkOp_framesLegal
    (keeps_of_frame framesLegal_dependsOn (fun _ _ h => spectrumOp_frame h) (by decide))
    (keeps_of_frame framesLegal_dependsOn (fun _ _ h => mapcOp_frame h) (by decide))
    (keeps_of_frame framesLegal_dependsOn (fun _ _ h => gateOp_frame h) (by decide)) txOp_keeps_framesLegal
    (fun _ _ hs => hs)

theorem exec_keeps_framesLegal (i : Instr) (s t : State) (h : exec i s = .next t) (hs : s.framesLegal) :
    t.framesLegal := by
  cases i with
  | rdblk =>
    cases h
    exact rdblkOp_framesLegal s hs
  | cycle => exact cycleOp_keeps_framesLegal s t hs (Res.outcome_eq_next.mp h)
  | fbld r =>
    obtain rfl := fbldOp_eq_ok.mp (Res.outcome_eq_next.mp h)
    exact buildFrame_framesLegal r hs
  | fwr r => exact (fwrOp_framesLegal hs (Res.outcome_eq_next.mp h)).1
  | tx => exact txOp_keeps_framesLegal s t hs (Res.outcome_eq_next.mp h)
  | _ => exact exec_keeps_of_not_writes framesLegal_dependsOn (by simp [writes]) h hs

theorem map_snd_fillFrom (i : Nat) (l : List Byte) : (Memory.fillFrom i l).map (·.2) = l := by
  induction l generalizing i with
  | nil => rfl
  | cons b rest ih => rw [Memory.fillFrom, List.map_cons, ih]

/-- R391: a frame that a reset abandons is the one in the buffer. -/
theorem applyReset_framesLegal (s : State) (hs : s.framesLegal) : s.applyReset.framesLegal := by
  obtain ⟨hf, hoff, hevents⟩ := hs
  refine framesLegal_of_not_offering rfl (.inl rfl) (eventLegal_append hevents fun e he => ?_)
  have hframe (hne : s.fbuf ≠ []) : ProtocolFrame (s.fbuf.map (·.2)) := by
    obtain ⟨r, c, hfill⟩ := hf.resolve_left hne
    exact ⟨r, c, by rw [hfill, Memory.fill, map_snd_fillFrom]⟩
  unfold State.abandonedFrame at he
  unfold State.offering at hoff
  split at he
  case h_1 => cases he
  case h_2 => cases he
  all_goals
    obtain rfl := List.mem_singleton.mp he
    exact hframe (hoff (by simp [*]))

/-- Settles O22: a frame reaches the buffer by `FBLD` alone and the sink from the buffer alone. -/
theorem stepKeepsFramesLegal : Obligations.StepKeepsFramesLegal := fun _ _ hs h =>
  step_keeps framesLegal_dependsOn (by decide) (by decide) applyReset_framesLegal exec_keeps_framesLegal h hs

/-! ### The sequencer writes frames in phase `TX` only (R300) -/

theorem rdblkOp_writes_no_frame (s : State) :
    (rdblkOp s).events.filter Event.isWrite = s.events.filter Event.isWrite := by
  rcases rdblkOp_cases s with ⟨-, h⟩ | ⟨b, rest, -, h⟩ | ⟨l, rest, -, h⟩ <;> rw [h] <;> simp [Event.isWrite]

/-- The operations of the program but `RDBLK` and `TX` leave the interfaces alone. -/
theorem interfaces_not_mem_writes (hidle : s.phase ≠ .idle) (htx : s.phase ≠ .tx) :
    .interfaces ∉ writes (sequencerOp s) := by
  have hmap : ∀ k, .interfaces ∉ writes (mapProgram k) := by decide
  unfold sequencerOp
  split
  case h_1 h => exact absurd h hidle
  case h_5 => exact hmap s.pos
  case h_7 h => exact absurd h htx
  all_goals decide

/-- Settles O25: `RDBLK` records reads, and the other operations outside phase `TX` leave the interfaces alone. -/
theorem writesHappenOnlyInTx : Obligations.WritesHappenOnlyInTx := by
  intro s t ⟨hop, hr⟩ htx h
  by_cases hidle : s.phase = .idle
  · rw [step_eq_sequencerOp hop hr, sequencerOp, hidle] at h
    cases h
    obtain ⟨-, -, -, hsettle, -⟩ := agree_settleStep (p := .interfaces) s (rdblkOp (issue (encode .rdblk) s)) (by decide)
      (by decide)
    obtain ⟨-, -, -, hissue, -⟩ := agree_issue (encode .rdblk) s .interfaces
    rw [hsettle, rdblkOp_writes_no_frame, hissue]
  · have hdecode : decode (nextWord s) = .ok (sequencerOp s) := by
      rw [nextWord_of_opReq_none hop, decode_encode (sequencerOp_wellFormed s)]
    obtain ⟨-, -, -, hevents, -⟩ := agree_of_step (p := .interfaces) h hr (by decide) (by decide) fun i hi => by
      obtain rfl : i = sequencerOp s := Except.ok.inj (hi.symm.trans hdecode)
      exact interfaces_not_mem_writes hidle htx
    rw [hevents]

end Sys2Proof.Machine
end

section
/-! Reset, the recorded steps and the operations on registers, in every state (45_sequencer.md R320; 70_reset_and_hazards.md
R390 to R392; 41_magnitude_db.md R192; 42_color_mapper.md R220 to R238; 43_gate.md R270): a register that is not
written is read with the value it holds and the read is recorded. -/

namespace Sys2Proof.Machine

variable {s t : State}

/-! ### Decoding and steps -/

/-- Settles O4: the decoder evaluated on the words. -/
theorem specWordsDecode : Obligations.SpecWordsDecode := by
  unfold Obligations.SpecWordsDecode
  decide +kernel

/-- Settles O5: by the outcome of the operation. -/
theorem stepRunsDecodedInstruction : Obligations.StepRunsDecodedInstruction := by
  intro s i hr hi
  have hstep : step s = settleOutcome s (exec i (issue (nextWord s) s)) := by simp [step, hr, hi]
  refine ⟨fun t ht => ?_, fun f hf => ?_, fun q hq => ?_, ?_⟩
  · rw [hstep, ht, settleOutcome, settleStep]
  · rw [hstep, hf, settleOutcome]
  · rw [hstep, hq, settleOutcome]
  · unfold issue
    split <;> rfl

/-! ### Reset -/

/-- Settles O16: the fields of the reset state. -/
theorem resetValues : Obligations.ResetValues := by
  unfold Obligations.ResetValues
  simp [State.reset, Memory.read, Reg.unwritten]

theorem reset_onTrack : State.reset.onTrack := ⟨rfl, .inl rfl⟩

theorem reset_memoryWf : State.reset.memoryWf = true := rfl

theorem reset_framesLegal : State.reset.framesLegal := framesLegal_of_not_offering rfl (.inl rfl) nofun

/-- Settles O17: each invariant in the reset state. -/
theorem invariantsHoldAtReset : Obligations.InvariantsHoldAtReset :=
  ⟨reset_onTrack, reset_memoryWf, reset_statusLegal, reset_maximaLegal, reset_alphaZero, reset_framesLegal⟩

/-- R391: a frame that is offered and not answered is recorded as abandoned. -/
theorem abandonedFrame_of_offering (h : s.offering = true) :
    s.abandonedFrame = [.abandoned (s.fbuf.map Prod.snd) (Config.freePrefix s.draws)] := by
  unfold State.offering at h
  unfold State.abandonedFrame
  split <;> simp_all

theorem abandonedFrame_of_not_offering (h : s.offering = false) : s.abandonedFrame = [] := by
  unfold State.offering at h
  unfold State.abandonedFrame
  split <;> simp_all

/-- Settles O18: a requested reset is taken before any operation. -/
theorem resetAtAnyStep : Obligations.ResetAtAnyStep := by
  refine fun s hr => ⟨s.applyReset, step_of_resetReq hr, rfl, rfl, rfl, rfl, rfl, rfl, fun h => ⟨?_, ?_⟩,
    fun h => ⟨?_, ?_⟩, rfl⟩
  · simp [State.applyReset, h]
  · exact ⟨_, by rw [State.applyReset, abandonedFrame_of_offering h]⟩
  · simp [State.applyReset, h]
  · rw [State.applyReset, abandonedFrame_of_not_offering h, List.append_nil]

/-! ### RDBLK (R320, R321) -/

theorem rdblkOp_of_block {b : Vector Byte 4096} {rest : List Delivery} (h : s.producer = .block b :: rest) :
    rdblkOp s = afterBlock s b rest := by
  rw [rdblkOp, h]
  rfl

theorem rdblkOp_of_empty (h : s.producer = []) : rdblkOp s = s.await .block := by simp [rdblkOp, h]

/-- Settles O10: the three answers of the producer. -/
theorem rdblkByAnswer : Obligations.RdblkByAnswer := by
  refine ⟨fun s b rest h => ⟨afterBlock s b rest, exec_rdblk_of_block h, fun i hi => ?_,
    fun i => ⟨rfl, rfl, rfl, rfl⟩, rfl, rfl, rfl, rfl, rfl, rfl, rfl, ?_⟩, fun s l rest h => exec_rdblk_of_end h,
    fun s h => ?_⟩
  · simp [afterBlock, hi]
  · exact rdblkOp_of_block h ▸ rdblkOp_frame s
  · rw [exec_rdblk, rdblkOp_of_empty h, State.await]

/-! ### Registers read before they are written (R362) -/

/-- The read of an unwritten register is recorded. -/
theorem noteReads_unwritten (s : State) (op : Word) (e : Elem) :
    s.noteReads op [(e, false)] = { s with faultLog := s.faultLog ++ [.unwrittenRead op e 0] } := rfl

/-- Settles O43: the value is computed from the one held, and the three results are evaluated. -/
theorem dbIsTwentyLog : Obligations.DbIsTwentyLog := by
  refine ⟨fun s h => ?_, fun s h => ?_, by decide +kernel, by decide +kernel, by decide +kernel⟩
  · rw [exec_db, dbOp, h, State.noteReads_written, State.noteReads_nil]
    rfl
  · rw [exec_db, dbOp, h, noteReads_unwritten]
    rfl

/-- The factor of R222 by its encoding. -/
theorem hueFactor_eq : hueFactor = F64.ofBits 0x3FF3333333333333 := by decide +kernel

/-- Settles O46: both formulas on the value held. -/
theorem freqAndHueFormulas : Obligations.FreqAndHueFormulas := by
  refine ⟨fun s h => exec_freq_of_written h, fun s h => ?_, fun s h => ?_, fun s h => ?_⟩
  · rw [exec_freq, freqOp, h, noteReads_unwritten]
    rfl
  · rw [← hueFactor_eq, exec_hue_of_written h, hueOf]
  · rw [← hueFactor_eq, exec_hue, hueOp, h, noteReads_unwritten]
    rfl

/-- R224: `LN90` by its encoding. -/
theorem ln_ninety : Logarithm.ln (F64.ofNat 90) = F64.ofBits 0x4011FFCE1B312C10 := by decide +kernel

/-- Settles O48: the quotient on the value held, and the three results are evaluated. -/
theorem briIsLogBaseNinety : Obligations.BriIsLogBaseNinety := by
  refine ⟨fun s h => exec_bri_of_written h, fun s h => ?_, ln_ninety, by decide +kernel, by decide +kernel,
    by decide +kernel⟩
  rw [exec_bri, briOp, h, noteReads_unwritten]
  rfl

/-! ### CHFIN (R232) -/

theorem putChannel_noteReads (s : State) (op : Word) (reads : List (Elem × Bool)) (c : Channel) (b : Byte) :
    (s.noteReads op reads).putChannel c b = (s.putChannel c b).noteReads op reads := by
  cases c <;> rfl

/-- R232: the byte of a finite channel value, and of the others. -/
theorem toByte_channelLevel (x : F64) : ∃ b : Byte, toByte (channelLevel x) = some b ∧
    match x.mul (F64.ofNat 255) with
    | .nan => b = 0
    | .inf neg => b = if neg then 0 else 255
    | .fin neg e f => (b.toNat : Int) = max 0 (min 255 (F64.signed neg e f / 2 ^ F64.unitExp)) := by
  unfold channelLevel
  cases x.mul (F64.ofNat 255) with
  | nan => exact ⟨0, by rw [show F64.floor .nan = .nan from rfl, clamp_nan]; rfl, rfl⟩
  | inf neg =>
    cases neg with
    | false =>
      refine ⟨255, ?_, rfl⟩
      rw [show F64.floor (.inf false) = .inf false from rfl, clamp_infinity]
      decide +kernel
    | true =>
      refine ⟨0, ?_, rfl⟩
      rw [show F64.floor (.inf true) = .inf true from rfl, clamp_minus_infinity]
      decide +kernel
  | fin neg e f => exact toByte_clamp_floor ⟨neg, e, f, rfl, rfl⟩

/-- Settles O52: a floored value between 0 and 255 has a byte, and the register is read with the value it holds. -/
theorem channelByteForEveryValue : Obligations.ChannelByteForEveryValue := by
  intro s c
  obtain ⟨b, hb, hvalue⟩ := toByte_channelLevel (s.channelReg c).value
  refine ⟨b, fun h => ?_, fun h => ?_, hvalue⟩
  · rw [exec_chfin, chfinOp, hb, h, State.noteReads_written, State.noteReads_nil]
    rfl
  · rw [exec_chfin, chfinOp, hb, h]
    simp only [putChannel_noteReads]
    rw [noteReads_unwritten, State.putChannel_faultLog]
    rfl

/-! ### PACK and UNPK (R236, R238) -/

theorem exec_unpk_of_written {f : Field} (h : s.color.written = true) :
    exec (.unpk f) s = .next { s with fld := Reg.put (colorField f s.color.value) } := by
  rw [exec_unpk, unpkOp, h, State.noteReads_written, State.noteReads_nil]
  rfl

/-- The fields of a packed color are its channels. -/
theorem colorField_packColor (f : Field) (r g b a : Byte) : colorField f (packColor r g b a) =
    match f with
    | .blue => b
    | .green => g
    | .red => r
    | .alpha => a := by
  refine BitVec.eq_of_toNat_eq ?_
  have hr := r.isLt
  have hg := g.isLt
  have hb := b.isLt
  have ha := a.isLt
  rw [toNat_colorField, toNat_packColor]
  cases f <;> simp only [Field.code] <;> omega

/-- `UNPK` of a packed color. -/
theorem exec_unpk_of_packed {r g b a : Byte} (f : Field) (h : s.color = Reg.put (packColor r g b a)) :
    exec (.unpk f) s = .next { s with fld := Reg.put (match f with
      | .blue => b
      | .green => g
      | .red => r
      | .alpha => a) } := by
  rw [exec_unpk_of_written (by rw [h, Reg.put_written]), h, Reg.put_value, colorField_packColor]

/-- What the three reads of `PACK` record. -/
theorem exec_pack_eq (s : State) : exec .pack s = .next { s with
    color := Reg.put (packColor s.r8.value s.g8.value s.b8.value 0)
    faultLog := s.faultLog ++
      (if s.r8.written then [] else [.unwrittenRead (encode .pack) .r8 0]) ++
      (if s.g8.written then [] else [.unwrittenRead (encode .pack) .g8 0]) ++
      (if s.b8.written then [] else [.unwrittenRead (encode .pack) .b8 0]) } := by
  rw [exec_pack, packOp, State.noteReads, Res.outcome]
  cases s.r8.written <;> cases s.g8.written <;> cases s.b8.written <;> simp [encode]

/-- Settles O54: a color word is the number of its channels, and a field of it is a digit to the base 256. -/
theorem packThenUnpack : Obligations.PackThenUnpack := by
  refine ⟨fun s => ⟨_, exec_pack_of_written, exec_pack_eq s, ?_, fun t ht =>
    ⟨exec_unpk_of_packed .blue ht, exec_unpk_of_packed .green ht, exec_unpk_of_packed .red ht,
      exec_unpk_of_packed .alpha ht⟩⟩,
    fun s f => ⟨_, exec_unpk_of_written, fun h => ?_, toNat_colorField f s.color.value⟩⟩
  · rw [toNat_packColor]
    simp
  · rw [exec_unpk, unpkOp, h, noteReads_unwritten]
    rfl

/-! ### GATE (R270) -/

theorem latchColor_eq (s : State) (c : Word) :
    latchColor s c = { s with gateSend := decide (c ≠ s.prevColor), prevColor := c } := by
  have hprev : (if gateSendFlag c s.prevColor then c else s.prevColor) = c := prevColor_latchColor s c
  rw [latchColor, hprev, gateSendFlag_eq_decide]

/-- Settles O55: the comparison decides both fields. -/
theorem gateComparesAndLatches : Obligations.GateComparesAndLatches := by
  refine ⟨fun s h hne => ?_, fun s h heq => ?_, fun s h => ?_⟩
  · rw [exec_gate_of_written h, latchColor_eq, decide_eq_true hne]
  · rw [exec_gate_of_written h, latchColor_eq, decide_eq_false (not_not.mpr heq), heq]
  · rw [exec_gate, gateOp, h, noteReads_unwritten, latchColor_eq]
    rfl

end Sys2Proof.Machine
end

section
/-! The frames (44_transmitter.md R290 to R297): `FBLD` writes a whole frame, and `FWR` offers the bytes it reads. -/

namespace Sys2Proof.Machine

variable {s t : State}

/-! ### FBLD (R290 to R294) -/

theorem exec_fbld_of_fixed {r : Role} (h : r ≠ .payload) :
    exec (.fbld r) s = .next { s with fbuf := Memory.fill (frameOf r s.color.value) } := by
  have hsources : frameSources r s = [] := by
    cases r with
    | payload => exact absurd rfl h
    | _ => rfl
  rw [exec_fbld, fbldOp, hsources, State.noteReads_nil]
  rfl

/-- A color word is the number of its four fields. -/
theorem toNat_eq_colorFields (c : Word) : c.toNat = (colorField .alpha c).toNat * 2 ^ 24 +
    (colorField .red c).toNat * 2 ^ 16 + (colorField .green c).toNat * 2 ^ 8 + (colorField .blue c).toNat := by
  have hc := c.isLt
  simp only [toNat_colorField, Field.code]
  omega

/-- The payload shows the three channels of a color. -/
theorem eq_of_payloadFrame_eq {c c' : Word} (halpha : alphaOf c = alphaOf c') (h : payloadFrame c = payloadFrame c') :
    c = c' := by
  obtain ⟨hred, hgreen, hblue⟩ :
      colorField .red c = colorField .red c' ∧ colorField .green c = colorField .green c' ∧
      colorField .blue c = colorField .blue c' := by simpa [payloadFrame, Rom.padFrame] using h
  refine BitVec.eq_of_toNat_eq ?_
  rw [toNat_eq_colorFields c, toNat_eq_colorFields c', hred, hgreen, hblue, show colorField .alpha c = _ from halpha]
  rfl

/-- Settles O56: the frames as the ROM and the payload list them. -/
theorem fbldBuildsTheFrame : Obligations.FbldBuildsTheFrame := by
  refine ⟨fun s => exec_fbld_of_fixed (by decide), fun s => exec_fbld_of_fixed (by decide), fun s h => ?_,
    fun s => exec_fbld_of_fixed (by decide), fun s h => ?_, fun l i => Memory.read_fill l i,
    fun c c' h h' => ⟨fun hall => eq_of_payloadFrame_eq (h.trans h'.symm) (hall .payload), fun hc _ => hc ▸ rfl⟩⟩
  · rw [exec_fbld, fbldOp, frameSources, h, State.noteReads_written, State.noteReads_nil]
    rfl
  · rw [exec_fbld, fbldOp, frameSources, h, noteReads_unwritten]
    rfl

/-! ### FWR (R295 to R297) -/

theorem map_read_of_length {m : Memory Byte} {f : List Byte} {n : Nat} (hlen : f.length = n)
    (h : ∀ i < n, m.read i = f[i]?) : (List.range n).map m.read = f.map some := by
  refine List.ext_getElem (by simp [hlen]) fun i hi hi' => ?_
  rw [List.length_map, List.length_range] at hi
  simp [h i hi]

/-- Reads stop at the first element that has no value. -/
theorem fetchAll_append_error {m : Memory Byte} (op : Word) (e : Elem) {l rest : List Nat} {j : Nat}
    (hsome : ∀ i ∈ l, (m.read i).isSome = true) (hnone : m.read j = none) :
    m.fetchAll op e (l ++ j :: rest) = .error (.unwrittenRead op e j) := by
  induction l with
  | nil => rw [List.nil_append, Memory.fetchAll, Memory.fetch_eq_error.mpr ⟨hnone, rfl⟩]
  | cons i l ih =>
    obtain ⟨v, hv⟩ := Option.isSome_iff_exists.mp (hsome i (List.mem_cons_self ..))
    rw [List.cons_append, Memory.fetchAll, Memory.fetch_eq_ok.mpr hv,
      ih fun k hk => hsome k (List.mem_cons_of_mem i hk)]

theorem range_eq_append_cons {j n : Nat} (h : j < n) : ∃ rest, List.range n = List.range j ++ j :: rest := by
  obtain ⟨k, rfl⟩ := Nat.exists_eq_add_of_lt h
  refine ⟨(List.range k).map (j + 1 + ·), ?_⟩
  rw [show j + k + 1 = j + 1 + k from by omega, List.range_add, List.range_succ, List.append_assoc]
  rfl

/-- The bytes of the frame buffer that are read before the first unwritten one. -/
theorem exists_first_unread {m : Memory Byte} {n k : Nat} (hn : k < n) (hnone : m.read k = none) :
    ∃ j < n, m.read j = none ∧ ∀ i < j, (m.read i).isSome = true := by
  classical
  have hex : ∃ j, m.read j = none := ⟨k, hnone⟩
  refine ⟨Nat.find hex, (Nat.find_le hnone).trans_lt hn, Nat.find_spec hex, fun i hi => ?_⟩
  exact Option.isSome_iff_ne_none.mpr (Nat.find_min hex hi)

/-- Settles O57: the frame read is the one offered, and the answer decides. -/
theorem fwrByAnswer : Obligations.FwrByAnswer := by
  refine ⟨fun s r f a rest hlen hread hsink => ?_, fun s r f hlen hread hsink => ?_, fun s r n hn hnone => ?_⟩
  · have hok : fwrOp r s = .ok { s.frameAnswered f a rest with wrOk := wrOkFlag a } :=
      fwrOp_eq_ok.mpr ⟨f, map_read_of_length hlen hread, .inr ⟨a, rest, hsink, rfl⟩⟩
    exact ⟨_, deliveredBytes a s.draws, Res.outcome_eq_next.mpr hok, rfl, rfl, fun ha => if_pos ha, rfl, rfl, rfl,
      fwrOp_frame hok⟩
  · exact Res.outcome_eq_next.mpr (fwrOp_eq_ok.mpr ⟨f, map_read_of_length hlen hread, .inl ⟨hsink, rfl⟩⟩)
  · obtain ⟨j, hj, hjnone, hsome⟩ := exists_first_unread hn hnone
    refine ⟨j, hj, hjnone, hsome, Res.outcome_eq_fault.mpr ?_⟩
    obtain ⟨rest, hrange⟩ := range_eq_append_cons hj
    rw [fwrOp, hrange, fetchAll_append_error _ _ (fun i hi => hsome i (List.mem_range.mp hi)) hjnone]
    rfl

end Sys2Proof.Machine
end

section
/-! The transmission (44_transmitter.md R298 to R301; 60_exceptions.md R361, R374) by the answers of the sink: a frame
written goes on to the next, a failed one ends it, and one not answered waits and is offered again. -/

namespace Sys2Proof.Machine

variable {s t : State} {r : Role} {rest : List Role}

/-- R298: the state after the frame of role `r` is written with 16 bytes. -/
def State.frameWritten (s : State) (r : Role) : State :=
  { (buildFrame r s).frameAnswered (frameOf r s.color.value) (.count 16) s.sink.tail with wrOk := true }

/-- R299: the state after the write of the frame of role `r` was answered otherwise. -/
def State.frameFailed (s : State) (r : Role) (a : SinkAnswer) : State :=
  ({ (buildFrame r s).frameAnswered (frameOf r s.color.value) a s.sink.tail with
    wrOk := false } : State).takeTransmissionFailure r

theorem txLoop_cons_of_written {as : List SinkAnswer} (h : s.sink = .count 16 :: as) :
    txLoop (r :: rest) s = txLoop rest (s.frameWritten r) := by
  rw [txLoop, fwrOp_buildFrame, h, State.frameWritten, h]
  rfl

theorem txLoop_cons_of_failed {a : SinkAnswer} {as : List SinkAnswer} (h : s.sink = a :: as) (ha : a ≠ .count 16) :
    txLoop (r :: rest) s = .ok (s.frameFailed r a) := by
  have hflag : wrOkFlag a = false := decide_eq_false ha
  rw [txLoop, fwrOp_buildFrame, h, State.frameFailed, h]
  simp [hflag]

theorem txLoop_cons_of_unanswered (h : s.sink = []) :
    txLoop (r :: rest) s = .ok ((buildFrame r s).await (.transmission r)) := by
  rw [txLoop, fwrOp_buildFrame, h]
  rfl

/-! ### Frames written one after another -/

/-- The state after the frames of the given roles are written with 16 bytes each. -/
def State.framesWritten (s : State) (roles : List Role) : State := roles.foldl State.frameWritten s

theorem txLoop_append_of_written {qs : List Role} {as : List SinkAnswer}
    (h : s.sink = qs.map (fun _ => SinkAnswer.count 16) ++ as) :
    txLoop (qs ++ rest) s = txLoop rest (s.framesWritten qs) ∧ (s.framesWritten qs).sink = as := by
  induction qs generalizing s with
  | nil => exact ⟨rfl, h⟩
  | cons q qs ih =>
    have hwritten : (s.frameWritten q).sink = qs.map (fun _ => SinkAnswer.count 16) ++ as := by
      simp [State.frameWritten, h]
    obtain ⟨hloop, hsink⟩ := ih hwritten
    exact ⟨(txLoop_cons_of_written h).trans hloop, hsink⟩

theorem frameWritten_frame (s : State) (r : Role) : s.frame [.fbuf, .wrOk, .interfaces] (s.frameWritten r) :=
  ⟨fun p hp => by cases p <;> simp_all [State.agree, State.frameWritten], rfl, rfl, rfl⟩

theorem framesWritten_frame (s : State) (qs : List Role) : s.frame [.fbuf, .wrOk, .interfaces] (s.framesWritten qs) := by
  induction qs generalizing s with
  | nil => exact frame_refl s _
  | cons q qs ih => exact frame_trans (frameWritten_frame s q) (ih (s.frameWritten q))

theorem framesWritten_color (s : State) (qs : List Role) : (s.framesWritten qs).color = s.color :=
  agree_of_frame (framesWritten_frame s qs) (p := .color) (by decide)

theorem framesWritten_interfaces (s : State) (qs : List Role) :
    (s.framesWritten qs).producer = s.producer ∧
    (s.framesWritten qs).events = s.events ++ qs.map fun q => wholeWrite q s.color.value := by
  induction qs generalizing s with
  | nil => exact ⟨rfl, (List.append_nil _).symm⟩
  | cons q qs ih =>
    obtain ⟨hproducer, hevents⟩ := ih (s.frameWritten q)
    refine ⟨hproducer, hevents.trans ?_⟩
    simp [State.frameWritten, wholeWrite, deliveredBytes]

/-! ### A transmission from its start -/

/-- R298: the reads of a transmission, recorded at its start. -/
def State.transmitting (s : State) : State := s.noteReads (opWord 0x52 0 0) [(.color, s.color.written)]

theorem txOp_eq_txLoop (hw : s.waiting = none) : txOp s = txLoop (rolesFrom .setup) s.transmitting := by
  rw [txOp_eq_freshTxOp fun r => by simp [hw], freshTxOp, State.transmitting]
  congr 2
  rw [← hw]

theorem transmitting_faultLog (s : State) : s.transmitting.faultLog =
    s.faultLog ++ if s.color.written then [] else [.unwrittenRead (encode .tx) .color 0] := by
  cases h : s.color.written <;> simp [State.transmitting, State.noteReads, h, encode]

theorem rolesFrom_setup_eq (r : Role) : rolesFrom .setup = rolesBefore r ++ r :: (rolesFrom r).tail := by
  cases r <;> rfl

/-- R298: all four frames are written. -/
theorem txOp_of_written {as : List SinkAnswer} (hw : s.waiting = none)
    (h : s.sink = (rolesFrom .setup).map (fun _ => SinkAnswer.count 16) ++ as) :
    txOp s = .ok (s.transmitting.framesWritten (rolesFrom .setup)).completeTransmission ∧
      (s.transmitting.framesWritten (rolesFrom .setup)).sink = as := by
  obtain ⟨hloop, hsink⟩ := txLoop_append_of_written (s := s.transmitting) (rest := []) h
  rw [List.append_nil, txLoop_nil] at hloop
  exact ⟨(txOp_eq_txLoop hw).trans hloop, hsink⟩

/-- R299: the frames before role `r` are written, and that of role `r` is not. -/
theorem txOp_of_failed {a : SinkAnswer} {as : List SinkAnswer} (hw : s.waiting = none) (ha : a ≠ .count 16)
    (h : s.sink = (rolesBefore r).map (fun _ => SinkAnswer.count 16) ++ a :: as) :
    txOp s = .ok ((s.transmitting.framesWritten (rolesBefore r)).frameFailed r a) ∧
      (s.transmitting.framesWritten (rolesBefore r)).sink = a :: as := by
  obtain ⟨hloop, hsink⟩ := txLoop_append_of_written (s := s.transmitting) (rest := r :: (rolesFrom r).tail) h
  refine ⟨?_, hsink⟩
  rw [txOp_eq_txLoop hw, rolesFrom_setup_eq r, hloop, txLoop_cons_of_failed hsink ha]

/-- Settles O58: the loop over the roles, whose answers are all 16 or 16 up to the role that fails. -/
theorem txWritesInOrderUntilFailure : Obligations.TxWritesInOrderUntilFailure := by
  refine ⟨fun s as hw h => ?_, fun s r a as hw ha h => ?_⟩
  · obtain ⟨hok, hsink⟩ := txOp_of_written hw h
    obtain ⟨hproducer, hevents⟩ := framesWritten_interfaces s.transmitting (rolesFrom .setup)
    have hlog : (s.transmitting.framesWritten (rolesFrom .setup)).faultLog = s.transmitting.faultLog :=
      agree_of_frame (framesWritten_frame _ _) (p := .faultLog) (by decide)
    exact ⟨_, Res.outcome_eq_next.mpr hok, rfl, rfl, rfl, hevents, rfl, rfl, rfl, hsink, hproducer, rfl,
      hlog.trans (transmitting_faultLog s), txOp_frame hok⟩
  · obtain ⟨hok, hsink⟩ := txOp_of_failed hw ha h
    obtain ⟨hproducer, hevents⟩ := framesWritten_interfaces s.transmitting (rolesBefore r)
    have hframe := framesWritten_frame s.transmitting (rolesBefore r)
    have hcolor := framesWritten_color s.transmitting (rolesBefore r)
    have hlog : (s.transmitting.framesWritten (rolesBefore r)).faultLog = s.transmitting.faultLog :=
      agree_of_frame hframe (p := .faultLog) (by decide)
    obtain ⟨hdevice, -⟩ := agree_of_frame hframe (p := .device) (by decide)
    generalize s.transmitting.framesWritten (rolesBefore r) = u at *
    refine ⟨_, deliveredBytes a u.draws, Res.outcome_eq_next.mpr hok, rfl, rfl, rfl, ?_, ?_, hdevice, rfl, ?_, hproducer,
      rfl, hlog.trans (transmitting_faultLog s), txOp_frame hok⟩
    · simp [State.frameFailed, hevents, hcolor, State.transmitting]
    · simp [State.frameFailed, hcolor, State.transmitting]
    · simp [State.frameFailed, hsink]

/-! ### A transmission that waits -/

theorem buildFrame_buildFrame (r : Role) (s : State) : buildFrame r (buildFrame r s) = buildFrame r s := rfl

/-- Building the first frame beforehand changes nothing. -/
theorem txLoop_buildFrame : txLoop (r :: rest) (buildFrame r s) = txLoop (r :: rest) s := by
  rw [txLoop, buildFrame_buildFrame, txLoop]

/-- R361, R374: a transmission that waits has taken all answers there were, and going on from its unanswered frame with
more answers is the same as having had them. -/
theorem txLoop_resumes {roles : List Role} {early : List SinkAnswer} (late : List SinkAnswer) (hw : s.waiting = none)
    (h : txLoop roles { s with sink := early } = .ok t) (ht : t.waiting.isSome = true) :
    ∃ r rest, r :: rest <:+ roles ∧ t.waiting = some (.transmission r) ∧ t.sink = [] ∧
      txLoop (r :: rest) { t with sink := late, waiting := none } = txLoop roles { s with sink := early ++ late } := by
  induction roles generalizing s early with
  | nil =>
    cases h
    simp [hw] at ht
  | cons r rest ih =>
    cases early with
    | nil =>
      rw [txLoop_cons_of_unanswered rfl] at h
      cases h
      refine ⟨r, rest, List.suffix_rfl, rfl, rfl, ?_⟩
      rw [← txLoop_buildFrame (s := { s with sink := [] ++ late })]
      congr 1
      simp [buildFrame, State.writeFrame, State.await, hw]
    | cons a early =>
      by_cases ha : a = .count 16
      · subst ha
        have hnext (as : List SinkAnswer) : ({ s with sink := .count 16 :: as } : State).frameWritten r =
            { s.frameWritten r with sink := as } := rfl
        rw [txLoop_cons_of_written rfl, hnext] at h
        obtain ⟨q, qs, hsuffix, hwait, hsink, hresume⟩ := ih (s := s.frameWritten r) rfl h
        refine ⟨q, qs, hsuffix.trans (List.suffix_cons r rest), hwait, hsink, hresume.trans ?_⟩
        rw [List.cons_append, txLoop_cons_of_written rfl, hnext]
      · rw [txLoop_cons_of_failed rfl ha] at h
        cases h
        cases ht

/-- The roles from an unanswered one on are the rest of the transmission. -/
theorem eq_rolesFrom_of_suffix (h : r :: rest <:+ rolesFrom .setup) : r :: rest = rolesFrom r := by
  simp only [rolesFrom, List.suffix_cons_iff, List.cons.injEq, List.suffix_nil, reduceCtorEq, or_false] at h
  rcases h with ⟨rfl, rfl⟩ | ⟨rfl, rfl⟩ | ⟨rfl, rfl⟩ | ⟨rfl, rfl⟩ <;> rfl

/-- Settles O59: the loop goes on from the frame that was not answered. -/
theorem txWaitIsTransparent : Obligations.TxWaitIsTransparent := by
  intro s t early late hw h ht
  have hstart (as : List SinkAnswer) : exec .tx { s with sink := as } =
      (txLoop (rolesFrom .setup) { s.transmitting with sink := as }).outcome := by
    rw [exec_tx, txOp_eq_txLoop (s := { s with sink := as }) hw]
    rfl
  rw [hstart] at h
  obtain ⟨r, rest, hsuffix, hwait, hsink, hresume⟩ :=
    txLoop_resumes (s := s.transmitting) late hw (Res.outcome_eq_next.mp h) ht
  refine ⟨⟨r, hwait⟩, hsink, ?_⟩
  rw [hstart, ← hresume, exec_tx, txOp_of_waiting (s := { t with sink := late }) hwait, eq_rolesFrom_of_suffix hsuffix]

end Sys2Proof.Machine
end

section
/-! Every step of the sequencer (45_sequencer.md R322 to R325; 70_reset_and_hazards.md R396): each phase leaves what the
next one needs and records no model fault, whatever the producer and the sink have answered. -/

namespace Sys2Proof.Machine
open F64

variable {s t u : State} {w : Word} {l : List Part}

/-! ### The operation of each phase -/

section Phases

variable (s)

theorem sequencerOp_of_idle (hp : s.phase = .idle) : sequencerOp s = .rdblk := by rw [sequencerOp, hp]
theorem sequencerOp_of_load (hp : s.phase = .load) : sequencerOp s = .ldx := by rw [sequencerOp, hp]
theorem sequencerOp_of_fft (hp : s.phase = .fft) : sequencerOp s = .rfft := by rw [sequencerOp, hp]
theorem sequencerOp_of_peak (hp : s.phase = .peak) : sequencerOp s = .peak := by rw [sequencerOp, hp]
theorem sequencerOp_of_map (hp : s.phase = .map) : sequencerOp s = mapProgram s.pos := by rw [sequencerOp, hp]
theorem sequencerOp_of_gate (hp : s.phase = .gate) : sequencerOp s = .gate := by rw [sequencerOp, hp]
theorem sequencerOp_of_tx (hp : s.phase = .tx) : sequencerOp s = .tx := by rw [sequencerOp, hp]

end Phases

/-! ### LOAD to MAP (R323) -/

/-- One operation is one step. -/
theorem step_of_reaches (h : Reaches [w] s t) : step s = .next t := by
  have hsteps : steps 1 s = .next t := h.steps
  rw [steps] at hsteps
  cases hstep : step s with
  | next u =>
    rw [hstep] at hsteps
    rw [Host.Outcome.next.inj hsteps]
  | _ =>
    rw [hstep] at hsteps
    cases hsteps

theorem nextWord_eq (hop : s.opReq = none) {i : Instr} (hi : sequencerOp s = i) : nextWord s = encode i := by
  rw [nextWord_of_opReq_none hop, hi]

/-- Settles O7: each phase reaches the next one in one step. -/
theorem unconditionalPhases : Obligations.UnconditionalPhases := by
  refine fun s hs hr => ⟨fun hp => ?_, fun hp => ?_, fun hp => ?_, fun hp => ?_⟩
  · obtain ⟨t, ht, hpt⟩ := load_reaches_fft hs hr hp
    exact ⟨nextWord_eq hs.1 (sequencerOp_of_load _ hp), t, step_of_reaches ht, hpt⟩
  · obtain ⟨t, ht, hpt⟩ := fft_reaches_peak hs hr hp
    exact ⟨nextWord_eq hs.1 (sequencerOp_of_fft _ hp), t, step_of_reaches ht, hpt⟩
  · obtain ⟨t, ht, hpt, hpos⟩ := peak_reaches_map hs hr hp
    exact ⟨nextWord_eq hs.1 (sequencerOp_of_peak _ hp), t, step_of_reaches ht, hpt, hpos⟩
  · obtain ⟨t, ht, hlast, hnext⟩ := map_reaches_next hs hr hp
    have hprogram : ∀ k : Fin 8, mapProgram k =
        [.freq, .hue, .bri, .hsv, .chfin .red, .chfin .green, .chfin .blue, .pack].getD k.val .pack := by decide
    refine ⟨(nextWord_eq hs.1 (sequencerOp_of_map _ hp)).trans (congrArg encode (hprogram s.pos)), t,
      step_of_reaches ht, ?_⟩
    split
    · exact hlast ‹_›
    · obtain ⟨hpt, hpos⟩ := hnext ‹_›
      refine ⟨hpt, ?_⟩
      rw [hpos, Fin.val_add_one_of_lt (Fin.lt_last_iff_ne_last.mpr ‹_›)]

/-! ### IDLE, GATE and TX (R322, R324, R325) -/

/-- A step runs the sequencer's operation on the state with its word recorded. -/
theorem step_of_sequencerOp (hop : s.opReq = none) (hr : s.resetReq = false) {i : Instr} (hi : sequencerOp s = i)
    (hexec : exec i (issue (encode i) s) = .next u) : step s = .next (settleStep s u) := by
  rw [step_eq_sequencerOp hop hr, hi, hexec, settleOutcome]

/-- A step of an operation that leaves the record of model faults alone. -/
theorem faultLog_of_frame (hframe : (issue w s).frame l u) (hl : .faultLog ∉ l) :
    (settleStep s u).faultLog = s.faultLog := by
  have hsettle := agree_settleStep (p := .faultLog) s u (by decide) (by decide)
  have hissue := agree_issue w s .faultLog
  exact Eq.trans hsettle (Eq.trans (hframe.1 .faultLog hl) hissue)

theorem issue_of_waiting (w : Word) {x : Wait} (hw : s.waiting = some x) : issue w s = s := by simp [issue, hw]

section Idle

variable (hop : s.opReq = none) (hr : s.resetReq = false) (hp : s.phase = .idle)
include hop hr hp

theorem step_of_block {b : Vector Byte 4096} {rest : List Delivery} (h : s.producer = .block b :: rest) :
    step s = .next (afterBlock (issue (encode .rdblk) s) b rest) := by
  have hproducer : (issue (encode .rdblk) s).producer = .block b :: rest := (agree_issue _ s .interfaces).1.trans h
  rw [step_of_sequencerOp hop hr (sequencerOp_of_idle _ hp) (exec_rdblk_of_block hproducer),
    settleStep_of_complete hop rfl, hp, advance]

theorem step_of_end {x : List Byte} {rest : List Delivery} (h : s.producer = .endOfInput x :: rest) :
    step s = .next ((issue (encode .rdblk) s).deliveryTaken (.endOfInput x) rest).takeEndOfInput := by
  have hproducer : (issue (encode .rdblk) s).producer = .endOfInput x :: rest := (agree_issue _ s .interfaces).1.trans h
  rw [step_of_sequencerOp hop hr (sequencerOp_of_idle _ hp) (exec_rdblk_of_end hproducer),
    settleStep_of_complete hop rfl, hp, advance]

theorem step_of_empty (h : s.producer = []) : step s = .next ((issue (encode .rdblk) s).await .block) := by
  have hproducer : (issue (encode .rdblk) s).producer = [] := (agree_issue _ s .interfaces).1.trans h
  rw [step_of_sequencerOp hop hr (u := (issue (encode .rdblk) s).await .block) (sequencerOp_of_idle _ hp)
    (by rw [exec_rdblk, rdblkOp_of_empty hproducer]), settleStep]
  rfl

/-- R361: a block that waits and is not answered stays as it is. -/
theorem step_of_waiting_empty (hw : s.waiting = some .block) (h : s.producer = []) : step s = .next s := by
  rw [step_of_empty hop hr hp h, issue_of_waiting _ hw, State.await, ← hw]

end Idle

/-- R324: the gate in every state that does not wait. -/
theorem exists_step_of_gate (hop : s.opReq = none) (hr : s.resetReq = false) (hw : s.waiting = none)
    (hp : s.phase = .gate) : ∃ t, step s = .next t ∧ t.gateSend = decide (s.color.value ≠ s.prevColor) ∧
      t.phase = if t.gateSend then .tx else .idle := by
  refine ⟨_, step_of_exec hop hr hw hp (sequencerOp_of_gate _ hp) (exec_gate _) hw, ?_, phase_advance_gate _⟩
  have hgate (v : State) : (advance .gate v).gateSend = v.gateSend := ((advance_frame .gate v).1 .gate (by decide)).2
  rw [hgate, latchColor_gateSend, gateSendFlag_eq_decide]
  rfl

/-- R298: a transmission with four answers of the sink completes, from whatever the block waits for. -/
theorem txOp_completes (hs : 4 ≤ s.sink.length) :
    ∃ t, txOp s = .ok t ∧ t.waiting = none ∧ (t.txStatus = txOk ∨ t.txStatus = txFail) := by
  have hlength (r : Role) : (rolesFrom r).length ≤ 4 := by cases r <;> decide
  have hloop (v : State) (r : Role) (hv : v.waiting = none) (hsink : v.sink = s.sink) :
      ∃ t, txLoop (rolesFrom r) v = .ok t ∧ t.waiting = none ∧ (t.txStatus = txOk ∨ t.txStatus = txFail) := by
    obtain ⟨t, ht, hframes, hstatus⟩ := txLoop_answers hv (hsink ▸ (hlength r).trans hs)
    exact ⟨t, ht, hframes.waiting, hstatus⟩
  unfold txOp
  split
  case h_1 r _ => exact hloop { s with waiting := none } r rfl rfl
  all_goals exact hloop _ .setup rfl rfl

theorem exists_step_of_tx (hop : s.opReq = none) (hr : s.resetReq = false) (hp : s.phase = .tx)
    (h4 : 4 ≤ s.sink.length) : ∃ t, step s = .next t ∧ t.phase = .idle ∧
      (t.txStatus = txOk ∨ t.txStatus = txFail) := by
  obtain ⟨-, hsink, -⟩ := agree_issue (encode .tx) s .interfaces
  obtain ⟨u, hu, hwu, hstatus⟩ := txOp_completes (s := issue (encode .tx) s) (hsink ▸ h4)
  refine ⟨_, step_of_sequencerOp hop hr (sequencerOp_of_tx _ hp) (Res.outcome_eq_next.mpr hu), ?_⟩
  rw [settleStep_of_complete hop hwu, hp]
  exact ⟨rfl, hstatus⟩

/-- Settles O6: what the operation of each of the three phases answers. -/
theorem conditionalPhases : Obligations.ConditionalPhases := by
  refine ⟨rfl, fun s ⟨hop, hr⟩ hp => ⟨?_, fun b rest h => ⟨_, step_of_block hop hr hp h, rfl⟩,
    fun x rest h => ⟨_, step_of_end hop hr hp h, rfl⟩, fun hw h => ?_⟩,
    fun s ⟨hop, hr⟩ hw hp => ⟨?_, exists_step_of_gate hop hr hw hp⟩,
    fun s ⟨hop, hr⟩ hp h4 => ⟨?_, exists_step_of_tx hop hr hp h4⟩⟩
  · exact nextWord_eq hop (sequencerOp_of_idle _ hp)
  · refine ⟨_, step_of_empty hop hr hp h, ?_, step_of_waiting_empty ?_ ?_ ?_ rfl ?_⟩
    all_goals rw [issue_of_not_waiting _ hw]
    · rfl
    · exact hop
    · exact hr
    · exact hp
    · exact h
  · exact nextWord_eq hop (sequencerOp_of_gate _ hp)
  · exact nextWord_eq hop (sequencerOp_of_tx _ hp)

/-! ### A transmission with any answers of the sink (R361, R374) -/

/-- A transmission answers: it completes, or waits for the answer to one of its frames. -/
theorem txLoop_completes_or_waits {roles : List Role} (hw : s.waiting = none) :
    ∃ t, txLoop roles s = .ok t ∧ (t.waiting = none ∨ s.sink.length < roles.length ∧
      ∃ r, t.waiting = some (.transmission r)) := by
  induction roles generalizing s with
  | nil => exact ⟨_, rfl, .inl hw⟩
  | cons r rest ih =>
    cases hsink : s.sink with
    | nil => exact ⟨_, txLoop_cons_of_unanswered hsink, .inr ⟨by simp, r, rfl⟩⟩
    | cons a as =>
      by_cases ha : a = .count 16
      · subst ha
        obtain ⟨t, ht, hwait⟩ := ih (s := s.frameWritten r) rfl
        rw [show (s.frameWritten r).sink = as by simp [State.frameWritten, hsink]] at hwait
        refine ⟨t, (txLoop_cons_of_written hsink).trans ht, hwait.imp_right fun ⟨hlt, hr⟩ => ⟨?_, hr⟩⟩
        simpa using hlt
      · exact ⟨_, txLoop_cons_of_failed hsink ha, .inl rfl⟩

/-- A transmission of a written color, at its start or going on, records no model fault. -/
theorem txOp_of_onTrack (hc : s.color.written = true)
    (hw : s.waiting = none ∨ ∃ r, s.waiting = some (.transmission r)) : ∃ t, txOp s = .ok t ∧
      s.frame transmissionParts t ∧
      (t.waiting = none ∨ s.sink.length < 4 ∧ ∃ r, t.waiting = some (.transmission r)) := by
  obtain ⟨roles, hlength, hloop⟩ : ∃ roles : List Role, roles.length ≤ 4 ∧
      txOp s = txLoop roles { s with waiting := none } := by
    rcases hw with hw | ⟨r, hw⟩
    · refine ⟨rolesFrom .setup, by decide, ?_⟩
      rw [txOp_eq_freshTxOp fun r => by simp [hw], freshTxOp, hc, State.noteReads_written, State.noteReads_nil]
    · exact ⟨rolesFrom r, by cases r <;> decide, txOp_of_waiting hw⟩
  obtain ⟨t, ht, hwait⟩ := txLoop_completes_or_waits (s := { s with waiting := none }) (roles := roles) rfl
  refine ⟨t, hloop.trans ht, frame_trans (frame_mono (frame_await s none) (by decide)) (txLoop_frame ht),
    hwait.imp_right fun ⟨hlt, hr⟩ => ⟨hlt.trans_le hlength, hr⟩⟩

/-! ### Every step -/

/-- The step of a phase that completes its operation in one step. -/
theorem onTrack_of_reaches (h : Reaches [w] s t) (hlog : t.faultLog = s.faultLog) :
    ∃ t, step s = .next t ∧ t.onTrack ∧ t.faultLog = s.faultLog := ⟨t, step_of_reaches h, h.onTrack, hlog⟩

/-- The step of a phase whose operation does not record model faults. -/
theorem faultLog_of_step (hop : s.opReq = none) (hr : s.resetReq = false) {i : Instr} (hi : sequencerOp s = i)
    (hl : .faultLog ∉ writes i) (h : step s = .next t) : t.faultLog = s.faultLog :=
  agree_of_step (p := .faultLog) h hr (by decide) (by decide) fun j hj => by
    rw [nextWord_eq hop hi, decode_encode (hi ▸ sequencerOp_wellFormed s)] at hj
    cases hj
    exact hl

theorem onTrack_step_of_idle (hs : s.onTrack) (hr : s.resetReq = false) (hp : s.phase = .idle) :
    ∃ t, step s = .next t ∧ t.onTrack ∧ t.faultLog = s.faultLog := by
  obtain ⟨hop, -⟩ := hs
  have hopi : (issue (encode .rdblk) s).opReq = none := by rw [issue_eq]; exact hop
  have hlog {t : State} (h : step s = .next t) : t.faultLog = s.faultLog :=
    faultLog_of_step hop hr (sequencerOp_of_idle _ hp) (by decide) h
  rcases hproducer : s.producer with _ | ⟨b | x, rest⟩
  · have hphase : (issue (encode .rdblk) s).phase = .idle := (agree_issue _ s .phase).trans hp
    refine ⟨_, step_of_empty hop hr hp hproducer, ⟨hopi, ?_⟩, hlog (step_of_empty hop hr hp hproducer)⟩
    rw [State.await_phase, hphase]
    exact .inr rfl
  · have hstep := step_of_block hop hr hp hproducer
    exact ⟨_, hstep, (onTrack_load_iff rfl).mpr ⟨hopi, rfl,
      fun i hi => ⟨_, blk_afterBlock _ b rest i hi⟩⟩, hlog hstep⟩
  · have hstep := step_of_end hop hr hp hproducer
    exact ⟨_, hstep, ⟨hopi, rfl⟩, hlog hstep⟩

theorem onTrack_step_of_map (hs : s.onTrack) (hr : s.resetReq = false) (hp : s.phase = .map) :
    ∃ t, step s = .next t ∧ t.onTrack ∧ t.faultLog = s.faultLog := by
  obtain ⟨hop, hw, hready⟩ := (onTrack_map_iff hp).mp hs
  obtain ⟨t, ht, -⟩ := map_reaches_next hs hr hp
  have hmap : (issue (encode (mapProgram s.pos)) s).mapReady := by rw [issue_of_not_waiting _ hw]; exact hready
  have hpos : (issue (encode (mapProgram s.pos)) s).pos = s.pos := agree_issue _ s .pos
  obtain ⟨u, hu, hframe, -⟩ := exec_mapProgram hmap
  rw [hpos] at hu
  have hstep := step_of_sequencerOp hop hr (sequencerOp_of_map _ hp) hu
  rw [step_of_reaches ht] at hstep
  cases hstep
  exact onTrack_of_reaches ht (faultLog_of_frame hframe (by decide))

theorem onTrack_step_of_gate (hs : s.onTrack) (hr : s.resetReq = false) (hp : s.phase = .gate) :
    ∃ t, step s = .next t ∧ t.onTrack ∧ t.faultLog = s.faultLog := by
  obtain ⟨hop, hw, hcolor⟩ := (onTrack_gate_iff hp).mp hs
  obtain ⟨t, ht, -⟩ := gate_reaches_next hs hr hp
  have hwritten : (issue (encode .gate) s).color.written = true := by rw [issue_of_not_waiting _ hw]; exact hcolor
  have hstep := step_of_sequencerOp hop hr (sequencerOp_of_gate _ hp) (exec_gate_of_written hwritten)
  rw [step_of_reaches ht] at hstep
  cases hstep
  exact onTrack_of_reaches ht (faultLog_of_frame (frame_latchColor _ _) (by decide))

theorem onTrack_step_of_tx (hs : s.onTrack) (hr : s.resetReq = false) (hp : s.phase = .tx) :
    ∃ t, step s = .next t ∧ t.onTrack ∧ t.faultLog = s.faultLog := by
  obtain ⟨hop, hcolor, hw⟩ := (onTrack_tx_iff hp).mp hs
  have hissue : (issue (encode .tx) s).color = s.color := agree_issue _ s .color
  obtain ⟨-, -, hwissue, -⟩ := agree_issue (encode .tx) s .interfaces
  obtain ⟨u, hu, hframe, hwait⟩ := txOp_of_onTrack (s := issue (encode .tx) s) (hissue ▸ hcolor) (hwissue ▸ hw)
  refine ⟨_, step_of_sequencerOp hop hr (sequencerOp_of_tx _ hp) (Res.outcome_eq_next.mpr hu), ?_,
    faultLog_of_frame hframe (by decide)⟩
  have hopu : u.opReq = none := by
    obtain ⟨-, hopu, -⟩ := hframe
    rw [hopu, issue_eq]
    exact hop
  rcases hwait with hwu | ⟨-, r, hwu⟩
  · rw [settleStep_of_complete hop hwu, hp]
    exact onTrack_of_idle hopu hwu rfl
  · have hphase : u.phase = .tx := (hframe.1 .phase (by decide)).trans ((agree_issue _ s .phase).trans hp)
    have hcoloru : u.color = s.color := (hframe.1 .color (by decide)).trans hissue
    rw [settleStep, hwu]
    exact (onTrack_tx_iff hphase).mpr ⟨hopu, hcoloru ▸ hcolor, .inr ⟨r, hwu⟩⟩

theorem onTrack_step_of_halted (hs : s.onTrack) (hr : s.resetReq = false) (hp : s.phase = .halted) :
    ∃ t, step s = .next t ∧ t.onTrack ∧ t.faultLog = s.faultLog :=
  ⟨_, step_of_halted hs.1 hr hp, hs, rfl⟩

/-- Settles O19: each phase by what it needs, and a reset leads to `IDLE`. -/
theorem sequencerNeverStops : Obligations.SequencerNeverStops := by
  intro s hs
  have hop := hs.1
  cases hr : s.resetReq with
  | true => exact ⟨_, step_of_resetReq hr, reset_onTrack, rfl⟩
  | false =>
    have hlog {t : State} {i : Instr} (hi : sequencerOp s = i) (hl : .faultLog ∉ writes i) {w : Word}
        (h : Reaches [w] s t) : t.faultLog = s.faultLog := faultLog_of_step hop hr hi hl (step_of_reaches h)
    cases hp : s.phase with
    | idle => exact onTrack_step_of_idle hs hr hp
    | load =>
      obtain ⟨t, ht, -⟩ := load_reaches_fft hs hr hp
      exact onTrack_of_reaches ht (hlog (sequencerOp_of_load _ hp) (by decide) ht)
    | fft =>
      obtain ⟨t, ht, -⟩ := fft_reaches_peak hs hr hp
      exact onTrack_of_reaches ht (hlog (sequencerOp_of_fft _ hp) (by decide) ht)
    | peak =>
      obtain ⟨t, ht, -⟩ := peak_reaches_map hs hr hp
      exact onTrack_of_reaches ht (hlog (sequencerOp_of_peak _ hp) (by decide) ht)
    | map => exact onTrack_step_of_map hs hr hp
    | gate => exact onTrack_step_of_gate hs hr hp
    | tx => exact onTrack_step_of_tx hs hr hp
    | halted => exact onTrack_step_of_halted hs hr hp

end Sys2Proof.Machine
end

section
/-! The transform as the chain of its stages and as a function of its input (40_fft.md R153 to R155). -/

namespace Sys2Proof.Machine

variable {s t : State}

/-! ### The states of a loop -/

/-- A loop that answers goes through a state before each round. -/
theorem exists_states_of_forEach {body : Nat → State → Res} {a n : Nat} (h : forEach body (List.range' a n) s = .ok t) :
    ∃ u : Nat → State, u 0 = s ∧ u n = t ∧ ∀ i < n, body (a + i) (u i) = .ok (u (i + 1)) := by
  induction n generalizing a s with
  | zero =>
    cases h
    exact ⟨fun _ => t, rfl, rfl, nofun⟩
  | succ n ih =>
    rw [List.range'_succ] at h
    obtain ⟨v, hv, ht⟩ := forEach_cons_eq_ok.mp h
    obtain ⟨u, h0, hn, hround⟩ := ih ht
    refine ⟨precede s u, rfl, hn, fun i hi => ?_⟩
    cases i with
    | zero => exact hv.trans (congrArg _ h0.symm)
    | succ i =>
      rw [show a + (i + 1) = a + 1 + i from by omega]
      exact hround i (by omega)

/-! ### RFFT (R154) -/

/-- R154: the copy of the bins below `k` from the state `s`. -/
def CopiedBelow (s : State) (k : Nat) (t : State) : Prop :=
  t = { s with sBuf := t.sBuf } ∧ ∀ i, t.sBuf.read i = if i < k then s.aBuf.read i else s.sBuf.read i

theorem binStep_copies {a : Nat → Cplx} (ha : s.aBuf.Holds 2048 a) {k : Nat} (hk : k < 1025) {u : State}
    (hu : CopiedBelow s k u) : ∃ v, binStep k u = .ok v ∧ CopiedBelow s (k + 1) v := by
  obtain ⟨hstate, hread⟩ := hu
  have hbin : u.aBuf.read k = some (a k) := by rw [hstate]; exact ha k (by omega)
  refine ⟨_, binStep_eq_ok.mpr ⟨a k, hbin, rfl⟩, by rw [hstate]; rfl, fun i => ?_⟩
  rw [State.writeS_sBuf, Memory.read_write, hread]
  rcases Nat.lt_trichotomy i k with h | rfl | h
  · rw [if_neg (by omega), if_pos h, if_pos (by omega)]
  · rw [if_pos rfl, if_pos (by omega), ha i (by omega)]
  · rw [if_neg (by omega), if_neg (by omega), if_neg (by omega)]

theorem forEach_binStep_copies {a : Nat → Cplx} (ha : s.aBuf.Holds 2048 a) :
    ∃ t, forEach binStep (List.range 1025) s = .ok t ∧ CopiedBelow s 1025 t :=
  forEach_range_answers (P := CopiedBelow s) (fun _ _ hk hu => binStep_copies ha hk hu)
    ⟨rfl, fun i => by rw [if_neg (Nat.not_lt_zero i)]⟩

/-- The stages 1 to 11 in order, as a chain of states. -/
theorem exists_stages {x : Nat → F64} (ha : s.aBuf.Holds 2048 (networkValue x 0)) : ∃ u : Nat → State, u 0 = s ∧
    forEach stageOp [1, 2, 3, 4, 5, 6, 7, 8, 9, 10, 11] s = .ok (u 11) ∧
    (∀ g : Fin 16, 1 ≤ g.val → g.val ≤ 11 → exec (.stage g) (u (g.val - 1)) = .next (u g.val)) ∧
    (u 11).aBuf.Holds 2048 (networkValue x 11) := by
  obtain ⟨v, hv, hholds⟩ := forEach_stageOp_answers ha
  obtain ⟨u, h0, h11, hround⟩ := exists_states_of_forEach (a := 1) (n := 11) hv
  refine ⟨u, h0, h11 ▸ hv, fun g h1 hg => ?_, h11 ▸ hholds⟩
  have hstage := hround (g.val - 1) (by omega)
  rw [show 1 + (g.val - 1) = g.val from by omega, Nat.sub_add_cancel h1] at hstage
  exact (exec_stage _ h1 hg).trans (Res.outcome_eq_next.mpr hstage)

/-- Settles O39: the loops of `RFFT` one after another, and the fault of `BREV`. -/
theorem rfftIsItsStages : Obligations.RfftIsItsStages := by
  refine ⟨fun s x hx => ?_, fun s n hn hnone => ?_⟩
  · obtain ⟨v, hv, -, hread⟩ := brevOp_answers hx
    have hreversed : v.aBuf.Holds 2048 (networkValue x 0) := fun j hj => by
      rw [hread, if_pos hj, networkValue]
    obtain ⟨u, h0, hstages, hstage, hholds⟩ := exists_stages hreversed
    obtain ⟨t, ht, hstate, hbins⟩ := forEach_binStep_copies hholds
    have hnetwork : networkOp s = .ok t := networkOp_eq_ok.mpr ⟨v, u 11, hv, hstages, ht⟩
    have hsBuf : (u 11).sBuf = s.sBuf :=
      agree_of_frame (frame_trans (frame_mono (brevOp_frame hv) (by decide))
        (forEach_frame hstages fun _ _ _ h => stageOp_frame h)) (p := .s) (l := [.twv, .a]) (by decide)
    refine ⟨u, h0 ▸ (exec_brev s).trans (Res.outcome_eq_next.mpr hv), hstage, t,
      (exec_rfft s).trans (Res.outcome_eq_next.mpr hnetwork), hstate,
      fun k hk => ?_, fun k hk => ?_, networkOp_frame hnetwork⟩
    · have hcopy : t.sBuf.read k = (u 11).aBuf.read k := (hbins k).trans (if_pos (by omega))
      exact ⟨hcopy, by rw [hcopy, hholds k (by omega)]; rfl⟩
    · rw [hbins, if_neg (by omega), hsBuf]
  · obtain ⟨j, hj, hjnone, hsome⟩ := exists_first_unwritten hn hnone
    refine ⟨j, hj, hjnone, hsome, opWord 0x14 0 0, ?_⟩
    rw [exec_rfft, Res.outcome_eq_fault, networkOp, brevOp_error hj hjnone hsome, Res.andThen]

/-! ### A replaced transform (R155) -/

theorem bind_ok {α β : Type} (a : α) (next : α → Except Fault β) : (Except.ok a >>= next) = next a := rfl

/-- The loop that writes the bins `z`. -/
theorem forEach_writeS_answers (z : Nat → Cplx) (n : Nat) :
    ∃ t, forEach (fun k t => .ok (t.writeS k (z k))) (List.range n) s = .ok t ∧ t.sBuf.Holds n z := by
  refine forEach_range_answers (P := fun k u => u.sBuf.Holds k z) (fun k u _ hu => ⟨_, rfl, fun i hi => ?_⟩) nofun
  rw [State.writeS_sBuf, Memory.read_write]
  split
  · rename_i hik
    rw [hik]
  · exact hu i (by omega)

theorem replacedOp_answers {f : List F64 → Nat → Cplx} {x : Nat → F64} (hx : s.xBuf.Holds 2048 x) :
    ∃ t, replacedOp f s = .ok t ∧ t.sBuf.Holds 1025 (f ((List.range 2048).map x)) := by
  have hfetch : s.xBuf.fetchAll (opWord 0x17 0 0) .x (List.range 2048) = .ok ((List.range 2048).map x) :=
    Memory.fetchAll_eq_ok.mpr (by
      rw [List.map_map]
      exact List.map_congr_left fun i hi => hx i (List.mem_range.mp hi))
  obtain ⟨t, ht, hbins⟩ := forEach_writeS_answers (s := s) (f ((List.range 2048).map x)) 1025
  exact ⟨t, by rw [replacedOp, hfetch, ← ht, bind_ok], hbins⟩

/-- Settles O40: the network's values are a function of the inputs, and a replaced transform is one by its type. -/
theorem spectrumDependsOnInputAlone : Obligations.SpectrumDependsOnInputAlone := by
  refine ⟨fun s s' x hx hx' => ?_, fun c f s x hc hx => ?_⟩
  · obtain ⟨t, ht, hbins⟩ := networkOp_answers hx
    obtain ⟨t', ht', hbins'⟩ := networkOp_answers hx'
    refine ⟨t, t', (exec_rfft s).trans (Res.outcome_eq_next.mpr ht), (exec_rfft s').trans (Res.outcome_eq_next.mpr ht'),
      fun k hk => ?_⟩
    rw [hbins k (by omega), hbins' k (by omega)]
  · rw [rfftOp, hc]
    exact replacedOp_answers hx

end Sys2Proof.Machine
end

section
/-! One rounding to the nearest binary64 value, ties to even, and the square root (00_scope.md R11). -/

namespace Sys2Proof
namespace F64

/-! ### The nearest integer -/

section Nearest

variable {u d k : Nat}

/-- No integer is nearer to `u / d`. -/
theorem nearest_le_dist (hd : 0 < d) (k : Nat) : |(nearest u d * d : Int) - u| ≤ |(k * d : Int) - u| := by
  obtain ⟨hlow, hhigh⟩ := nearest_close u d hd
  rw [Int.abs_eq_natAbs, Int.abs_eq_natAbs]
  rcases Nat.lt_trichotomy k (nearest u d) with hk | hk | hk
  · have hstep : (k + 1) * d ≤ nearest u d * d := Nat.mul_le_mul_right d hk
    rw [Nat.succ_mul] at hstep
    omega
  · rw [hk]
  · have hstep : (nearest u d + 1) * d ≤ k * d := Nat.mul_le_mul_right d hk
    rw [Nat.succ_mul] at hstep
    omega

/-- Of two integers equally near to `u / d` the even one is taken. -/
theorem nearest_even_of_tie (hd : 0 < d) (hk : k ≠ nearest u d)
    (h : |(nearest u d * d : Int) - u| = |(k * d : Int) - u|) : nearest u d % 2 = 0 := by
  have hdiv := Nat.div_add_mod u d
  have hmod := Nat.mod_lt u hd
  rw [Nat.mul_comm] at hdiv
  rw [Int.abs_eq_natAbs, Int.abs_eq_natAbs] at h
  have hstep : (k + 1) * d ≤ nearest u d * d ∨ (nearest u d + 1) * d ≤ k * d :=
    (Nat.lt_or_gt_of_ne hk).imp (Nat.mul_le_mul_right d) (Nat.mul_le_mul_right d)
  rw [Nat.succ_mul, Nat.succ_mul] at hstep
  have hsucc : (u / d + 1) * d = u / d * d + d := Nat.succ_mul _ _
  by_cases hup : d < 2 * (u % d) ∨ 2 * (u % d) = d ∧ u / d % 2 = 1
  · rw [show nearest u d = u / d + 1 from if_pos hup] at *
    omega
  · rw [show nearest u d = u / d from if_neg hup] at *
    omega

end Nearest

/-! ### Rounding -/

variable {neg : Bool} {n d : Nat}

/-- A finite value is a multiple of a power of two, or below the 53-bit multiples of it. -/
theorem units_multiple_or_lt (e : Fin 2047) (f : BitVec 52) (j : Nat) :
    (∃ k, units e f = k * 2 ^ j) ∨ 1 ≤ j ∧ units e f < 2 ^ 52 * 2 ^ j := by
  rcases Nat.eq_zero_or_pos j with rfl | hj
  · exact .inl ⟨units e f, by simp⟩
  have hf := f.isLt
  unfold units
  split
  · exact .inr ⟨hj, hf.trans_le (Nat.le_mul_of_pos_right _ (Nat.two_pow_pos j))⟩
  · rcases Nat.lt_or_ge (e.val - 1) j with hlt | hge
    · refine .inr ⟨hj, ?_⟩
      calc (2 ^ 52 + f.toNat) * 2 ^ (e.val - 1) < 2 ^ 53 * 2 ^ (e.val - 1) :=
            Nat.mul_lt_mul_of_pos_right (by omega) (Nat.two_pow_pos _)
        _ = 2 ^ 52 * 2 ^ (e.val - 1 + 1) := by rw [pow_succ 2 (e.val - 1)]; ring
        _ ≤ 2 ^ 52 * 2 ^ j := Nat.mul_le_mul_left _ (Nat.pow_le_pow_right (by norm_num) hlt)
    · refine .inl ⟨(2 ^ 52 + f.toNat) * 2 ^ (e.val - 1 - j), ?_⟩
      rw [Nat.mul_assoc, ← pow_add, Nat.sub_add_cancel hge]

/-- The number of bits of the ratio above the 53rd. -/
def dropped (n d : Nat) : Nat := excess (n * 2 ^ unitExp / d)

/-- The 53 bits that are kept of the ratio. -/
def kept (n d : Nat) : Nat := nearest (n * 2 ^ unitExp) (d * 2 ^ dropped n d)

theorem ofRatio_eq_pack (neg : Bool) (n d : Nat) : ofRatio neg n d = pack neg (dropped n d * 2 ^ 52 + kept n d) := by
  rw [ofRatio]
  rfl

theorem kept_le (hd : 0 < d) : kept n d ≤ 2 ^ 53 :=
  nearest_le (Nat.mul_pos hd (Nat.two_pow_pos _)) (ratio_bounds n d hd).1

theorem dropped_eq_zero_or_le_kept (hd : 0 < d) : dropped n d = 0 ∨ 2 ^ 52 ≤ kept n d :=
  (ratio_bounds n d hd).2.imp id (le_nearest (Nat.mul_pos hd (Nat.two_pow_pos _)))

/-- Below the code of infinity the rounded ratio is finite, with the kept bits in its fraction. -/
theorem ofRatio_eq_fin (hd : 0 < d) (hfit : dropped n d * 2 ^ 52 + kept n d < topCode) :
    ∃ e f, ofRatio neg n d = .fin neg e f ∧ units e f = kept n d * 2 ^ dropped n d ∧ f.toNat % 2 = kept n d % 2 := by
  have hlt : (dropped n d * 2 ^ 52 + kept n d) / 2 ^ 52 < 2047 := by rw [topCode] at hfit; omega
  obtain ⟨x, f, hpack, hunits⟩ := units_pack neg (kept_le hd) (dropped_eq_zero_or_le_kept hd) hlt
  have hfields := hpack
  rw [pack, dif_pos hlt] at hfields
  obtain ⟨-, -, rfl⟩ := F64.fin.inj hfields
  refine ⟨x, _, (ofRatio_eq_pack neg n d).trans hpack, hunits, ?_⟩
  rw [BitVec.toNat_ofNat]
  omega

/-- No finite value is nearer to `u / d` than the nearest multiple of `2^j`, when `u / d` is not below all multiples of
53 bits: a value between the multiples is smaller than these. -/
theorem nearest_multiple_le_dist {u j : Nat} (hd : 0 < d) (hu : j = 0 ∨ 2 ^ 52 * (d * 2 ^ j) ≤ u) (e' : Fin 2047)
    (f' : BitVec 52) : |(nearest u (d * 2 ^ j) * 2 ^ j * d : Int) - u| ≤ |(units e' f' * d : Int) - u| ∧
    (units e' f' ≠ nearest u (d * 2 ^ j) * 2 ^ j →
      |(nearest u (d * 2 ^ j) * 2 ^ j * d : Int) - u| = |(units e' f' * d : Int) - u| →
        nearest u (d * 2 ^ j) % 2 = 0) := by
  have hpos : 0 < d * 2 ^ j := Nat.mul_pos hd (Nat.two_pow_pos _)
  have hgrid (k : Nat) : (k * 2 ^ j * d : Int) = k * ((d * 2 ^ j : Nat) : Int) := by
    push_cast
    ring
  rw [hgrid]
  rcases units_multiple_or_lt e' f' j with ⟨k, hk⟩ | ⟨h1, hlt⟩
  · have hvalue : (units e' f' * d : Int) = k * ((d * 2 ^ j : Nat) : Int) := by
      rw [hk, ← hgrid]
      push_cast
      rfl
    rw [hvalue]
    refine ⟨nearest_le_dist hpos k, fun hne htie => nearest_even_of_tie hpos (k := k) ?_ htie⟩
    rintro rfl
    exact hne hk
  · have hbelow : 2 ^ 52 * (d * 2 ^ j) ≤ u := hu.resolve_left (by omega)
    have hvalue : units e' f' * d < 2 ^ 52 * (d * 2 ^ j) :=
      calc units e' f' * d < 2 ^ 52 * 2 ^ j * d := Nat.mul_lt_mul_of_pos_right hlt hd
        _ = 2 ^ 52 * (d * 2 ^ j) := by ring
    have hleast := nearest_le_dist (u := u) hpos (2 ^ 52)
    have hstrict : |((2 ^ 52 : Nat) * ((d * 2 ^ j : Nat) : Int)) - u| < |(units e' f' * d : Int) - u| := by
      rw [Int.abs_eq_natAbs, Int.abs_eq_natAbs]
      omega
    exact ⟨hleast.trans hstrict.le, fun _ htie => absurd htie (hleast.trans_lt hstrict).ne⟩

theorem natCast_scaled (n : Nat) : ((n * 2 ^ unitExp : Nat) : Int) = (n : Int) * 2 ^ unitExp := by
  rw [Nat.cast_mul, Nat.cast_pow, Nat.cast_ofNat]

/-! ### The threshold of overflow -/

/-- The nearest integer of a ratio below `b + 1/2`. -/
theorem nearest_le_of_lt_half {u d b : Nat} (hd : 0 < d) (h : 2 * u < (2 * b + 1) * d) : nearest u d ≤ b := by
  obtain ⟨-, hhigh⟩ := nearest_close u d hd
  by_contra! hlt
  have hstep : (b + 1) * d ≤ nearest u d * d := Nat.mul_le_mul_right d hlt
  rw [Nat.succ_mul] at hstep
  rw [Nat.succ_mul (2 * b), Nat.mul_assoc] at h
  omega

/-- The nearest integer of a ratio from `b + 1/2` on, for an odd `b`. -/
theorem lt_nearest_of_half_le {u d b : Nat} (hd : 0 < d) (hb : b % 2 = 1) (h : (2 * b + 1) * d ≤ 2 * u) :
    b < nearest u d := by
  obtain ⟨hlow, hhigh⟩ := nearest_close u d hd
  rw [Nat.succ_mul (2 * b), Nat.mul_assoc] at h
  have hle : b * d ≤ nearest u d * d := by omega
  refine lt_of_le_of_ne (Nat.le_of_mul_le_mul_right hle hd) fun heq => ?_
  have hsucc : (b + 1) * d = b * d + d := Nat.succ_mul b d
  have htie : |(nearest u d * d : Int) - u| = |(((b + 1 : Nat) : Int) * d) - u| := by
    rw [← heq] at hlow ⊢
    rw [Int.abs_eq_natAbs, Int.abs_eq_natAbs]
    omega
  have heven := nearest_even_of_tie hd (by omega) htie
  omega

/-- A ratio with `e` bits above the 53rd has the code `(m + 3) * 2^52` or a greater one exactly from `2^54 - 1` times `2^m`
on: below it the bits kept at `e = m + 1` do not reach `2^53`. -/
theorem le_code_iff {u d e : Nat} (m : Nat) (hd : 0 < d) (hhi : u ≤ 2 ^ 53 * (d * 2 ^ e))
    (hlo : e = 0 ∨ 2 ^ 52 * (d * 2 ^ e) ≤ u) :
    (m + 3) * 2 ^ 52 ≤ e * 2 ^ 52 + nearest u (d * 2 ^ e) ↔ (2 ^ 54 - 1) * (d * 2 ^ m) ≤ u := by
  have hpos (j : Nat) : 0 < d * 2 ^ j := Nat.mul_pos hd (Nat.two_pow_pos j)
  have hdouble (j : Nat) : d * 2 ^ (j + 1) = 2 * (d * 2 ^ j) := by ring
  have hmono {i j : Nat} (h : i ≤ j) : d * 2 ^ i ≤ d * 2 ^ j :=
    Nat.mul_le_mul_left d (Nat.pow_le_pow_right two_pos h)
  have hm := hpos m
  rcases Nat.lt_trichotomy e (m + 1) with he | rfl | he
  · have hq := nearest_le (hpos e) hhi
    have hle := hmono (show e ≤ m by omega)
    omega
  · rw [hdouble] at *
    constructor
    · intro h
      by_contra! hlt
      have hq := nearest_le_of_lt_half (u := u) (d := 2 * (d * 2 ^ m)) (b := 2 ^ 53 - 1) (by omega) (by omega)
      omega
    · intro h
      have hq := lt_nearest_of_half_le (u := u) (d := 2 * (d * 2 ^ m)) (b := 2 ^ 53 - 1) (by omega) (by decide) (by omega)
      omega
  · have hbelow := hlo.resolve_left (by omega)
    have hq := le_nearest (hpos e) hbelow
    have hle := hmono (show m + 2 ≤ e by omega)
    rw [hdouble, hdouble] at hle
    omega

theorem mul_le_iff_scaled (c a b d n : Nat) : c * 2 ^ a * d ≤ n ↔ c * (d * 2 ^ (a + b)) ≤ n * 2 ^ b := by
  rw [← Nat.mul_le_mul_right_iff (Nat.two_pow_pos b), pow_add]
  exact iff_of_eq (by congr 1; ring)

/-- From half a unit above the largest finite value on the ratio has the code of infinity or a greater one, and below
that a smaller one. -/
theorem topCode_le_iff (hd : 0 < d) :
    topCode ≤ dropped n d * 2 ^ 52 + kept n d ↔ (2 ^ 54 - 1) * 2 ^ 970 * d ≤ n := by
  obtain ⟨hhi, hlo⟩ := ratio_bounds n d hd
  rw [mul_le_iff_scaled _ _ unitExp, ← le_code_iff (970 + unitExp) hd hhi hlo]
  rfl

end F64

/-- Settles O26: the kept bits are the nearest multiple, and the code of infinity is the threshold. -/
theorem roundingIsNearestTiesToEven : Obligations.RoundingIsNearestTiesToEven := by
  intro neg n d hd
  refine ⟨fun h => ?_, fun h => ?_⟩
  · have hcode := (F64.topCode_le_iff hd).mpr h
    rw [F64.ofRatio_eq_pack, F64.pack, dif_neg]
    rw [F64.topCode] at hcode
    omega
  · obtain ⟨e, f, hfin, hunits, hparity⟩ :=
      F64.ofRatio_eq_fin (neg := neg) hd (not_le.mp fun hcode => absurd ((F64.topCode_le_iff hd).mp hcode) (not_le.mpr h))
    refine ⟨e, f, hfin, fun e' f' => ?_⟩
    have hdist := F64.nearest_multiple_le_dist hd (F64.ratio_bounds n d hd).2 e' f'
    rw [F64.natCast_scaled] at hdist
    rw [hunits, hparity, Nat.cast_mul, Nat.cast_pow, Nat.cast_ofNat]
    exact hdist

namespace F64

/-! ### The square root -/

/-- The bits found are those of the greatest integer whose square is not above `m`. -/
theorem rootBits_spec {m b r : Nat} (hlow : r * r ≤ m) (hhigh : m < (r + 2 ^ b) * (r + 2 ^ b)) :
    rootBits m b r * rootBits m b r ≤ m ∧ m < (rootBits m b r + 1) * (rootBits m b r + 1) := by
  induction b generalizing r with
  | zero => exact ⟨hlow, hhigh⟩
  | succ b ih =>
    rw [rootBits]
    split
    · refine ih ‹_› ?_
      rwa [Nat.add_assoc, ← Nat.two_mul, ← Nat.pow_succ']
    · exact ih hlow (by omega)

/-- The nearest root of `m / 4^e` is within half of the exact one. -/
theorem nearestRoot_close {m e : Nat} (h : m < 4 ^ 53 * 4 ^ e) :
    (2 * nearestRoot m e - 1) ^ 2 * 4 ^ e ≤ 4 * m ∧ 4 * m ≤ (2 * nearestRoot m e + 1) ^ 2 * 4 ^ e := by
  have hpos : 0 < 4 ^ e := Nat.pow_pos (by norm_num)
  have hdiv : m / 4 ^ e < 4 ^ 53 := Nat.div_lt_of_lt_mul (by rwa [Nat.mul_comm])
  obtain ⟨hlow, hhigh⟩ := rootBits_spec (m := m / 4 ^ e) (b := 53) (r := 0) (Nat.zero_le _) (hdiv.trans_eq (by norm_num))
  rw [Nat.le_div_iff_mul_le hpos] at hlow
  rw [Nat.div_lt_iff_lt_mul hpos] at hhigh
  rw [nearestRoot]
  generalize rootBits (m / 4 ^ e) 53 0 = q at *
  generalize 4 ^ e = p at *
  split
  · rename_i hmid
    rw [show 2 * (q + 1) - 1 = 2 * q + 1 from by omega]
    refine ⟨?_, ?_⟩
    · rw [pow_two]
      omega
    · calc 4 * m ≤ 4 * ((q + 1) * (q + 1) * p) := by omega
        _ = (2 * (q + 1)) ^ 2 * p := by ring
        _ ≤ (2 * (q + 1) + 1) ^ 2 * p := Nat.mul_le_mul_right p (Nat.pow_le_pow_left (by omega) 2)
  · rename_i hmid
    refine ⟨?_, ?_⟩
    · calc (2 * q - 1) ^ 2 * p ≤ (2 * q) ^ 2 * p := Nat.mul_le_mul_right p (Nat.pow_le_pow_left (by omega) 2)
        _ = 4 * (q * q * p) := by ring
        _ ≤ 4 * m := by omega
    · rw [pow_two]
      omega

/-- Half of the exponent of the scaled operand, less the bits kept. -/
def rootExp (k : Nat) : Nat := Nat.log2 (k * 2 ^ unitExp) / 2 - 52

theorem rootOfUnits_eq_pack (k : Nat) :
    rootOfUnits k = pack false (rootExp k * 2 ^ 52 + nearestRoot (k * 2 ^ unitExp) (rootExp k)) := by
  rw [rootOfUnits]
  rfl

/-- The scaled operand of a root has 105 or 106 bits above `4^rootExp`. -/
theorem scaled_bounds {k : Nat} (hk : k ≠ 0) :
    4 ^ 52 * 4 ^ rootExp k ≤ k * 2 ^ unitExp ∧ k * 2 ^ unitExp < 4 ^ 53 * 4 ^ rootExp k := by
  have hne : k * 2 ^ unitExp ≠ 0 := Nat.mul_ne_zero hk (Nat.two_pow_pos _).ne'
  have hlog : unitExp ≤ Nat.log2 (k * 2 ^ unitExp) :=
    (Nat.le_log2 hne).mpr (Nat.le_mul_of_pos_left _ (Nat.pos_of_ne_zero hk))
  have hlow := Nat.log2_self_le hne
  have hhigh : k * 2 ^ unitExp < 2 ^ (Nat.log2 (k * 2 ^ unitExp) + 1) := Nat.lt_log2_self
  have h4 (i : Nat) : (4 : Nat) ^ i = 2 ^ (2 * i) := (Nat.pow_mul 2 2 i).symm
  rw [rootExp]
  generalize Nat.log2 (k * 2 ^ unitExp) = l at *
  rw [show unitExp = 1074 from rfl] at hlog
  rw [← pow_add, ← pow_add, h4, h4]
  exact ⟨(Nat.pow_le_pow_right two_pos (by omega)).trans hlow,
    hhigh.trans_le (Nat.pow_le_pow_right two_pos (by omega))⟩

theorem rootExp_le {e : Fin 2047} {f : BitVec 52} (h : units e f ≠ 0) : rootExp (units e f) ≤ 1533 := by
  obtain ⟨hlow, -⟩ := scaled_bounds h
  have hlt : units e f * 2 ^ unitExp < 2 ^ (1024 + unitExp) * 2 ^ unitExp :=
    Nat.mul_lt_mul_of_pos_right (units_lt_two_pow e f) (Nat.two_pow_pos _)
  rw [← pow_add, show (4 : Nat) = 2 ^ 2 from rfl, ← pow_mul] at hlow
  rw [← pow_add] at hlt
  have hexp := hlow.trans_lt hlt
  generalize hn : 1024 + unitExp + unitExp = n at hexp
  rw [Nat.pow_lt_pow_iff_right one_lt_two] at hexp
  rw [show unitExp = 1074 from rfl] at hn
  omega

/-- The kept bits of a root reach the 53rd. -/
theorem le_nearestRoot {m e : Nat} (hlow : 4 ^ 52 * 4 ^ e ≤ m) (hhigh : m < 4 ^ 53 * 4 ^ e) :
    2 ^ 52 ≤ nearestRoot m e := by
  obtain ⟨-, hclose⟩ := nearestRoot_close hhigh
  by_contra! hlt
  have hlt' : (2 * nearestRoot m e + 1) ^ 2 < 4 * 4 ^ 52 := by
    calc (2 * nearestRoot m e + 1) ^ 2 < (2 * 2 ^ 52) ^ 2 := Nat.pow_lt_pow_left (by omega) (by norm_num)
      _ = 4 * 4 ^ 52 := by norm_num
  have hmul : (2 * nearestRoot m e + 1) ^ 2 * 4 ^ e < 4 * 4 ^ 52 * 4 ^ e :=
    Nat.mul_lt_mul_of_pos_right hlt' (Nat.pow_pos (by norm_num))
  rw [Nat.mul_assoc] at hmul
  omega

/-- The root of a positive finite value has the nearest root in its fraction, so its last place is not below
`2^rootExp` units. -/
theorem rootOfUnits_eq_fin {e : Fin 2047} {f : BitVec 52} (h : units e f ≠ 0) :
    ∃ x y, rootOfUnits (units e f) = .fin false x y ∧
      units x y = nearestRoot (units e f * 2 ^ unitExp) (rootExp (units e f)) * 2 ^ rootExp (units e f) ∧
      2 ^ rootExp (units e f) ≤ 2 ^ (x.val - 1) := by
  obtain ⟨hlow, hhigh⟩ := scaled_bounds h
  have hexp := rootExp_le h
  have hq := le_nearestRoot hlow hhigh
  have hq' := nearestRoot_le (units e f * 2 ^ unitExp) (rootExp (units e f))
  have hpack := rootOfUnits_eq_pack (units e f)
  generalize nearestRoot (units e f * 2 ^ unitExp) (rootExp (units e f)) = q at *
  have hlt : (rootExp (units e f) * 2 ^ 52 + q) / 2 ^ 52 < 2047 := by omega
  obtain ⟨x, y, hfin, hunits⟩ := units_pack false hq' (.inr hq) hlt
  refine ⟨x, y, hpack.trans hfin, hunits, Nat.pow_le_pow_right two_pos ?_⟩
  rw [pack, dif_pos hlt] at hfin
  obtain ⟨-, rfl, -⟩ := F64.fin.inj hfin
  show rootExp (units e f) ≤ (rootExp (units e f) * 2 ^ 52 + q) / 2 ^ 52 - 1
  omega

end F64

/-- Settles O27: the nearest root is within half of the last bit kept, and so within half a unit in the last place. -/
theorem squareRootWithinHalfUnit : Obligations.SquareRootWithinHalfUnit := by
  intro e f h
  obtain ⟨-, hhigh⟩ := F64.scaled_bounds h
  obtain ⟨hlow, hup⟩ := F64.nearestRoot_close hhigh
  obtain ⟨x, y, hroot, hunits, hlast⟩ := F64.rootOfUnits_eq_fin h
  refine ⟨x, y, by rw [F64.sqrt, if_neg h, if_neg Bool.false_ne_true, hroot], ?_⟩
  rw [hunits]
  generalize F64.nearestRoot (F64.units e f * 2 ^ F64.unitExp) (F64.rootExp (F64.units e f)) = q at *
  generalize F64.rootExp (F64.units e f) = j at *
  have h4 : (4 : Nat) ^ j = 2 ^ j * 2 ^ j := by rw [← Nat.mul_pow]
  rw [h4] at hlow hup
  constructor
  · calc (2 * (q * 2 ^ j) - 2 ^ (x.val - 1)) ^ 2 ≤ (2 * (q * 2 ^ j) - 2 ^ j) ^ 2 :=
          Nat.pow_le_pow_left (Nat.sub_le_sub_left hlast _) 2
      _ = (2 * q - 1) ^ 2 * (2 ^ j * 2 ^ j) := by
        rw [← Nat.mul_assoc, ← Nat.sub_one_mul]
        ring
      _ ≤ _ := hlow
  · calc 4 * (F64.units e f * 2 ^ F64.unitExp) ≤ (2 * q + 1) ^ 2 * (2 ^ j * 2 ^ j) := hup
      _ = (2 * (q * 2 ^ j) + 2 ^ j) ^ 2 := by ring
      _ ≤ _ := Nat.pow_le_pow_left (Nat.add_le_add_left hlast _) 2

end Sys2Proof
end

section
/-! Products and quotients by a positive value, products by a proportion, and what they make of the dominant frequency,
the hue and the channels (00_scope.md R11, 42_color_mapper.md R221, R223, R228). -/

namespace Sys2Proof
namespace F64

/-! ### Positive values -/

/-- A finite value above 0. -/
def Positive (x : F64) : Prop := ∃ e f, x = .fin false e f ∧ units e f ≠ 0

theorem HasUnits.positive {x : F64} {z : Int} (hx : x.HasUnits z) (hz : 0 < z) : x.Positive := by
  obtain ⟨s, e, f, rfl, rfl⟩ := hx
  cases s with
  | false => exact ⟨e, f, rfl, by simpa [signed] using hz.ne'⟩
  | true =>
    rw [signed, if_pos rfl] at hz
    omega

theorem positive_ofNat {n : Nat} (h0 : 0 < n) (hn : n < 2 ^ 53) : (ofNat n).Positive :=
  (hasUnits_ofNat hn).positive (mul_pos (Int.natCast_pos.mpr h0) (by positivity))

theorem mul_comm (x y : F64) : x.mul y = y.mul x := by
  cases x <;> cases y <;> simp only [mul, Bool.xor_comm, Nat.mul_comm]

variable {x y c : F64}

theorem mul_positive_f64Le (hc : c.Positive) (h : Machine.F64Le x y) : Machine.F64Le (x.mul c) (y.mul c) := by
  obtain ⟨e, f, rfl, hpos⟩ := hc
  rw [mul_comm x, mul_comm y]
  exact fin_mul_f64Le hpos h

theorem inf_div_fin (t : Bool) (e : Fin 2047) (f : BitVec 52) : (F64.inf t).div (.fin false e f) = .inf t := by
  rw [div, Bool.xor_false]

section
variable {e : Fin 2047} {f : BitVec 52} (hc : units e f ≠ 0)
include hc

theorem fin_div_fin (t : Bool) (g : Fin 2047) (h : BitVec 52) :
    (F64.fin t g h).div (.fin false e f) = ofRatio t (units g h) (units e f) := by
  rw [div, if_neg hc, Bool.xor_false]

theorem rank_fin_div_fin (t : Bool) (g : Fin 2047) (h : BitVec 52) :
    ((F64.fin t g h).div (.fin false e f)).rank = withSign t (roundCode (units g h) (units e f)) := by
  rw [fin_div_fin hc, rank_ofRatio]

theorem div_fin_ne_nan (hx : x ≠ .nan) : x.div (.fin false e f) ≠ .nan := by
  rcases x with _ | t | ⟨t, g, h⟩
  · exact absurd rfl hx
  · rw [inf_div_fin]
    nofun
  · rw [fin_div_fin hc]
    exact ofRatio_ne_nan _ _ _

theorem quotientCode_mono {g g' : Fin 2047} {h h' : BitVec 52} (hle : code g h ≤ code g' h') :
    roundCode (units g h) (units e f) ≤ roundCode (units g' h') (units e f) :=
  roundCode_mono (Nat.pos_of_ne_zero hc) (units_le_units_iff.mpr hle)

theorem quotientCode_eq_zero {g : Fin 2047} {h : BitVec 52} (hz : code g h = 0) :
    roundCode (units g h) (units e f) = 0 := by
  have hu := units_pos_iff (e := g) (f := h)
  rw [show units g h = 0 by omega, roundCode_zero (Nat.pos_of_ne_zero hc)]

end

/-- Division by a positive finite value is monotone. -/
theorem div_positive_f64Le (hc : c.Positive) (h : Machine.F64Le x y) : Machine.F64Le (x.div c) (y.div c) := by
  obtain ⟨e, f, rfl, hpos⟩ := hc
  obtain ⟨hx, hy, hle⟩ := f64Le_iff_rank.mp h
  refine f64Le_iff_rank.mpr ⟨div_fin_ne_nan hpos hx, div_fin_ne_nan hpos hy, ?_⟩
  have htop : topCode ≠ 0 := by decide
  have hlt := fun g h => (code_lt_topCode g h).not_ge
  rcases x with _ | s | ⟨s, g, k⟩
  · exact absurd rfl hx
  · rcases y with _ | t | ⟨t, g', k'⟩
    · exact absurd rfl hy
    · rwa [inf_div_fin, inf_div_fin]
    · rw [inf_div_fin, rank_fin_div_fin hpos]
      exact withSign_le_withSign hle (fun h => absurd h (hlt _ _)) (fun _ => roundCode_le_topCode _ _)
        (fun h => absurd h htop) (quotientCode_eq_zero hpos)
  · rcases y with _ | t | ⟨t, g', k'⟩
    · exact absurd rfl hy
    · rw [inf_div_fin, rank_fin_div_fin hpos]
      exact withSign_le_withSign hle (fun _ => roundCode_le_topCode _ _) (fun h => absurd h (hlt _ _))
        (quotientCode_eq_zero hpos) (fun h => absurd h htop)
    · rw [rank_fin_div_fin hpos, rank_fin_div_fin hpos]
      exact withSign_le_withSign hle (quotientCode_mono hpos) (quotientCode_mono hpos) (quotientCode_eq_zero hpos)
        (quotientCode_eq_zero hpos)

/-! ### Products by a proportion -/

/-- A value from `+0.0` to 1.0. -/
def Proportion (x : F64) : Prop := ∃ e f, x = .fin false e f ∧ units e f ≤ 2 ^ unitExp

/-- A value from 0 to 1, either zero among them. -/
def InUnit (x : F64) : Prop := ∃ n : Nat, x.HasUnits n ∧ n ≤ 2 ^ unitExp

theorem Proportion.inUnit (hx : x.Proportion) : x.InUnit := by
  obtain ⟨e, f, rfl, hle⟩ := hx
  exact ⟨units e f, ⟨false, e, f, rfl, rfl⟩, hle⟩

/-- One rounding of a number of units from 0 to 1. -/
theorem proportion_ofUnits {n : Nat} (h : n ≤ 2 ^ unitExp) : (ofUnits false n).Proportion := by
  rw [ofUnits, decide_eq_false (not_lt.mpr n.cast_nonneg), ite_self, Int.natAbs_natCast]
  obtain ⟨e, f, hx, hu⟩ :=
    ofRatio_le (n := n) false (k := 0) (Nat.two_pow_pos unitExp) (by norm_num) (by rwa [Nat.pow_zero, Nat.one_mul])
  exact ⟨e, f, hx, by rwa [Nat.zero_add] at hu⟩

/-- The sign given for a zero matters for a zero only. -/
theorem inUnit_ofUnits (neg : Bool) {n : Nat} (h : n ≤ 2 ^ unitExp) : (ofUnits neg n).InUnit := by
  rcases Nat.eq_zero_or_pos n with rfl | hpos
  · exact ⟨0, hasUnits_ofUnits representable_zero, Nat.zero_le _⟩
  · have hsign : ofUnits neg n = ofUnits false n := by rw [ofUnits, ofUnits, if_neg (by omega), if_neg (by omega)]
    rw [hsign]
    exact (proportion_ofUnits h).inUnit

theorem HasUnits.add_eq {x y : F64} {a b : Int} (hx : x.HasUnits a) (hy : y.HasUnits b) :
    ∃ neg, x.add y = ofUnits neg (a + b) := by
  obtain ⟨s, e, f, rfl, rfl⟩ := hx
  obtain ⟨t, g, k, rfl, rfl⟩ := hy
  exact ⟨_, rfl⟩

theorem ofNat_one : ofNat 1 = .fin false 1023 0 := by decide +kernel

theorem hasUnits_one : (ofNat 1).HasUnits (2 ^ unitExp) := by simpa using hasUnits_ofNat (n := 1) (by norm_num)

/-- 1.0 less a value from 0 to 1. -/
theorem InUnit.one_sub (hx : x.InUnit) : ((ofNat 1).sub x).Proportion := by
  obtain ⟨n, hn, hle⟩ := hx
  obtain ⟨s, e, f, hone, hunits⟩ := hasUnits_one
  obtain ⟨rfl, rfl, rfl⟩ := F64.fin.inj (hone.symm.trans ofNat_one)
  obtain ⟨t, g, k, hx, hz⟩ := hn.neg
  have hdiff : (2 : Int) ^ unitExp + -(n : Int) = ((2 ^ unitExp - n : Nat) : Int) := by
    rw [Nat.cast_sub hle, Nat.cast_pow, Nat.cast_ofNat, Int.sub_eq_add_neg]
  rw [sub, hx, ofNat_one, add, Bool.false_and, hz, hunits, hdiff]
  exact proportion_ofUnits (Nat.sub_le _ _)

theorem InUnit.one_mul (hx : x.InUnit) : ((ofNat 1).mul x).InUnit := by
  obtain ⟨n, hn, hle⟩ := hx
  exact ⟨n, hasUnits_one.one_mul hn, hle⟩

/-- The fractional part of a value: its difference from the greatest integer not above it. -/
theorem inUnit_sub_floor {i : Int} (hi : x.floorInt = some i) (hlt : i.natAbs < 2 ^ 53) : (x.sub (ofInt i)).InUnit := by
  rcases x with _ | s | ⟨s, e, f⟩
  · cases hi
  · cases hi
  obtain rfl := Option.some.inj hi
  have hpos : (0 : Int) < 2 ^ unitExp := by positivity
  obtain ⟨neg, hdiff⟩ := HasUnits.add_eq ⟨s, e, f, rfl, rfl⟩ (hasUnits_ofInt hlt).neg
  have hmod : signed s e f + -(signed s e f / 2 ^ unitExp * 2 ^ unitExp) = ((signed s e f % 2 ^ unitExp).toNat : Int) := by
    rw [Int.toNat_of_nonneg (Int.emod_nonneg _ hpos.ne'), Int.emod_def, Int.mul_comm, Int.sub_eq_add_neg]
  rw [sub, hdiff, hmod]
  refine inUnit_ofUnits neg ?_
  have hlt := Int.emod_lt_of_pos (signed s e f) hpos
  rw [Int.toNat_le, Nat.cast_pow, Nat.cast_ofNat]
  exact hlt.le

theorem withSign_right_injective {s : Bool} {a b : Nat} (h : withSign s a = withSign s b) : a = b := by
  cases s <;> simp only [withSign, Bool.false_eq_true, if_true, if_false] at h <;> omega

/-- Below the code of infinity the rounded ratio is finite and has the sign and the code of the rounding. -/
theorem ofRatio_of_roundCode_lt (neg : Bool) {n d : Nat} (hd : 0 < d) (h : roundCode n d < topCode) :
    ∃ e f, ofRatio neg n d = .fin neg e f ∧ code e f = roundCode n d := by
  obtain ⟨e, f, hx, -⟩ := ofRatio_eq_fin (neg := neg) hd ((min_lt_iff.mp h).resolve_right (lt_irrefl _))
  have hrank := rank_ofRatio neg n d
  rw [hx, rank_fin] at hrank
  refine ⟨e, f, hx, ?_⟩
  exact withSign_right_injective hrank

/-- A product with 1.0 has the code of the other factor. -/
theorem roundCode_mul_one (e : Fin 2047) (f : BitVec 52) :
    roundCode (units e f * 2 ^ unitExp) (2 ^ (2 * unitExp)) = code e f := by
  have hratio : (ofRatio false (units e f * 2 ^ unitExp) (2 ^ (2 * unitExp))).HasUnits (units e f) :=
    hasUnits_ofRatio (Nat.two_pow_pos _) (representable_units e f) (by
      rw [if_neg Bool.false_ne_true, Nat.cast_mul, Nat.mul_comm 2, pow_mul]
      push_cast
      ring)
  obtain ⟨s, g, k, hx, hz⟩ := hratio
  have hunits : units g k = units e f := by rw [← natAbs_signed s, hz, Int.natAbs_natCast]
  have hcode : code g k = code e f :=
    Nat.le_antisymm (units_le_units_iff.mp hunits.le) (units_le_units_iff.mp hunits.ge)
  have hrank := rank_ofRatio false (units e f * 2 ^ unitExp) (2 ^ (2 * unitExp))
  rw [hx, rank_fin, hcode] at hrank
  cases s <;> simp only [withSign, Bool.false_eq_true, if_true, if_false] at hrank <;> omega

/-- A finite value times a proportion keeps its sign and has at most its magnitude. -/
theorem mul_proportion (neg : Bool) (e : Fin 2047) (f : BitVec 52) {m : F64} (hm : m.Proportion) :
    ∃ e' f', (F64.fin neg e f).mul m = .fin neg e' f' ∧ units e' f' ≤ units e f := by
  obtain ⟨g, k, rfl, hle⟩ := hm
  have hcode : roundCode (units e f * units g k) (2 ^ (2 * unitExp)) ≤ code e f :=
    (roundCode_mono (Nat.two_pow_pos _) (Nat.mul_le_mul_left _ hle)).trans_eq (roundCode_mul_one e f)
  have hfin := ofRatio_of_roundCode_lt neg (n := units e f * units g k) (Nat.two_pow_pos (2 * unitExp))
  obtain ⟨e', f', hx, hc⟩ := hfin (hcode.trans_lt (code_lt_topCode e f))
  refine ⟨e', f', by rw [mul, Bool.xor_false, hx], units_le_units_iff.mpr (hc.trans_le hcode)⟩

end F64

namespace Machine
open F64

/-! ### The dominant frequency and the hue (R221, R223) -/

theorem hueFactor_positive : hueFactor.Positive := ⟨1023, 0x3333333333333, by decide +kernel, by decide +kernel⟩

variable {m m' : F64}

theorem dominantFrequency_f64Le (h : F64Le m m') : F64Le (dominantFrequency m) (dominantFrequency m') :=
  div_positive_f64Le (positive_ofNat (by norm_num) (by norm_num))
    (mul_positive_f64Le (positive_ofNat (by norm_num) (by norm_num)) h)

theorem hueOf_f64Le (h : F64Le m m') : F64Le (hueOf m) (hueOf m') :=
  mul_positive_f64Le hueFactor_positive <| div_positive_f64Le (positive_ofNat (by norm_num) (by norm_num)) <|
    mul_positive_f64Le (positive_ofNat (by norm_num) (by norm_num)) h

/-- Settles O47: each of the factors and divisors is positive. -/
theorem freqAndHueGrowWithMagnitude : Obligations.FreqAndHueGrowWithMagnitude := fun _ _ _ _ h =>
  ⟨dominantFrequency_f64Le h, hueOf_f64Le (dominantFrequency_f64Le h)⟩

/-! ### The channels of `hsv` with saturation 1.0 (R228) -/

variable {h v : F64} {o : Rgb}

theorem mem_sectorCase {i : Int} {p q t x : F64}
    (hx : x = (sectorCase i v p q t).r ∨ x = (sectorCase i v p q t).g ∨ x = (sectorCase i v p q t).b) :
    x = v ∨ x = p ∨ x = q ∨ x = t := by
  unfold sectorCase at hx
  split_ifs at hx <;> tauto

theorem floorInt_of_sectorOf {hp : F64} {i : Int} (h : sectorOf hp = some i) :
    hp.floorInt = some i ∧ i.natAbs < 2 ^ 31 := by
  unfold sectorOf at h
  cases hf : hp.floorInt with
  | none => simp [hf] at h
  | some j =>
    simp only [hf, Option.ite_none_right_eq_some, Option.some.injEq] at h
    obtain ⟨hlt, rfl⟩ := h
    exact ⟨rfl, hlt⟩

/-- Every channel is the brightness or a proportion of it. -/
theorem hsvOf_channel (ho : hsvOf h (ofNat 1) v = some o) {x : F64} (hx : x = o.r ∨ x = o.g ∨ x = o.b) :
    x = v ∨ ∃ m : F64, m.Proportion ∧ x = v.mul m := by
  have hne : (ofNat 1).ieeeEq zero = false := by decide +kernel
  unfold hsvOf at ho
  cases hi : sectorOf (h.div (ofNat 60)) with
  | none => simp [hi] at ho
  | some i =>
    simp only [hi, hne, Bool.false_eq_true, if_false, Option.some.injEq] at ho
    obtain ⟨hfloor, hlt⟩ := floorInt_of_sectorOf hi
    have hone : (ofNat 1).Proportion := ⟨1023, 0, ofNat_one, by decide +kernel⟩
    have hfrac := inUnit_sub_floor hfloor (hlt.trans (by norm_num))
    subst ho
    rcases mem_sectorCase hx with rfl | rfl | rfl | rfl
    · exact .inl rfl
    · exact .inr ⟨_, hone.inUnit.one_sub, rfl⟩
    · exact .inr ⟨_, hfrac.one_mul.one_sub, rfl⟩
    · exact .inr ⟨_, hfrac.one_sub.inUnit.one_mul.one_sub, rfl⟩

/-- A channel of a finite brightness is finite, has its sign and at most its magnitude. -/
theorem hsvOf_channel_fin {neg : Bool} {e : Fin 2047} {f : BitVec 52} (ho : hsvOf h (ofNat 1) (.fin neg e f) = some o)
    {x : F64} (hx : x = o.r ∨ x = o.g ∨ x = o.b) : ∃ e' f', x = .fin neg e' f' ∧ units e' f' ≤ units e f := by
  rcases hsvOf_channel ho hx with rfl | ⟨m, hm, rfl⟩
  · exact ⟨e, f, rfl, le_rfl⟩
  · exact mul_proportion neg e f hm

variable (s : State)

/-- What the two reads of `HSV` record. -/
theorem exec_hsv_eq (ho : hsvOf s.hue.value (ofNat 1) s.bri.value = some o) : exec .hsv s = .next { s with
    rf := Reg.put o.r, gf := Reg.put o.g, bf := Reg.put o.b
    faultLog := s.faultLog ++
      (if s.hue.written then [] else [.unwrittenRead (encode .hsv) .hue 0]) ++
      (if s.bri.written then [] else [.unwrittenRead (encode .hsv) .bri 0]) } := by
  rw [exec, execHsv, hsvOp, ho]
  cases hh : s.hue.written <;> cases hb : s.bri.written <;>
    simp [State.noteReads, State.putRgb, Res.outcome, encode]

/-- Settles O50: the fractional part of the sector is from 0 to 1, and so are the factors made of it. -/
theorem hsvChannelsWithinBrightness : Obligations.HsvChannelsWithinBrightness := by
  intro s
  refine ⟨fun o ho => ⟨fun hh hb => exec_hsv_of_written hh hb ho, exec_hsv_eq s ho, fun neg e f hv x hx => ?_⟩,
    fun hnone => ?_⟩
  · rw [hv] at ho
    obtain ⟨e', f', rfl, hle⟩ := hsvOf_channel_fin ho hx
    refine ⟨neg, e', f', rfl, ?_⟩
    cases neg with
    | false => exact ⟨rfl, by simpa [signed] using hle⟩
    | true => exact ⟨by simpa [signed] using hle, by simp [signed]⟩
  · rw [exec, execHsv, hsvOp, hnone]
    rfl

end Machine
end Sys2Proof
end

section
/-! Channel bytes of a brightness that is not above 0 (42_color_mapper.md R229, R232, R235). -/

namespace Sys2Proof
namespace F64

/-- NaN, or not above 0. -/
def NotPositive (x : F64) : Prop := x = .nan ∨ x.rank ≤ 0

variable {x : F64}

theorem notPositive_fin_iff {neg : Bool} {e : Fin 2047} {f : BitVec 52} :
    (F64.fin neg e f).NotPositive ↔ neg = true ∨ units e f = 0 := by
  have hu := units_pos_iff (e := e) (f := f)
  rw [NotPositive, rank_fin]
  cases neg with
  | false => simp [withSign]; omega
  | true => simp [withSign]

theorem notPositive_inf_iff {neg : Bool} : (F64.inf neg).NotPositive ↔ neg = true := by
  cases neg <;> simp [NotPositive, withSign, topCode]

theorem NotPositive.f64Le_zero (hx : x.NotPositive) (hne : x ≠ .nan) : Machine.F64Le x zero :=
  f64Le_iff_rank.mpr ⟨hne, nofun, hx.resolve_left hne⟩

theorem notPositive_of_f64Le {y : F64} (h : Machine.F64Le x y) (hy : y.NotPositive) : x.NotPositive := by
  obtain ⟨-, hne, hle⟩ := f64Le_iff_rank.mp h
  exact .inr (hle.trans (hy.resolve_left hne))

theorem NotPositive.mul_proportion {m : F64} (hx : x.NotPositive) (hm : m.Proportion) : (x.mul m).NotPositive := by
  rcases x with _ | neg | ⟨neg, e, f⟩
  · exact .inl rfl
  · obtain rfl := notPositive_inf_iff.mp hx
    obtain ⟨g, k, rfl, -⟩ := hm
    rw [mul]
    split
    · exact .inl rfl
    · exact notPositive_inf_iff.mpr rfl
  · obtain ⟨e', f', hprod, hle⟩ := F64.mul_proportion neg e f hm
    rw [hprod]
    exact notPositive_fin_iff.mpr ((notPositive_fin_iff.mp hx).imp_right fun h => by omega)

end F64

namespace Machine
open F64

variable {x v h : F64} {o : Rgb}

theorem mul_255_notPositive (hx : x.NotPositive) : (x.mul (ofNat 255)).NotPositive := by
  by_cases hne : x = .nan
  · subst hne
    exact .inl rfl
  · exact notPositive_of_f64Le (mul_positive_f64Le (positive_ofNat (by norm_num) (by norm_num)) (hx.f64Le_zero hne))
      (.inr (by decide +kernel))

/-- A channel that is not above 0 has the byte 0. -/
theorem toByte_of_notPositive (hx : x.NotPositive) : toByte (channelLevel x) = some 0 := by
  obtain ⟨b, hb, hvalue⟩ := toByte_channelLevel x
  have hscaled := mul_255_notPositive hx
  suffices hzero : b = 0 by rw [hb, hzero]
  cases hprod : x.mul (ofNat 255) with
  | nan => rwa [hprod] at hvalue
  | inf neg =>
    rw [hprod] at hvalue hscaled
    rwa [notPositive_inf_iff.mp hscaled] at hvalue
  | fin neg e f =>
    rw [hprod] at hvalue hscaled
    have hsigned : signed neg e f ≤ 0 := by
      rcases notPositive_fin_iff.mp hscaled with rfl | hz
      · simp [signed]
      · simp [signed, hz]
    have hfloor : signed neg e f / 2 ^ unitExp ≤ 0 := Int.ediv_le_of_le_mul (by positivity) (by simpa using hsigned)
    dsimp only at hvalue
    rw [min_eq_right (hfloor.trans (by norm_num)), max_eq_left hfloor] at hvalue
    exact BitVec.eq_of_toNat_eq (by exact_mod_cast hvalue)

/-- The channel bytes of a brightness that is not above 0. -/
theorem channelBytes_of_notPositive (hv : v.NotPositive) (ho : hsvOf h (ofNat 1) v = some o) :
    toByte (channelLevel o.r) = some 0 ∧ toByte (channelLevel o.g) = some 0 ∧ toByte (channelLevel o.b) = some 0 := by
  have hchannel (x : F64) (hx : x = o.r ∨ x = o.g ∨ x = o.b) : toByte (channelLevel x) = some 0 := by
    refine toByte_of_notPositive ?_
    rcases hsvOf_channel ho hx with rfl | ⟨m, hm, rfl⟩
    · exact hv
    · exact hv.mul_proportion hm
  exact ⟨hchannel _ (.inl rfl), hchannel _ (.inr (.inl rfl)), hchannel _ (.inr (.inr rfl))⟩

end Machine
end Sys2Proof
end

section
/-! One cycle from every state (45_sequencer.md R327, R330; 42_color_mapper.md R235): what it leaves is a function of its
Block, whatever the sink has answered. -/

namespace Sys2Proof.Machine
open F64

variable {s t u v : State} {b : Nat → Byte} {block : Vector Byte 4096} {rest : List Delivery} {w : Word} {m d : F64}

/-! ### The analysis of a Block -/

/-- R220 to R236: the color of the maxima `m` and `d`. -/
def IsColorOf (m d : F64) (w : Word) : Prop :=
  ∃ o r g b, hsvOf (hueOf (dominantFrequency m)) (ofNat 1) (brightnessOf Config.default d) = some o ∧
    toByte (channelLevel o.r) = some r ∧ toByte (channelLevel o.g) = some g ∧ toByte (channelLevel o.b) = some b ∧
    w = packColor r g b 0

/-- What `SPECTRUM` and `MAPC` make of the state `s` with the spectrum `z`, its maxima `m` and `d` and their color `w`. -/
structure Analysed (z : Nat → Cplx) (m d : F64) (w : Word) (s u : State) : Prop where
  frame : s.frame analysisParts u
  spectrum : u.sBuf.Holds 1025 z
  magMax : u.magMax = Reg.put m
  dbMax : u.dbMax = Reg.put d
  bri : u.bri = Reg.put (brightnessOf Config.default d)
  color : u.color = Reg.put w

/-- The maxima are functions of the bins 0 to `n`, and those of zeros are zero. -/
theorem exists_maxima {z : Nat → Cplx} (hz : ∀ k, CplxAtMost 22 (z k)) (n : Nat) :
    ∃ m d, F64AtMost 23 m ∧ ((∀ k < n + 1, CplxIsZero (z k)) → m = zero ∧ d = zero) ∧
      ∀ s : State, s.sBuf.Holds (n + 1) z →
        ∃ t, forEach (peakStep Config.default) (List.range (n + 1)) (clearMaxima s) = .ok t ∧
        t.sBuf = s.sBuf ∧ t.magMax = Reg.put m ∧ t.dbMax = Reg.put d ∧ s.frame analysisParts t := by
  have hmagnitude k : F64AtMost 23 (magnitude (z k)) := atMost_magnitude (hz k) (by norm_num)
  refine ⟨_, _, atMost_maximum hmagnitude (n + 1), fun hzero => ⟨maximum_eq_zero_iff.mpr fun k hk => ?_,
    maximum_eq_zero_iff.mpr fun k hk => ?_⟩, fun s hs => ⟨_, forEach_peakStep hs, rfl, rfl, rfl,
      frame_mono (frame_afterBins Config.default z s n) (by decide)⟩⟩
  · rw [magnitude_of_isZero (hzero k hk)]
    exact not_gt_self zero
  · rw [magnitude_of_isZero (hzero k hk)]
    exact decibel_zero_not_gt (by decide +kernel)

/-- `SPECTRUM` leaves the spectrum of the Block `b` and its maxima. -/
theorem spectrumOp_of_block (b : Nat → Byte) : ∃ m d, F64AtMost 23 m ∧
    ((∀ k < 1025, CplxIsZero (spectrumOf b k)) → m = zero ∧ d = zero) ∧
    ∀ s : State, s.blk.Holds 4096 b → ∃ t, spectrumOp Config.default s = .ok t ∧ t.sBuf.Holds 1025 (spectrumOf b) ∧
      t.magMax = Reg.put m ∧ t.dbMax = Reg.put d ∧ s.frame analysisParts t := by
  obtain ⟨m, d, hle, hzero, hpeak⟩ := exists_maxima (atMost_spectrumOf b) 1024
  refine ⟨m, d, hle, hzero, fun s hb => ?_⟩
  obtain ⟨u, hu, hload, hx, -⟩ := ldxOp_answers hb
  have hinput : u.xBuf.Holds 2048 fun n => sampleInput (b (2 * n)) (b (2 * n + 1)) := fun n hn => by
    rw [hx, if_pos hn]
  obtain ⟨v, hv, hbins⟩ := networkOp_answers hinput
  obtain ⟨t, ht, hspectrum, hm, hd, -⟩ := hpeak v hbins
  have hall : spectrumOp Config.default s = .ok t := by
    rw [spectrumOp, hu, Res.andThen_ok, rfftOp_default, hv, Res.andThen_ok]
    exact ht
  exact ⟨t, hall, hspectrum ▸ hbins, hm, hd, frame_mono (spectrumOp_frame hall) (by decide)⟩

/-- Every Block has maxima and a color. -/
theorem exists_analysed (b : Nat → Byte) : ∃ m d w, IsColorOf m d w ∧
    ((∀ k < 1025, CplxIsZero (spectrumOf b k)) → m = zero ∧ d = zero) ∧
    ∀ s : State, s.blk.Holds 4096 b →
      ∃ t u, spectrumOp Config.default s = .ok t ∧ mapcOp Config.default t = .ok u ∧
      Analysed (spectrumOf b) m d w s u := by
  obtain ⟨m, d, hle, hzero, hspectrum⟩ := spectrumOp_of_block b
  obtain ⟨o, ho⟩ := exists_hsvOf (atMost_hueOf (atMost_dominantFrequency hle)) (ofNat 1) (brightnessOf Config.default d)
  obtain ⟨r, hr⟩ := exists_channelByte o.r
  obtain ⟨g, hg⟩ := exists_channelByte o.g
  obtain ⟨bl, hbl⟩ := exists_channelByte o.b
  refine ⟨m, d, _, ⟨o, r, g, bl, ho, hr, hg, hbl, rfl⟩, hzero, fun s hb => ?_⟩
  obtain ⟨t, ht, hbins, hm, hd, hframe⟩ := hspectrum s hb
  exact ⟨t, _, ht, mapcOp_of_channels hm hd ho hr hg hbl, frame_trans hframe (frame_afterMap _ _ _ _ _ _ _ t), hbins, hm,
    hd, rfl, rfl⟩

/-! ### The end of a cycle -/

theorem txOp_keeps_producer (l : List Delivery) : Keeps (fun s => s.producer = l) txOp := by
  refine keeps_txOp (keeps_txLoop (fun _ hs => hs) fun r s v hs hv => ?_) (fun _ hs => hs) fun _ _ _ hs => hs
  have hanswer := fwrOp_buildFrame r s
  rw [hv] at hanswer
  have hkeep : v.producer = l := by
    cases hsink : s.sink with
    | nil =>
      rw [hsink] at hanswer
      obtain rfl := Except.ok.inj hanswer
      exact hs
    | cons a as =>
      rw [hsink] at hanswer
      obtain rfl := Except.ok.inj hanswer
      exact hs
  exact ⟨hkeep, hkeep, hkeep⟩

/-- Where a cycle ends that went through its gate: in `IDLE`, or in `TX` when the sink has too few answers. -/
def EndsCycle (n : Nat) (t : State) : Prop :=
  (t.waiting = none ∧ t.phase = .idle) ∨ (n < 4 ∧ t.phase = .tx ∧ ∃ r, t.waiting = some (.transmission r))

/-- R327: the transmission of a cycle, at its start or going on. -/
theorem endCycleOp_of_onTrack (hc : s.color.written = true)
    (hw : s.waiting = none ∨ ∃ r, s.waiting = some (.transmission r)) : ∃ t, endCycleOp s = .ok t ∧
      s.frame (.phase :: transmissionParts) t ∧ t.producer = s.producer ∧ EndsCycle s.sink.length t := by
  obtain ⟨t, ht, hframe, hwait⟩ := txOp_of_onTrack hc hw
  have hproducer := txOp_keeps_producer s.producer s t rfl ht
  have hphase (p : Phase) : s.frame (.phase :: transmissionParts) { t with phase := p } :=
    frame_trans (frame_mono hframe (by simp)) (frame_mono (frame_phase t p) (by simp))
  rcases hwait with hnone | ⟨hlt, r, hr⟩
  · refine ⟨{ t with phase := .idle }, ?_, hphase _, hproducer, .inl ⟨hnone, rfl⟩⟩
    rw [endCycleOp, ht, Res.andThen_ok, hnone]
    rfl
  · refine ⟨{ t with phase := .tx }, ?_, hphase _, hproducer, .inr ⟨hlt, rfl, r, hr⟩⟩
    rw [endCycleOp, ht, Res.andThen_ok, hr]
    rfl

theorem afterGate_answers (hw : v.waiting = none) (hc : v.color.written = true) : ∃ t, afterGate v = .ok t ∧
    v.frame (.phase :: transmissionParts) t ∧ t.producer = v.producer ∧ EndsCycle v.sink.length t ∧
    (v.gateSend = false → t = { v with phase := .idle }) := by
  by_cases hsend : v.gateSend = true
  · obtain ⟨t, ht, hframe, hproducer, hends⟩ := endCycleOp_of_onTrack hc (.inl hw)
    exact ⟨t, by rw [afterGate, if_pos hsend, ht], hframe, hproducer, hends, fun h => by simp [h] at hsend⟩
  · exact ⟨_, by rw [afterGate, if_neg hsend], frame_mono (frame_phase v .idle) (by simp), rfl, .inl ⟨hw, rfl⟩,
      fun _ => rfl⟩

/-! ### A cycle on a Block -/

/-- The bytes of a Block. -/
def blockBytes (block : Vector Byte 4096) (i : Nat) : Byte := block.toList[i]!

/-- What a cycle from `s` to `t` on a Block leaves: its analysis, the gate, and what follows. -/
structure Cycled (z : Nat → Cplx) (m d : F64) (w : Word) (block : Vector Byte 4096) (rest : List Delivery)
    (s u t : State) : Prop where
  exec : exec .cycle s = .next t
  analysed : Analysed z m d w (afterBlock s block rest) u
  frame : (latchColor u w).frame (.phase :: transmissionParts) t
  producer : t.producer = rest
  ends : EndsCycle s.sink.length t
  quiet : (latchColor u w).gateSend = false → t = { latchColor u w with phase := .idle }

/-- What a cycle finds of a Block is the same from every state. -/
theorem exists_cycled (block : Vector Byte 4096) : ∃ m d w, IsColorOf m d w ∧
    ((∀ k < 1025, CplxIsZero (spectrumOf (blockBytes block) k)) → m = zero ∧ d = zero) ∧
    ∀ (s : State) (rest : List Delivery), s.outsideTransmission → s.producer = .block block :: rest →
      ∃ u t, Cycled (spectrumOf (blockBytes block)) m d w block rest s u t := by
  obtain ⟨m, d, w, hw, hzero, hanalysis⟩ := exists_analysed (blockBytes block)
  refine ⟨m, d, w, hw, hzero, fun s rest hs hp => ?_⟩
  obtain ⟨v, u, hv, hu, hanalysed⟩ := hanalysis _ (blk_afterBlock s block rest)
  have hgated := gated_latchColor hanalysed.color hanalysed.frame
  obtain ⟨t, ht, hframe, hproducer, hends, hquiet⟩ :=
    afterGate_answers hgated.waiting (by rw [hgated.color, Reg.put_written])
  refine ⟨u, t, ?_, hanalysed, hframe, hproducer.trans hgated.producer, hgated.sink ▸ hends, hquiet⟩
  rw [exec_cycle, cycleOp_eq_freshCycleOp _ hs, freshCycleOp_of_block _ hp, analyseOp_of_color hv hu hanalysed.color, ht]
  rfl

theorem freshCycleOp_of_end (c : Config) {x : List Byte} (h : s.producer = .endOfInput x :: rest) :
    freshCycleOp c s = .ok (s.deliveryTaken (.endOfInput x) rest).takeEndOfInput := by
  have hread : rdblkOp s = (s.deliveryTaken (.endOfInput x) rest).takeEndOfInput := by rw [rdblkOp, h]
  rw [freshCycleOp, hread, if_neg (by simp), if_pos (by rfl)]

theorem freshCycleOp_of_empty (c : Config) (h : s.producer = []) : freshCycleOp c s = .ok (s.await .block) := by
  rw [freshCycleOp, rdblkOp_of_empty h]
  rfl

/-- A cycle that waits in its transmission goes on there. -/
theorem cycleOp_of_waiting (c : Config) {r : Role} (hw : s.waiting = some (.transmission r)) :
    cycleOp c s = endCycleOp s := by rw [cycleOp, hw]

/-- A transmission that goes on does not read `COLOR` again. -/
theorem txOp_of_waiting_answers {r : Role} (hw : s.waiting = some (.transmission r)) (h4 : 4 ≤ s.sink.length) :
    ∃ t, txOp s = .ok t ∧ t.waiting = none ∧ t.faultLog = s.faultLog := by
  obtain ⟨t, ht, hwait, -⟩ := txOp_completes h4
  refine ⟨t, ht, hwait, ?_⟩
  rw [txOp_of_waiting hw] at ht
  have hlog := agree_of_frame (txLoop_frame ht) (p := .faultLog) (by decide)
  exact hlog

/-- Settles O12: each answer of the producer, and a transmission that goes on. -/
theorem cycleCompletes : Obligations.CycleCompletes := by
  refine ⟨fun s block rest hs hp => ?_, fun s x rest hs hp => ?_, fun s hs hp => ?_, fun s r hw h4 => ?_⟩
  · obtain ⟨m, d, w, -, -, hcycle⟩ := exists_cycled block
    obtain ⟨u, t, h⟩ := hcycle s rest hs hp
    have hlast := agree_of_frame h.frame (p := .faultLog) (by decide)
    have hfirst := agree_of_frame h.analysed.frame (p := .faultLog) (by decide)
    exact ⟨t, h.exec, h.producer, Eq.trans hlast hfirst, h.ends⟩
  · refine ⟨(s.deliveryTaken (.endOfInput x) rest).takeEndOfInput, ?_, rfl, rfl, rfl⟩
    rw [exec_cycle, cycleOp_eq_freshCycleOp _ hs, freshCycleOp_of_end _ hp]
    rfl
  · rw [exec_cycle, cycleOp_eq_freshCycleOp _ hs, freshCycleOp_of_empty _ hp]
    rfl
  · obtain ⟨t, ht, hwait, hlog⟩ := txOp_of_waiting_answers hw h4
    refine ⟨{ t with phase := .idle }, ?_, hwait, rfl, hlog⟩
    rw [exec_cycle, cycleOp_of_waiting _ hw, endCycleOp, ht, Res.andThen_ok, hwait]
    rfl

/-! ### The color of a cycle (R330) -/

theorem Memory.eq_of_holds {α : Type} {size : Nat} {m n : Memory α} {z : Nat → α} (hm : m.wf size = true)
    (hn : n.wf size = true) (hmz : m.Holds size z) (hnz : n.Holds size z) : m = n := by
  refine Memory.rising_ext hm hn fun i => ?_
  rcases Nat.lt_or_ge i size with hi | hi
  · rw [hmz i hi, hnz i hi]
  · rw [Memory.read_rising_none hm (.inr hi), Memory.read_rising_none hn (.inr hi)]

/-- The state with all index spaces unwritten: a cycle on a Block does not see them. -/
def State.withoutBuffers (s : State) : State := { s with blk := [], xBuf := [], aBuf := [], sBuf := [], fbuf := [] }

theorem cycleOp_withoutBuffers (c : Config) (hs : s.outsideTransmission) (hp : s.producer = .block block :: rest) :
    cycleOp c s.withoutBuffers = cycleOp c s := by
  rw [cycleOp_eq_freshCycleOp c (s := s.withoutBuffers) hs, cycleOp_eq_freshCycleOp c hs,
    freshCycleOp_of_block (s := s.withoutBuffers) c hp, freshCycleOp_of_block c hp]
  rfl

/-- A cycle on a Block ends in canonical form, whatever the spaces held before. -/
theorem exec_cycle_memoryWf (hs : s.outsideTransmission) (hp : s.producer = .block block :: rest)
    (h : exec .cycle s = .next t) : t.memoryWf = true := by
  have hcycle := Res.outcome_eq_next.mp h
  rw [← cycleOp_withoutBuffers _ hs hp] at hcycle
  exact cycleOp_keeps_memoryWf s.withoutBuffers t rfl hcycle

/-- Settles O14: each is a function of the Block, and the spectrum has one canonical form. -/
theorem colorDependsOnBlockAlone : Obligations.ColorDependsOnBlockAlone := by
  intro s s' block rest rest' hw hw' hp hp'
  obtain ⟨m, d, w, -, -, hcycle⟩ := exists_cycled block
  have hvalues {s : State} {rest : List Delivery} (hs : s.waiting = none) (hp : s.producer = .block block :: rest) :
      ∃ t, exec .cycle s = .next t ∧ t.magMax = Reg.put m ∧ t.dbMax = Reg.put d ∧ t.color = Reg.put w ∧
        t.sBuf.Holds 1025 (spectrumOf (blockBytes block)) ∧ t.sBuf.wf 1025 = true := by
    have hout : s.outsideTransmission := fun r => by simp [hs]
    obtain ⟨u, t, h⟩ := hcycle s rest hout hp
    obtain ⟨hm, hd⟩ := agree_of_frame h.frame (p := .maxima) (by decide)
    have hc := agree_of_frame h.frame (p := .color) (by decide)
    have hspectrum : t.sBuf = u.sBuf := agree_of_frame (s := latchColor u w) h.frame (p := .s) (by decide)
    obtain ⟨-, -, -, hwf, -⟩ := memoryWf_iff.mp (exec_cycle_memoryWf hout hp h.exec)
    exact ⟨t, h.exec, hm.trans h.analysed.magMax, hd.trans h.analysed.dbMax, Eq.trans hc h.analysed.color,
      hspectrum ▸ h.analysed.spectrum, hwf⟩
  obtain ⟨t, ht, hm, hd, hc, hs, hwf⟩ := hvalues hw hp
  obtain ⟨t', ht', hm', hd', hc', hs', hwf'⟩ := hvalues hw' hp'
  exact ⟨t, t', ht, ht', hm.trans hm'.symm, hd.trans hd'.symm, hc.trans hc'.symm, Memory.eq_of_holds hwf hwf' hs hs'⟩

/-! ### The silent Block (R235) -/

/-- The spectrum of a Block of zeros. -/
theorem spectrumOf_isZero (hb : ∀ i < 4096, b i = 0) {k : Nat} (hk : k < 1025) : CplxIsZero (spectrumOf b k) := by
  have hstage (g : Nat) : IntegerStage g (fun _ => 0) fun _ => 0 := fun _ _ _ => ⟨.inr rfl, rfl, rfl⟩
  have hreal := networkValue_isReal (x := fun n => sampleInput (b (2 * n)) (b (2 * n + 1))) (v := 0)
    (c := fun _ _ => 0) (fun g _ _ => hstage g) (fun _ _ _ => by simp) (fun j hj => ?_) le_rfl k (by omega)
  · rw [Int.zero_mul] at hreal
    exact hreal.isZero
  · have hrange := bitrev11_lt j
    have hinput : sampleInput 0 0 = zero := normalise_zero
    rw [hb _ (by omega), hb _ (by omega), Int.zero_mul, hinput]
    exact hasUnits_zero

theorem brightnessOf_zero : brightnessOf Config.default zero = .inf true := by decide +kernel

theorem isColorOf_silent (hm : IsColorOf m zero w) : w = 0 := by
  obtain ⟨o, r, g, b, ho, hr, hg, hb, rfl⟩ := hm
  rw [brightnessOf_zero] at ho
  obtain ⟨hr', hg', hb'⟩ := channelBytes_of_notPositive (notPositive_inf_iff.mpr rfl) ho
  obtain rfl := Option.some.inj (hr.symm.trans hr')
  obtain rfl := Option.some.inj (hg.symm.trans hg')
  obtain rfl := Option.some.inj (hb.symm.trans hb')
  decide

/-- Settles O13: the maxima of a zero spectrum are zero, and a brightness of minus infinity is black. -/
theorem silentCycleIsBlack : Obligations.SilentCycleIsBlack := by
  intro s block rest hs hp hzero
  have hb : ∀ i < 4096, blockBytes block i = 0 := fun i hi => by simpa [blockBytes, hi] using hzero i hi
  obtain ⟨m, d, w, hw, hsilent, hcycle⟩ := exists_cycled block
  obtain ⟨rfl, rfl⟩ := hsilent fun k hk => spectrumOf_isZero hb hk
  obtain rfl := isColorOf_silent hw
  obtain ⟨u, t, h⟩ := hcycle s rest hs hp
  have hgated := gated_latchColor h.analysed.color h.analysed.frame
  have hbri := h.analysed.bri
  rw [brightnessOf_zero] at hbri
  obtain ⟨htm, htd⟩ := agree_of_frame h.frame (p := .maxima) (by decide)
  have htb := agree_of_frame h.frame (p := .bri) (by decide)
  have htc := agree_of_frame h.frame (p := .color) (by decide)
  obtain ⟨htp, htg⟩ := agree_of_frame h.frame (p := .gate) (by decide)
  refine ⟨t, h.exec, htm.trans h.analysed.magMax, htd.trans h.analysed.dbMax, Eq.trans htb hbri,
    Eq.trans htc h.analysed.color, htp.trans hgated.prevColor, fun hblack => ?_, fun hother => ?_⟩
  · have hsend : (latchColor u 0).gateSend = false := by rw [hgated.gateSend, hblack]; rfl
    obtain ⟨-, -, -, hevents, -⟩ := agree_of_frame h.analysed.frame (p := .interfaces) (by decide)
    rw [h.quiet hsend]
    refine ⟨hsend, rfl, ?_⟩
    rw [latchColor_events, hevents]
    simp [afterBlock]
  · rw [htg, hgated.gateSend, decide_eq_true_eq]
    exact Ne.symm hother

end Sys2Proof.Machine
end

section
/-! `CYCLE` and its parts (45_sequencer.md R327): the operations do not see the phase, the place within `MAP` and the
record of words, which are all that differs between a part of `CYCLE` and the same operation in its own step. -/

namespace Sys2Proof.Machine

variable {s t u v : State} {k : Nat} {n : Fin 8} {p : Phase}

/-! ### Operations that do not see the sequencer -/

/-- The state with another phase, another place within `MAP` and another record of words. -/
def State.retag (s : State) (p : Phase) (n : Fin 8) (w : List Word) : State := { s with phase := p, pos := n, trace := w }

/-- The operation answers alike whatever the sequencer's fields are, and leaves them alone. -/
def Blind (f : State → Res) : Prop := ∀ s t p n w, f s = .ok t → f (s.retag p n w) = .ok (t.retag p n w)

theorem blind_andThen {f g : State → Res} (hf : Blind f) (hg : Blind g) : Blind fun s => (f s).andThen g := by
  intro s t p n w h
  obtain ⟨u, hu, ht⟩ := Res.andThen_eq_ok.mp h
  exact Res.andThen_eq_ok.mpr ⟨_, hf s u p n w hu, hg u t p n w ht⟩

theorem blind_forEach {body : Nat → State → Res} (hbody : ∀ i, Blind (body i)) (is : List Nat) :
    Blind (forEach body is) := by
  induction is with
  | nil =>
    intro s t p n w h
    cases h
    rfl
  | cons i rest ih =>
    intro s t p n w h
    obtain ⟨u, hu, ht⟩ := forEach_cons_eq_ok.mp h
    exact forEach_cons_eq_ok.mpr ⟨_, hbody i s u p n w hu, ih u t p n w ht⟩

theorem blind_ldxOp : Blind ldxOp := blind_forEach (fun i s t p n w h => by
  obtain ⟨lo, hi, hlo, hhi, rfl⟩ := normOp_eq_ok.mp h
  exact normOp_eq_ok.mpr ⟨lo, hi, hlo, hhi, rfl⟩) _

theorem blind_brevOp : Blind brevOp := blind_forEach (fun j s t p n w h => by
  obtain ⟨x, hx, rfl⟩ := brevStep_eq_ok.mp h
  exact brevStep_eq_ok.mpr ⟨x, hx, rfl⟩) _

theorem blind_stageOp (g : Nat) : Blind (stageOp g) := blind_forEach (fun q s t p n w h => by
  obtain ⟨a, b, ha, hb, rfl⟩ := bflyOp_eq_ok.mp h
  exact bflyOp_eq_ok.mpr ⟨a, b, ha, hb, rfl⟩) _

theorem blind_networkOp : Blind networkOp :=
  blind_andThen blind_brevOp <| blind_andThen (blind_forEach blind_stageOp _) <| blind_forEach (fun q s t p n w h => by
    obtain ⟨z, hz, rfl⟩ := binStep_eq_ok.mp h
    exact binStep_eq_ok.mpr ⟨z, hz, rfl⟩) _

theorem blind_peakOp (c : Config) : Blind (peakOp c) := fun s t p n w h =>
  blind_forEach (fun q s t p n w h => by
    obtain ⟨z, hz, rfl⟩ := peakStep_eq_ok.mp h
    exact peakStep_eq_ok.mpr ⟨z, hz, rfl⟩) _ (clearMaxima s) t p n w h

theorem blind_freqOp : Blind freqOp := fun s t p n w h => by cases h; rfl
theorem blind_hueOp : Blind hueOp := fun s t p n w h => by cases h; rfl
theorem blind_briOp (c : Config) : Blind (briOp c) := fun s t p n w h => by cases h; rfl
theorem blind_packOp : Blind packOp := fun s t p n w h => by cases h; rfl
theorem blind_gateOp : Blind gateOp := fun s t p n w h => by cases h; rfl

theorem blind_hsvOp : Blind hsvOp := fun s t p n w h => by
  obtain ⟨o, ho, rfl⟩ := hsvOp_eq_ok.mp h
  exact hsvOp_eq_ok.mpr ⟨o, ho, rfl⟩

theorem blind_chfinOp (c : Channel) : Blind (chfinOp c) := fun s t p n w h => by
  obtain ⟨b, hb, rfl⟩ := chfinOp_eq_ok.mp h
  cases c with
  | red => exact chfinOp_eq_ok.mpr ⟨b, hb, rfl⟩
  | green => exact chfinOp_eq_ok.mpr ⟨b, hb, rfl⟩
  | blue => exact chfinOp_eq_ok.mpr ⟨b, hb, rfl⟩

theorem blind_fwrOp (r : Role) : Blind fun s => fwrOp r (buildFrame r s) := fun s t p n w h => by
  obtain ⟨f, hf, hcase⟩ := fwrOp_eq_ok.mp h
  refine fwrOp_eq_ok.mpr ⟨f, hf, ?_⟩
  rcases hcase with ⟨hsink, rfl⟩ | ⟨a, rest, hsink, rfl⟩
  · exact .inl ⟨hsink, rfl⟩
  · exact .inr ⟨a, rest, hsink, rfl⟩

theorem blind_txLoop (roles : List Role) : Blind (txLoop roles) := by
  induction roles with
  | nil =>
    intro s t p n w h
    cases h
    rfl
  | cons r rest ih =>
    intro s t p n w h
    obtain ⟨v, hv, hcase⟩ := txLoop_cons_eq_ok.mp h
    refine txLoop_cons_eq_ok.mpr ⟨_, blind_fwrOp r s v p n w hv, ?_⟩
    rcases hcase with ⟨hwait, rfl⟩ | ⟨hwait, hok, hrest⟩ | ⟨hwait, hok, rfl⟩
    · exact .inl ⟨hwait, rfl⟩
    · exact .inr (.inl ⟨hwait, hok, ih v t p n w hrest⟩)
    · exact .inr (.inr ⟨hwait, hok, rfl⟩)

/-- A transmission from its start. -/
theorem txOp_retag (p : Phase) (n : Fin 8) (w : List Word) (hw : s.waiting = none) (h : txOp s = .ok t) :
    txOp (s.retag p n w) = .ok (t.retag p n w) := by
  rw [txOp_eq_txLoop hw] at h
  rw [txOp_eq_txLoop (s := s.retag p n w) hw]
  exact blind_txLoop _ _ _ p n w h

/-! ### The steps of a cycle -/

/-- After `k` steps from `s` the state is `y` but for the sequencer's fields: the next operation is the one of phase `p`
at the place `n`. -/
structure Tracks (k : Nat) (s y : State) (p : Phase) (n : Fin 8) : Prop where
  steps : ∃ w, steps k s = .next (y.retag p n w)
  opReq : y.opReq = none
  resetReq : y.resetReq = false
  waiting : y.waiting = none

/-- One step of an operation that leaves the interfaces alone. -/
theorem Tracks.step {y y' : State} {p' : Phase} {n' : Fin 8} {i : Instr} {f : State → Res} {l : List Part}
    (h : Tracks k s y p n) (hi : ∀ w, sequencerOp (y.retag p n w) = i) (hexec : ∀ v, exec i v = (f v).outcome)
    (hf : Blind f) (hy : f y = .ok y') (hframe : y.frame l y') (hl : .interfaces ∉ l)
    (hadvance : ∀ w, advance p (y'.retag p n w) = y'.retag p' n' w) : Tracks (k + 1) s y' p' n' := by
  obtain ⟨⟨w, hsteps⟩, hop, hr, hw⟩ := h
  obtain ⟨-, -, hwait, -⟩ := agree_of_frame hframe hl
  obtain ⟨-, hop', hr', -⟩ := hframe
  have hrun : exec i ((y.retag p n w).recorded (encode i)) = .next (y'.retag p n (w ++ [encode i])) := by
    rw [hexec]
    exact Res.outcome_eq_next.mpr (hf y y' p n _ hy)
  have hstep := step_of_exec (s := y.retag p n w) hop hr hw rfl (hi w) hrun (hwait.trans hw)
  refine ⟨⟨w ++ [encode i], ?_⟩, hop'.trans hop, hr'.trans hr, hwait.trans hw⟩
  rw [steps_add hsteps, steps_one hstep]
  exact congrArg _ (hadvance _)

/-- R323: `LOAD`, `FFT` and `PEAK`. -/
theorem Tracks.spectrum (h : Tracks k s t .load n) (ht : spectrumOp Config.default t = .ok u) :
    Tracks (k + 3) s u .map 0 := by
  obtain ⟨t₁, hldx, hrest⟩ := Res.andThen_eq_ok.mp ht
  obtain ⟨t₂, hfft, hpeak⟩ := Res.andThen_eq_ok.mp hrest
  have h₁ := h.step (p' := .fft) (n' := n) (fun _ => rfl) exec_ldx blind_ldxOp hldx (ldxOp_frame hldx) (by decide)
    (fun _ => rfl)
  have h₂ := h₁.step (p' := .peak) (n' := n) (fun _ => rfl) exec_rfft blind_networkOp hfft (networkOp_frame hfft)
    (by decide) (fun _ => rfl)
  exact h₂.step (fun _ => rfl) exec_peak (blind_peakOp _) hpeak (peakOp_frame hpeak) (by decide) (fun _ => rfl)

/-- R323: the eight operations of `MAP`. -/
theorem Tracks.map (h : Tracks k s t .map 0) (ht : mapcOp Config.default t = .ok u) : Tracks (k + 8) s u .gate 0 := by
  obtain ⟨t₁, hfreq, hrest₁⟩ := Res.andThen_eq_ok.mp ht
  obtain ⟨t₂, hhue, hrest₂⟩ := Res.andThen_eq_ok.mp hrest₁
  obtain ⟨t₃, hbri, hrest₃⟩ := Res.andThen_eq_ok.mp hrest₂
  obtain ⟨t₄, hhsv, hrest₄⟩ := Res.andThen_eq_ok.mp hrest₃
  obtain ⟨t₅, hred, hrest₅⟩ := Res.andThen_eq_ok.mp hrest₄
  obtain ⟨t₆, hgreen, hrest₆⟩ := Res.andThen_eq_ok.mp hrest₅
  obtain ⟨t₇, hblue, hpack⟩ := Res.andThen_eq_ok.mp hrest₆
  have h₁ := h.step (p' := .map) (n' := 1) (fun _ => rfl) exec_freq blind_freqOp hfreq (freqOp_frame hfreq) (by decide)
    (fun _ => rfl)
  have h₂ := h₁.step (p' := .map) (n' := 2) (fun _ => rfl) exec_hue blind_hueOp hhue (hueOp_frame hhue) (by decide)
    (fun _ => rfl)
  have h₃ := h₂.step (p' := .map) (n' := 3) (fun _ => rfl) exec_bri (blind_briOp _) hbri (briOp_frame hbri) (by decide)
    (fun _ => rfl)
  have h₄ := h₃.step (p' := .map) (n' := 4) (fun _ => rfl) exec_hsv blind_hsvOp hhsv (hsvOp_frame hhsv) (by decide)
    (fun _ => rfl)
  have h₅ := h₄.step (p' := .map) (n' := 5) (fun _ => rfl) (fun v => exec_chfin v .red) (blind_chfinOp _) hred
    (chfinOp_frame hred) (by decide) (fun _ => rfl)
  have h₆ := h₅.step (p' := .map) (n' := 6) (fun _ => rfl) (fun v => exec_chfin v .green) (blind_chfinOp _) hgreen
    (chfinOp_frame hgreen) (by decide) (fun _ => rfl)
  have h₇ := h₆.step (p' := .map) (n' := 7) (fun _ => rfl) (fun v => exec_chfin v .blue) (blind_chfinOp _) hblue
    (chfinOp_frame hblue) (by decide) (fun _ => rfl)
  exact h₇.step (fun _ => rfl) exec_pack blind_packOp hpack (packOp_frame hpack) (by decide) (fun _ => rfl)

/-- R324: the gate decides the next phase. -/
theorem Tracks.gate (h : Tracks k s t .gate n) (ht : gateOp t = .ok v) :
    Tracks (k + 1) s v (if v.gateSend then .tx else .idle) n :=
  h.step (fun _ => rfl) exec_gate blind_gateOp ht (gateOp_frame ht) (by decide) fun w => by
    rw [advance]
    show (if v.gateSend then _ else _) = _
    split <;> rfl

/-- R325: a transmission, complete or waiting. -/
theorem steps_tx_of_tracks (h : Tracks k s v .tx n) (ht : endCycleOp v = .ok t) :
    ∃ w, steps (k + 1) s = .next (t.retag t.phase n w) ∧ (t.phase = .idle ∨ t.phase = .tx) := by
  obtain ⟨⟨w, hsteps⟩, hop, hr, hw⟩ := h
  obtain ⟨u, hu, hrest⟩ := Res.andThen_eq_ok.mp ht
  have hrun : exec .tx ((v.retag .tx n w).recorded (encode .tx)) = .next (u.retag .tx n (w ++ [encode .tx])) := by
    rw [exec_tx]
    exact Res.outcome_eq_next.mpr (txOp_retag (s := v) .tx n _ hw hu)
  have hstep : step (v.retag .tx n w) = .next (settleStep (v.retag .tx n w) (u.retag .tx n (w ++ [encode .tx]))) :=
    step_of_sequencerOp hop hr rfl (by rw [issue_of_not_waiting _ (s := v.retag .tx n w) hw]; exact hrun)
  refine ⟨w ++ [encode .tx], ?_⟩
  rw [steps_add hsteps, steps_one hstep]
  split at hrest
  · rename_i hwait
    cases hrest
    refine ⟨?_, .inr rfl⟩
    rw [settleStep, if_pos (by exact hwait)]
    rfl
  · rename_i hwait
    cases hrest
    refine ⟨?_, .inl rfl⟩
    rw [settleStep_of_complete (s := v.retag .tx n w) (u := u.retag .tx n _) hop (Option.not_isSome_iff_eq_none.mp hwait)]
    rfl

/-! ### The three answers of the producer -/

section Answers

variable (hop : s.opReq = none) (hr : s.resetReq = false) (hw : s.waiting = none) (hp : s.phase = .idle)
  {rest : List Delivery}
include hop hr hw hp

theorem tracks_afterBlock {b : Vector Byte 4096} (h : s.producer = .block b :: rest) :
    Tracks 1 s (afterBlock s b rest) .load s.pos := by
  refine ⟨⟨s.trace ++ [encode .rdblk], ?_⟩, hop, hr, rfl⟩
  rw [steps_one (step_of_block hop hr hp h), issue_of_not_waiting _ hw]
  rfl

/-- The parts of a cycle on a Block: 13 steps up to and with the gate, and one for a transmission. -/
theorem exists_parts_of_block {b : Vector Byte 4096} (h : s.producer = .block b :: rest) :
    ∃ (t : State) (m : Nat) (q : Fin 8) (w : List Word), exec .cycle s = .next t ∧ 1 ≤ m ∧ m ≤ 14 ∧
      steps m s = .next (t.retag t.phase q w) ∧ (t.phase = .idle ∨ t.phase = .tx) := by
  have hout : s.outsideTransmission := fun r => by simp [hw]
  obtain ⟨m, d, c, -, -, hanalysis⟩ := exists_analysed (blockBytes b)
  obtain ⟨x, u, hx, hu, hanalysed⟩ := hanalysis _ (blk_afterBlock s b rest)
  have hgate := gateOp_of_color hanalysed.color
  have htracks := (((tracks_afterBlock hop hr hw hp h).spectrum hx).map hu).gate hgate
  have hcycle : exec .cycle s = (afterGate (latchColor u c)).outcome := by
    rw [exec_cycle, cycleOp_eq_freshCycleOp _ hout, freshCycleOp_of_block _ h, analyseOp_of_color hx hu hanalysed.color]
  rw [afterGate] at hcycle
  by_cases hsend : (latchColor u c).gateSend = true
  · rw [if_pos hsend] at hcycle htracks
    obtain ⟨t, ht, -⟩ := endCycleOp_of_onTrack (s := latchColor u c)
      (by rw [latchColor_color, hanalysed.color, Reg.put_written]) (.inl htracks.waiting)
    obtain ⟨w, hsteps, hphase⟩ := steps_tx_of_tracks htracks ht
    exact ⟨t, 14, 0, w, by rw [hcycle, ht]; rfl, by norm_num, by norm_num, hsteps, hphase⟩
  · rw [if_neg hsend] at hcycle htracks
    obtain ⟨w, hsteps⟩ := htracks.steps
    exact ⟨_, 13, 0, w, hcycle, by norm_num, by norm_num, hsteps, .inl rfl⟩

end Answers

/-- Settles O11: the parts are blind to the sequencer's fields, so that its steps follow those of `CYCLE`. -/
theorem cycleIsItsParts : Obligations.CycleIsItsParts := by
  intro s ⟨hop, hr⟩ hp hw
  have hout : s.outsideTransmission := fun r => by simp [hw]
  rcases hproducer : s.producer with _ | ⟨b | x, rest⟩
  · refine ⟨s.await .block, _, 1, ?_, le_rfl, by norm_num, steps_one (step_of_empty hop hr hp hproducer), ?_, .inl hp⟩
    · rw [exec_cycle, cycleOp_eq_freshCycleOp _ hout, freshCycleOp_of_empty _ hproducer]
      rfl
    · rw [issue_of_not_waiting _ hw]
      rfl
  · obtain ⟨t, m, q, w, ht, h1, h14, hsteps, hphase⟩ := exists_parts_of_block hop hr hw hp hproducer
    exact ⟨t, _, m, ht, h1, h14, hsteps, rfl, hphase.imp_right .inr⟩
  · refine ⟨(s.deliveryTaken (.endOfInput x) rest).takeEndOfInput, _, 1, ?_, le_rfl, by norm_num,
      steps_one (step_of_end hop hr hp hproducer), ?_, .inr (.inl rfl)⟩
    · rw [exec_cycle, cycleOp_eq_freshCycleOp _ hout, freshCycleOp_of_end _ hproducer]
      rfl
    · rw [issue_of_not_waiting _ hw]
      rfl

end Sys2Proof.Machine
end

section
/-! The integer bounds of the default logarithms against the real logarithm (41_magnitude_db.md R193, 42_color_mapper.md
R224): they enclose it, and the lower one is close to it. -/

namespace Sys2Proof.Logarithm
open Finset

/-! ### The series of artanh -/

/-- What is left of the series `z + z^3/3 + z^5/5 + ...` from the term of index `j` on. -/
noncomputable def seriesRest (z : ℝ) (j : Nat) : ℝ := Real.artanh z - ∑ i ∈ range j, z ^ (2 * i + 1) / (2 * i + 1)

theorem seriesRest_zero (z : ℝ) : seriesRest z 0 = Real.artanh z := by simp [seriesRest]

theorem seriesRest_eq_add (z : ℝ) (j : Nat) : seriesRest z j = z ^ (2 * j + 1) / (2 * j + 1) + seriesRest z (j + 1) := by
  rw [seriesRest, seriesRest, sum_range_succ]
  ring

section Series

variable {z : ℝ} (h0 : 0 ≤ z) (h3 : z ≤ 1 / 3)
include h0 h3

theorem artanh_eq : Real.artanh z = 1 / 2 * Real.log ((1 + z) / (1 - z)) :=
  Real.artanh_eq_half_log ⟨by linarith, by linarith⟩

theorem seriesRest_nonneg (j : Nat) : 0 ≤ seriesRest z j := by
  rw [seriesRest, artanh_eq h0 h3]
  exact sub_nonneg.mpr (Real.sum_range_le_log_div h0 (by linarith) j)

theorem sq_le_ninth : z ^ 2 ≤ 1 / 9 := by nlinarith

/-- The rest of the series is less than twice its first power. -/
theorem seriesRest_le (j : Nat) : seriesRest z j ≤ 2 * z ^ (2 * j + 1) := by
  have hsq := sq_le_ninth h0 h3
  have hpow : 0 ≤ z ^ (2 * j + 1) := pow_nonneg h0 _
  have htail : z ^ (2 * j + 1) / (1 - z ^ 2) ≤ 2 * z ^ (2 * j + 1) := by
    rw [div_le_iff₀ (by linarith)]
    nlinarith
  have hsum := Real.log_div_le_sum_range_add h0 (by linarith : z < 1) j
  rw [seriesRest, artanh_eq h0 h3]
  linarith

theorem pow_le_one_third (j : Nat) : z ^ (2 * j + 1) ≤ 1 := pow_le_one₀ h0 (by linarith)

end Series

/-! ### Integer division -/

theorem div_lt_natDiv_add_one (a b : Nat) : (a : ℝ) / b < ((a / b : Nat) : ℝ) + 1 := by
  rw [← Nat.floor_div_eq_div (K := ℝ)]
  exact Nat.lt_floor_add_one _

/-! ### The partial sums -/

section Sums

variable {z : ℝ} (h0 : 0 ≤ z) (h3 : z ≤ 1 / 3) {p z2 : Nat}
include h0

/-- The power after one that is not above its real value is not above its own. -/
theorem nextPower_le {j w : Nat} (h2 : (z2 : ℝ) ≤ 2 ^ p * z ^ 2) (hw : (w : ℝ) ≤ 2 ^ p * z ^ (2 * j + 1)) :
    ((w * z2 / 2 ^ p : Nat) : ℝ) ≤ 2 ^ p * z ^ (2 * (j + 1) + 1) := by
  refine Nat.cast_div_le.trans ?_
  push_cast
  rw [div_le_iff₀ (by positivity)]
  calc (w : ℝ) * z2 ≤ 2 ^ p * z ^ (2 * j + 1) * (2 ^ p * z ^ 2) := by gcongr
    _ = 2 ^ p * z ^ (2 * (j + 1) + 1) * 2 ^ p := by ring

include h3

/-- Each term of the lower sum is below the one of the series. -/
theorem sumBelow_le (h2 : (z2 : ℝ) ≤ 2 ^ p * z ^ 2) (t j w : Nat) (hw : (w : ℝ) ≤ 2 ^ p * z ^ (2 * j + 1)) :
    (sumBelow p z2 t j w : ℝ) ≤ 2 ^ p * seriesRest z j := by
  induction t generalizing j w with
  | zero =>
    rw [sumBelow, Nat.cast_zero]
    exact mul_nonneg (by positivity) (seriesRest_nonneg h0 h3 j)
  | succ t ih =>
    have hterm : ((w / (2 * j + 1) : Nat) : ℝ) ≤ 2 ^ p * (z ^ (2 * j + 1) / (2 * j + 1)) := by
      refine Nat.cast_div_le.trans ?_
      rw [← mul_div_assoc]
      push_cast
      gcongr
    have hrest := ih (j + 1) _ (nextPower_le h0 h2 hw)
    rw [sumBelow, seriesRest_eq_add, mul_add, Nat.cast_add]
    linarith

/-- Each term of the upper sum is above the one of the series, and its last one above all that follow. -/
theorem le_sumAbove (h2 : 2 ^ p * z ^ 2 ≤ (z2 : ℝ)) (t j w : Nat) (hw : 2 ^ p * z ^ (2 * j + 1) ≤ (w : ℝ)) :
    2 ^ p * seriesRest z j ≤ (sumAbove p z2 t j w : ℝ) := by
  induction t generalizing j w with
  | zero =>
    have hrest := mul_le_mul_of_nonneg_left (seriesRest_le h0 h3 j) (by positivity : (0 : ℝ) ≤ 2 ^ p)
    rw [sumAbove]
    push_cast
    linarith
  | succ t ih =>
    have hterm : 2 ^ p * (z ^ (2 * j + 1) / (2 * j + 1)) ≤ ((w / (2 * j + 1) : Nat) : ℝ) + 1 := by
      refine le_trans ?_ (div_lt_natDiv_add_one w (2 * j + 1)).le
      rw [← mul_div_assoc]
      push_cast
      gcongr
    have hpower : 2 ^ p * z ^ (2 * (j + 1) + 1) ≤ ((w * z2 / 2 ^ p + 1 : Nat) : ℝ) := by
      rw [Nat.cast_add, Nat.cast_one]
      refine le_trans ?_ (div_lt_natDiv_add_one (w * z2) (2 ^ p)).le
      push_cast
      rw [le_div_iff₀ (by positivity)]
      calc 2 ^ p * z ^ (2 * (j + 1) + 1) * 2 ^ p = 2 ^ p * z ^ (2 * j + 1) * (2 ^ p * z ^ 2) := by ring
        _ ≤ w * z2 := by gcongr
    have hrest := ih (j + 1) _ hpower
    rw [sumAbove, seriesRest_eq_add, mul_add, Nat.cast_add, Nat.cast_add, Nat.cast_one]
    linarith

/-- The lower sum loses at most one unit in each division: from a first power with an error of `c`, the power of index
`j + i` has one of `c + 2 * i`, and each term one more. -/
theorem le_sumBelow_add (h2 : (z2 : ℝ) ≤ 2 ^ p * z ^ 2) (h2' : 2 ^ p * z ^ 2 ≤ z2 + 1) (t j w c : Nat)
    (hw : (w : ℝ) ≤ 2 ^ p * z ^ (2 * j + 1)) (hw' : 2 ^ p * z ^ (2 * j + 1) ≤ w + c) :
    2 ^ p * seriesRest z j ≤ sumBelow p z2 t j w + t * (c + 1 + 2 * t) + 2 * (2 ^ p * z ^ (2 * (j + t) + 1)) := by
  induction t generalizing j w c with
  | zero =>
    have hrest := mul_le_mul_of_nonneg_left (seriesRest_le h0 h3 j) (by positivity : (0 : ℝ) ≤ 2 ^ p)
    simp only [sumBelow, Nat.add_zero, Nat.cast_zero]
    linarith
  | succ t ih =>
    have hz2 : (z2 : ℝ) ≤ 2 ^ p := h2.trans (mul_le_of_le_one_right (by positivity) (by linarith [sq_le_ninth h0 h3]))
    have hterm : 2 ^ p * (z ^ (2 * j + 1) / (2 * j + 1)) ≤ ((w / (2 * j + 1) : Nat) : ℝ) + 1 + c := by
      have hdiv := (div_lt_natDiv_add_one w (2 * j + 1)).le
      have hc : (c : ℝ) / ((2 * j + 1 : Nat) : ℝ) ≤ c :=
        div_le_self c.cast_nonneg (by push_cast; linarith [j.cast_nonneg (α := ℝ)])
      have hsplit : 2 ^ p * (z ^ (2 * j + 1) / (2 * j + 1)) ≤
          (w : ℝ) / ((2 * j + 1 : Nat) : ℝ) + c / ((2 * j + 1 : Nat) : ℝ) := by
        rw [← mul_div_assoc, ← add_div]
        push_cast
        gcongr
      linarith
    have hpower' : 2 ^ p * z ^ (2 * (j + 1) + 1) ≤ ((w * z2 / 2 ^ p : Nat) : ℝ) + (c + 2 : Nat) := by
      have hdiv := (div_lt_natDiv_add_one (w * z2) (2 ^ p)).le
      have hE : 2 ^ p * z ^ (2 * j + 1) ≤ 2 ^ p := mul_le_of_le_one_right (by positivity) (pow_le_one_third h0 h3 j)
      have hloss : 2 ^ p * z ^ (2 * (j + 1) + 1) ≤ (w : ℝ) * z2 / 2 ^ p + (c + 1) := by
        rw [← sub_le_iff_le_add, le_div_iff₀ (by positivity)]
        have hproduct : 2 ^ p * z ^ (2 * (j + 1) + 1) * 2 ^ p = 2 ^ p * z ^ (2 * j + 1) * (2 ^ p * z ^ 2) := by ring
        have hE0 : 0 ≤ 2 ^ p * z ^ (2 * j + 1) := by positivity
        have hz20 : (0 : ℝ) ≤ z2 := z2.cast_nonneg
        nlinarith [mul_le_mul_of_nonneg_left h2' hE0, mul_le_mul_of_nonneg_right hw' hz20,
          mul_le_mul_of_nonneg_left hz2 (c.cast_nonneg (α := ℝ))]
      push_cast at hdiv ⊢
      linarith
    have hrest := ih (j + 1) _ (c + 2) (nextPower_le h0 h2 hw) hpower'
    rw [sumBelow, seriesRest_eq_add, mul_add]
    rw [show j + 1 + t = j + (t + 1) by omega] at hrest
    push_cast at hrest ⊢
    nlinarith

end Sums

/-! ### artanh -/

section Artanh

variable {p n d : Nat} (hd : 0 < d) (h3 : 3 * n ≤ d)
include hd h3

theorem ratio_le_third : (n : ℝ) / d ≤ 1 / 3 := by
  rw [div_le_div_iff₀ (by exact_mod_cast hd) (by norm_num)]
  exact_mod_cast (by omega : n * 3 ≤ 1 * d)

omit hd h3 in
theorem scaledPower_le (a b : Nat) : ((a * 2 ^ p / b : Nat) : ℝ) ≤ 2 ^ p * ((a : ℝ) / b) := by
  refine Nat.cast_div_le.trans (le_of_eq ?_)
  push_cast
  ring

omit hd h3 in
theorem le_scaledPower (a b : Nat) : 2 ^ p * ((a : ℝ) / b) ≤ ((a * 2 ^ p / b : Nat) : ℝ) + 1 := by
  refine le_trans (le_of_eq ?_) (div_lt_natDiv_add_one _ _).le
  push_cast
  ring

omit hd h3 in
theorem natCast_sq_div (n d : Nat) : ((n * n : Nat) : ℝ) / ((d * d : Nat) : ℝ) = ((n : ℝ) / d) ^ 2 := by
  push_cast
  ring

theorem artanhBelow_le : (artanhBelow p n d : ℝ) ≤ 2 ^ p * Real.artanh (n / d) := by
  rw [← seriesRest_zero, artanhBelow]
  refine sumBelow_le (by positivity) (ratio_le_third hd h3) ?_ _ _ _ ?_
  · rw [← natCast_sq_div]
    exact scaledPower_le _ _
  · simpa using scaledPower_le (p := p) n d

theorem le_artanhAbove : 2 ^ p * Real.artanh (n / d) ≤ (artanhAbove p n d : ℝ) := by
  rw [← seriesRest_zero, artanhAbove]
  refine le_sumAbove (by positivity) (ratio_le_third hd h3) ?_ _ _ _ ?_
  · rw [← natCast_sq_div, Nat.cast_add, Nat.cast_one]
    exact le_scaledPower _ _
  · simpa using le_scaledPower (p := p) n d

/-- The lower bound of artanh is short of it by less than a square of the number of terms. -/
theorem le_artanhBelow_add :
    2 ^ p * Real.artanh (n / d) ≤ artanhBelow p n d + ((p / 3 + 1) * (2 * (p / 3) + 4) + 2 : Nat) := by
  have hz : (n : ℝ) / d ≤ 1 / 3 := ratio_le_third hd h3
  have hz0 : (0 : ℝ) ≤ n / d := by positivity
  have hlast : (2 : ℝ) ^ p * ((n : ℝ) / d) ^ (2 * (0 + (p / 3 + 1)) + 1) ≤ 1 := by
    have hpow : (((n : ℝ) / d) ^ (2 * (0 + (p / 3 + 1)) + 1)) ≤ (1 / 3) ^ (2 * (0 + (p / 3 + 1)) + 1) := by gcongr
    have hsmall : (2 : ℝ) ^ p ≤ 3 ^ (2 * (0 + (p / 3 + 1)) + 1) :=
      calc (2 : ℝ) ^ p ≤ 2 ^ (3 * (p / 3 + 1)) := pow_le_pow_right₀ (by norm_num) (by omega)
        _ = 8 ^ (p / 3 + 1) := by rw [pow_mul]; norm_num
        _ ≤ 9 ^ (p / 3 + 1) := by gcongr; norm_num
        _ = 3 ^ (2 * (p / 3 + 1)) := by rw [pow_mul]; norm_num
        _ ≤ 3 ^ (2 * (0 + (p / 3 + 1)) + 1) := pow_le_pow_right₀ (by norm_num) (by omega)
    calc (2 : ℝ) ^ p * ((n : ℝ) / d) ^ (2 * (0 + (p / 3 + 1)) + 1)
        ≤ 2 ^ p * (1 / 3) ^ (2 * (0 + (p / 3 + 1)) + 1) := by gcongr
      _ ≤ 1 := by
        rw [one_div, inv_pow, ← div_eq_mul_inv, div_le_one (by positivity)]
        exact hsmall
  have h2 := scaledPower_le (p := p) (n * n) (d * d)
  have h2' := le_scaledPower (p := p) (n * n) (d * d)
  rw [natCast_sq_div] at h2 h2'
  have hsum := le_sumBelow_add hz0 hz h2 h2' (p / 3 + 1) 0 (n * 2 ^ p / d) 1 (by simpa using scaledPower_le (p := p) n d)
    (by simpa using le_scaledPower (p := p) n d)
  rw [seriesRest_zero] at hsum
  rw [artanhBelow]
  push_cast at hsum ⊢
  linarith

end Artanh

end Sys2Proof.Logarithm
end

section
/-! The bounds of the natural logarithm enclose it, and a value that they settle is nearest to the exact logarithm
(41_magnitude_db.md R193, 42_color_mapper.md R224). -/

namespace Sys2Proof.Logarithm
open F64 Machine

/-! ### The enclosure -/

section Enclosure

variable {k : Nat} (hk : 0 < k)
include hk

theorem three_mul_sub_le : 3 * (k - 2 ^ Nat.log2 k) ≤ k + 2 ^ Nat.log2 k := by
  have hhigh : k < 2 ^ (Nat.log2 k + 1) := Nat.lt_log2_self
  rw [pow_succ] at hhigh
  omega

/-- The logarithm of `m * 2^l` by the two series. -/
theorem log_units_eq : Real.log ((k : ℝ) / 2 ^ unitExp) =
    2 * Real.artanh (((k - 2 ^ Nat.log2 k : Nat) : ℝ) / ((k + 2 ^ Nat.log2 k : Nat) : ℝ)) +
      2 * (((Nat.log2 k : Int) - unitExp : Int) * Real.artanh (((1 : Nat) : ℝ) / ((3 : Nat) : ℝ))) := by
  have hlow : 2 ^ Nat.log2 k ≤ k := Nat.log2_self_le hk.ne'
  have hthree := three_mul_sub_le hk
  have hpos : (0 : ℝ) < k := by exact_mod_cast hk
  have hpow : (0 : ℝ) < 2 ^ Nat.log2 k := by positivity
  rw [artanh_eq (by positivity) (ratio_le_third (by omega) hthree), artanh_eq (by positivity) (by norm_num)]
  have hmantissa : (1 + ((k - 2 ^ Nat.log2 k : Nat) : ℝ) / ((k + 2 ^ Nat.log2 k : Nat) : ℝ)) /
      (1 - ((k - 2 ^ Nat.log2 k : Nat) : ℝ) / ((k + 2 ^ Nat.log2 k : Nat) : ℝ)) = k / 2 ^ Nat.log2 k := by
    rw [Nat.cast_sub hlow]
    push_cast
    field_simp
    ring
  have htwo : (1 + ((1 : Nat) : ℝ) / ((3 : Nat) : ℝ)) / (1 - ((1 : Nat) : ℝ) / ((3 : Nat) : ℝ)) = 2 := by norm_num
  rw [hmantissa, htwo, Real.log_div hpos.ne' (by positivity), Real.log_div hpos.ne' hpow.ne', Real.log_pow, Real.log_pow]
  push_cast
  ring

/-- The two integers lie below and above the scaled logarithm. -/
theorem lnBounds_enclose (p : Nat) : ((lnBounds p k).1 : ℝ) ≤ 2 ^ p * Real.log ((k : ℝ) / 2 ^ unitExp) ∧
    2 ^ p * Real.log ((k : ℝ) / 2 ^ unitExp) ≤ ((lnBounds p k).2 : ℝ) := by
  have hthree := three_mul_sub_le hk
  have hbelow := artanhBelow_le (p := p) (by omega) hthree
  have habove := le_artanhAbove (p := p) (by omega) hthree
  have htwoBelow := artanhBelow_le (p := p) (n := 1) (d := 3) (by norm_num) (by norm_num)
  have htwoAbove := le_artanhAbove (p := p) (n := 1) (d := 3) (by norm_num) (by norm_num)
  rw [log_units_eq hk, lnBounds]
  dsimp only
  generalize Real.artanh (((k - 2 ^ Nat.log2 k : Nat) : ℝ) / ((k + 2 ^ Nat.log2 k : Nat) : ℝ)) = x at *
  generalize Real.artanh (((1 : Nat) : ℝ) / ((3 : Nat) : ℝ)) = y at *
  generalize (Nat.log2 k : Int) - unitExp = e
  split
  · rename_i he
    have he' : (e : ℝ) ≤ 0 := by exact_mod_cast he.le
    have hlow := mul_le_mul_of_nonpos_left htwoAbove he'
    have hhigh := mul_le_mul_of_nonpos_left htwoBelow he'
    push_cast
    constructor <;> linarith
  · rename_i he
    have he' : (0 : ℝ) ≤ e := by exact_mod_cast not_lt.mp he
    have hlow := mul_le_mul_of_nonneg_left htwoBelow he'
    have hhigh := mul_le_mul_of_nonneg_left htwoAbove he'
    push_cast
    constructor <;> linarith

/-- The logarithm of a binary64 value is small. -/
theorem abs_log_units_le (hlt : k < 2 ^ (1024 + unitExp)) : |Real.log ((k : ℝ) / 2 ^ unitExp)| ≤ 1074 := by
  have hpos : (0 : ℝ) < k := by exact_mod_cast hk
  have hone : (1 : ℝ) ≤ k := by exact_mod_cast hk
  have hlt' : (k : ℝ) ≤ 2 ^ (1024 + unitExp) := by exact_mod_cast hlt.le
  have hlow := Real.log_nonneg hone
  have hhigh := Real.log_le_log hpos hlt'
  have htwo : Real.log 2 ≤ 1 := by linarith [Real.log_le_sub_one_of_pos (zero_lt_two (α := ℝ))]
  have htwo0 : 0 ≤ Real.log 2 := Real.log_nonneg one_le_two
  rw [Real.log_pow] at hhigh
  rw [Real.log_div hpos.ne' (by positivity), Real.log_pow, abs_le]
  clear hlt hlt'
  rw [unitExp] at *
  push_cast at *
  constructor <;> linarith

end Enclosure

/-! ### The rounded ratio -/

/-- A value with a sign is no nearer to a number of the other sign than the value of the same magnitude with that sign. -/
theorem abs_signed_sub_le {neg neg' : Bool} {u u' a : Int} (hu' : 0 ≤ u') (ha : 0 ≤ a) (h : |u - a| ≤ |u' - a|) :
    |(if neg then -u else u) - (if neg then -a else a)| ≤ |(if neg' then -u' else u') - (if neg then -a else a)| := by
  rw [Int.abs_eq_natAbs, Int.abs_eq_natAbs] at *
  cases neg <;> cases neg' <;> simp only [Bool.false_eq_true, if_true, if_false] <;> omega

/-- Distances to a ratio, scaled by its denominator. -/
theorem abs_sub_mul_ratio (x n P : Int) {d : Nat} (hd : 0 < d) :
    |(x : ℝ) - P * ((n : ℝ) / d)| = ((|x * d - n * P| : Int) : ℝ) / d := by
  have hd' : (0 : ℝ) < d := by exact_mod_cast hd
  have hscaled : (x : ℝ) - P * ((n : ℝ) / d) = ((x * d - n * P : Int) : ℝ) / d := by
    push_cast
    field_simp
  rw [hscaled, abs_div, abs_of_pos hd', Int.cast_abs]

theorem intCast_units_pow : (((2 : Int) ^ unitExp : Int) : ℝ) = 2 ^ unitExp := by
  rw [Int.cast_pow, Int.cast_ofNat]

theorem two_pow_le_overflow : (2 : ℝ) ^ 1023 ≤ (2 ^ 54 - 1) * 2 ^ 970 := by
  rw [show (1023 : Nat) = 53 + 970 from rfl, pow_add]
  exact mul_le_mul_of_nonneg_right (by norm_num) (by positivity)

theorem eq_ite_natAbs (n : Int) : n = if decide (n < 0) = true then -(n.natAbs : Int) else n.natAbs := by
  split <;> simp only [decide_eq_true_eq] at * <;> omega

/-- The rounded ratio is nearest to the ratio, or overflows. -/
theorem round_nearest (n : Int) {d : Nat} (hd : 0 < d) : F64IsNearestTo (round n d) ((n : ℝ) / d) ∨
    (round n d = .inf true ∧ (n : ℝ) / d ≤ -2 ^ 1023) ∨ (round n d = .inf false ∧ 2 ^ 1023 ≤ (n : ℝ) / d) := by
  obtain ⟨hover, hfinite⟩ := roundingIsNearestTiesToEven (decide (n < 0)) n.natAbs d hd
  rcases Nat.lt_or_ge n.natAbs ((2 ^ 54 - 1) * 2 ^ 970 * d) with hlt | hge
  · obtain ⟨e, f, hround, hnearest⟩ := hfinite hlt
    refine .inl ⟨_, e, f, hround, fun neg' e' f' => ?_⟩
    obtain ⟨hle, -⟩ := hnearest e' f'
    rw [← intCast_units_pow, abs_sub_mul_ratio _ n _ hd, abs_sub_mul_ratio _ n _ hd]
    have hpos : (0 : Int) ≤ 2 ^ unitExp := by positivity
    generalize (2 : Int) ^ unitExp = P at *
    refine div_le_div_of_nonneg_right (Int.cast_le.mpr ?_) d.cast_nonneg
    have hsigned := abs_signed_sub_le (neg := decide (n < 0)) (neg' := neg') (by positivity) (by positivity) hle
    have hscaled : n * P = if decide (n < 0) = true then -(n.natAbs * P : Int) else n.natAbs * P := by
      conv_lhs => rw [eq_ite_natAbs n]
      split <;> ring
    rw [← hscaled] at hsigned
    unfold signed
    rwa [ite_mul, ite_mul, Int.neg_mul, Int.neg_mul]
  · have hd' : (0 : ℝ) < d := by exact_mod_cast hd
    have hsize : (2 : ℝ) ^ 1023 * d ≤ |(n : ℝ)| := by
      have hcast : (((2 ^ 54 - 1) * 2 ^ 970 * d : Nat) : ℝ) ≤ ((n.natAbs : Nat) : ℝ) := Nat.cast_le.mpr hge
      rw [Nat.cast_natAbs, Int.cast_abs, Nat.cast_mul, Nat.cast_mul, Nat.cast_pow 2 970] at hcast
      refine le_trans (mul_le_mul_of_nonneg_right two_pow_le_overflow hd'.le) (le_trans (le_of_eq ?_) hcast)
      norm_num
    rcases lt_or_ge n 0 with hneg | hnonneg
    · refine .inr (.inl ⟨(hover hge).trans (by rw [decide_eq_true hneg]), ?_⟩)
      rw [abs_of_neg (by exact_mod_cast hneg)] at hsize
      rw [div_le_iff₀ hd', neg_mul]
      exact le_neg_of_le_neg hsize
    · refine .inr (.inr ⟨(hover hge).trans (by rw [decide_eq_false (not_lt.mpr hnonneg)]), ?_⟩)
      rw [abs_of_nonneg (by exact_mod_cast hnonneg)] at hsize
      rwa [le_div_iff₀ hd']

/-! ### Settled values -/

/-- The numbers to which a value is nearest form an interval. -/
theorem isNearestTo_of_between {v : F64} {x y z : ℝ} (hx : F64IsNearestTo v x) (hz : F64IsNearestTo v z) (hxy : x ≤ y)
    (hyz : y ≤ z) : F64IsNearestTo v y := by
  obtain ⟨neg, e, f, rfl, hnearest⟩ := hx
  obtain ⟨neg', e', f', hv, hnearest'⟩ := hz
  obtain ⟨rfl, rfl, rfl⟩ := F64.fin.inj hv
  refine ⟨neg, e, f, rfl, fun s g h => ?_⟩
  have h1 := hnearest s g h
  have h2 := hnearest' s g h
  have hpos : (0 : ℝ) < 2 ^ unitExp := by positivity
  have hxy' := mul_le_mul_of_nonneg_left hxy hpos.le
  have hyz' := mul_le_mul_of_nonneg_left hyz hpos.le
  generalize (2 : ℝ) ^ unitExp * x = X at *
  generalize (2 : ℝ) ^ unitExp * y = Y at *
  generalize (2 : ℝ) ^ unitExp * z = Z at *
  generalize (signed neg e f : ℝ) = v at *
  generalize (signed s g h : ℝ) = u at *
  rw [← sq_le_sq] at h1 h2 ⊢
  rcases le_total v u with hvu | huv
  · nlinarith [mul_nonneg (sub_nonneg.mpr hvu) (sub_nonneg.mpr hyz')]
  · nlinarith [mul_nonneg (sub_nonneg.mpr huv) (sub_nonneg.mpr hxy')]

/-- Two ratios around a number that round to the same value settle its rounding. -/
theorem settled_nearest {n n' : Int} {d d' : Nat} {x : ℝ} (hd : 0 < d) (hd' : 0 < d') (hlow : (n : ℝ) / d ≤ x)
    (hhigh : x ≤ (n' : ℝ) / d') (hx : |x| ≤ 1074) (h : round n d = round n' d') : F64IsNearestTo (round n d) x := by
  have hlarge : (1074 : ℝ) < 2 ^ 1023 :=
    calc (1074 : ℝ) < 2 ^ 11 := by norm_num
      _ ≤ 2 ^ 1023 := pow_le_pow_right₀ one_le_two (by norm_num)
  obtain ⟨hx1, hx2⟩ := abs_le.mp hx
  have h' := round_nearest n' hd'
  have hn := round_nearest n hd
  rw [← h] at h'
  generalize (2 : ℝ) ^ 1023 = B at *
  rcases hn with hn | ⟨hinf, -⟩ | ⟨hinf, hbig⟩
  · rcases h' with hn' | ⟨hinf, -⟩ | ⟨hinf, -⟩
    · exact isNearestTo_of_between hn hn' hlow hhigh
    · obtain ⟨s, e, f, hfin, -⟩ := hn
      cases hfin.symm.trans hinf
    · obtain ⟨s, e, f, hfin, -⟩ := hn
      cases hfin.symm.trans hinf
  · rcases h' with ⟨s, e, f, hfin, -⟩ | ⟨-, hbig⟩ | ⟨hinf', -⟩
    · cases hfin.symm.trans hinf
    · linarith
    · cases hinf'.symm.trans hinf
  · linarith

theorem lnAt_eq_some {p k : Nat} {v : F64} (h : lnAt p k = some v) :
    v = round (lnBounds p k).1 (2 ^ p) ∧ round (lnBounds p k).1 (2 ^ p) = round (lnBounds p k).2 (2 ^ p) := by
  rw [lnAt, Option.ite_none_right_eq_some] at h
  obtain ⟨hsame, hv⟩ := h
  exact ⟨(Option.some.inj hv).symm, hsame⟩

/-- The divisor of the lower end of a base-10 logarithm. -/
def lowDivisor (p k : Nat) : Nat :=
  if (lnBounds p k).1 < 0 then (lnBounds p tenUnits).1.natAbs else (lnBounds p tenUnits).2.natAbs

/-- The divisor of its upper end. -/
def highDivisor (p k : Nat) : Nat :=
  if (lnBounds p k).2 < 0 then (lnBounds p tenUnits).2.natAbs else (lnBounds p tenUnits).1.natAbs

theorem log10At_eq_some {p k : Nat} {v : F64} (h : log10At p k = some v) :
    v = round (lnBounds p k).1 (lowDivisor p k) ∧
      round (lnBounds p k).1 (lowDivisor p k) = round (lnBounds p k).2 (highDivisor p k) := by
  unfold log10At at h
  obtain ⟨hsame, hv⟩ := Option.ite_none_right_eq_some.mp h
  exact ⟨(Option.some.inj hv).symm, hsame⟩

/-! ### The base-10 logarithm -/

theorem tenUnits_pos : 0 < tenUnits := Nat.mul_pos (by norm_num) (Nat.two_pow_pos _)

theorem log_tenUnits : Real.log ((tenUnits : ℝ) / 2 ^ unitExp) = Real.log 10 := by
  rw [tenUnits, Nat.cast_mul, Nat.cast_pow, Nat.cast_ofNat, Nat.cast_ofNat, mul_div_cancel_right₀ _ (by positivity)]

theorem one_le_log_ten : 1 ≤ Real.log 10 := by
  rw [Real.le_log_iff_exp_le (by norm_num)]
  linarith [Real.exp_one_lt_three]

/-- At the precisions tried the bounds of `ln 10` are positive and close to each other. -/
theorem lnBounds_tenUnits {p : Nat} (hp : p ∈ precisions) :
    0 < (lnBounds p tenUnits).1 ∧ (lnBounds p tenUnits).2 ≤ (lnBounds p tenUnits).1 + 2 ^ 20 := by
  have hall : ∀ p ∈ precisions,
      0 < (lnBounds p tenUnits).1 ∧ (lnBounds p tenUnits).2 ≤ (lnBounds p tenUnits).1 + 2 ^ 20 := by decide +kernel
  exact hall p hp

theorem natCast_natAbs_of_pos {n : Int} (h : 0 < n) : ((n.natAbs : Nat) : ℝ) = n := by
  rw [Nat.cast_natAbs, abs_of_pos h]

/-- An upper bound of a number over a bound of a positive divisor, on the side that its sign asks for. -/
theorem le_div_of_bounds {n t₁ t₂ y s : ℝ} (h : y ≤ n) (ht : 0 < t₁) (h₁ : t₁ ≤ s) (h₂ : s ≤ t₂) :
    y / s ≤ n / (if n < 0 then t₂ else t₁) := by
  have hs : 0 < s := ht.trans_le h₁
  refine (div_le_div_of_nonneg_right h hs.le).trans ?_
  split
  · rw [div_le_div_iff₀ hs (hs.trans_le h₂)]
    nlinarith
  · rw [div_le_div_iff₀ hs ht]
    nlinarith

/-- A lower bound of a number over a bound of a positive divisor, on the side that its sign asks for. -/
theorem div_le_of_bounds {n t₁ t₂ y s : ℝ} (h : n ≤ y) (ht : 0 < t₁) (h₁ : t₁ ≤ s) (h₂ : s ≤ t₂) :
    n / (if n < 0 then t₁ else t₂) ≤ y / s := by
  have hs : 0 < s := ht.trans_le h₁
  refine le_trans ?_ (div_le_div_of_nonneg_right h hs.le)
  split
  · rw [div_le_div_iff₀ ht hs]
    nlinarith
  · rw [div_le_div_iff₀ (hs.trans_le h₂) hs]
    nlinarith

section Base10

variable {p k : Nat} (hp : p ∈ precisions) (hk : 0 < k)
include hp

omit hp in
theorem log_ten_enclose (p : Nat) :
    ((lnBounds p tenUnits).1 : ℝ) ≤ 2 ^ p * Real.log 10 ∧ 2 ^ p * Real.log 10 ≤ ((lnBounds p tenUnits).2 : ℝ) := by
  have h := lnBounds_enclose tenUnits_pos p
  rwa [log_tenUnits] at h

theorem divisors_pos : 0 < lowDivisor p k ∧ 0 < highDivisor p k := by
  obtain ⟨hpos, -⟩ := lnBounds_tenUnits hp
  obtain ⟨h₁, h₂⟩ := log_ten_enclose p
  have hle : (lnBounds p tenUnits).1 ≤ (lnBounds p tenUnits).2 := by exact_mod_cast h₁.trans h₂
  unfold lowDivisor highDivisor
  constructor <;> split <;> omega

theorem cast_lowDivisor : (lowDivisor p k : ℝ) =
    if ((lnBounds p k).1 : ℝ) < 0 then ((lnBounds p tenUnits).1 : ℝ) else ((lnBounds p tenUnits).2 : ℝ) := by
  obtain ⟨hpos, -⟩ := lnBounds_tenUnits hp
  obtain ⟨h₁, h₂⟩ := log_ten_enclose p
  have hle : (lnBounds p tenUnits).1 ≤ (lnBounds p tenUnits).2 := by exact_mod_cast h₁.trans h₂
  rw [lowDivisor, apply_ite Nat.cast, natCast_natAbs_of_pos hpos, natCast_natAbs_of_pos (hpos.trans_le hle)]
  simp only [Int.cast_lt_zero]

theorem cast_highDivisor : (highDivisor p k : ℝ) =
    if ((lnBounds p k).2 : ℝ) < 0 then ((lnBounds p tenUnits).2 : ℝ) else ((lnBounds p tenUnits).1 : ℝ) := by
  obtain ⟨hpos, -⟩ := lnBounds_tenUnits hp
  obtain ⟨h₁, h₂⟩ := log_ten_enclose p
  have hle : (lnBounds p tenUnits).1 ≤ (lnBounds p tenUnits).2 := by exact_mod_cast h₁.trans h₂
  rw [highDivisor, apply_ite Nat.cast, natCast_natAbs_of_pos hpos, natCast_natAbs_of_pos (hpos.trans_le hle)]
  simp only [Int.cast_lt_zero]

include hk in
/-- The two quotients lie below and above the base-10 logarithm. -/
theorem log10_enclose : ((lnBounds p k).1 : ℝ) / lowDivisor p k ≤ Real.logb 10 ((k : ℝ) / 2 ^ unitExp) ∧
    Real.logb 10 ((k : ℝ) / 2 ^ unitExp) ≤ ((lnBounds p k).2 : ℝ) / highDivisor p k := by
  obtain ⟨hpos, -⟩ := lnBounds_tenUnits hp
  have hpos' : (0 : ℝ) < (lnBounds p tenUnits).1 := by exact_mod_cast hpos
  obtain ⟨h₁, h₂⟩ := log_ten_enclose p
  obtain ⟨hlow, hhigh⟩ := lnBounds_enclose hk p
  have hlogb : Real.logb 10 ((k : ℝ) / 2 ^ unitExp) =
      2 ^ p * Real.log ((k : ℝ) / 2 ^ unitExp) / (2 ^ p * Real.log 10) := by
    rw [mul_div_mul_left _ _ (by positivity), Real.logb]
  rw [hlogb, cast_lowDivisor hp, cast_highDivisor hp]
  exact ⟨div_le_of_bounds hlow hpos' h₁ h₂, le_div_of_bounds hhigh hpos' h₁ h₂⟩

omit hp in
include hk in
theorem abs_logb_units_le (hlt : k < 2 ^ (1024 + unitExp)) : |Real.logb 10 ((k : ℝ) / 2 ^ unitExp)| ≤ 1074 := by
  have hten := one_le_log_ten
  rw [Real.logb, abs_div, abs_of_pos (by linarith : (0 : ℝ) < Real.log 10)]
  exact (div_le_self (abs_nonneg _) hten).trans (abs_log_units_le hk hlt)

end Base10

end Sys2Proof.Logarithm

namespace Sys2Proof.Machine
open F64 Logarithm

/-- Settles O30: the series enclose the logarithm, and what both ends round to is nearest to all between them. -/
theorem logarithmBoundsEnclose : Obligations.LogarithmBoundsEnclose := by
  refine ⟨fun p k hk => lnBounds_enclose hk p, fun e f v hne => ⟨fun p hv => ?_, fun p hp hv => ?_⟩⟩
  · have hk : 0 < units e f := Nat.pos_of_ne_zero hne
    obtain ⟨rfl, hsame⟩ := lnAt_eq_some hv
    obtain ⟨hlow, hhigh⟩ := lnBounds_enclose hk p
    have hpos : (0 : ℝ) < 2 ^ p := by positivity
    refine settled_nearest (Nat.two_pow_pos p) (Nat.two_pow_pos p) ?_ ?_ (abs_log_units_le hk (units_lt_two_pow e f)) hsame
    · rwa [Nat.cast_pow, Nat.cast_ofNat, div_le_iff₀' hpos]
    · rwa [Nat.cast_pow, Nat.cast_ofNat, le_div_iff₀' hpos]
  · have hk : 0 < units e f := Nat.pos_of_ne_zero hne
    obtain ⟨rfl, hsame⟩ := log10At_eq_some hv
    obtain ⟨hlow, hhigh⟩ := log10_enclose hp hk
    obtain ⟨hd, hd'⟩ := divisors_pos (k := units e f) hp
    exact settled_nearest hd hd' hlow hhigh (abs_logb_units_le hk (units_lt_two_pow e f)) hsame

end Sys2Proof.Machine
end

section
/-! The default logarithms are close to the real ones, so that they do not decrease and have the sign of the real ones
(41_magnitude_db.md R193, 42_color_mapper.md R224, R229). -/

namespace Sys2Proof
namespace F64

/-! ### Rounding is monotone -/

theorem nearest_mul_right (u d : Nat) {c : Nat} (hc : 0 < c) : nearest (u * c) (d * c) = nearest u d := by
  simp only [nearest, Nat.mul_mod_mul_right, Nat.mul_div_mul_right _ _ hc, ← Nat.mul_assoc, Nat.mul_lt_mul_right hc,
    Nat.mul_left_inj hc.ne']

/-- Rounding depends on the ratio alone. -/
theorem roundCode_mul_right (n d : Nat) {c : Nat} (hc : 0 < c) : roundCode (n * c) (d * c) = roundCode n d := by
  have hn : n * c * 2 ^ unitExp = n * 2 ^ unitExp * c := by ring
  simp only [roundCode, hn, Nat.mul_div_mul_right _ _ hc, Nat.mul_right_comm d c, nearest_mul_right _ _ hc]

theorem roundCode_le_of_mul_le {n d n' d' : Nat} (hd : 0 < d) (hd' : 0 < d') (h : n * d' ≤ n' * d) :
    roundCode n d ≤ roundCode n' d' := by
  rw [← roundCode_mul_right n d hd', ← roundCode_mul_right n' d' hd, Nat.mul_comm d' d]
  exact roundCode_mono (Nat.mul_pos hd hd') h

end F64

namespace Logarithm
open F64 Machine

theorem rank_round (n : Int) (d : Nat) : (round n d).rank = withSign (decide (n < 0)) (roundCode n.natAbs d) :=
  rank_ofRatio _ _ _

theorem round_ne_nan (n : Int) (d : Nat) : round n d ≠ .nan := ofRatio_ne_nan _ _ _

theorem withSign_decide_mul (n : Int) (d : Nat) : withSign (decide (n < 0)) (n.natAbs * d) = n * d := by
  unfold withSign
  rw [Nat.cast_mul, ← Int.neg_mul, ← ite_mul, ← eq_ite_natAbs]

/-- Rounding of ratios is monotone. -/
theorem rank_round_mono {n n' : Int} {d d' : Nat} (hd : 0 < d) (hd' : 0 < d') (h : (n : ℝ) / d ≤ (n' : ℝ) / d') :
    (round n d).rank ≤ (round n' d').rank := by
  rw [div_le_div_iff₀ (by exact_mod_cast hd) (by exact_mod_cast hd')] at h
  have hint : n * d' ≤ n' * d := by exact_mod_cast h
  rw [← withSign_decide_mul, ← withSign_decide_mul] at hint
  rw [rank_round, rank_round]
  refine withSign_le_withSign hint (roundCode_le_of_mul_le hd hd')
    (roundCode_le_of_mul_le hd' hd) (fun hz => ?_) fun hz => ?_
  · rw [(Nat.mul_eq_zero.mp hz).resolve_right hd'.ne', roundCode_zero hd]
  · rw [(Nat.mul_eq_zero.mp hz).resolve_right hd.ne', roundCode_zero hd']

/-! ### Values close to a real number -/

/-- The value is one rounding of a ratio that is close to the real number. -/
def CloseTo (v : F64) (r : ℝ) : Prop :=
  ∃ (n : Int) (d : Nat), 0 < d ∧ v = round n d ∧ |(n : ℝ) / d - r| ≤ 1 / 2 ^ 60

variable {v v' : F64} {r r' : ℝ}

theorem CloseTo.ne_nan (h : CloseTo v r) : v ≠ .nan := by
  obtain ⟨n, d, -, rfl, -⟩ := h
  exact round_ne_nan n d

/-- Values close to numbers that are further apart are in their order. -/
theorem CloseTo.rank_le (h : CloseTo v r) (h' : CloseTo v' r') (hgap : r + 1 / 2 ^ 59 ≤ r') : v.rank ≤ v'.rank := by
  obtain ⟨n, d, hd, rfl, hn⟩ := h
  obtain ⟨n', d', hd', rfl, hn'⟩ := h'
  obtain ⟨-, hup⟩ := abs_le.mp hn
  obtain ⟨hlow, -⟩ := abs_le.mp hn'
  refine rank_round_mono hd hd' ?_
  norm_num at *
  linarith

theorem closeTo_zero : CloseTo zero 0 := ⟨0, 1, one_pos, by decide +kernel, by norm_num⟩

theorem CloseTo.rank_pos (h : CloseTo v r) (hr : 1 / 2 ^ 58 ≤ r) : 0 < v.rank := by
  have hsmall : CloseTo (round 1 (2 ^ 60)) (1 / 2 ^ 60) := ⟨1, 2 ^ 60, by norm_num, rfl, by norm_num⟩
  have hle := hsmall.rank_le h (by norm_num at *; linarith)
  have hpos : 0 < (round 1 (2 ^ 60)).rank := by decide +kernel
  exact hpos.trans_le hle

/-! ### The bounds are close to each other -/

/-- At the precisions tried the bounds of `artanh (1/3)` are close to each other, and the lower bound of any other
artanh is short of it by little. -/
theorem artanh_third_close {p : Nat} (hp : p ∈ precisions) : artanhAbove p 1 3 ≤ artanhBelow p 1 3 + 2 ^ 20 := by
  have hall : ∀ p ∈ precisions, artanhAbove p 1 3 ≤ artanhBelow p 1 3 + 2 ^ 20 := by decide +kernel
  exact hall p hp

theorem precisions_bounds {p : Nat} (hp : p ∈ precisions) :
    192 ≤ p ∧ (p / 3 + 1) * (2 * (p / 3) + 4) + 2 ≤ 2 ^ 20 := by
  have hall : ∀ p ∈ precisions, 192 ≤ p ∧ (p / 3 + 1) * (2 * (p / 3) + 4) + 2 ≤ 2 ^ 20 := by decide
  exact hall p hp

section Close

variable {p k : Nat} (hp : p ∈ precisions) (hk : 0 < k) (hlt : k < 2 ^ (1024 + unitExp))
include hk hlt

theorem abs_exponent_le : |(((Nat.log2 k : Int) - unitExp : Int) : ℝ)| ≤ 1074 := by
  have hlog := (Nat.log2_lt hk.ne').mpr hlt
  have habs : |((Nat.log2 k : Int) - unitExp)| ≤ 1074 := by
    rw [show unitExp = 1074 from rfl] at hlog ⊢
    rw [abs_le]
    omega
  rw [← Int.cast_abs]
  exact_mod_cast habs

include hp

/-- The lower bound of the logarithm is close to it. -/
theorem le_lnBounds_add : 2 ^ p * Real.log ((k : ℝ) / 2 ^ unitExp) ≤ (lnBounds p k).1 + 2 ^ 32 := by
  have hthree := three_mul_sub_le hk
  obtain ⟨-, herror⟩ := precisions_bounds hp
  have herror' : ((((p / 3 + 1) * (2 * (p / 3) + 4) + 2 : Nat)) : ℝ) ≤ 2 ^ 20 := by exact_mod_cast herror
  have hbelow := (le_artanhBelow_add (p := p) (by omega) hthree).trans (add_le_add_right herror' _)
  have htwo := (le_artanhBelow_add (p := p) (n := 1) (d := 3) (by norm_num) (by norm_num)).trans
    (add_le_add_right herror' _)
  have htwo' := artanhBelow_le (p := p) (n := 1) (d := 3) (by norm_num) (by norm_num)
  have habove : (artanhAbove p 1 3 : ℝ) ≤ artanhBelow p 1 3 + 2 ^ 20 := by exact_mod_cast artanh_third_close hp
  obtain ⟨he1, he2⟩ := abs_le.mp (abs_exponent_le hk hlt)
  rw [log_units_eq hk, lnBounds]
  dsimp only
  generalize Real.artanh (((k - 2 ^ Nat.log2 k : Nat) : ℝ) / ((k + 2 ^ Nat.log2 k : Nat) : ℝ)) = x at *
  generalize Real.artanh (((1 : Nat) : ℝ) / ((3 : Nat) : ℝ)) = y at *
  generalize (Nat.log2 k : Int) - unitExp = e at *
  split
  · rename_i he
    have he' : (e : ℝ) ≤ 0 := by exact_mod_cast he.le
    have hloss := mul_le_mul_of_nonpos_left (habove.trans (add_le_add_left htwo' _)) he'
    push_cast
    linarith
  · rename_i he
    have he' : (0 : ℝ) ≤ e := by exact_mod_cast not_lt.mp he
    have hloss := mul_le_mul_of_nonneg_left htwo he'
    push_cast
    linarith

theorem abs_lnBounds_sub_le : |((lnBounds p k).1 : ℝ) - 2 ^ p * Real.log ((k : ℝ) / 2 ^ unitExp)| ≤ 2 ^ 32 := by
  obtain ⟨hlow, -⟩ := lnBounds_enclose hk p
  have hclose := le_lnBounds_add hp hk hlt
  rw [abs_le]
  constructor <;> linarith

end Close

/-- A ratio of two numbers that are close to scaled ones is close to the ratio of these. -/
theorem ratio_close {n t y s P : ℝ} (hn : |n - P * y| ≤ 2 ^ 32) (ht : |t - P * s| ≤ 2 ^ 32)
    (hy : |y| ≤ 1074) (hs : 1 ≤ s)
    (hP : 2 ^ 192 ≤ P) : |n / t - y / s| ≤ 1 / 2 ^ 60 := by
  have hPs : P ≤ P * s := le_mul_of_one_le_right (le_trans (by positivity) hP) hs
  obtain ⟨ht1, -⟩ := abs_le.mp ht
  have hhalf : P / 2 ≤ t := by linarith
  have ht0 : 0 < t := by linarith
  have hs0 : 0 < s := by linarith
  have hdiff : n / t - y / s = ((n - P * y) * s - y * (t - P * s)) / (t * s) := by
    field_simp
    ring
  have hnumerator : |(n - P * y) * s - y * (t - P * s)| ≤ 2 ^ 32 * s + 1074 * 2 ^ 32 :=
    calc |(n - P * y) * s - y * (t - P * s)| ≤ |(n - P * y) * s| + |y * (t - P * s)| := abs_sub _ _
      _ = |n - P * y| * s + |y| * |t - P * s| := by rw [abs_mul, abs_mul, abs_of_pos hs0]
      _ ≤ 2 ^ 32 * s + 1074 * 2 ^ 32 := by gcongr
  rw [hdiff, abs_div, abs_of_pos (mul_pos ht0 hs0), div_le_iff₀ (mul_pos ht0 hs0)]
  refine hnumerator.trans ?_
  nlinarith

/-! ### The default logarithms -/

theorem settle_cases (f : Nat → Option F64) (v : F64) (ps : List Nat) :
    settle f v ps = v ∨ ∃ p ∈ ps, f p = some (settle f v ps) := by
  induction ps with
  | nil => exact .inl rfl
  | cons p ps ih =>
    rw [settle]
    cases hf : f p with
    | some x => exact .inr ⟨p, by simp, hf⟩
    | none => exact ih.imp_right fun ⟨q, hq, h⟩ => ⟨q, by simp [hq], h⟩

section Defaults

variable {p k : Nat} (hp : p ∈ precisions) (hk : 0 < k) (hlt : k < 2 ^ (1024 + unitExp))
include hp

theorem two_pow_le_of_mem : (2 : ℝ) ^ 192 ≤ 2 ^ p := pow_le_pow_right₀ one_le_two (precisions_bounds hp).1

include hk hlt in
theorem closeTo_log : CloseTo (round (lnBounds p k).1 (2 ^ p)) (Real.log ((k : ℝ) / 2 ^ unitExp)) := by
  refine ⟨_, _, Nat.two_pow_pos p, rfl, ?_⟩
  have h := ratio_close (t := 2 ^ p) (s := 1) (abs_lnBounds_sub_le hp hk hlt) (by simp) (abs_log_units_le hk hlt) le_rfl
    (two_pow_le_of_mem hp)
  rwa [div_one, ← Nat.cast_ofNat (R := ℝ) (n := 2), ← Nat.cast_pow] at h

/-- Either bound of `ln 10` is close to it. -/
theorem divisors_close : |((lnBounds p tenUnits).1 : ℝ) - 2 ^ p * Real.log 10| ≤ 2 ^ 32 ∧
    |((lnBounds p tenUnits).2 : ℝ) - 2 ^ p * Real.log 10| ≤ 2 ^ 32 := by
  obtain ⟨-, hwidth⟩ := lnBounds_tenUnits hp
  have hwidth' : ((lnBounds p tenUnits).2 : ℝ) ≤ (lnBounds p tenUnits).1 + 2 ^ 20 := by exact_mod_cast hwidth
  obtain ⟨h₁, h₂⟩ := log_ten_enclose p
  rw [abs_le, abs_le]
  refine ⟨⟨?_, ?_⟩, ?_, ?_⟩ <;> linarith

include hk hlt in
theorem closeTo_logb {d : Nat} (hd : 0 < d) (hclose : |(d : ℝ) - 2 ^ p * Real.log 10| ≤ 2 ^ 32) :
    CloseTo (round (lnBounds p k).1 d) (Real.logb 10 ((k : ℝ) / 2 ^ unitExp)) :=
  ⟨_, _, hd, rfl, ratio_close (abs_lnBounds_sub_le hp hk hlt) hclose (abs_log_units_le hk hlt) one_le_log_ten
    (two_pow_le_of_mem hp)⟩

theorem lowDivisor_close : |(lowDivisor p k : ℝ) - 2 ^ p * Real.log 10| ≤ 2 ^ 32 := by
  obtain ⟨h₁, h₂⟩ := divisors_close hp
  rw [cast_lowDivisor hp]
  split
  · exact h₁
  · exact h₂

end Defaults

theorem ln_closeTo {e : Fin 2047} {f : BitVec 52} (h : units e f ≠ 0) :
    CloseTo (ln (.fin false e f)) (Real.log ((units e f : ℝ) / 2 ^ unitExp)) := by
  have hk := Nat.pos_of_ne_zero h
  have hlt := units_lt_two_pow e f
  rw [ln, withSpecials, if_neg h, if_neg Bool.false_ne_true]
  split
  · rename_i hone
    rw [hone, Nat.cast_pow, Nat.cast_ofNat, div_self (by positivity), Real.log_one]
    exact closeTo_zero
  · rcases settle_cases (fun p => lnAt p (units e f)) (round (lnBounds 768 (units e f)).1 (2 ^ 768)) precisions with
      hlast | ⟨p, hp, hsettled⟩
    · rw [hlast]
      exact closeTo_log (by decide) hk hlt
    · obtain ⟨hv, -⟩ := lnAt_eq_some hsettled
      rw [hv]
      exact closeTo_log hp hk hlt

theorem log10_closeTo {e : Fin 2047} {f : BitVec 52} (h : units e f ≠ 0) :
    CloseTo (log10 (.fin false e f)) (Real.logb 10 ((units e f : ℝ) / 2 ^ unitExp)) := by
  have hk := Nat.pos_of_ne_zero h
  have hlt := units_lt_two_pow e f
  rw [log10, withSpecials, if_neg h, if_neg Bool.false_ne_true]
  split
  · rename_i hone
    rw [hone, Nat.cast_pow, Nat.cast_ofNat, div_self (by positivity), Real.logb_one]
    exact closeTo_zero
  · rcases settle_cases (fun p => log10At p (units e f))
      (round (lnBounds 768 (units e f)).1 (lnBounds 768 tenUnits).1.natAbs) precisions with hlast | ⟨p, hp, hsettled⟩
    · have hp : 768 ∈ precisions := by decide
      obtain ⟨hpos, -⟩ := lnBounds_tenUnits hp
      obtain ⟨hclose, -⟩ := divisors_close hp
      rw [hlast]
      refine closeTo_logb hp hk hlt (Int.natAbs_pos.mpr hpos.ne') ?_
      rwa [natCast_natAbs_of_pos hpos]
    · obtain ⟨hv, -⟩ := log10At_eq_some hsettled
      rw [hv]
      exact closeTo_logb hp hk hlt (divisors_pos hp).1 (lowDivisor_close hp)

/-! ### Binary64 values are apart from each other -/

/-- A greater binary64 value is greater by a `2^53`-th at least. -/
theorem units_gap {e e' : Fin 2047} {f f' : BitVec 52} (h : units e f < units e' f') :
    (2 ^ 53 + 1) * units e f ≤ 2 ^ 53 * units e' f' := by
  have hf := f.isLt
  rcases Nat.eq_zero_or_pos e.val with he | he
  · have hu : units e f = f.toNat := if_pos he
    omega
  · have hu : units e f = (2 ^ 52 + f.toNat) * 2 ^ (e.val - 1) := if_neg he.ne'
    rw [hu] at h ⊢
    rcases units_multiple_or_lt e' f' (e.val - 1) with ⟨k, hk⟩ | ⟨-, hlt⟩
    · rw [hk] at h ⊢
      have hstep := Nat.lt_of_mul_lt_mul_right h
      rw [← Nat.mul_assoc, ← Nat.mul_assoc]
      exact Nat.mul_le_mul_right _ (by omega)
    · have hle : 2 ^ 52 * 2 ^ (e.val - 1) ≤ (2 ^ 52 + f.toNat) * 2 ^ (e.val - 1) := Nat.mul_le_mul_right _ (by omega)
      omega

/-- The logarithms of numbers that are apart by a `2^53`-th. -/
theorem log_gap {k k' : Nat} (hk : 0 < k) (h : (2 ^ 53 + 1) * k ≤ 2 ^ 53 * k') :
    Real.log ((k : ℝ) / 2 ^ unitExp) + 1 / 2 ^ 54 ≤ Real.log ((k' : ℝ) / 2 ^ unitExp) := by
  have hk' : 0 < k' := by omega
  have hpos : (0 : ℝ) < k := by exact_mod_cast hk
  have hpos' : (0 : ℝ) < k' := by exact_mod_cast hk'
  have hle : ((2 : ℝ) ^ 53 + 1) * k ≤ 2 ^ 53 * k' := by exact_mod_cast h
  have hlog := Real.one_sub_inv_le_log_of_pos (div_pos hpos' hpos)
  rw [Real.log_div hpos'.ne' hpos.ne', inv_div] at hlog
  have hratio : (k : ℝ) / k' ≤ 1 - 1 / 2 ^ 54 := by
    rw [div_le_iff₀ hpos']
    linarith
  rw [Real.log_div hpos.ne' (by positivity), Real.log_div hpos'.ne' (by positivity)]
  linarith

theorem log_ten_le : Real.log 10 ≤ 9 := by linarith [Real.log_le_sub_one_of_pos (show (0 : ℝ) < 10 by norm_num)]

theorem logb_gap {k k' : Nat} (hk : 0 < k) (h : (2 ^ 53 + 1) * k ≤ 2 ^ 53 * k') :
    Real.logb 10 ((k : ℝ) / 2 ^ unitExp) + 1 / 2 ^ 58 ≤ Real.logb 10 ((k' : ℝ) / 2 ^ unitExp) := by
  have hgap := log_gap hk h
  have hten := one_le_log_ten
  have hten' := log_ten_le
  rw [Real.logb, Real.logb, div_add' _ _ _ (by linarith), div_le_div_iff_of_pos_right (by linarith)]
  linarith

/-! ### Order and sign -/

theorem inf_true_f64Le {y : F64} (hy : y ≠ .nan) : F64Le (.inf true) y := ⟨nofun, hy, by cases y <;> simp [lt]⟩

theorem f64Le_inf_false {x : F64} (hx : x ≠ .nan) : F64Le x (.inf false) := ⟨hx, nofun, by cases x <;> simp [lt]⟩

theorem gt_one_iff {s : Bool} {e : Fin 2047} {m : BitVec 52} :
    (F64.fin s e m).gt (ofNat 1) = true ↔ s = false ∧ units 1023 0 < units e m := by
  have hgt : (F64.fin s e m).gt (.fin false 1023 0) = decide (signed false 1023 0 < signed s e m) := rfl
  rw [ofNat_one, hgt, decide_eq_true_eq, signed, if_neg Bool.false_ne_true]
  generalize units 1023 0 = u
  cases s with
  | false => simp [signed]
  | true =>
    simp only [signed, if_true, Bool.true_eq_false, false_and, iff_false]
    omega

theorem lt_zero_iff {s : Bool} {e : Fin 2047} {m : BitVec 52} :
    (F64.fin s e m).lt zero = true ↔ s = true ∧ units e m ≠ 0 := by
  have hlt : (F64.fin s e m).lt zero = decide (signed s e m < signed false 0 0) := rfl
  rw [hlt, decide_eq_true_eq, show signed false 0 0 = 0 by decide +kernel]
  cases s <;> simp [signed, Nat.pos_iff_ne_zero]

theorem eq_inf_of_f64Le {y : F64} (h : F64Le (.inf false) y) : y = .inf false := by
  obtain ⟨-, hy, hlt⟩ := h
  cases y with
  | nan => exact absurd rfl hy
  | inf s => cases s <;> simp_all [lt]
  | fin s e m => simp [lt] at hlt

/-- A function that has the special values of a logarithm and is elsewhere close to a real function that is 0 at 1 and
grows with every step from a binary64 value to a greater one. -/
structure Approximates (f : F64 → F64) (g : Nat → ℝ) : Prop where
  specials : ∃ h, f = withSpecials h
  closeTo : ∀ e m, units e m ≠ 0 → CloseTo (f (.fin false e m)) (g (units e m))
  gap : ∀ k k', 0 < k → (2 ^ 53 + 1) * k ≤ 2 ^ 53 * k' → g k + 1 / 2 ^ 58 ≤ g k'
  one : g (2 ^ unitExp) = 0

theorem log_one_units : Real.log (((2 ^ unitExp : Nat) : ℝ) / 2 ^ unitExp) = 0 := by
  rw [Nat.cast_pow, Nat.cast_ofNat, div_self (by positivity), Real.log_one]

theorem ln_approximates : Approximates ln fun k => Real.log ((k : ℝ) / 2 ^ unitExp) where
  specials := ⟨_, rfl⟩
  closeTo := fun _ _ h => ln_closeTo h
  gap := fun _ _ hk h => by linarith [log_gap hk h]
  one := log_one_units

theorem log10_approximates : Approximates log10 fun k => Real.logb 10 ((k : ℝ) / 2 ^ unitExp) where
  specials := ⟨_, rfl⟩
  closeTo := fun _ _ h => log10_closeTo h
  gap := fun _ _ hk h => logb_gap hk h
  one := by rw [Real.logb, log_one_units, zero_div]

namespace Approximates

variable {f : F64 → F64} {g : Nat → ℝ} (hf : Approximates f g)
include hf

theorem apply_zero {s : Bool} {e : Fin 2047} {m : BitVec 52} (h : units e m = 0) : f (.fin s e m) = .inf true := by
  obtain ⟨w, rfl⟩ := hf.specials
  exact if_pos h

theorem apply_nan : f .nan = .nan := by
  obtain ⟨w, rfl⟩ := hf.specials
  rfl

theorem apply_inf (s : Bool) : f (.inf s) = if s then .nan else .inf false := by
  obtain ⟨w, rfl⟩ := hf.specials
  rfl

theorem apply_one : f (ofNat 1) = zero := by
  obtain ⟨w, rfl⟩ := hf.specials
  rw [ofNat_one, withSpecials, if_neg (by decide +kernel), if_neg Bool.false_ne_true, if_pos (by decide +kernel)]

theorem apply_negative {e : Fin 2047} {m : BitVec 52} (h : units e m ≠ 0) : f (.fin true e m) = .nan := by
  obtain ⟨w, rfl⟩ := hf.specials
  rw [withSpecials, if_neg h, if_pos rfl]

/-- The values at a smaller and a greater operand are in their order. -/
theorem rank_le_of_units_lt {e e' : Fin 2047} {m m' : BitVec 52} (h0 : units e m ≠ 0) (hlt : units e m < units e' m') :
    (f (.fin false e m)).rank ≤ (f (.fin false e' m')).rank := by
  have hgap := hf.gap _ _ (Nat.pos_of_ne_zero h0) (units_gap hlt)
  refine (hf.closeTo e m h0).rank_le (hf.closeTo e' m' (by omega)) ?_
  norm_num at *
  linarith

theorem ne_nan {y : F64} (hy : F64NonNegative y) : f y ≠ .nan := by
  rcases y with _ | s | ⟨s, e, m⟩
  · exact hy.elim
  · obtain rfl : s = false := hy
    rw [hf.apply_inf]
    nofun
  · obtain rfl : s = false := hy
    by_cases h0 : units e m = 0
    · rw [hf.apply_zero h0]
      nofun
    · exact (hf.closeTo e m h0).ne_nan

theorem f64Le_of_units_le {e e' : Fin 2047} {m m' : BitVec 52} (h0 : units e m ≠ 0) (hle : units e m ≤ units e' m') :
    F64Le (f (.fin false e m)) (f (.fin false e' m')) := by
  refine f64Le_iff_rank.mpr ⟨(hf.closeTo e m h0).ne_nan, (hf.closeTo e' m' (by omega)).ne_nan, ?_⟩
  rcases hle.eq_or_lt with heq | hlt
  · obtain ⟨rfl, rfl⟩ := code_injective (Nat.le_antisymm (units_le_units_iff.mp heq.le) (units_le_units_iff.mp heq.ge))
    exact le_rfl
  · exact hf.rank_le_of_units_lt h0 hlt

/-- Properties L3 and N3. -/
theorem nonDecreasing : NonDecreasing f := by
  intro x y hx hy hxy
  rcases x with _ | s | ⟨s, e, m⟩
  · exact hx.elim
  · obtain rfl : s = false := hx
    obtain rfl := eq_inf_of_f64Le hxy
    rw [hf.apply_inf]
    exact ⟨nofun, nofun, rfl⟩
  obtain rfl : s = false := hx
  have hny : f y ≠ .nan := hf.ne_nan hy
  by_cases h0 : units e m = 0
  · rw [hf.apply_zero h0]
    exact inf_true_f64Le hny
  rcases y with _ | t | ⟨t, e', m'⟩
  · exact hy.elim
  · obtain rfl : t = false := hy
    rw [hf.apply_inf]
    exact f64Le_inf_false (hf.closeTo e m h0).ne_nan
  · obtain rfl : t = false := hy
    obtain ⟨-, -, hle⟩ := f64Le_iff_rank.mp hxy
    exact hf.f64Le_of_units_le h0 (units_le_units_iff.mpr (Int.ofNat_le.mp hle))

/-- Property L4, and the same of N4: positive exactly above 1. -/
theorem gt_zero_iff (x : F64) : (f x).gt zero = true ↔ x.gt (ofNat 1) = true := by
  rcases x with _ | s | ⟨s, e, m⟩
  · rw [hf.apply_nan, nan_gt, nan_gt]
  · rw [hf.apply_inf, ofNat_one]
    cases s <;> simp [gt, lt, zero]
  rw [gt_one_iff]
  have hone : units 1023 0 = 2 ^ unitExp := by decide +kernel
  have hone0 : units 1023 0 ≠ 0 := by decide +kernel
  by_cases h0 : units e m = 0
  · rw [hf.apply_zero h0, h0]
    simp [gt, lt, zero]
  cases s with
  | true => simp [hf.apply_negative h0]
  | false =>
    rw [gt_iff_rank, rank_zero]
    have hne := (hf.closeTo e m h0).ne_nan
    refine ⟨fun ⟨_, _, hpos⟩ => ⟨rfl, ?_⟩, fun ⟨_, hlt⟩ => ⟨hne, nofun, ?_⟩⟩
    · by_contra! hle
      obtain ⟨-, -, hrank⟩ := f64Le_iff_rank.mp (hf.f64Le_of_units_le h0 hle)
      rw [← ofNat_one, hf.apply_one, rank_zero] at hrank
      omega
    · have hgap := hf.gap _ _ (Nat.pos_of_ne_zero hone0) (units_gap hlt)
      rw [hone, hf.one, zero_add] at hgap
      exact (hf.closeTo e m h0).rank_pos hgap

end Approximates

end Logarithm
end Sys2Proof

namespace Sys2Proof.Machine
open F64 Logarithm

/-- Settles O29: the special values by definition, and the sign as that of the real logarithm. -/
theorem logarithmSpecialValuesAndSign : Obligations.LogarithmSpecialValuesAndSign := by
  intro log hlog
  obtain ⟨g, hf⟩ : ∃ g, Approximates log g := by
    rcases hlog with rfl | rfl
    · exact ⟨_, log10_approximates⟩
    · exact ⟨_, ln_approximates⟩
  refine ⟨hf.apply_zero (by decide +kernel), hf.apply_one, hf.apply_nan, hf.apply_inf false,
    fun x hx => ?_, hf.gt_zero_iff⟩
  rcases x with _ | s | ⟨s, e, m⟩
  · exact hf.apply_nan
  · obtain rfl : s = true := hx
    exact hf.apply_inf true
  · obtain ⟨rfl, hne⟩ := lt_zero_iff.mp hx
    exact hf.apply_negative hne

/-- Settles O60: what is rounded at a smaller and a greater operand is in the order of the real logarithms. -/
theorem defaultLogarithmsNonDecreasing : Obligations.DefaultLogarithmsNonDecreasing :=
  ⟨log10_approximates.nonDecreasing, ln_approximates.nonDecreasing⟩

/-- R229: the brightness of a dB value at most 1. -/
theorem brightnessOf_notPositive {d : F64} (hd : F64NonNegative d) (hle : F64Le d (ofNat 1)) :
    (brightnessOf Config.default d).NotPositive := by
  have hone : F64NonNegative (ofNat 1) := by
    rw [ofNat_one]
    rfl
  have hln := ln_approximates.nonDecreasing d (ofNat 1) hd hone hle
  rw [ln_approximates.apply_one] at hln
  have hninety : (ln (ofNat 90)).Positive := by
    rw [ln_ninety]
    exact ⟨1025, 0x1FFCE1B312C10, by decide +kernel, by decide +kernel⟩
  exact notPositive_of_f64Le (div_positive_f64Le hninety hln) (.inr (by decide +kernel))

/-- Settles O53: the brightness is not above 0, and so no channel is. -/
theorem quietMaximumGivesBlack : Obligations.QuietMaximumGivesBlack := fun _ _ _ hd hle ho =>
  channelBytes_of_notPositive (brightnessOf_notPositive hd hle) ho

end Sys2Proof.Machine
end

section
/-! The twiddle ROM against the real cosine (40_fft.md R146): the cosine of `pi/1024` by nested square roots, its multiples
by the recurrence of Chebyshev, both in integers of so many bits that the crudest bound on the error is enough. -/

namespace Sys2Proof.Rom
open F64 Machine

/-- What stands for 1 in the integers below.  (Irreducible, so that no proof evaluates it.) -/
@[irreducible] def scale : Nat := 2 ^ 126 * 2 ^ unitExp

theorem scale_eq : scale = 2 ^ 126 * 2 ^ unitExp := by
  unfold scale
  exact Eq.refl _

theorem scale_pos : 0 < scale := by
  rw [scale_eq]
  positivity

theorem cast_scale_pos : (0 : ℝ) < scale := Nat.cast_pos.mpr scale_pos

/-! ### Nested square roots -/

/-- `sqrt (2 + sqrt (2 + ...))` with `n` roots, scaled. -/
def nestedRoot : Nat → Nat
  | 0 => 0
  | n + 1 => rootBits ((2 * scale + nestedRoot n) * scale) (126 + unitExp + 2) 0

/-- One root: from an interval of width `n` around a number up to 2 to one of width `n + 1` around the root. -/
theorem root_bounds {S s q n : ℕ} {x : ℝ} (hS : 0 < S) (hlow : (s : ℝ) ≤ S * x) (hhigh : S * x ≤ s + n)
    (hq : q * q ≤ (2 * S + s) * S) (hq' : (2 * S + s) * S < (q + 1) * (q + 1)) :
    (q : ℝ) ≤ S * √(2 + x) ∧ S * √(2 + x) ≤ q + (n + 1 : ℕ) := by
  have hS' : (0 : ℝ) < S := by exact_mod_cast hS
  have hsq : (q : ℝ) * q ≤ (2 * S + s) * S := by exact_mod_cast hq
  have hsq' : ((2 : ℝ) * S + s) * S ≤ (q + 1) * (q + 1) := by exact_mod_cast hq'.le
  have hbig : (S : ℝ) ≤ q + 1 := by
    by_contra! hlt
    nlinarith [s.cast_nonneg (α := ℝ), q.cast_nonneg (α := ℝ)]
  have hroot : (S : ℝ) * √(2 + x) = √(S * S * (2 + x)) := by
    rw [Real.sqrt_mul (by positivity), Real.sqrt_mul_self hS'.le]
  rw [hroot]
  constructor
  · exact Real.le_sqrt_of_sq_le (by nlinarith)
  · refine Real.sqrt_le_iff.mpr ⟨by positivity, ?_⟩
    push_cast
    nlinarith [n.cast_nonneg (α := ℝ), mul_nonneg (n.cast_nonneg (α := ℝ)) (n.cast_nonneg (α := ℝ))]

theorem nestedRoot_bounds (n : Nat) : (nestedRoot n : ℝ) ≤ scale * Real.sqrtTwoAddSeries 0 n ∧
    scale * Real.sqrtTwoAddSeries 0 n ≤ nestedRoot n + n := by
  induction n with
  | zero => simp [nestedRoot]
  | succ n ih =>
    obtain ⟨hlow, hhigh⟩ := ih
    have hsmall : nestedRoot n ≤ scale * 2 := by
      have h : (nestedRoot n : ℝ) ≤ scale * 2 :=
        hlow.trans (mul_le_mul_of_nonneg_left (Real.sqrtTwoAddSeries_lt_two n).le cast_scale_pos.le)
      exact_mod_cast h
    have hfit : (2 * scale + nestedRoot n) * scale <
        (0 + 2 ^ (126 + unitExp + 2)) * (0 + 2 ^ (126 + unitExp + 2)) := by
      rw [Nat.zero_add, pow_add, pow_add, ← scale_eq]
      calc (2 * scale + nestedRoot n) * scale ≤ (4 * scale) * scale := Nat.mul_le_mul_right _ (by omega)
        _ < (4 * scale) * (4 * scale) :=
          Nat.mul_lt_mul_of_pos_left (by have := scale_pos; omega) (by have := scale_pos; omega)
        _ = _ := by ring
    obtain ⟨hq, hq'⟩ := rootBits_spec (r := 0) (Nat.zero_le _) hfit
    exact root_bounds scale_pos hlow hhigh hq hq'

/-! ### The recurrence -/

/-- The angle between two entries. -/
noncomputable def angle : ℝ := Real.pi / 2 ^ 10

/-- The cosine of the angle, scaled. -/
def firstCosine : Int := (nestedRoot 9 / 2 : Nat)

theorem firstCosine_close : |(firstCosine : ℝ) - scale * Real.cos angle| ≤ 8 := by
  obtain ⟨hlow, hhigh⟩ := nestedRoot_bounds 9
  have hdiv := Logarithm.div_lt_natDiv_add_one (nestedRoot 9) 2
  have hdiv' := Nat.cast_div_le (α := ℝ) (m := nestedRoot 9) (n := 2)
  rw [angle, Real.cos_pi_over_two_pow 9, firstCosine, Int.cast_natCast, abs_le]
  push_cast at *
  constructor <;> linarith

theorem firstCosine_le : |firstCosine| ≤ scale := by decide +kernel

/-- The multiple of the angle after two that have the scaled cosines `a` and `b`. -/
def nextCosine (a b : Int) : Int := 2 * firstCosine * b / scale - a

theorem cos_succ (k : Nat) : Real.cos ((k + 2 : Nat) * angle) =
    2 * Real.cos angle * Real.cos ((k + 1 : Nat) * angle) - Real.cos (k * angle) := by
  rw [Real.two_mul_cos_mul_cos]
  push_cast
  rw [show angle - (k + 1) * angle = -(k * angle) by ring, Real.cos_neg]
  ring_nf

theorem intDiv_close (z : Int) {d : Nat} (hd : 0 < d) : |((z / d : Int) : ℝ) - z / d| ≤ 1 := by
  have hd' : (0 : ℝ) < d := by exact_mod_cast hd
  have hz : ((d : Int) * (z / d) + z % d : Int) = z := Int.mul_ediv_add_emod z d
  have hcast : (d : ℝ) * ((z / d : Int) : ℝ) + ((z % d : Int) : ℝ) = z := by exact_mod_cast hz
  have hlow : (0 : ℝ) ≤ ((z % d : Int) : ℝ) := by exact_mod_cast Int.emod_nonneg z (by omega)
  have hhigh : ((z % d : Int) : ℝ) ≤ d := by exact_mod_cast (Int.emod_lt_of_pos z (by exact_mod_cast hd)).le
  have hdiff : ((z / d : Int) : ℝ) - z / d = -(((z % d : Int) : ℝ) / d) := by
    field_simp
    linarith
  rw [hdiff, abs_neg, abs_of_nonneg (div_nonneg hlow hd'.le), div_le_one hd']
  exact hhigh

/-- The error of the recurrence grows less than fourfold in a step. -/
theorem nextCosine_close {k : Nat} {a b : Int} (ha : |(a : ℝ) - scale * Real.cos (k * angle)| ≤ 8 * 4 ^ k)
    (hb : |(b : ℝ) - scale * Real.cos ((k + 1 : Nat) * angle)| ≤ 8 * 4 ^ (k + 1)) :
    |(nextCosine a b : ℝ) - scale * Real.cos ((k + 2 : Nat) * angle)| ≤ 8 * 4 ^ (k + 2) := by
  have hS := cast_scale_pos
  have hfirst := firstCosine_close
  have hle : |(firstCosine : ℝ)| ≤ scale := by exact_mod_cast firstCosine_le
  have hcos : |Real.cos ((k + 1 : Nat) * angle)| ≤ 1 := Real.abs_cos_le_one _
  have hdiv := intDiv_close (2 * firstCosine * b) scale_pos
  have hpow : (1 : ℝ) ≤ 4 ^ k := one_le_pow₀ (by norm_num)
  rw [cos_succ, nextCosine]
  push_cast at *
  generalize Real.cos ((k + 1) * angle) = y at *
  generalize Real.cos (k * angle) = x at *
  generalize Real.cos angle = w at *
  generalize (scale : ℝ) = S at *
  generalize (firstCosine : ℝ) = c at *
  have hproduct : |2 * c * b / S - 2 * w * (S * y)| ≤ 2 * (8 * 4 ^ (k + 1)) + 16 := by
    have hsplit : 2 * c * b / S - 2 * w * (S * y) = 2 * (c / S * (b - S * y) + y * (c - S * w)) := by
      field_simp
      ring
    have hc : |c / S| ≤ 1 := by
      rw [abs_div, abs_of_pos hS, div_le_one hS]
      exact hle
    rw [hsplit, abs_mul, abs_of_pos (zero_lt_two (α := ℝ))]
    have h1 : |c / S * (b - S * y)| ≤ 8 * 4 ^ (k + 1) := by
      rw [abs_mul]
      exact (mul_le_of_le_one_left (abs_nonneg _) hc).trans hb
    have h2 : |y * (c - S * w)| ≤ 8 := by
      rw [abs_mul]
      exact (mul_le_of_le_one_left (abs_nonneg _) hcos).trans hfirst
    linarith [abs_add_le (c / S * (b - S * y)) (y * (c - S * w))]
  rw [abs_le] at *
  obtain ⟨ha1, ha2⟩ := ha
  obtain ⟨hd1, hd2⟩ := hdiv
  obtain ⟨hp1, hp2⟩ := hproduct
  rw [pow_succ] at hp1 hp2
  rw [pow_add]
  constructor <;> linarith

/-! ### The table -/

/-- The number of units of the value with the encoding `n`. -/
def unitsOf (n : Nat) : Nat := if n / 2 ^ 52 = 0 then n % 2 ^ 52 else (2 ^ 52 + n % 2 ^ 52) * 2 ^ (n / 2 ^ 52 - 1)

/-- A bound on the errors of the recurrence up to the last multiple.  (Irreducible, so that no proof evaluates it.) -/
@[irreducible] def slack : Nat := 2 ^ 1027

theorem slack_eq_pow : ∃ n, 1027 ≤ n ∧ slack = 2 ^ n := by
  refine ⟨1027, le_rfl, ?_⟩
  unfold slack
  exact Eq.refl _

theorem error_le_slack {k : Nat} (hk : k < 512) : (8 * 4 ^ k : ℝ) ≤ slack := by
  have hnat : 8 * 4 ^ k ≤ slack := by
    have hpow : 8 * 4 ^ k = 2 ^ (2 * k + 3) := by rw [pow_add, pow_mul, Nat.mul_comm]; rfl
    obtain ⟨n, hn, hslack⟩ := slack_eq_pow
    rw [hpow, hslack]
    exact Nat.pow_le_pow_right two_pos (by omega)
  exact_mod_cast hnat

/-- The entries of a list are the cosines of successive multiples, from the scaled ones `a` and `b` on, each with room for
the error. -/
def checks : List Nat → Int → Int → Bool
  | [], _, _ => true
  | n :: rest, a, b =>
    decide (2 * |(unitsOf n : Int) * 2 ^ 126 - a| + 2 * (slack : Int) ≤ 2 ^ 126 * 2 ^ (n / 2 ^ 52 - 1)) &&
      checks rest b (nextCosine a b)

theorem cosines_check : checks (cosines.take 512) scale firstCosine = true := by decide +kernel

/-- An entry with room for the error is within half a unit in its last place. -/
theorem close_of_check {n k : Nat} {a : Int} (hk : k < 512)
    (h : 2 * |(unitsOf n : Int) * 2 ^ 126 - a| + 2 * (slack : Int) ≤ 2 ^ 126 * 2 ^ (n / 2 ^ 52 - 1))
    (ha : |(a : ℝ) - scale * Real.cos (k * angle)| ≤ 8 * 4 ^ k) :
    2 * |(unitsOf n : ℝ) - 2 ^ unitExp * Real.cos (k * angle)| ≤ 2 ^ (n / 2 ^ 52 - 1) := by
  have herror := ha.trans (error_le_slack hk)
  have hscale : (scale : ℝ) = 2 ^ 126 * 2 ^ unitExp := by
    rw [scale_eq, Nat.cast_mul, Nat.cast_pow, Nat.cast_pow, Nat.cast_ofNat]
  have hreal : 2 * |(unitsOf n : ℝ) * 2 ^ 126 - a| + 2 * (slack : ℝ) ≤
      2 ^ 126 * 2 ^ (n / 2 ^ 52 - 1) := by exact_mod_cast h
  rw [hscale] at herror
  generalize (2 : ℝ) ^ unitExp = P at *
  generalize (2 : ℝ) ^ (n / 2 ^ 52 - 1) = E at *
  generalize (slack : ℝ) = B at *
  generalize Real.cos (k * angle) = y at *
  generalize (unitsOf n : ℝ) = u at *
  have htriangle := abs_add_le (u * 2 ^ 126 - a) (a - 2 ^ 126 * P * y)
  have hscaled : |u * 2 ^ 126 - a + (a - 2 ^ 126 * P * y)| = 2 ^ 126 * |u - P * y| := by
    rw [← abs_of_pos (show (0 : ℝ) < 2 ^ 126 by positivity), ← abs_mul,
      abs_of_pos (show (0 : ℝ) < 2 ^ 126 by positivity)]
    ring_nf
  rw [hscaled] at htriangle
  have hpos : (0 : ℝ) < 2 ^ 126 := by positivity
  generalize (2 : ℝ) ^ 126 = Q at *
  refine le_of_mul_le_mul_left ?_ hpos
  linarith

/-- Every entry of a list that is checked from two close multiples on is within half a unit in its last place. -/
theorem close_of_checks {l : List Nat} {k : Nat} {a b : Int} (h : checks l a b = true) (hk : k + l.length ≤ 512)
    (ha : |(a : ℝ) - scale * Real.cos (k * angle)| ≤ 8 * 4 ^ k)
    (hb : |(b : ℝ) - scale * Real.cos ((k + 1 : Nat) * angle)| ≤ 8 * 4 ^ (k + 1)) {i : Nat} (hi : i < l.length) :
    2 * |(unitsOf (l.getD i 0) : ℝ) - 2 ^ unitExp * Real.cos ((k + i : Nat) * angle)| ≤
      2 ^ (l.getD i 0 / 2 ^ 52 - 1) := by
  induction l generalizing k a b i with
  | nil => cases hi
  | cons n rest ih =>
    rw [checks, Bool.and_eq_true, decide_eq_true_eq] at h
    obtain ⟨hhead, htail⟩ := h
    rw [List.length_cons] at hk hi
    cases i with
    | zero => exact close_of_check (by omega) hhead ha
    | succ i =>
      have hrest := ih (k := k + 1) (i := i) htail (by omega) hb (nextCosine_close ha hb) (by omega)
      rwa [show k + 1 + i = k + (i + 1) by omega] at hrest

/-- The value is within half a unit in its last place of the real number. -/
def Rounded (x : F64) (y : ℝ) : Prop :=
  ∃ s e f, x = .fin s e f ∧ 2 * |(signed s e f : ℝ) - 2 ^ unitExp * y| ≤ 2 ^ (e.val - 1)

theorem Rounded.neg {x : F64} {y : ℝ} (h : Rounded x y) : Rounded x.neg (-y) := by
  obtain ⟨s, e, f, rfl, hle⟩ := h
  refine ⟨!s, e, f, rfl, ?_⟩
  have hneg : signed (!s) e f = -signed s e f := by cases s <;> simp [signed]
  rw [hneg, Int.cast_neg, mul_neg, ← neg_add', abs_neg, ← sub_eq_add_neg]
  exact hle

theorem rounded_zero : Rounded zero 0 := ⟨false, 0, 0, rfl, by
  rw [show signed false 0 0 = 0 by decide +kernel]
  norm_num⟩

theorem units_ofNat (n : Nat) (h : n / 2 ^ 52 < 2047) : units ⟨n / 2 ^ 52, h⟩ (BitVec.ofNat 52 n) = unitsOf n := by
  rw [units, unitsOf, BitVec.toNat_ofNat]

theorem cosine_code_le (k : Nat) : cosines.getD k 0 ≤ 1023 * 2 ^ 52 := by
  rw [List.getD_eq_getElem?_getD]
  cases hk : cosines[k]? with
  | none => exact Nat.zero_le _
  | some n => exact cosines_le_one n (List.mem_of_getElem? hk)

/-- The first quarter of the wave. -/
theorem cosine_rounded {k : Nat} (hk : k ≤ 512) : Rounded (cosine k) (Real.cos (k * angle)) := by
  rcases hk.eq_or_lt with rfl | hlt
  · have hquarter : ((512 : Nat) : ℝ) * angle = Real.pi / 2 := by
      rw [angle]
      push_cast
      ring
    have hzero : cosine 512 = zero := by decide +kernel
    rw [hquarter, Real.cos_pi_div_two, hzero]
    exact rounded_zero
  · have hlength : (cosines.take 512).length = 512 := by decide +kernel
    have hclose := close_of_checks (k := 0) cosines_check (by rw [hlength]) (by simp)
      (by simpa using firstCosine_close.trans (by norm_num)) (i := k) (by rwa [hlength])
    have hentry : (cosines.take 512).getD k 0 = cosines.getD k 0 := by
      rw [List.getD_eq_getElem?_getD, List.getElem?_take_of_lt hlt, List.getD_eq_getElem?_getD]
    rw [hentry, Nat.zero_add] at hclose
    have hle := cosine_code_le k
    rw [cosine]
    generalize cosines.getD k 0 = n at *
    have hn : n / 2 ^ 52 < 2047 := by omega
    refine ⟨_, _, _, by rw [ofBits_ofNat (by omega), pack, dif_pos hn], ?_⟩
    rw [signed, if_neg Bool.false_ne_true, units_ofNat]
    exact hclose

theorem angle_mul (k : Nat) : 2 * Real.pi * k / 2048 = k * angle := by
  rw [angle]
  ring

/-- R146: the cosine, by the symmetry of the second quarter. -/
theorem twiddleRe_rounded {k : Nat} (hk : k < 1024) : Rounded (twiddleRe k) (Real.cos (k * angle)) := by
  unfold twiddleRe
  split
  · exact cosine_rounded ‹_›
  · have hmirror : (k : ℝ) * angle = Real.pi - (1024 - k : Nat) * angle := by
      rw [Nat.cast_sub hk.le, angle]
      push_cast
      ring
    rw [hmirror, Real.cos_pi_sub]
    exact (cosine_rounded (by omega)).neg

/-- R146: minus the sine, a quarter of the wave away. -/
theorem twiddleIm_rounded {k : Nat} (hk : k < 1024) : Rounded (twiddleIm k) (-Real.sin (k * angle)) := by
  unfold twiddleIm
  split
  · rename_i h0
    rw [h0, Nat.cast_zero, zero_mul, Real.sin_zero, neg_zero]
    exact rounded_zero
  · split
    · rename_i hle
      have hquarter : (k : ℝ) * angle = Real.pi / 2 - (512 - k : Nat) * angle := by
        rw [Nat.cast_sub hle, angle]
        push_cast
        ring
      rw [hquarter, Real.sin_pi_div_two_sub]
      exact (cosine_rounded (by omega)).neg
    · rename_i hgt
      have hquarter : (k : ℝ) * angle = (k - 512 : Nat) * angle + Real.pi / 2 := by
        rw [Nat.cast_sub (by omega), angle]
        push_cast
        ring
      rw [hquarter, Real.sin_add_pi_div_two]
      exact (cosine_rounded (by omega)).neg

end Sys2Proof.Rom

namespace Sys2Proof.Machine

/-- Settles O35: the quarter wave is checked entry by entry, and the rest has its symmetries. -/
theorem twiddleRomIsRounded : Obligations.TwiddleRomIsRounded := by
  intro k hk
  obtain ⟨s, e, f, hre, hcos⟩ := Rom.twiddleRe_rounded hk
  obtain ⟨s', e', f', him, hsin⟩ := Rom.twiddleIm_rounded hk
  rw [Rom.angle_mul]
  exact ⟨s, e, f, s', e', f', by rw [Rom.twiddle, hre, him], hcos, hsin⟩

end Sys2Proof.Machine
end
